-- ==== Sys2Proof/Word.lean ====
section
/-! DEFINITION. The bit widths the manual gives its numbers (00_scope.md, "Keys and values"; 10_formats.md, R164). -/

namespace Sys2Proof

/-- One byte of a frame, a FIFO entry, a translation or a code. -/
abbrev Byte := BitVec 8

/-- A record key, 0 to 4,294,967,295. -/
abbrev Key := BitVec 32

/-- A value, a signed 48-bit number. -/
abbrev Value := BitVec 48

/-- A tally group number, 0 to 65,535. -/
abbrev Group := BitVec 16

/-- The millisecond time stamp (R146). -/
abbrev Stamp := BitVec 32

end Sys2Proof
end

