-- ==== Sys2Proof/Syntax.lean ====
section
/-! DEFINITION. The commands of the part: one constructor per row of spec/opcode_table.json. The operands of a request
are the tag and the fields of its layout (10_formats.md, section 10.5) as the frame carries them, out-of-range values
included; the operands of an event say what of the outside world it brings. -/

namespace Sys2Proof

/-- The twelve bytes of a plan step in a frame (10_formats.md, section 10.6.2). -/
structure RawStep where
  kind : Byte
  b1 : Byte
  b2 : Byte
  b3 : Byte
  b4 : Byte
  b5 : Byte
  b6 : Byte
  b7 : Byte
  b8 : Byte
  b9 : Byte
  b10 : Byte
  b11 : Byte
  deriving DecidableEq, Repr

/-- The fourteen bytes of a window in a frame (10_formats.md, section 10.6.3); `p12` and `p13` hold the parameters. -/
structure RawWindow where
  index : Byte
  valid : Byte
  level : Byte
  kind : Byte
  base : BitVec 32
  limit : BitVec 32
  p12 : Byte
  p13 : Byte
  deriving DecidableEq, Repr

/-- The lane settings as SET-LANE carries them, bytes 1 to 10 (10_formats.md, section 10.6.7). -/
structure RawSettings where
  enabled : Byte
  source : Byte
  rate : Byte
  parity : Byte
  table : Byte
  plan : Byte
  idle : Byte
  limit : BitVec 16
  faultNotices : Byte
  deriving DecidableEq, Repr

/-- The contents of a stored group record (R93, R122): the count in 55 bits, the sum signed in 56, minimum and
maximum signed in 48 (they are present when the count is not 0), and the three flags. -/
structure RecordContents where
  count : BitVec 55
  sum : BitVec 56
  minimum : Value
  maximum : Value
  sumOverflowed : Bool
  readoutLimited : Bool
  poisoned : Bool
  deriving DecidableEq, Repr

/-- One entry of a code table as LOAD-TABLE carries it: translation and class code (10_formats.md, section 10.6.1). -/
structure RawTableEntry where
  translation : Byte
  classCode : Byte
  deriving DecidableEq, Repr

/-- The commands. The row of the table is named in each docstring. -/
inductive Instr where
  /-- IDENTIFY (R144). -/
  | identify (tag : Byte)
  /-- STATUS (R143). -/
  | status (tag : Byte)
  /-- START (R138). -/
  | start (tag : Byte)
  /-- HALT (R140). -/
  | halt (tag : Byte)
  /-- RESET (R145). -/
  | reset (tag : Byte)
  /-- FETCH_NOTICES (R149). -/
  | fetchNotices (tag maximum : Byte)
  /-- SET_LANE (R11, R12). -/
  | setLane (tag lane : Byte) (settings : RawSettings)
  /-- READ_LANE (R13). -/
  | readLane (tag lane : Byte)
  /-- FEED (R14, R15). -/
  | feed (tag lane : Byte) (data : List Byte)
  /-- FLUSH_LANE (R16). -/
  | flushLane (tag lane : Byte)
  /-- FLUSH_TAKEN (R17): a waiting flush is taken. -/
  | flushTaken
  /-- LOAD_TABLE (R24 to R30). -/
  | loadTable (tag table first : Byte) (entries : List RawTableEntry)
  /-- READ_TABLE (R31, R32). -/
  | readTable (tag table first count : Byte)
  /-- LOAD_PLAN (R47 to R52). -/
  | loadPlan (tag plan startRequired tailPolicy : Byte) (steps : List RawStep)
  /-- READ_PLAN (R53). -/
  | readPlan (tag plan : Byte)
  /-- SET_WINDOW (R85 to R87). -/
  | setWindow (tag : Byte) (window : RawWindow)
  /-- CLEAR_WINDOW (R88). -/
  | clearWindow (tag index : Byte)
  /-- READ_WINDOW (R89). -/
  | readWindow (tag index : Byte)
  /-- LOOKUP (R90). -/
  | lookup (tag : Byte) (key : Key)
  /-- CONFIGURE_STORE (R131, R132). -/
  | configureStore (tag sumMode rowPolicy : Byte)
  /-- CLEAR_STORE (R133). -/
  | clearStore (tag : Byte)
  /-- READ_TALLY (R101). -/
  | readTally (tag : Byte) (first : Group) (count width shift clearAfter : Byte)
  /-- CLEAR_TALLY (R107). -/
  | clearTally (tag : Byte) (first : Group) (count : Byte)
  /-- CLEAR_FLAGS (R109). -/
  | clearFlags (tag : Byte) (group : Group)
  /-- LINK_BYTE_RECEIVED (R152, R154 to R160): a character completes on LRX with eight data bits, a stop bit at space
  level (`framingError`) or not, and the line still at space level after it (`staysSpace`) or not. -/
  | linkByteReceived (value : Byte) (framingError staysSpace : Bool)
  /-- FRAME_TIMEOUT (R155). -/
  | frameTimeout
  /-- DISCARD_TIMEOUT (R160). -/
  | discardTimeout
  /-- REPLY_SENT (R159). -/
  | replySent
  /-- POWER_ON_RESET (R145): power-up, or the RESET pin goes low. -/
  | powerOnReset
  /-- POWER_ON_RESET_END (R163): the reset ends with the SPD strap high (`spdHigh`) or low. -/
  | powerOnResetEnd (spdHigh : Bool)
  /-- LINK_STARTUP_WAIT_END (R163). -/
  | linkStartupWaitEnd
  /-- TIME_STAMP_TICK (R146). -/
  | timeStampTick
  /-- PIN_CHARACTER_RECEIVED (R4): a character completes on a field line: its eight data bits, its parity bit (of no
  account with parity none), its stop bit at mark level or not, and the line still at space level after it or not. -/
  | pinCharacterReceived (lane : Fin 4) (value : Byte) (parityBit stopMark staysSpace : Bool)
  /-- RECEIVER_REST_END (R5). -/
  | receiverRestEnd (lane : Fin 4)
  /-- IDLE_TIMER_EXPIRY (R9). -/
  | idleTimerExpiry (lane : Fin 4)
  /-- ARBITER_GRANT (R56). -/
  | arbiterGrant
  /-- SCAN_ENTRY (R57). -/
  | scanEntry
  /-- UNIT_ADMITTED (R77, R78). -/
  | unitAdmitted
  /-- ACTIVATION_COMPLETE (R117). -/
  | activationComplete (bank : Fin 8)
  /-- PRECHARGE_COMPLETE (R117). -/
  | prechargeComplete (bank : Fin 8)
  /-- RECORD_OPERATION_COMPLETE (R121). -/
  | recordOperationComplete (bank : Fin 8)
  /-- RECORD_DAMAGE (R122): the record of `group` comes to hold `contents`, and its stored check code comes to differ
  from the code of those contents by `difference` (exclusive or). -/
  | recordDamage (group : Group) (contents : RecordContents) (difference : BitVec 16)
  /-- REFRESH_DUE (R128). -/
  | refreshDue
  /-- REFRESH_COMPLETE (R129). -/
  | refreshComplete
  /-- ROW_WRITE_COMPLETE (R134). -/
  | rowWriteComplete (bank : Fin 8)
  /-- START_BIT (R4). -/
  | startBit (lane : Fin 4)
  /-- LINK_BREAK_END (R152). -/
  | linkBreakEnd
  deriving DecidableEq, Repr

end Sys2Proof
end

