-- ==== Sys2Proof/Decode.lean ====
section
/-! DEFINITION. The commands a word of the table's bits spells: none, since spec/opcode_table.json gives no row bits.
Requests reach the part as frames, which Machine/Link.lean takes in. -/

namespace Sys2Proof

/-- No row of the table gives bits, so no word spells a command. -/
def decodeTableWord (_nbits _w : Nat) : Option Instr := none

end Sys2Proof
end

