-- ==== Sys2Proof/Config.lean ====
section
/-! DEFINITION. What the manual leaves open and the part fixes: free values, without a body. -/

namespace Sys2Proof

/-- The bits of a group record after a power-on reset (R135: "the contents and check codes of all records are
unknown"): free value, by the count of power-on resets so far and the group. 210 bits of contents and 16 of check
code. Log entry 9. -/
opaque Config.powerOnRecordBits : Nat → Nat → BitVec 226

/-- How the store controller works out a record's check code from its contents (R122 does not say): free function
of the 210 bits of the contents. Log entry 10. -/
opaque Config.checkCode : BitVec 210 → BitVec 16

end Sys2Proof
end

