-- ==== Sys2Proof/Machine/State.lean ====
section
/-! DEFINITION. The state of the part: every piece of state the manual names, as plain data, and State.reset. -/

namespace Sys2Proof.Machine

/-! ### Lanes (chapter 1) -/

/-- Where a lane takes its bytes from (R1). -/
inductive Source where
  | pin
  | link
  deriving DecidableEq, Repr

/-- The eight line rates, in baud (R1). -/
inductive LineRate where
  | b1200
  | b2400
  | b4800
  | b9600
  | b19200
  | b38400
  | b57600
  | b115200
  deriving DecidableEq, Repr

/-- The parity setting (R1). -/
inductive Parity where
  | none
  | even
  | odd
  deriving DecidableEq, Repr

/-- The settings of a lane (R1); the character format is fixed. -/
structure Settings where
  enabled : Bool
  source : Source
  rate : LineRate
  parity : Parity
  table : Fin 8
  plan : Fin 8
  idle : Byte
  limit : BitVec 16
  faultNotices : Bool
  deriving DecidableEq, Repr

/-- An entry of a lane FIFO (R2). -/
inductive FifoEntry where
  | byte (value : Byte) (lineError gapBefore : Bool)
  | idleEnd (gapBefore : Bool)
  deriving DecidableEq, Repr

/-- The line state of a lane's pin receiver (section 1.1). -/
inductive RxState where
  | off
  | waitingForRest
  | ready
  | inCharacter
  deriving DecidableEq, Repr

/-! ### Scan contexts (chapter 4) -/

/-- The state of a scan context (R59). -/
inductive CtxState where
  | await
  | inRecord
  | resync
  deriving DecidableEq, Repr

/-- An entry of the repetition stack (R59): the group's first step, the remaining count (0: until the record ends) and
the completed repetitions index. -/
structure RepEntry where
  first : Nat
  remaining : Nat
  completed : Nat
  deriving DecidableEq, Repr

/-- A pending entry of a record (R59, R70). -/
inductive Pending where
  | post (group : Group) (value : Value)
  | unrouted (value : Value)
  deriving DecidableEq, Repr

/-- A scan context (R59). The innermost entry of `stack` is its head (log entry 23); the other lists are in order of
arrival or creation. -/
structure Context where
  state : CtxState
  cursor : Nat
  stack : List RepEntry
  field : List Byte
  length : Nat
  key : Option Key
  slots : Vector (Option Value) 4
  complete : Bool
  boundary : Bool
  posts : List Pending
  deriving DecidableEq, Repr

/-- One lane (section 1.1). `timer` is the idle timer: disarmed, or armed with the time of the last byte taken. -/
structure Lane where
  settings : Settings
  fifo : List FifoEntry
  gapPending : Bool
  markerLast : Bool
  timer : Option Stamp
  rx : RxState
  ctx : Context
  deriving DecidableEq, Repr

/-! ### Code tables, parse plans, route map (chapters 2, 3, 5) -/

/-- The classes of a byte (R19). -/
inductive ByteClass where
  | data
  | skip
  | sep
  | fin
  | start
  | fault
  deriving DecidableEq, Repr

/-- An entry of a code table (R19). -/
structure TableEntry where
  translation : Byte
  cls : ByteClass
  deriving DecidableEq, Repr

/-- The conversions (R36). -/
inductive Conversion where
  | decimal
  | hex
  | raw
  deriving DecidableEq, Repr

/-- What a missed MATCH does (R36). -/
inductive OnMiss where
  | fault
  | leave
  deriving DecidableEq, Repr

/-- The steps of a plan with their parameters (R36). -/
inductive PlanStep where
  | key (conversion : Conversion)
  | value (conversion : Conversion) (slot : Fin 4) (fraction : Nat)
  | skipField
  | matchLiteral (literal : List Byte) (onMiss : OnMiss)
  | repeatGroup (count : Byte)
  | again
  | post (slot : Fin 4) (offset : Fin 8) (addIndex rejectUnrouted : Bool)
  | finish
  deriving DecidableEq, Repr

/-- The tail policy of a plan (R35). -/
inductive TailPolicy where
  | ignore
  | strict
  deriving DecidableEq, Repr

/-- A present parse plan (R33). -/
structure Plan where
  startRequired : Bool
  tailPolicy : TailPolicy
  steps : List PlanStep
  deriving DecidableEq, Repr

/-- The kind of a window with its parameters (R80). -/
inductive WindowKind where
  | single (group : Group)
  | spread (first : Group)
  | descend (target : Fin 4) (rebase : Bool)
  deriving DecidableEq, Repr

/-- A valid window of the route map (R80). -/
structure Window where
  level : Fin 4
  base : Key
  limit : Key
  kind : WindowKind
  deriving DecidableEq, Repr

/-! ### Scan engine (chapter 4) -/

/-- The eleven outcomes of a record (R72). -/
inductive RecordOutcome where
  | accepted
  | short
  | mismatch
  | convert
  | byteFault
  | gap
  | overlong
  | truncated
  | broken
  | postLimit
  | unrouted
  deriving DecidableEq, Repr

/-- A unit formed when a record ends (R72): the posts of an ACCEPTED record (none for any other outcome), and what the
outcome entry carries. -/
structure FinishedUnit where
  outcome : RecordOutcome
  length : Nat
  posts : List Pending
  deriving DecidableEq, Repr

/-- The state of the scan engine (R55); RELEASING holds the units not yet admitted, the earlier first (R75). -/
inductive ScanState where
  | free
  | scanning (lane : Fin 4)
  | releasing (lane : Fin 4) (units : List FinishedUnit)
  deriving DecidableEq, Repr

/-! ### Tally store (chapters 6 and 7) -/

/-- The store states (R113). -/
inductive StoreState where
  | uninitialised
  | clearing
  | ready
  | catchUp
  deriving DecidableEq, Repr

/-- What becomes of a sum that overflows (R96, R112). -/
inductive SumMode where
  | saturate
  | wrap
  deriving DecidableEq, Repr

/-- What a bank does with its row when an operation completes (R112, R121). -/
inductive RowPolicy where
  | keepOpen
  | closeAfter
  deriving DecidableEq, Repr

/-- A stored group record (R93, R122). `difference` is the stored check code, exclusive or the code worked out from the
contents: 0 exactly when the two agree (log entry 10). -/
structure StoredRecord where
  contents : RecordContents
  difference : BitVec 16
  deriving DecidableEq, Repr

/-- The width of a READ (R101). -/
inductive ReadWidth where
  | w32
  | w48
  deriving DecidableEq, Repr

/-- The kind of a tally queue entry with its parameters (R114). -/
inductive EntryKind where
  | post (value : Value)
  | read (width : ReadWidth) (shift : Nat) (clearAfter : Bool)
  | clear
  | clearFlags
  deriving DecidableEq, Repr

/-- Where a tally queue entry comes from (R114). -/
inductive Origin where
  | engine
  | link
  deriving DecidableEq, Repr

/-- A tally queue entry (R114). -/
structure QueueEntry where
  group : Group
  kind : EntryKind
  origin : Origin
  deriving DecidableEq, Repr

/-- What a bank's sequence is for: its head in the tally queue, or the row write of a clear (R117, R134). -/
inductive Work where
  | head
  | clearRow
  deriving DecidableEq, Repr

/-- What is in flight in a WORKING bank: a record operation with all it took when it began (entry, sum mode, record as
read: R120), or a row write of a clear. `runOn` marks an operation that a soft reset let run on (R136, log entry 12). -/
inductive BankOp where
  | record (entry : QueueEntry) (mode : SumMode) (asRead : StoredRecord) (runOn : Bool)
  | rowWrite (runOn : Bool)
  deriving DecidableEq, Repr

/-- The state of a bank (R117), with the work it is opening or closing a row for, if any. -/
inductive Bank where
  | closed
  | opening (row : Fin 1024) (work : Option Work)
  | opened (row : Fin 1024)
  | working (row : Fin 1024) (op : BankOp)
  | closing (work : Option Work)
  deriving DecidableEq, Repr

/-- The refresh under way (R129). -/
inductive RefreshPhase where
  | none
  | preparing
  | running
  deriving DecidableEq, Repr

/-- The tally store, its queue and its controller (chapter 7). The records are held as `cells` over what an unlisted
group reads as: empty in the rows written by a clear since power-on (the first `clean` row writes in the order of R134),
the unknown power-on contents elsewhere (log entries 9, 23). -/
structure Store where
  state : StoreState
  sumMode : SumMode
  rowPolicy : RowPolicy
  queue : List QueueEntry
  banks : Vector Bank 8
  debt : Nat
  refresh : RefreshPhase
  catchingUp : Bool
  rowsDone : Nat
  cells : List (Nat × StoredRecord)
  clean : Nat
  epoch : Nat
  deriving DecidableEq, Repr

/-- The figures a READ delivers for one group (R104); for a POISONED group the figures of R125. -/
structure Readout where
  group : Group
  poisoned : Bool
  count : Nat
  sum : Int
  sumLimited : Bool
  minimum : Option Int
  minimumLimited : Bool
  maximum : Option Int
  maximumLimited : Bool
  sumWide : Bool
  sumOverflowed : Bool
  readoutLimited : Bool
  deriving DecidableEq, Repr

/-! ### Engine control and notices (chapter 8) -/

/-- The engine states (R137). -/
inductive EngineState where
  | stopped
  | running
  | halting
  deriving DecidableEq, Repr

/-- The kinds of notice with their further fields (R147). -/
inductive NoticeKind where
  | laneGap (lane : Fin 4)
  | recordFault (lane : Fin 4) (outcome : RecordOutcome) (length : Nat)
  | storePoison (group : Group)
  | clearDone
  | haltDone
  deriving DecidableEq, Repr

/-- A notice (R147). -/
structure Notice where
  kind : NoticeKind
  stamp : Stamp
  deriving DecidableEq, Repr

/-! ### Control link (chapter 9) -/

/-- The 23 requests (section 10.3). -/
inductive RequestCode where
  | identify
  | status
  | start
  | halt
  | reset
  | fetchNotices
  | setLane
  | readLane
  | feed
  | flushLane
  | loadTable
  | readTable
  | loadPlan
  | readPlan
  | setWindow
  | clearWindow
  | readWindow
  | lookup
  | configureStore
  | clearStore
  | readTally
  | clearTally
  | clearFlags
  deriving DecidableEq, Repr

/-- The status codes of replies (section 10.3). -/
inductive Status where
  | ok
  | accepted
  | frameError
  | lengthError
  | unknownRequest
  | badArgument
  | inUse
  | wrongState
  | wrongSource
  | laneOff
  | fifoFull
  | planInvalid
  | overlap
  | queueFull
  | storeBusy
  | storeNotReady
  | configIncomplete
  deriving DecidableEq, Repr

/-- A request as the link holds it (R153). -/
structure Request where
  code : RequestCode
  tag : Byte
  payload : List Byte
  deriving DecidableEq, Repr

/-- What a held request waits for: its owner to act on it, its tally queue entries to complete (how many are left, and
the readouts handed over so far), or its flush to be taken (R158). -/
inductive HeldFor where
  | owner
  | tally (left : Nat) (readouts : List Readout)
  | flush (lane : Fin 4)
  deriving DecidableEq, Repr

/-- A reply as formed (R159). `thenReset` marks the RESET reply, whose last byte brings the soft reset (R145). -/
structure Reply where
  status : Status
  tag : Byte
  discarded : Bool
  noticesWaiting : Bool
  payload : List Byte
  thenReset : Bool
  deriving DecidableEq, Repr

/-- The four states of the control link (R153). RECEIVING holds the length byte once received and the bytes after it. -/
inductive LinkState where
  | idle
  | receiving (length : Option Byte) (rest : List Byte)
  | held (request : Request) (waitsFor : HeldFor)
  | replying (reply : Reply)
  deriving DecidableEq, Repr

/-- The frame discarder (R153, R160): discarding with the length byte yet to come (`none`) or a count of bytes still
expected. -/
inductive Discarder where
  | waiting
  | discarding (expected : Option Nat)
  deriving DecidableEq, Repr

/-- The rates of the control link (R152). -/
inductive LinkRate where
  | b115200
  | b921600
  deriving DecidableEq, Repr

/-- The control link (R152, R153, R163). -/
structure Link where
  state : LinkState
  startupWait : Bool
  discarder : Discarder
  discarded : Bool
  lastByteAt : Stamp
  inBreak : Bool
  rate : LinkRate
  deriving DecidableEq, Repr

/-! ### The part -/

/-- The state of the part, and the queue of the commands that are waiting. -/
structure State where
  pending : List Instr
  porHeld : Bool
  timeStamp : Stamp
  lanes : Vector Lane 4
  tables : Vector (List (Nat × TableEntry)) 8
  plans : Vector (Option Plan) 8
  windows : Vector (Option Window) 128
  scan : ScanState
  lastGranted : Fin 4
  taken : Nat
  store : Store
  engine : EngineState
  notices : List Notice
  overflow : Bool
  link : Link
  deriving DecidableEq, Repr

/-- The one fault of the model. -/
inductive Fault where
  /-- Raised by SCAN_ENTRY when the granted lane's plan is absent: the manual gives no reading without a plan, and
  START lets no enabled lane name an absent plan (R138), so no run reaches it. Safe. Log entry 22. -/
  | scanWithoutPlan
  deriving DecidableEq, Repr

/-- The refusals of the model. -/
inductive Refusal where
  /-- A command without a meaning in this model; raised by the dispatcher alone. No arm uses it. Safe. -/
  | notModelled (mnemonic : String)
  deriving DecidableEq, Repr

/-- The answer of a step. -/
abbrev Answer := Host.Outcome State Fault Refusal

/-! ### Reset -/

/-- A context in AWAIT with its contents cleared (R79). -/
def Context.cleared : Context where
  state := .await
  cursor := 0
  stack := []
  field := []
  length := 0
  key := none
  slots := #v[none, none, none, none]
  complete := false
  boundary := false
  posts := []

/-- The settings of lane `n` at power-on (R1). -/
def Settings.powerOn (n : Fin 4) : Settings where
  enabled := false
  source := .pin
  rate := .b9600
  parity := .none
  table := n.castLE (by decide)
  plan := n.castLE (by decide)
  idle := 0
  limit := 256
  faultNotices := false

/-- Lane `n` after a power-on reset (R18). -/
def Lane.powerOn (n : Fin 4) : Lane where
  settings := Settings.powerOn n
  fifo := []
  gapPending := false
  markerLast := false
  timer := none
  rx := .off
  ctx := Context.cleared

/-- The tally store after the `epoch`-th power-on reset (R135). `rowsDone` is a DESIGN CHOICE, log entry 34. -/
def Store.powerOn (epoch : Nat) : Store where
  state := .uninitialised
  sumMode := .saturate
  rowPolicy := .keepOpen
  queue := []
  banks := #v[.closed, .closed, .closed, .closed, .closed, .closed, .closed, .closed]
  debt := 0
  refresh := .none
  catchingUp := false
  rowsDone := 0
  cells := []
  clean := 0
  epoch := epoch

/-- The control link while a power-on reset is in force (R163). `lastByteAt`, `inBreak` and `rate` are DESIGN CHOICEs,
log entries 7 and 8. R163 gives the link's state, the discarder and the discarded flag only from the end of the start-up
wait on: that they stand at IDLE, waiting and no before it too is a DESIGN CHOICE, log entry 37. -/
def Link.powerOn : Link where
  state := .idle
  startupWait := false
  discarder := .waiting
  discarded := false
  lastByteAt := 0
  inBreak := false
  rate := .b115200

/-- The part while the `epoch`-th power-on reset is in force: R18, R23, R54, R79, R91, R135, R137, R146, R151, R163. -/
def State.powerOn (epoch : Nat) : State where
  pending := []
  porHeld := true
  timeStamp := 0
  lanes := #v[Lane.powerOn 0, Lane.powerOn 1, Lane.powerOn 2, Lane.powerOn 3]
  tables := Vector.replicate 8 []
  plans := Vector.replicate 8 none
  windows := Vector.replicate 128 none
  scan := .free
  lastGranted := 3
  taken := 0
  store := Store.powerOn epoch
  engine := .stopped
  notices := []
  overflow := false
  link := Link.powerOn

/-- The machine right after reset: a power-on reset is in force, and no command waits (log entry 6). -/
def State.reset : State := State.powerOn 0

end Sys2Proof.Machine
end

