-- ==== Sys2Proof/Machine/Flags.lean ====
section
/-! DEFINITION. The arithmetic of a group record and its flags: applying a post (R95 to R98), converting figures for a
readout with the limited, wide and sticky flags (R100, R103, R104), poisoning (R123), and the condition a record
operation finds (R122). -/

namespace Sys2Proof

open Machine

/-- The contents of an empty record (R93). Minimum and maximum are absent, since the count is 0; their bits are written
as 0 (log entry 24). -/
def RecordContents.empty : RecordContents where
  count := 0
  sum := 0
  minimum := 0
  maximum := 0
  sumOverflowed := false
  readoutLimited := false
  poisoned := false

/-- A record written with these contents and a fresh check code (R122). -/
def Machine.StoredRecord.fresh (c : RecordContents) : StoredRecord where
  contents := c
  difference := 0

/-- An empty, healthy record. -/
def Machine.StoredRecord.empty : StoredRecord := StoredRecord.fresh RecordContents.empty

/-- The minimum: absent when the count is 0 (R122). -/
def RecordContents.minimum? (c : RecordContents) : Option Int :=
  if c.count = 0 then none else some c.minimum.toInt

/-- The maximum: absent when the count is 0 (R122). -/
def RecordContents.maximum? (c : RecordContents) : Option Int :=
  if c.count = 0 then none else some c.maximum.toInt

/-- The three conditions of a record (R122). -/
inductive Machine.Condition where
  | healthy
  | alreadyPoisoned
  | checkMismatch
  deriving DecidableEq, Repr

/-- The condition of a record as read (R122): the codes agree exactly when their difference is 0. -/
def Machine.StoredRecord.condition (r : StoredRecord) : Condition :=
  if r.difference ≠ 0 then .checkMismatch
  else if r.contents.poisoned then .alreadyPoisoned
  else .healthy

/-- The exact sum does not fit the range of R96. -/
def Machine.sumOverflows (exact : Int) : Bool := decide (exact > 2 ^ 55 - 1 ∨ exact < -2 ^ 55)

/-- The new sum, from the exact one (R96). -/
def Machine.newSum (mode : SumMode) (exact : Int) : Int :=
  if exact > 2 ^ 55 - 1 then
    match mode with
    | .saturate => 2 ^ 55 - 1
    | .wrap => exact - 2 ^ 56
  else if exact < -2 ^ 55 then
    match mode with
    | .saturate => -2 ^ 55
    | .wrap => exact + 2 ^ 56
  else exact

/-- A post of `v` applied to a record (R95 to R98). -/
def RecordContents.post (mode : SumMode) (v : Value) (c : RecordContents) : RecordContents :=
  let exact := c.sum.toInt + v.toInt
  let full := decide (c.count.toNat = 2 ^ 55 - 1)
  { c with
    count := if full then c.count else c.count + 1
    sum := BitVec.ofInt 56 (newSum mode exact)
    minimum := if c.count = 0 then v else if v.toInt < c.minimum.toInt then v else c.minimum
    maximum := if c.count = 0 then v else if c.maximum.toInt < v.toInt then v else c.maximum
    sumOverflowed := c.sumOverflowed || full || sumOverflows exact }

/-- The greatest number a read width delivers (R103). -/
def Machine.ReadWidth.top : ReadWidth → Int
  | .w32 => 2 ^ 31 - 1
  | .w48 => 2 ^ 47 - 1

/-- The least number a read width delivers (R103). -/
def Machine.ReadWidth.bottom : ReadWidth → Int
  | .w32 => -2 ^ 31
  | .w48 => -2 ^ 47

/-- Stage 1 of a conversion (R103): divide by 2^k, rounding to the nearest whole number, a half toward plus infinity. -/
def Machine.shifted (k : Nat) (x : Int) : Int := if k = 0 then x else (x + 2 ^ (k - 1)) / 2 ^ k

/-- Stage 2 of a conversion (R103): the figure delivered, and whether it is marked limited. -/
def Machine.limited (w : ReadWidth) (x : Int) : Int × Bool :=
  if x > w.top then (w.top, true) else if x < w.bottom then (w.bottom, true) else (x, false)

/-- A figure converted for delivery (R103). -/
def Machine.convertFigure (w : ReadWidth) (k : Nat) (x : Int) : Int × Bool := limited w (shifted k x)

/-- An absent figure is delivered absent and never limited (R103). -/
def Machine.convertFigure? (w : ReadWidth) (k : Nat) (x : Option Int) : Option Int × Bool :=
  match x with
  | none => (none, false)
  | some x => (some (convertFigure w k x).1, (convertFigure w k x).2)

/-- Some figure of a READ is limited, so the READ sets readout-limited (R103). -/
def RecordContents.limits (c : RecordContents) (w : ReadWidth) (k : Nat) : Bool :=
  (convertFigure w k c.sum.toInt).2 || (convertFigure? w k c.minimum?).2 || (convertFigure? w k c.maximum?).2

/-- The figures a READ delivers for a healthy record (R104). -/
def RecordContents.readout (c : RecordContents) (group : Group) (w : ReadWidth) (k : Nat) : Readout where
  group := group
  poisoned := false
  count := c.count.toNat
  sum := (convertFigure w k c.sum.toInt).1
  sumLimited := (convertFigure w k c.sum.toInt).2
  minimum := (convertFigure? w k c.minimum?).1
  minimumLimited := (convertFigure? w k c.minimum?).2
  maximum := (convertFigure? w k c.maximum?).1
  maximumLimited := (convertFigure? w k c.maximum?).2
  sumWide := decide (c.sum.toInt > 2 ^ 47 - 1 ∨ c.sum.toInt < -2 ^ 47)
  sumOverflowed := c.sumOverflowed
  readoutLimited := c.readoutLimited || c.limits w k

/-- The figures delivered for a group reported POISONED (R125). -/
def Machine.Readout.poisonedFigures (group : Group) : Readout where
  group := group
  poisoned := true
  count := 0
  sum := 0
  sumLimited := false
  minimum := none
  minimumLimited := false
  maximum := none
  maximumLimited := false
  sumWide := false
  sumOverflowed := false
  readoutLimited := false

/-- The record a check mismatch is written back as (R123): poisoned, minimum and maximum exchanged if out of order. -/
def RecordContents.poison (c : RecordContents) : RecordContents :=
  if c.maximum.toInt < c.minimum.toInt then
    { c with minimum := c.maximum, maximum := c.minimum, poisoned := true }
  else { c with poisoned := true }

/-- The two sticky flags cleared (R109). -/
def RecordContents.clearFlags (c : RecordContents) : RecordContents :=
  { c with sumOverflowed := false, readoutLimited := false }

/-- The 210 bits of a record's contents, in the order R122 lists them. -/
def RecordContents.bits (c : RecordContents) : BitVec 210 :=
  c.count ++ c.sum ++ c.minimum ++ c.maximum ++ BitVec.ofBool c.sumOverflowed ++ BitVec.ofBool c.readoutLimited
    ++ BitVec.ofBool c.poisoned

/-- The contents 210 bits spell. -/
def RecordContents.ofBits (b : BitVec 210) : RecordContents where
  count := b.extractLsb' 155 55
  sum := b.extractLsb' 99 56
  minimum := b.extractLsb' 51 48
  maximum := b.extractLsb' 3 48
  sumOverflowed := b.getLsbD 2
  readoutLimited := b.getLsbD 1
  poisoned := b.getLsbD 0

end Sys2Proof
end

