-- ==== Sys2Proof/Machine/Operands.lean ====
section
/-! DEFINITION. The formats of chapter 10: how the operands of requests, replies and records stand in frames, and the
codes of every item (R164 to R169). -/

namespace Sys2Proof.Machine

/-! ### Numbers in frames (R164) -/

/-- A 16-bit number, most significant byte first. -/
def bytes16 (x : BitVec 16) : List Byte := [x.extractLsb' 8 8, x.extractLsb' 0 8]

/-- A 32-bit number, most significant byte first. -/
def bytes32 (x : BitVec 32) : List Byte :=
  [x.extractLsb' 24 8, x.extractLsb' 16 8, x.extractLsb' 8 8, x.extractLsb' 0 8]

/-- A 64-bit number, most significant byte first. -/
def bytes64 (x : BitVec 64) : List Byte :=
  [x.extractLsb' 56 8, x.extractLsb' 48 8, x.extractLsb' 40 8, x.extractLsb' 32 8,
   x.extractLsb' 24 8, x.extractLsb' 16 8, x.extractLsb' 8 8, x.extractLsb' 0 8]

/-- A count or number below 65,536 in two bytes. -/
def natBytes16 (n : Nat) : List Byte := bytes16 (BitVec.ofNat 16 n)

/-- A number in one byte. -/
def natByte (n : Nat) : Byte := BitVec.ofNat 8 n

/-- A signed figure of a group readout: two's complement in eight bytes. -/
def intBytes64 (x : Int) : List Byte := bytes64 (BitVec.ofInt 64 x)

/-- A yes / no item in one byte. -/
def boolByte (b : Bool) : Byte := if b then 1 else 0

/-- A yes / no code (R167): only 0 and 1 are defined. -/
def boolOfByte (b : Byte) : Option Bool :=
  if b = 0 then some false else if b = 1 then some true else none

/-- A number of a range that starts at 0 and has `n` members. -/
def finOfByte (n : Nat) (b : Byte) : Option (Fin n) :=
  if h : b.toNat < n then some ⟨b.toNat, h⟩ else none

/-- Flag bits in one byte, bit 0 first. -/
def flagsByte : List Bool → Byte
  | [] => 0
  | b :: bs => (flagsByte bs <<< 1) ||| boolByte b

end Sys2Proof.Machine

namespace Sys2Proof

open Machine

/-! ### The bytes of operands as carried (section 10.6) -/

/-- Bytes 1 to 10 of the lane settings. -/
def RawSettings.bytes (r : RawSettings) : List Byte :=
  [r.enabled, r.source, r.rate, r.parity, r.table, r.plan, r.idle] ++ bytes16 r.limit ++ [r.faultNotices]

/-- The two bytes of an entry as carried. -/
def RawTableEntry.bytes (e : RawTableEntry) : List Byte := [e.translation, e.classCode]

/-- The twelve bytes of a step as carried. -/
def RawStep.bytes (r : RawStep) : List Byte :=
  [r.kind, r.b1, r.b2, r.b3, r.b4, r.b5, r.b6, r.b7, r.b8, r.b9, r.b10, r.b11]

/-- The kind code is one of the eight of R36. -/
def RawStep.kindDefined (r : RawStep) : Bool := decide (1 ≤ r.kind.toNat ∧ r.kind.toNat ≤ 8)

/-- The fourteen bytes of a window as carried. -/
def RawWindow.bytes (r : RawWindow) : List Byte :=
  [r.index, r.valid, r.level, r.kind] ++ bytes32 r.base ++ bytes32 r.limit ++ [r.p12, r.p13]

/-- Bytes 12 and 13 read as one group number. -/
def RawWindow.group (r : RawWindow) : Group := r.p12 ++ r.p13

end Sys2Proof

namespace Sys2Proof.Machine

/-! ### CRC (R165) -/

/-- One shift of the CRC register. -/
def crcShift (r : BitVec 16) : BitVec 16 :=
  if r.getLsbD 15 then (r <<< 1) ^^^ 0x1021 else r <<< 1

/-- One covered byte combined into the CRC register: exclusive or with its high half, then eight shifts. -/
def crcByte (r : BitVec 16) (b : Byte) : BitVec 16 :=
  let r := r ^^^ ((b.setWidth 16) <<< 8)
  crcShift (crcShift (crcShift (crcShift (crcShift (crcShift (crcShift (crcShift r)))))))

/-- The CRC of the covered bytes, in the order they stand in the frame. -/
def crc16 (bytes : List Byte) : BitVec 16 := bytes.foldl crcByte 0xFFFF

/-! ### Request and status codes (section 10.3) -/

/-- The code of a request. -/
def RequestCode.byte : RequestCode → Byte
  | .identify => 0x01
  | .status => 0x02
  | .start => 0x03
  | .halt => 0x04
  | .reset => 0x05
  | .fetchNotices => 0x06
  | .setLane => 0x10
  | .readLane => 0x11
  | .feed => 0x12
  | .flushLane => 0x13
  | .loadTable => 0x20
  | .readTable => 0x21
  | .loadPlan => 0x28
  | .readPlan => 0x29
  | .setWindow => 0x30
  | .clearWindow => 0x31
  | .readWindow => 0x32
  | .lookup => 0x33
  | .configureStore => 0x40
  | .clearStore => 0x41
  | .readTally => 0x48
  | .clearTally => 0x49
  | .clearFlags => 0x4A

/-- The 23 requests, in the order of their codes. -/
def RequestCode.all : List RequestCode :=
  [.identify, .status, .start, .halt, .reset, .fetchNotices, .setLane, .readLane, .feed, .flushLane, .loadTable,
   .readTable, .loadPlan, .readPlan, .setWindow, .clearWindow, .readWindow, .lookup, .configureStore, .clearStore,
   .readTally, .clearTally, .clearFlags]

/-- The request a code names, if any (R157). -/
def RequestCode.ofByte (b : Byte) : Option RequestCode := RequestCode.all.find? (fun c => c.byte = b)

/-- The payload lengths that match the layout of a request (section 10.5). -/
def RequestCode.lengthMatches : RequestCode → Nat → Bool
  | .identify, n => n == 0
  | .status, n => n == 0
  | .start, n => n == 0
  | .halt, n => n == 0
  | .reset, n => n == 0
  | .fetchNotices, n => n == 1
  | .setLane, n => n == 11
  | .readLane, n => n == 1
  | .feed, n => decide (2 ≤ n ∧ n ≤ 240)
  | .flushLane, n => n == 1
  | .loadTable, n => decide (4 ≤ n ∧ n ≤ 226 ∧ n % 2 = 0)
  | .readTable, n => n == 3
  | .loadPlan, n => decide (15 ≤ n ∧ n ≤ 219 ∧ n % 12 = 3)
  | .readPlan, n => n == 1
  | .setWindow, n => n == 14
  | .clearWindow, n => n == 1
  | .readWindow, n => n == 1
  | .lookup, n => n == 4
  | .configureStore, n => n == 2
  | .clearStore, n => n == 0
  | .readTally, n => n == 6
  | .clearTally, n => n == 3
  | .clearFlags, n => n == 2

/-- The code of a reply status. -/
def Status.byte : Status → Byte
  | .ok => 0x00
  | .accepted => 0x01
  | .frameError => 0x80
  | .lengthError => 0x81
  | .unknownRequest => 0x82
  | .badArgument => 0x83
  | .inUse => 0x84
  | .wrongState => 0x85
  | .wrongSource => 0x86
  | .laneOff => 0x87
  | .fifoFull => 0x88
  | .planInvalid => 0x89
  | .overlap => 0x8A
  | .queueFull => 0x8B
  | .storeBusy => 0x8C
  | .storeNotReady => 0x8D
  | .configIncomplete => 0x8E

/-! ### Frames (section 10.2) -/

/-- The bytes of a request frame on the line. -/
def Request.frame (r : Request) : List Byte :=
  let covered := natByte (r.payload.length + 2) :: r.code.byte :: r.tag :: r.payload
  0xA5 :: (covered ++ bytes16 (crc16 covered))

/-- The link flags of a reply: bit 0 discarded, bit 1 notices waiting. -/
def Reply.flags (r : Reply) : Byte := flagsByte [r.discarded, r.noticesWaiting]

/-- The bytes of a reply frame on LTX. -/
def Reply.frame (r : Reply) : List Byte :=
  let covered := natByte (r.payload.length + 3) :: r.status.byte :: r.tag :: r.flags :: r.payload
  0xA5 :: (covered ++ bytes16 (crc16 covered))

/-! ### Item codes (section 10.3) and lane settings (section 10.6.7) -/

/-- The source code: 0 PIN, 1 LINK. -/
def Source.byte : Source → Byte
  | .pin => 0
  | .link => 1

/-- The source a code names. -/
def Source.ofByte (b : Byte) : Option Source :=
  if b = 0 then some .pin else if b = 1 then some .link else none

/-- The line rate code. -/
def LineRate.byte : LineRate → Byte
  | .b1200 => 0
  | .b2400 => 1
  | .b4800 => 2
  | .b9600 => 3
  | .b19200 => 4
  | .b38400 => 5
  | .b57600 => 6
  | .b115200 => 7

/-- The line rate a code names. -/
def LineRate.ofByte (b : Byte) : Option LineRate :=
  [LineRate.b1200, .b2400, .b4800, .b9600, .b19200, .b38400, .b57600, .b115200].find? (fun r => r.byte = b)

/-- The parity code. -/
def Parity.byte : Parity → Byte
  | .none => 0
  | .even => 1
  | .odd => 2

/-- The parity a code names. -/
def Parity.ofByte (b : Byte) : Option Parity :=
  [Parity.none, .even, .odd].find? (fun p => p.byte = b)

/-- The settings SET-LANE carries, when every code is defined (R11, check 2). The record length limit is not checked
here. -/
def Settings.ofRaw (r : RawSettings) : Option Settings := do
  let enabled ← boolOfByte r.enabled
  let source ← Source.ofByte r.source
  let rate ← LineRate.ofByte r.rate
  let parity ← Parity.ofByte r.parity
  let table ← finOfByte 8 r.table
  let plan ← finOfByte 8 r.plan
  let faultNotices ← boolOfByte r.faultNotices
  return { enabled, source, rate, parity, table, plan, idle := r.idle, limit := r.limit, faultNotices }

/-- The settings of a lane as READ-LANE reports them, bytes 1 to 10. -/
def Settings.bytes (s : Settings) : List Byte :=
  [boolByte s.enabled, s.source.byte, s.rate.byte, s.parity.byte, natByte s.table, natByte s.plan, s.idle]
    ++ bytes16 s.limit ++ [boolByte s.faultNotices]

/-! ### Table entries (R19) -/

/-- The class code. -/
def ByteClass.byte : ByteClass → Byte
  | .data => 0
  | .skip => 1
  | .sep => 2
  | .fin => 3
  | .start => 4
  | .fault => 5

/-- The class a code names; codes 6 to 255 name none. -/
def ByteClass.ofByte (b : Byte) : Option ByteClass :=
  [ByteClass.data, .skip, .sep, .fin, .start, .fault].find? (fun c => c.byte = b)

/-- The entry a LOAD-TABLE position carries, when its class code is defined. -/
def TableEntry.ofRaw (r : RawTableEntry) : Option TableEntry := do
  let cls ← ByteClass.ofByte r.classCode
  return { translation := r.translation, cls }

/-- The two bytes of an entry (section 10.6.1). -/
def TableEntry.bytes (e : TableEntry) : List Byte := [e.translation, e.cls.byte]

/-! ### Plan steps (R36, section 10.6.2) -/

/-- The faults of a plan (R48). -/
inductive PlanFault where
  | badKind
  | badParameter
  | badHeader
  | finishEarly
  | noFinish
  | unclosed
  | strayAgain
  | tooDeep
  | openNested
  | openNotLast
  | openEmpty
  | leaveOutside
  deriving DecidableEq, Repr

/-- The reason code of a plan fault. -/
def PlanFault.byte : PlanFault → Byte
  | .badKind => 1
  | .badParameter => 2
  | .badHeader => 3
  | .finishEarly => 4
  | .noFinish => 5
  | .unclosed => 6
  | .strayAgain => 7
  | .tooDeep => 8
  | .openNested => 9
  | .openNotLast => 10
  | .openEmpty => 11
  | .leaveOutside => 12

/-- The conversion code. -/
def Conversion.byte : Conversion → Byte
  | .decimal => 0
  | .hex => 1
  | .raw => 2

/-- The conversion a code names. -/
def Conversion.ofByte (b : Byte) : Option Conversion :=
  [Conversion.decimal, .hex, .raw].find? (fun c => c.byte = b)

/-- The on-miss code. -/
def OnMiss.byte : OnMiss → Byte
  | .fault => 0
  | .leave => 1

/-- The on-miss choice a code names. -/
def OnMiss.ofByte (b : Byte) : Option OnMiss :=
  if b = 0 then some .fault else if b = 1 then some .leave else none

/-- The tail policy code. -/
def TailPolicy.byte : TailPolicy → Byte
  | .ignore => 0
  | .strict => 1

/-- The tail policy a code names. -/
def TailPolicy.ofByte (b : Byte) : Option TailPolicy :=
  if b = 0 then some .ignore else if b = 1 then some .strict else none

/-- The step a block of twelve bytes carries, when its kind is defined and every parameter is in range (R36); positions
its kind does not use are not looked at (R49). -/
def PlanStep.ofRaw (r : RawStep) : Option PlanStep :=
  if r.kind = 1 then do
    let c ← Conversion.ofByte r.b1
    return .key c
  else if r.kind = 2 then do
    let c ← Conversion.ofByte r.b1
    let slot ← finOfByte 4 r.b2
    if (c = .decimal ∧ r.b3.toNat ≤ 6) ∨ r.b3 = 0 then
      return .value c slot r.b3.toNat
    else none
  else if r.kind = 3 then some .skipField
  else if r.kind = 4 then do
    let m ← OnMiss.ofByte r.b1
    if 1 ≤ r.b2.toNat ∧ r.b2.toNat ≤ 8 then
      return .matchLiteral ([r.b3, r.b4, r.b5, r.b6, r.b7, r.b8, r.b9, r.b10].take r.b2.toNat) m
    else none
  else if r.kind = 5 then some (.repeatGroup r.b1)
  else if r.kind = 6 then some .again
  else if r.kind = 7 then do
    let slot ← finOfByte 4 r.b1
    let offset ← finOfByte 8 r.b2
    let addIndex ← boolOfByte r.b3
    let reject ← boolOfByte r.b4
    return .post slot offset addIndex reject
  else if r.kind = 8 then some .finish
  else none

/-- A list of bytes filled up with zeros to `n`. -/
def padTo (n : Nat) (l : List Byte) : List Byte := l ++ List.replicate (n - l.length) 0

/-- The twelve bytes READ-PLAN reports for a step, unused positions 0 (R53). -/
def PlanStep.bytes : PlanStep → List Byte
  | .key c => padTo 12 [1, c.byte]
  | .value c slot f => padTo 12 [2, c.byte, natByte slot, natByte f]
  | .skipField => padTo 12 [3]
  | .matchLiteral lit m => padTo 12 ([4, m.byte, natByte lit.length] ++ lit)
  | .repeatGroup n => padTo 12 [5, n]
  | .again => padTo 12 [6]
  | .post slot offset addIndex reject =>
    padTo 12 [7, natByte slot, natByte offset, boolByte addIndex, boolByte reject]
  | .finish => padTo 12 [8]

/-! ### Windows (R80, section 10.6.3) -/

/-- The window SET-WINDOW carries, when checks 2 to 5 of R85 hold. -/
def Window.ofRaw (r : RawWindow) : Option Window := do
  let level ← finOfByte 4 r.level
  if r.kind = 0 then
    if r.base.toNat ≤ r.limit.toNat ∧ r.group.toNat ≤ 65487 then
      return { level, base := r.base, limit := r.limit, kind := .single r.group }
    else none
  else if r.kind = 1 then
    if r.base.toNat ≤ r.limit.toNat ∧ r.group.toNat + (r.limit.toNat - r.base.toNat) ≤ 65487 then
      return { level, base := r.base, limit := r.limit, kind := .spread r.group }
    else none
  else if r.kind = 2 then do
    let rebase ← boolOfByte r.p13
    let target ← finOfByte 4 r.p12
    if r.base.toNat ≤ r.limit.toNat ∧ level < target then
      return { level, base := r.base, limit := r.limit, kind := .descend target rebase }
    else none
  else none

/-- The code and the two parameter bytes of a window's kind. -/
def WindowKind.bytes : WindowKind → Byte × List Byte
  | .single g => (0, bytes16 g)
  | .spread g => (1, bytes16 g)
  | .descend target rebase => (2, [natByte target, boolByte rebase])

/-- The fourteen bytes READ-WINDOW reports (R89). -/
def windowBytes (index : Byte) : Option Window → List Byte
  | none => padTo 14 [index]
  | some w => [index, 1, natByte w.level, w.kind.bytes.1] ++ bytes32 w.base ++ bytes32 w.limit ++ w.kind.bytes.2

/-! ### Outcomes, notices, readouts -/

/-- The outcome code (R72). -/
def RecordOutcome.code : RecordOutcome → Nat
  | .accepted => 0
  | .short => 1
  | .mismatch => 2
  | .convert => 3
  | .byteFault => 4
  | .gap => 5
  | .overlong => 6
  | .truncated => 7
  | .broken => 8
  | .postLimit => 9
  | .unrouted => 10

/-- The sixteen bytes of a notice record (section 10.6.5). -/
def Notice.bytes (n : Notice) : List Byte :=
  match n.kind with
  | .laneGap lane => padTo 16 ([1, 0x01] ++ bytes32 n.stamp ++ [natByte lane])
  | .recordFault lane outcome length =>
    padTo 16 ([2, 0x07] ++ bytes32 n.stamp ++ [natByte lane, natByte outcome.code] ++ natBytes16 length)
  | .storePoison group => padTo 16 ([3, 0x08] ++ bytes32 n.stamp ++ [0, 0, 0, 0] ++ bytes16 group)
  | .clearDone => padTo 16 ([4, 0x00] ++ bytes32 n.stamp)
  | .haltDone => padTo 16 ([5, 0x00] ++ bytes32 n.stamp)

/-- The thirty-six bytes of a group readout (section 10.6.4). -/
def Readout.bytes (r : Readout) : List Byte :=
  bytes16 r.group ++ [boolByte r.poisoned,
    flagsByte [r.minimum.isSome, r.maximum.isSome, r.sumLimited, r.minimumLimited, r.maximumLimited, r.sumWide,
      r.sumOverflowed, r.readoutLimited]]
    ++ bytes64 (BitVec.ofNat 64 r.count) ++ intBytes64 r.sum
    ++ intBytes64 (r.minimum.getD 0) ++ intBytes64 (r.maximum.getD 0)

/-! ### Small codes of STATUS and CONFIGURE-STORE -/

/-- The engine state code. -/
def EngineState.byte : EngineState → Byte
  | .stopped => 0
  | .running => 1
  | .halting => 2

/-- The store state code. -/
def StoreState.byte : StoreState → Byte
  | .uninitialised => 0
  | .clearing => 1
  | .ready => 2
  | .catchUp => 3

/-- The context state code. -/
def CtxState.byte : CtxState → Byte
  | .await => 0
  | .inRecord => 1
  | .resync => 2

/-- The sum mode code (R112). -/
def SumMode.byte : SumMode → Byte
  | .saturate => 0
  | .wrap => 1

/-- The sum mode a code names. -/
def SumMode.ofByte (b : Byte) : Option SumMode :=
  if b = 0 then some .saturate else if b = 1 then some .wrap else none

/-- The row policy code (R112). -/
def RowPolicy.byte : RowPolicy → Byte
  | .keepOpen => 0
  | .closeAfter => 1

/-- The row policy a code names. -/
def RowPolicy.ofByte (b : Byte) : Option RowPolicy :=
  if b = 0 then some .keepOpen else if b = 1 then some .closeAfter else none

/-- The read width a byte carries: the number itself, 32 or 48 (R101). -/
def ReadWidth.ofByte (b : Byte) : Option ReadWidth :=
  if b = 32 then some .w32 else if b = 48 then some .w48 else none

/-- A set of lanes in one byte, bit n for lane n (section 10.3). -/
def laneSetByte (inSet : Fin 4 → Bool) : Byte := flagsByte [inSet 0, inSet 1, inSet 2, inSet 3]

/-- The payload of the IDENTIFY reply (R144, section 10.6.8). -/
def identifyBytes : List Byte :=
  bytes16 0x4E4C ++ bytes16 0x0416 ++ [2, 4] ++ bytes16 512 ++ [8, 8, 18, 4] ++ bytes32 65536 ++ bytes16 65488
    ++ [32, 28, 32, 16, 128]

end Sys2Proof.Machine
end

