-- ==== Sys2Proof/Machine/Ops.lean ====
section
/-! DEFINITION. The named operations over the state: sparse memories, lanes, notices, replies, the tally store's records
and queue, engine control's halt-done test. -/

namespace Sys2Proof.Machine

/-! ### Sparse memories in canonical form -/

/-- The cell at address `i`, if listed. -/
def cellAt {α : Type} : List (Nat × α) → Nat → Option α
  | [], _ => none
  | (k, v) :: m, i => if k = i then some v else cellAt m i

/-- The memory without a cell at `i`. -/
def eraseCell {α : Type} (m : List (Nat × α)) (i : Nat) : List (Nat × α) := m.filter (fun c => c.1 ≠ i)

/-- The memory with a cell holding `v` at `i`, addresses rising. -/
def insertCell {α : Type} : List (Nat × α) → Nat → α → List (Nat × α)
  | [], i, v => [(i, v)]
  | (k, w) :: m, i, v =>
    if i < k then (i, v) :: (k, w) :: m
    else if i = k then (i, v) :: m
    else (k, w) :: insertCell m i v

/-- A write of `v` at `i`, where an unlisted `i` reads as `blank` (`none`: as a value not known): writing the blank
removes the cell. -/
def putCell {α : Type} [DecidableEq α] (blank : Option α) (m : List (Nat × α)) (i : Nat) (v : α) : List (Nat × α) :=
  if blank = some v then eraseCell m i else insertCell m i v

/-- The addresses of the cells rise strictly. -/
def rising {α : Type} : List (Nat × α) → Bool
  | [] => true
  | [_] => true
  | a :: b :: m => decide (a.1 < b.1) && rising (b :: m)

/-- The canonical form: addresses rise strictly and stay below `bound`, and no cell equals what its address reads as
unlisted. -/
def cellsWf {α : Type} [DecidableEq α] (bound : Nat) (blank : Nat → Option α) (m : List (Nat × α)) : Bool :=
  rising m && m.all (fun c => decide (c.1 < bound) && decide (blank c.1 ≠ some c.2))

/-! ### Code tables (R19, R23) -/

/-- The entry every byte value has after power-on: translation equal to the index, class DATA (R23). -/
def blankEntry (i : Nat) : TableEntry := { translation := BitVec.ofNat 8 i, cls := .data }

/-- The entry of a table at an index. -/
def tableEntry (t : List (Nat × TableEntry)) (i : Nat) : TableEntry := (cellAt t i).getD (blankEntry i)

/-- The table with entries written to consecutive indices from `first` on (R24, R28). -/
def writeEntries : List (Nat × TableEntry) → Nat → List TableEntry → List (Nat × TableEntry)
  | t, _, [] => t
  | t, first, e :: es => writeEntries (putCell (some (blankEntry first)) t first e) (first + 1) es

/-! ### Lanes -/

/-- Lane `n`. -/
def State.lane (s : State) (n : Fin 4) : Lane := s.lanes[n]

/-- The state with lane `n` replaced. -/
def State.putLane (s : State) (n : Fin 4) (l : Lane) : State := { s with lanes := s.lanes.set n l }

/-- The lane a request names (0 to 3), if any. -/
def laneOfByte (b : Byte) : Option (Fin 4) := finOfByte 4 b

/-! ### Notices (R147, R148, R150) -/

/-- A notice is produced now: it enters the queue, or is discarded and sets the overflow flag (R148). -/
def State.notify (s : State) (k : NoticeKind) : State :=
  if s.notices.length < 32 then { s with notices := s.notices ++ [{ kind := k, stamp := s.timeStamp }] }
  else { s with overflow := true }

/-- ATTN is driven low exactly while the notice queue holds a notice (R150). -/
def State.attnLow (s : State) : Bool := !s.notices.isEmpty

/-! ### The link's replies (R159, R161, R162) -/

/-- The reply is formed and the link goes to REPLYING: the discarded flag is taken and cleared, the notices-waiting flag
is taken (R159). -/
def State.formReply (s : State) (status : Status) (tag : Byte) (payload : List Byte) (thenReset : Bool) : State :=
  { s with link :=
      { s.link with
        state := .replying
          { status, tag, discarded := s.link.discarded, noticesWaiting := s.attnLow, payload, thenReset }
        discarded := false } }

/-- The owner hands back its answer and the reply is formed (R158). -/
def State.answer (s : State) (tag : Byte) (status : Status) (payload : List Byte) : State :=
  s.formReply status tag payload false

/-- The request the link holds goes on waiting for something else (R158). -/
def State.holdFor (s : State) (w : HeldFor) : State :=
  match s.link.state with
  | .held r _ => { s with link := { s.link with state := .held r w } }
  | _ => s

/-- A FLUSH-LANE for a lane is waiting (R16). -/
def State.flushWaiting (s : State) : Option (Fin 4) :=
  match s.link.state with
  | .held _ (.flush n) => some n
  | _ => none

/-! ### Where a group is held (R111) -/

/-- The bank of a group. -/
def groupBank (g : Nat) : Nat := g % 8

/-- The row of a group in its bank. -/
def groupRow (g : Nat) : Nat := g / 64

/-- The place of a group in its row. -/
def groupPlace (g : Nat) : Nat := (g / 8) % 8

/-- The group at a place of a row of a bank. -/
def groupAt (row place bank : Nat) : Nat := 64 * row + 8 * place + bank

/-- The number, in the order of a clear (R134), of the row write that covers a group. -/
def rowWriteOf (g : Nat) : Nat := 8 * groupRow g + groupBank g

/-! ### The records of the store (R93, R122) -/

/-- The record 226 unknown bits spell: 210 of contents, then the check code. -/
def recordOfBits (b : BitVec 226) : StoredRecord :=
  let c := RecordContents.ofBits (b.extractLsb' 16 210)
  { contents := c, difference := b.extractLsb' 0 16 ^^^ Config.checkCode c.bits }

/-- The stored check code of a record (R122). -/
def StoredRecord.checkCode (r : StoredRecord) : BitVec 16 := Config.checkCode r.contents.bits ^^^ r.difference

/-- What an unlisted group is known to read as: empty in the rows written by a clear since power-on, not known
elsewhere. -/
def Store.blank (st : Store) (g : Nat) : Option StoredRecord :=
  if rowWriteOf g < st.clean then some StoredRecord.empty else none

/-- The record of a group as it stands. -/
def Store.record (st : Store) (g : Nat) : StoredRecord :=
  match cellAt st.cells g with
  | some r => r
  | none => (st.blank g).getD (recordOfBits (Config.powerOnRecordBits st.epoch g))

/-- The store with the record of a group written. -/
def Store.write (st : Store) (g : Nat) (r : StoredRecord) : Store :=
  { st with cells := putCell (st.blank g) st.cells g r }

/-- The canonical form of the store's memory. -/
def Store.cellsWf (st : Store) : Bool := Machine.cellsWf 65536 st.blank st.cells

/-- A row write of a clear (R134): all 8 records of one row of one bank empty. The rows a clear has written since
power-on are the first `clean` ones; a row beyond them is written cell by cell. -/
def Store.writeRowEmpty (st : Store) (row : Fin 1024) (bank : Fin 8) : Store :=
  let w := 8 * row.val + bank.val
  let cells := st.cells.filter (fun c => rowWriteOf c.1 ≠ w)
  if w < st.clean then { st with cells }
  else if w = st.clean then { st with cells, clean := st.clean + 1 }
  else [0, 1, 2, 3, 4, 5, 6, 7].foldl (fun st place => st.write (groupAt row place bank) StoredRecord.empty)
    { st with cells }

/-! ### The tally queue (R114 to R118) -/

/-- The bank of a queue entry. -/
def QueueEntry.bank (e : QueueEntry) : Nat := groupBank e.group.toNat

/-- The row a queue entry needs. -/
def QueueEntry.row (e : QueueEntry) : Fin 1024 :=
  ⟨groupRow e.group.toNat, Nat.div_lt_of_lt_mul e.group.isLt⟩

/-- A bank's head: the oldest entry of the queue whose group lies in the bank (R118). -/
def headOf (bank : Nat) (q : List QueueEntry) : Option QueueEntry := q.find? (fun e => e.bank = bank)

/-- The queue without a bank's head (R121). -/
def dropHead (bank : Nat) : List QueueEntry → List QueueEntry
  | [] => []
  | e :: q => if e.bank = bank then q else e :: dropHead bank q

/-- The number of ENGINE entries (R114). -/
def engineEntries (q : List QueueEntry) : Nat := (q.filter (fun e => e.origin = .engine)).length

/-! ### Engine control (R141) -/

/-- The halt-done condition of R141. -/
def State.drained (s : State) : Bool := decide (s.scan = .free) && engineEntries s.store.queue == 0

/-- The test of R141: while HALTING, with the condition holding, the engine becomes STOPPED and HALT-DONE is sent. -/
def State.testHaltDone (s : State) : State :=
  if s.engine = .halting ∧ s.drained then ({ s with engine := .stopped } : State).notify .haltDone else s

/-! ### Contexts discarded by a load (R29, R52) -/

/-- A lane's context is part way: IN-RECORD or RESYNC. -/
def Lane.partWay (l : Lane) : Bool := decide (l.ctx.state ≠ .await)

/-- Lane `n` with its context discarded. -/
def State.discardContext (s : State) (n : Fin 4) : State :=
  s.putLane n { s.lane n with ctx := Context.cleared }

/-- The contexts of the lanes of a set discarded. -/
def State.discardContexts (s : State) (inSet : Fin 4 → Bool) : State :=
  [0, 1, 2, 3].foldl (fun t n => if inSet n then t.discardContext n else t) s

/-- Some enabled lane meets a condition. -/
def State.someEnabled (s : State) (p : Lane → Bool) : Bool :=
  [0, 1, 2, 3].any (fun n => (s.lane n).settings.enabled && p (s.lane n))

end Sys2Proof.Machine
end

