-- ==== Sys2Proof/Machine/Banks.lean ====
section
/-! DEFINITION. The store controller (chapter 7): the record operations, the banks, the refresh and the clear, and the
events ACTIVATION_COMPLETE, PRECHARGE_COMPLETE, RECORD_OPERATION_COMPLETE, ROW_WRITE_COMPLETE, REFRESH_DUE,
REFRESH_COMPLETE, RECORD_DAMAGE. -/

namespace Sys2Proof.Machine

/-! ### Record operations (section 7.5) -/

/-- What a record operation does: the record it writes, if any; whether it poisons (R123); the figures a READ
delivers. -/
structure OpResult where
  write : Option StoredRecord
  poisons : Bool
  readout : Option Readout
  deriving DecidableEq, Repr

/-- A record operation on a record in the condition `check mismatch`, for every kind but CLEAR (R123). -/
def poisonResult (r : StoredRecord) (readout : Option Readout) : OpResult where
  write := some (StoredRecord.fresh r.contents.poison)
  poisons := true
  readout := readout

/-- A POST entry's operation (R124). -/
def postOperation (mode : SumMode) (v : Value) (r : StoredRecord) : OpResult :=
  match r.condition with
  | .healthy => { write := some (StoredRecord.fresh (r.contents.post mode v)), poisons := false, readout := none }
  | .checkMismatch => poisonResult r none
  | .alreadyPoisoned => { write := none, poisons := false, readout := none }

/-- A READ entry's operation (R125, with R103 to R105). -/
def readOperation (group : Group) (w : ReadWidth) (k : Nat) (clearAfter : Bool) (r : StoredRecord) : OpResult :=
  match r.condition with
  | .healthy =>
    { write :=
        if clearAfter then some StoredRecord.empty
        else if r.contents.limits w k then some (StoredRecord.fresh { r.contents with readoutLimited := true })
        else none
      poisons := false
      readout := some (r.contents.readout group w k) }
  | .checkMismatch => poisonResult r (some (Readout.poisonedFigures group))
  | .alreadyPoisoned => { write := none, poisons := false, readout := some (Readout.poisonedFigures group) }

/-- A CLEAR entry's operation (R126). -/
def clearOperation : OpResult where
  write := some StoredRecord.empty
  poisons := false
  readout := none

/-- A CLEAR-FLAGS entry's operation (R127). -/
def clearFlagsOperation (r : StoredRecord) : OpResult :=
  match r.condition with
  | .healthy => { write := some (StoredRecord.fresh r.contents.clearFlags), poisons := false, readout := none }
  | .checkMismatch => poisonResult r none
  | .alreadyPoisoned => { write := none, poisons := false, readout := none }

/-- The record operation of a queue entry (section 7.5), on the record as it was read. -/
def recordOperation (e : QueueEntry) (mode : SumMode) (r : StoredRecord) : OpResult :=
  match e.kind with
  | .post v => postOperation mode v r
  | .read w k clearAfter => readOperation e.group w k clearAfter r
  | .clear => clearOperation
  | .clearFlags => clearFlagsOperation r

/-- The record written, if any. -/
def Store.writeResult (st : Store) (g : Nat) (w : Option StoredRecord) : Store :=
  match w with
  | some r => st.write g r
  | none => st

/-! ### Banks (R117, R119) -/

/-- Bank `b`. -/
def Store.bank (st : Store) (b : Fin 8) : Bank := st.banks[b]

/-- The store with bank `b` replaced. -/
def Store.putBank (st : Store) (b : Fin 8) (k : Bank) : Store := { st with banks := st.banks.set b k }

/-- A value for each of the eight banks. -/
def eachBank (f : Fin 8 → Bank) : Vector Bank 8 := #v[f 0, f 1, f 2, f 3, f 4, f 5, f 6, f 7]

/-- The bank has a sequence in flight (R117): it opens a row, works, or closes a row for work to come. -/
def Bank.inFlight : Bank → Bool
  | .closed => false
  | .opening _ _ => true
  | .opened _ => false
  | .working _ _ => true
  | .closing work => work.isSome

/-- An operation begins: a head's record operation takes the entry, the sum mode and the record as they stand (R120); a
row write of a clear reads nothing (R134). -/
def Store.beginWork (st : Store) (b : Fin 8) (row : Fin 1024) (work : Work) : Bank :=
  match work with
  | .clearRow => .working row (.rowWrite false)
  | .head =>
    match headOf b st.queue with
    | some e => .working row (.record e st.sumMode (st.record e.group.toNat) false)
    | none => .opened row

/-- A bank that is CLOSED or OPEN starts work on a row (R117, R119); in any other state it goes on as it was. -/
def Store.startOn (st : Store) (b : Fin 8) (row : Fin 1024) (work : Work) : Bank :=
  match st.bank b with
  | .closed => .opening row (some work)
  | .opened r => if r = row then st.beginWork b row work else .closing (some work)
  | .opening r w => .opening r w
  | .working r op => .working r op
  | .closing w => .closing w

/-- The bank starts work on its head, if it has one (R119). -/
def Store.startHead (st : Store) (b : Fin 8) : Bank :=
  match headOf b st.queue with
  | some e => st.startOn b e.row .head
  | none => st.bank b

/-- The bank of the clear's next row write (R134). -/
def Store.clearBank (st : Store) : Fin 8 := ⟨st.rowsDone % 8, Nat.mod_lt _ (by decide)⟩

/-- The row of the clear's next row write (R134). -/
def Store.clearRow (st : Store) : Fin 1024 := ⟨st.rowsDone / 8 % 1024, Nat.mod_lt _ (by decide)⟩

/-- The bank is at the clear's row write already. -/
def Bank.atClearRow : Bank → Bool
  | .opening _ (some .clearRow) => true
  | .closing (some .clearRow) => true
  | .working _ (.rowWrite false) => true
  | .closed => false
  | .opening _ _ => false
  | .opened _ => false
  | .working _ _ => false
  | .closing _ => false

/-- The clear starts its next row write, one at a time (R134). -/
def Store.startClearRow (st : Store) : Store :=
  if st.rowsDone < 8192 ∧ !st.banks.any Bank.atClearRow then
    st.putBank st.clearBank (st.startOn st.clearBank st.clearRow .clearRow)
  else st

/-- The banks start work unless a refresh is prepared or running, or refreshes are being caught up (R119, R129, R130);
during CLEARING the clear drives them (R134). -/
def Store.startWork (st : Store) : Store :=
  if st.refresh ≠ .none then st
  else match st.state with
    | .catchUp => st
    | .clearing => if st.catchingUp then st else st.startClearRow
    | .ready => { st with banks := eachBank st.startHead }
    | .uninitialised => { st with banks := eachBank st.startHead }

/-! ### Refresh (R128 to R130) -/

/-- Refreshes run back to back: the store is in CATCH-UP, or a clear is catching up (R130). -/
def Store.backToBack (st : Store) : Bool :=
  decide (st.state = .catchUp) || (decide (st.state = .clearing) && st.catchingUp)

/-- The conditions under which a refresh is begun (R129, R130). Some bank has a head exactly when the queue is not
empty. -/
def Store.refreshWanted (st : Store) : Bool :=
  decide (st.refresh = .none) && decide (0 < st.debt) && (st.queue.isEmpty || st.debt == 8 || st.backToBack)

/-- Every bank that is OPEN goes to CLOSING (R129, step 2). -/
def closeIdle : Bank → Bank
  | .opened _ => .closing none
  | .closed => .closed
  | .opening r w => .opening r w
  | .working r op => .working r op
  | .closing w => .closing w

/-- The OPEN banks go to CLOSING once every sequence in flight has run to its end (R129, step 2, log entry 14). -/
def Store.closeBanks (st : Store) : Store :=
  if st.banks.any Bank.inFlight then st else { st with banks := st.banks.map closeIdle }

/-- With every bank CLOSED the refresh runs, and the debt decreases by 1 (R129, step 3). -/
def Store.runRefresh (st : Store) : Store :=
  if st.banks.all (fun k => k = .closed) then { st with refresh := .running, debt := st.debt - 1 } else st

/-- The preparation of a refresh is carried on (R129). -/
def Store.prepareRefresh (st : Store) : Store :=
  if st.refresh = .preparing then st.closeBanks.runRefresh else st

/-- What the store controller does at once after any event (R119, R129, R134): it begins a refresh if one is wanted,
carries its preparation on, or lets the banks start work. -/
def Store.settle (st : Store) : Store :=
  let st := if st.refreshWanted then { st with refresh := .preparing } else st
  st.prepareRefresh.startWork

/-- The state with its store settled after a change. -/
def State.withStore (s : State) (st : Store) : State := { s with store := st.settle }

/-- A debt that reaches 8 in READY puts the store in CATCH-UP, and sets a clear catching up (R130). -/
def Store.enterCatchUp (st : Store) : Store :=
  if st.debt = 8 then
    match st.state with
    | .ready => { st with state := .catchUp }
    | .clearing => { st with catchingUp := true }
    | .uninitialised => st
    | .catchUp => st
  else st

/-! ### The events -/

/-- ACTIVATION_COMPLETE (R117): the bank becomes OPEN and goes straight on to WORKING. With no work left for it (after a
soft reset) the row is closed again (R136, log entry 13). -/
def execActivationComplete (b : Fin 8) (s : State) : Answer :=
  match s.store.bank b with
  | .opening row (some work) => .next (s.withStore (s.store.putBank b (s.store.beginWork b row work)))
  | .opening _ none => .next (s.withStore (s.store.putBank b (.closing none)))
  | .closed => .next s
  | .opened _ => .next s
  | .working _ _ => .next s
  | .closing _ => .next s

/-- The bank after a precharge (R117): on to OPENING for the work it was closed for, or CLOSED. -/
def Store.afterPrecharge (st : Store) (b : Fin 8) (work : Option Work) : Bank :=
  match work with
  | some .clearRow => .opening st.clearRow (some .clearRow)
  | some .head =>
    match headOf b st.queue with
    | some e => .opening e.row (some .head)
    | none => .closed
  | none => .closed

/-- PRECHARGE_COMPLETE (R117). -/
def execPrechargeComplete (b : Fin 8) (s : State) : Answer :=
  match s.store.bank b with
  | .closing work => .next (s.withStore (s.store.putBank b (s.store.afterPrecharge b work)))
  | .closed => .next s
  | .opening _ _ => .next s
  | .opened _ => .next s
  | .working _ _ => .next s

/-- The readouts of a request, kept in ascending group order (R106). -/
def insertReadout (r : Readout) : List Readout → List Readout
  | [] => [r]
  | q :: qs => if r.group.toNat ≤ q.group.toNat then r :: q :: qs else q :: insertReadout r qs

/-- The payload of the reply to a tally request whose entries have all completed: READ-TALLY's (R106), CLEAR-TALLY's
(R108) or CLEAR-FLAGS's (R109). -/
def tallyPayload (r : Request) (readouts : List Readout) : List Byte :=
  match r.code with
  | .readTally => r.payload.take 5 ++ (readouts.map Readout.bytes).flatten
  | _ => r.payload

/-- The completion of a LINK entry is handed to the control link, which replies when every entry of the request has
completed (R121). -/
def State.linkEntryDone (s : State) (readout : Option Readout) : State :=
  match s.link.state with
  | .held r (.tally left readouts) =>
    let readouts := match readout with
      | some o => insertReadout o readouts
      | none => readouts
    if left ≤ 1 then s.answer r.tag .ok (tallyPayload r readouts)
    else s.holdFor (.tally (left - 1) readouts)
  | _ => s

/-- The bank after its record operation (R121), or after one that a soft reset let run on (R136). -/
def Store.afterOperation (st : Store) (row : Fin 1024) (runOn : Bool) : Bank :=
  if runOn then .closing none
  else match st.rowPolicy with
    | .keepOpen => .opened row
    | .closeAfter => .closing none

/-- RECORD_OPERATION_COMPLETE (R121): the record is written, a poisoning is notified (R123; after a soft reset the notice
is discarded with the queue, R151, log entry 12), the entry leaves the queue, the bank follows its row policy, the result
is handed on, and a halt may be done. Where the operation poisons and the halt is done at the same moment, R147 lets the
two notices enter in either order: STORE-POISON always enters first here, the model's choice (log entry 36). -/
def execRecordOperationComplete (b : Fin 8) (s : State) : Answer :=
  match s.store.bank b with
  | .working row (.record e mode asRead runOn) =>
    let result := recordOperation e mode asRead
    let st := s.store.writeResult e.group.toNat result.write
    let st := { st with queue := dropHead b st.queue }
    let st := st.putBank b (st.afterOperation row runOn)
    let s := s.withStore st
    let s := if result.poisons && !runOn then s.notify (.storePoison e.group) else s
    let s := match e.origin with
      | .engine => s
      | .link => s.linkEntryDone result.readout
    .next s.testHaltDone
  | .working _ (.rowWrite _) => .next s
  | .closed => .next s
  | .opening _ _ => .next s
  | .opened _ => .next s
  | .closing _ => .next s

/-- The store after the row write of a clear that is not the last: the count advances (R134). -/
def Store.rowWritten (st : Store) : Store := { st with rowsDone := st.rowsDone + 1 }

/-- The clear is over (R134): READY, or CATCH-UP where it was catching up. -/
def Store.clearOver (st : Store) : Store :=
  { st with state := if st.catchingUp then .catchUp else .ready, catchingUp := false }

/-- ROW_WRITE_COMPLETE (R134): the row is empty, the bank closes, the count advances, and the last row write ends the
clear with CLEAR-DONE. A row write that a soft reset let run on ends no clear (R136). -/
def execRowWriteComplete (b : Fin 8) (s : State) : Answer :=
  match s.store.bank b with
  | .working row (.rowWrite runOn) =>
    let st := (s.store.writeRowEmpty row b).putBank b (.closing none)
    if runOn then .next (s.withStore st)
    else if st.rowsDone + 1 = 8192 then
      .next ((s.withStore st.rowWritten.clearOver).notify .clearDone)
    else .next (s.withStore st.rowWritten)
  | .working _ (.record _ _ _ _) => .next s
  | .closed => .next s
  | .opening _ _ => .next s
  | .opened _ => .next s
  | .closing _ => .next s

/-- REFRESH_DUE (R128): the debt increases by 1. The interval timer is held while the debt is 8 (log entry 33) and does
not run while a power-on reset is in force (log entry 20). -/
def execRefreshDue (s : State) : Answer :=
  if s.porHeld ∨ 8 ≤ s.store.debt then .next s
  else .next (s.withStore { s.store with debt := s.store.debt + 1 }.enterCatchUp)

/-- The store when a refresh has completed (R129, R130): a debt repaid to 0 ends CATCH-UP. A soft reset that fell while
the refresh ran leaves the test for a debt of 8 to its end (R136, step 5). -/
def Store.refreshDone (st : Store) : Store :=
  let st := { st with refresh := .none }
  if st.debt = 0 then
    { st with state := if st.state = .catchUp then .ready else st.state, catchingUp := false }
  else st.enterCatchUp

/-- REFRESH_COMPLETE (R129). -/
def execRefreshComplete (s : State) : Answer :=
  if s.store.refresh = .running then .next (s.withStore s.store.refreshDone) else .next s

/-- RECORD_DAMAGE (R122): the stored record of a group comes to hold other contents, with a check code that does not
match them. A difference of 0 is no damage (log entry 11). -/
def execRecordDamage (g : Group) (contents : RecordContents) (difference : BitVec 16) (s : State) : Answer :=
  if difference = 0 then .next s
  else .next { s with store := s.store.write g.toNat { contents, difference } }

end Sys2Proof.Machine
end

