-- ==== Sys2Proof/Machine/Reset.lean ====
section
/-! DEFINITION. The soft reset (R18, R79, R136, R142, R151, R163) and the power-on reset (R145), block by block. -/

namespace Sys2Proof.Machine

/-- A lane's pin receiver when it restarts (R5): waiting for the line to rest on an enabled PIN lane, off on any
other. -/
def Settings.restartedRx (c : Settings) : RxState :=
  if c.enabled && decide (c.source = .pin) then .waitingForRest else .off

/-- A lane after a soft reset (R18): the settings are kept. -/
def Lane.softReset (l : Lane) : Lane where
  settings := l.settings
  fifo := []
  gapPending := false
  markerLast := false
  timer := none
  rx := l.settings.restartedRx
  ctx := Context.cleared

/-- A bank at a soft reset (R136): an operation in flight runs on, a row being opened or closed for work goes on without
the work, an open row is closed. -/
def Bank.softReset : Bank → Bank
  | .closed => .closed
  | .opening row _ => .opening row none
  | .opened _ => .closing none
  | .working row (.record e mode asRead _) => .working row (.record e mode asRead true)
  | .working row (.rowWrite _) => .working row (.rowWrite true)
  | .closing _ => .closing none

/-- A record operation is in flight in the bank. -/
def Bank.operating : Bank → Bool
  | .working _ (.record _ _ _ _) => true
  | .working _ (.rowWrite _) => false
  | .closed => false
  | .opening _ _ => false
  | .opened _ => false
  | .closing _ => false

/-- The banks, by number, in which a record operation is in flight. -/
def Store.operatingBanks (st : Store) : List Nat :=
  ([0, 1, 2, 3, 4, 5, 6, 7] : List (Fin 8)).filterMap (fun b => if (st.bank b).operating then some b.val else none)

/-- The entries whose operations are in flight (the heads of the operating banks); every other entry is discarded
(R136, step 2). -/
def keepInFlight : List Nat → List QueueEntry → List QueueEntry
  | _, [] => []
  | banks, e :: q =>
    if e.bank ∈ banks then e :: keepInFlight (banks.filter (fun b => b ≠ e.bank)) q
    else keepInFlight banks q

/-- The store state after a soft reset (R136, step 5). -/
def StoreState.softReset : StoreState → StoreState
  | .uninitialised => .uninitialised
  | .clearing => .uninitialised
  | .ready => .ready
  | .catchUp => .ready

/-- The store at a soft reset (R136): debt, refresh under way, settings and records are kept. When no refresh is under
way a debt of 8 takes the store into CATCH-UP at once; otherwise the end of that refresh makes the test. -/
def Store.softReset (st : Store) : Store :=
  let st' : Store :=
    { st with
      state := st.state.softReset
      queue := keepInFlight st.operatingBanks st.queue
      banks := st.banks.map Bank.softReset
      catchingUp := false }
  (if st.refresh = .none then st'.enterCatchUp else st').settle

/-- The link at a soft reset (R163): IDLE, discarder waiting, discarded flag no; the rate is kept. -/
def Link.softReset (l : Link) : Link :=
  { l with state := .idle, discarder := .waiting, discarded := false }

/-- The soft reset takes effect on every block (R145, section 8.5.1). Tables, plans, windows, time stamp and pending
commands are kept. -/
def State.softReset (s : State) : State :=
  { s with
    lanes := s.lanes.map Lane.softReset
    scan := .free
    lastGranted := 3
    taken := 0
    store := s.store.softReset
    engine := .stopped
    notices := []
    overflow := false
    link := s.link.softReset }

/-- POWER_ON_RESET (R145): every block comes up as its chapter gives for power-on, and the reset is in force until
POWER_ON_RESET_END. The records' contents become unknown afresh (R135). The link rate of before stands until the strap is
read again (R152). -/
def execPowerOnReset (s : State) : Answer :=
  .next { State.powerOn (s.store.epoch + 1) with
    pending := s.pending
    link := { Link.powerOn with rate := s.link.rate } }

/-- POWER_ON_RESET_END (R163): the SPD strap is read, the start-up wait begins, and the time stamp begins counting
(R146). -/
def execPowerOnResetEnd (spdHigh : Bool) (s : State) : Answer :=
  if s.porHeld then
    .next { s with
      porHeld := false
      link := { s.link with rate := if spdHigh then .b921600 else .b115200, startupWait := true } }
  else .next s

/-- 2 ms have passed since the power-on reset ended (R163), by the time stamp, which stands at 0 at that moment (R146, log
entry 15). -/
def State.startupWaitPassed (s : State) : Bool := decide (2 ≤ s.timeStamp.toNat)

/-- LINK_STARTUP_WAIT_END (R163): once 2 ms have passed the link enters IDLE with the discarder waiting and the discarded
flag no. Before that the wait goes on (log entry 15). -/
def execLinkStartupWaitEnd (s : State) : Answer :=
  if s.link.startupWait ∧ s.startupWaitPassed then
    .next { s with link :=
      { s.link with state := .idle, startupWait := false, discarder := .waiting, discarded := false } }
  else .next s

/-- TIME_STAMP_TICK (R146): held at 0 during a power-on reset, and wrapping. -/
def execTimeStampTick (s : State) : Answer :=
  if s.porHeld then .next s else .next { s with timeStamp := s.timeStamp + 1 }

end Sys2Proof.Machine
end

