-- ==== Sys2Proof/Machine/Link.lean ====
section
/-! DEFINITION. The control link (chapter 9): bytes taken in, the discarder, timeouts, replies sent, and how a request
command reaches its owner. -/

namespace Sys2Proof.Machine

/-- The reasons of a FRAME-ERROR reply (R155, R156, R159). -/
inductive FrameErrorReason where
  | timeout
  | badLength
  | badCharacter
  | badCrc
  deriving DecidableEq, Repr

/-- The reason code (R159). -/
def FrameErrorReason.byte : FrameErrorReason → Byte
  | .timeout => 1
  | .badLength => 2
  | .badCharacter => 3
  | .badCrc => 4

/-- The frame is abandoned: a FRAME-ERROR reply with tag 0 and the reason (R155, R156, R159). -/
def State.frameError (s : State) (reason : FrameErrorReason) : State :=
  s.formReply .frameError 0 [reason.byte] false

/-- The link goes to another state. -/
def State.linkTo (s : State) (l : LinkState) : State := { s with link := { s.link with state := l } }

/-- The discarder goes to another state. -/
def State.discarderTo (s : State) (d : Discarder) : State := { s with link := { s.link with discarder := d } }

/-- A sound frame is a request (R156, R157): checked for its code and its length, and handed to its owner (R158). `body`
is the code, the tag and the payload. -/
def State.takeRequest (s : State) (body : List Byte) : State :=
  match body with
  | code :: tag :: payload =>
    match RequestCode.ofByte code with
    | none => s.formReply .unknownRequest tag [] false
    | some c =>
      if c.lengthMatches payload.length then s.linkTo (.held { code := c, tag, payload } .owner)
      else s.formReply .lengthError tag [] false
  | _ => s

/-- The second CRC byte of a frame has been received (R156): `rest` holds the `len.toNat` bytes and the two CRC
bytes. -/
def State.frameComplete (s : State) (len : Byte) (rest : List Byte) : State :=
  let body := rest.take len.toNat
  if bytes16 (crc16 (len :: body)) = rest.drop len.toNat then s.takeRequest body else s.frameError .badCrc

/-- A length byte is 2 to 242 (R154). -/
def lengthByteOk (b : Byte) : Bool := decide (2 ≤ b.toNat ∧ b.toNat ≤ 242)

/-- A byte received in RECEIVING (R154, R155). -/
def State.receiveByte (s : State) (len : Option Byte) (rest : List Byte) (value : Byte) (framingError : Bool) : State :=
  if framingError then s.frameError .badCharacter
  else match len with
    | none => if lengthByteOk value then s.linkTo (.receiving (some value) []) else s.frameError .badLength
    | some l =>
      if (rest ++ [value]).length = l.toNat + 2 then s.frameComplete l (rest ++ [value])
      else s.linkTo (.receiving (some l) (rest ++ [value]))

/-- A byte received by the discarder while discarding (R160). -/
def State.discardByte (s : State) (expected : Option Nat) (value : Byte) (framingError : Bool) : State :=
  if framingError then s.discarderTo .waiting
  else match expected with
    | none =>
      if lengthByteOk value then s.discarderTo (.discarding (some (value.toNat + 2))) else s.discarderTo .waiting
    | some n => if n ≤ 1 then s.discarderTo .waiting else s.discarderTo (.discarding (some (n - 1)))

/-- The discarder begins a discarded frame, and the discarded flag becomes yes (R160, R161). -/
def State.beginDiscard (s : State) : State :=
  { s with link := { s.link with discarder := .discarding none, discarded := true } }

/-- A byte that reaches the link state machine or the discarder (R154 to R160). -/
def State.takeByte (s : State) (value : Byte) (framingError : Bool) : State :=
  match s.link.discarder with
  | .discarding expected => s.discardByte expected value framingError
  | .waiting =>
    match s.link.state with
    | .idle => if value = 0xA5 ∧ framingError = false then s.linkTo (.receiving none []) else s
    | .receiving len rest => s.receiveByte len rest value framingError
    | .held _ _ => if value = 0xA5 ∧ framingError = false then s.beginDiscard else s
    | .replying _ => if value = 0xA5 ∧ framingError = false then s.beginDiscard else s

/-- The LRX receiver after a character (R152): a framing error with the line still at space is a break. -/
def State.noteBreak (s : State) (framingError staysSpace : Bool) : State :=
  if framingError && staysSpace then { s with link := { s.link with inBreak := true } } else s

/-- A character completes on LRX: nothing while a power-on reset is in force (R163) or a break lasts (R152), ignored
during the start-up wait (R163), else taken as a byte. -/
def State.linkByte (s : State) (value : Byte) (framingError staysSpace : Bool) : State :=
  if s.porHeld || s.link.inBreak then s
  else if s.link.startupWait then s.noteBreak framingError staysSpace
  else
    let s := s.noteBreak framingError staysSpace
    State.takeByte { s with link := { s.link with lastByteAt := s.timeStamp } } value framingError

/-- LINK_BYTE_RECEIVED (R154). -/
def execLinkByteReceived (value : Byte) (framingError staysSpace : Bool) (s : State) : Answer :=
  .next (s.linkByte value framingError staysSpace)

/-- LINK_BREAK_END (R152). -/
def execLinkBreakEnd (s : State) : Answer :=
  .next { s with link := { s.link with inBreak := false } }

/-- 20 ms have passed since the last byte received, by the time stamp (R155, R160, log entry 15). -/
def State.byteTimeoutPassed (s : State) : Bool := decide (20 ≤ (s.timeStamp - s.link.lastByteAt).toNat)

/-- FRAME_TIMEOUT (R155). -/
def execFrameTimeout (s : State) : Answer :=
  match s.link.state with
  | .receiving _ _ => if s.byteTimeoutPassed then .next (s.frameError .timeout) else .next s
  | .idle => .next s
  | .held _ _ => .next s
  | .replying _ => .next s

/-- DISCARD_TIMEOUT (R160). -/
def execDiscardTimeout (s : State) : Answer :=
  match s.link.discarder with
  | .discarding _ => if s.byteTimeoutPassed then .next (s.discarderTo .waiting) else .next s
  | .waiting => .next s

/-- REPLY_SENT (R159): the link goes to IDLE; after the RESET reply the soft reset takes effect (R145). -/
def execReplySent (s : State) : Answer :=
  match s.link.state with
  | .replying r => if r.thenReset then .next s.softReset else .next (s.linkTo .idle)
  | .idle => .next s
  | .receiving _ _ => .next s
  | .held _ _ => .next s

/-- The request is held and its owner has not acted on it yet. -/
def State.awaitsOwner (s : State) (r : Request) : Bool := decide (s.link.state = .held r .owner)

/-- How a request command reaches the link (log entry 4): nothing need arrive when the link holds that very request for
its owner; otherwise its frame arrives on LRX, byte by byte. -/
def State.deliver (s : State) (r : Request) : State :=
  if s.awaitsOwner r then s else r.frame.foldl (fun s b => s.linkByte b false false) s

/-- A request command: the request is delivered, and if the link then holds it for its owner, the owner acts (R158). -/
def requestStep (r : Request) (owner : State → State) (s : State) : Answer :=
  let s := s.deliver r
  if s.awaitsOwner r then .next (owner s) else .next s

end Sys2Proof.Machine
end

