-- ==== Sys2Proof/Machine/Engine.lean ====
section
/-! DEFINITION. Engine control and the notice queue (chapter 8): IDENTIFY, STATUS, START, HALT, RESET, FETCH-NOTICES. -/

namespace Sys2Proof.Machine

/-- The owner's part of IDENTIFY (R144). -/
def ownIdentify (tag : Byte) (s : State) : State := s.answer tag .ok identifyBytes

/-- IDENTIFY (R144). -/
def execIdentify (tag : Byte) (s : State) : Answer :=
  requestStep { code := .identify, tag, payload := [] } (ownIdentify tag) s

/-- The code of the scan engine state and its lane, FFh when FREE (section 10.6.6). -/
def scanBytes : ScanState → List Byte
  | .free => [0, 0xFF]
  | .scanning n => [1, natByte n]
  | .releasing n _ => [2, natByte n]

/-- The lane is the granted lane (R55). -/
def State.granted (s : State) (n : Fin 4) : Bool :=
  match s.scan with
  | .free => false
  | .scanning m => decide (m = n)
  | .releasing m _ => decide (m = n)

/-- The six bytes of a lane in the STATUS reply. -/
def State.laneStatusBytes (s : State) (n : Fin 4) : List Byte :=
  [boolByte (s.lane n).settings.enabled, (s.lane n).ctx.state.byte] ++ natBytes16 (s.lane n).fifo.length
    ++ [boolByte (s.lane n).gapPending, boolByte (s.granted n)]

/-- The payload of the STATUS reply (R143, section 10.6.6). -/
def State.statusBytes (s : State) : List Byte :=
  [s.engine.byte] ++ scanBytes s.scan
    ++ [s.store.state.byte, natByte s.store.debt, s.store.sumMode.byte, s.store.rowPolicy.byte,
        natByte s.store.queue.length, natByte (engineEntries s.store.queue), natByte s.notices.length,
        boolByte s.overflow]
    ++ bytes32 s.timeStamp
    ++ s.laneStatusBytes 0 ++ s.laneStatusBytes 1 ++ s.laneStatusBytes 2 ++ s.laneStatusBytes 3

/-- The owner's part of STATUS (R143). -/
def ownStatus (tag : Byte) (s : State) : State := s.answer tag .ok s.statusBytes

/-- STATUS (R143). -/
def execStatus (tag : Byte) (s : State) : Answer :=
  requestStep { code := .status, tag, payload := [] } (ownStatus tag) s

/-- The lowest-numbered enabled lane whose plan is absent (R138, check 4). -/
def State.laneWithoutPlan (s : State) : Option (Fin 4) :=
  [0, 1, 2, 3].find? (fun n => (s.lane n).settings.enabled && s.plans[(s.lane n).settings.plan].isNone)

/-- The owner's part of START (R138, R139). -/
def ownStart (tag : Byte) (s : State) : State :=
  if s.engine ≠ .stopped then s.answer tag .wrongState []
  else if s.store.state ≠ .ready then s.answer tag .storeNotReady []
  else if !s.someEnabled (fun _ => true) then s.answer tag .configIncomplete [0xFF]
  else match s.laneWithoutPlan with
    | some n => s.answer tag .configIncomplete [natByte n]
    | none => { s with engine := .running }.answer tag .ok []

/-- START (R138). -/
def execStart (tag : Byte) (s : State) : Answer :=
  requestStep { code := .start, tag, payload := [] } (ownStart tag) s

/-- The owner's part of HALT (R140): the halt-done condition is tested before the reply is formed (R141, R162). -/
def ownHalt (tag : Byte) (s : State) : State :=
  match s.engine with
  | .stopped => s.answer tag .wrongState []
  | .halting => s.answer tag .accepted []
  | .running => ({ s with engine := .halting } : State).testHaltDone.answer tag .accepted []

/-- HALT (R140). -/
def execHalt (tag : Byte) (s : State) : Answer :=
  requestStep { code := .halt, tag, payload := [] } (ownHalt tag) s

/-- The owner's part of RESET (R145): the soft reset follows the last byte of the reply. -/
def ownReset (tag : Byte) (s : State) : State := s.formReply .ok tag [] true

/-- RESET (R145). -/
def execReset (tag : Byte) (s : State) : Answer :=
  requestStep { code := .reset, tag, payload := [] } (ownReset tag) s

/-- The payload of the FETCH-NOTICES reply (R149, section 10.5). -/
def fetchBytes (overflow : Bool) (fetched : List Notice) : List Byte :=
  [boolByte overflow, natByte fetched.length] ++ (fetched.map Notice.bytes).flatten

/-- The owner's part of FETCH-NOTICES (R149): the oldest notices are removed, the overflow flag is read and cleared. -/
def ownFetchNotices (tag maximum : Byte) (s : State) : State :=
  if 1 ≤ maximum.toNat ∧ maximum.toNat ≤ 8 then
    { s with notices := s.notices.drop maximum.toNat, overflow := false }.answer tag .ok
      (fetchBytes s.overflow (s.notices.take maximum.toNat))
  else s.answer tag .badArgument []

/-- FETCH_NOTICES (R149). -/
def execFetchNotices (tag maximum : Byte) (s : State) : Answer :=
  requestStep { code := .fetchNotices, tag, payload := [maximum] } (ownFetchNotices tag maximum) s

end Sys2Proof.Machine
end

