-- ==== Sys2Proof/Machine/Lanes.lean ====
section
/-! DEFINITION. The lanes (chapter 1): the pin receiver, the idle timer, and SET-LANE, READ-LANE, FEED, FLUSH-LANE. -/

namespace Sys2Proof.Machine

/-! ### Entering and losing entries (R3, R6, R7) -/

/-- An entry joins the tail of a lane's FIFO with its gap-before mark, and gap pending goes back to no (R6). -/
def Lane.join (l : Lane) (entry : Bool → FifoEntry) : Lane :=
  { l with fifo := l.fifo ++ [entry l.gapPending], gapPending := false }

/-- The lane's FIFO is full (R3). -/
def Lane.full (l : Lane) : Bool := decide (512 ≤ l.fifo.length)

/-- An entry is lost (R6): gap pending becomes yes, and a loss that found it at no produces LANE-GAP (R7). -/
def State.loseEntry (s : State) (n : Fin 4) : State :=
  let s' := s.putLane n { s.lane n with gapPending := true }
  if (s.lane n).gapPending then s' else s'.notify (.laneGap n)

/-- The idle timer armed afresh by a byte taken now, unless the idle timeout is 0 (R8). -/
def Lane.rearm (l : Lane) (now : Stamp) : Lane :=
  if l.settings.idle = 0 then l else { l with timer := some now }

/-! ### The pin receiver (R4, R5) -/

/-- The lane's receiver is at work: enabled, with source PIN (R4). -/
def Lane.receives (l : Lane) : Bool := l.settings.enabled && decide (l.settings.source = .pin)

/-- The number of ones among eight bits. -/
def onesOf (b : Byte) : Nat :=
  ((List.range 8).filter (fun i => b.getLsbD i)).length

/-- The parity bit gives the set parity over the eight data bits and itself (R4). -/
def Parity.given : Parity → Byte → Bool → Bool
  | .none, _, _ => true
  | .even, b, p => (onesOf b + (if p then 1 else 0)) % 2 == 0
  | .odd, b, p => (onesOf b + (if p then 1 else 0)) % 2 == 1

/-- The receiver after a character (R4, R5): in a break it waits for the line to rest. -/
def rxAfter (stopMark staysSpace : Bool) : RxState := if !stopMark && staysSpace then .waitingForRest else .ready

/-- START_BIT (R4): a ready receiver begins to assemble a character. -/
def execStartBit (n : Fin 4) (s : State) : Answer :=
  let l := s.lane n
  if l.receives ∧ l.rx = .ready then .next (s.putLane n { l with rx := .inCharacter }) else .next s

/-- A character completes (R4): it is entered with its line error, or lost (R6), and re-arms the idle timer (R8). -/
def State.takeCharacter (s : State) (n : Fin 4) (value : Byte) (lineError : Bool) (rx : RxState) : State :=
  let l := { s.lane n with rx }.rearm s.timeStamp
  if l.full then (s.putLane n l).loseEntry n
  else s.putLane n { l.join (.byte value lineError) with markerLast := false }

/-- PIN_CHARACTER_RECEIVED (R4): line error is yes for a stop bit at space or a wrong parity bit. -/
def execPinCharacterReceived (n : Fin 4) (value : Byte) (parityBit stopMark staysSpace : Bool) (s : State) : Answer :=
  let l := s.lane n
  if l.receives ∧ l.rx = .inCharacter then
    .next (s.takeCharacter n value (!stopMark || !l.settings.parity.given value parityBit)
      (rxAfter stopMark staysSpace))
  else .next s

/-- RECEIVER_REST_END (R5): the receiver may take a start bit again. -/
def execReceiverRestEnd (n : Fin 4) (s : State) : Answer :=
  let l := s.lane n
  if l.receives ∧ l.rx = .waitingForRest then .next (s.putLane n { l with rx := .ready }) else .next s

/-! ### The idle timer (R8, R9) -/

/-- The armed idle timer's timeout has passed, by the time stamp (R8, log entry 15). -/
def State.idlePassed (s : State) (n : Fin 4) : Bool :=
  match (s.lane n).timer with
  | some armed => decide ((s.lane n).settings.idle.toNat ≤ (s.timeStamp - armed).toNat)
  | none => false

/-- IDLE_TIMER_EXPIRY (R9): the timer is disarmed, and one IDLE-END marker is entered, or lost, unless the most recent
entry entered was a marker. -/
def execIdleTimerExpiry (n : Fin 4) (s : State) : Answer :=
  if s.idlePassed n then
    let l := { s.lane n with timer := none }
    if l.markerLast then .next (s.putLane n l)
    else if l.full then .next ((s.putLane n l).loseEntry n)
    else .next (s.putLane n { l.join .idleEnd with markerLast := true })
  else .next s

/-! ### SET-LANE and READ-LANE (R11 to R13) -/

/-- A lane after SET-LANE (R12). -/
def Lane.set (settings : Settings) : Lane where
  settings := settings
  fifo := []
  gapPending := false
  markerLast := false
  timer := none
  rx := settings.restartedRx
  ctx := Context.cleared

/-- The owner's part of SET-LANE (R11, R12). -/
def ownSetLane (tag lane : Byte) (raw : RawSettings) (s : State) : State :=
  match laneOfByte lane, Settings.ofRaw raw with
  | some n, some settings =>
    if ¬(16 ≤ raw.limit.toNat ∧ raw.limit.toNat ≤ 1024) then s.answer tag .badArgument []
    else if s.engine ≠ .stopped then s.answer tag .inUse []
    else (s.putLane n (Lane.set settings)).answer tag .ok []
  | _, _ => s.answer tag .badArgument []

/-- SET_LANE (R11). -/
def execSetLane (tag lane : Byte) (raw : RawSettings) (s : State) : Answer :=
  requestStep { code := .setLane, tag, payload := lane :: raw.bytes } (ownSetLane tag lane raw) s

/-- The payload of the READ-LANE reply (R13, section 10.6.7). -/
def readLaneBytes (lane : Byte) (l : Lane) : List Byte :=
  lane :: l.settings.bytes ++ natBytes16 l.fifo.length ++ [boolByte l.gapPending, boolByte l.timer.isSome]

/-- The owner's part of READ-LANE (R13). -/
def ownReadLane (tag lane : Byte) (s : State) : State :=
  match laneOfByte lane with
  | some n => s.answer tag .ok (readLaneBytes lane (s.lane n))
  | none => s.answer tag .badArgument []

/-- READ_LANE (R13). -/
def execReadLane (tag lane : Byte) (s : State) : Answer :=
  requestStep { code := .readLane, tag, payload := [lane] } (ownReadLane tag lane) s

/-! ### FEED (R14, R15) -/

/-- The free places of a lane's FIFO. -/
def Lane.freePlaces (l : Lane) : Nat := 512 - l.fifo.length

/-- The entries of a FEED (R15): the first byte carries the gap-before mark. -/
def feedEntries (gap : Bool) : List Byte → List FifoEntry
  | [] => []
  | b :: bs => .byte b false gap :: bs.map (fun c => .byte c false false)

/-- A lane that has taken a FEED (R15). -/
def Lane.feed (l : Lane) (data : List Byte) (now : Stamp) : Lane :=
  { l with
    fifo := l.fifo ++ feedEntries l.gapPending data
    gapPending := false
    markerLast := false }.rearm now

/-- The owner's part of FEED (R14, R15): every reply carries the free places. -/
def ownFeed (tag lane : Byte) (data : List Byte) (s : State) : State :=
  match laneOfByte lane with
  | none => s.answer tag .badArgument (natBytes16 0)
  | some n =>
    let l := s.lane n
    if !l.settings.enabled then s.answer tag .laneOff (natBytes16 l.freePlaces)
    else if l.settings.source ≠ .link then s.answer tag .wrongSource (natBytes16 l.freePlaces)
    else if l.freePlaces < data.length then s.answer tag .fifoFull (natBytes16 l.freePlaces)
    else
      (s.putLane n (l.feed data s.timeStamp)).answer tag .ok
        (natBytes16 (l.feed data s.timeStamp).freePlaces)

/-- FEED (R14). -/
def execFeed (tag lane : Byte) (data : List Byte) (s : State) : Answer :=
  requestStep { code := .feed, tag, payload := lane :: data } (ownFeed tag lane data) s

/-! ### FLUSH-LANE (R16, R17) -/

/-- A lane whose flush has been taken (R17): the settings and the receiver are kept. -/
def Lane.flushed (l : Lane) : Lane :=
  { l with fifo := [], gapPending := false, markerLast := false, timer := none, ctx := Context.cleared }

/-- The scan engine holds the lane (R55). -/
def State.scanHolds (s : State) (n : Fin 4) : Bool :=
  match s.scan with
  | .free => false
  | .scanning m => decide (m = n)
  | .releasing m _ => decide (m = n)

/-- The flush of a lane is taken (R17): a grant of the lane ends, and a halt may be done by it (R141). -/
def State.flush (s : State) (n : Fin 4) : State :=
  let s' := s.putLane n (s.lane n).flushed
  if s.scanHolds n then ({ s' with scan := .free } : State).testHaltDone else s'

/-- The flush is taken and the number of entries removed is answered (R17). -/
def State.flushAndAnswer (s : State) (n : Fin 4) (tag : Byte) : State :=
  (s.flush n).answer tag .ok (natBytes16 (s.lane n).fifo.length)

/-- The owner's part of FLUSH-LANE (R16): at once, or waiting while the scan engine holds the lane. -/
def ownFlushLane (tag lane : Byte) (s : State) : State :=
  match laneOfByte lane with
  | none => s.answer tag .badArgument []
  | some n => if s.scanHolds n then s.holdFor (.flush n) else s.flushAndAnswer n tag

/-- FLUSH_LANE (R16). -/
def execFlushLane (tag lane : Byte) (s : State) : Answer :=
  requestStep { code := .flushLane, tag, payload := [lane] } (ownFlushLane tag lane) s

/-- A waiting flush of a lane can be taken (R16): the scan engine does not hold the lane, or is between entries of it
with the first entry of the grant processed, or has completed its release. -/
def State.flushReady (s : State) (n : Fin 4) : Bool :=
  match s.scan with
  | .free => true
  | .scanning m => decide (m ≠ n) || decide (1 ≤ s.taken)
  | .releasing m units => decide (m ≠ n) || units.isEmpty

/-- FLUSH_TAKEN (R16, R17). -/
def execFlushTaken (s : State) : Answer :=
  match s.link.state with
  | .held r (.flush n) => if s.flushReady n then .next (s.flushAndAnswer n r.tag) else .next s
  | .held _ .owner => .next s
  | .held _ (.tally _ _) => .next s
  | .idle => .next s
  | .receiving _ _ => .next s
  | .replying _ => .next s

end Sys2Proof.Machine
end

