-- ==== Sys2Proof/Machine/Tables.lean ====
section
/-! DEFINITION. LOAD-TABLE and READ-TABLE (chapter 2). -/

namespace Sys2Proof.Machine

/-- The entries of a LOAD-TABLE, when every class code is defined (R25 check 3, R26). -/
def tableEntriesOfRaw : List RawTableEntry → Option (List TableEntry)
  | [] => some []
  | r :: rs =>
    match TableEntry.ofRaw r, tableEntriesOfRaw rs with
    | some e, some es => some (e :: es)
    | _, _ => none

/-- A load is barred by use (R27, R51): the engine is not STOPPED and an enabled lane names the table or plan. -/
def State.barredByUse (s : State) (names : Lane → Bool) : Bool :=
  decide (s.engine ≠ .stopped) && s.someEnabled names

/-- The lanes whose contexts a load discards (R29, R52): while STOPPED, those that name what is loaded and are part
way. -/
def State.discardedBy (s : State) (names : Lane → Bool) (n : Fin 4) : Bool :=
  decide (s.engine = .stopped) && names (s.lane n) && (s.lane n).partWay

/-- The owner's part of LOAD-TABLE (R25 to R30). -/
def ownLoadTable (tag table first : Byte) (entries : List RawTableEntry) (s : State) : State :=
  match finOfByte 8 table with
  | none => s.answer tag .badArgument []
  | some t =>
    if 255 < first.toNat + entries.length - 1 then s.answer tag .badArgument []
    else match tableEntriesOfRaw entries with
      | none => s.answer tag .badArgument []
      | some es =>
        let names := fun (l : Lane) => decide (l.settings.table = t)
        if s.barredByUse names then s.answer tag .inUse []
        else
          let written := { s with tables := s.tables.set t (writeEntries s.tables[t] first.toNat es) }
          (written.discardContexts (s.discardedBy names)).answer tag .ok [laneSetByte (s.discardedBy names)]

/-- LOAD_TABLE (R24). -/
def execLoadTable (tag table first : Byte) (entries : List RawTableEntry) (s : State) : Answer :=
  requestStep
    { code := .loadTable, tag, payload := table :: first :: (entries.map RawTableEntry.bytes).flatten }
    (ownLoadTable tag table first entries) s

/-- `count` entries of a table from an index on, in index order (R32). -/
def readEntries (t : List (Nat × TableEntry)) : Nat → Nat → List TableEntry
  | _, 0 => []
  | first, count + 1 => tableEntry t first :: readEntries t (first + 1) count

/-- The owner's part of READ-TABLE (R31, R32). -/
def ownReadTable (tag table first count : Byte) (s : State) : State :=
  match finOfByte 8 table with
  | none => s.answer tag .badArgument []
  | some t =>
    if ¬(1 ≤ count.toNat ∧ count.toNat ≤ 112) then s.answer tag .badArgument []
    else if 255 < first.toNat + count.toNat - 1 then s.answer tag .badArgument []
    else
      s.answer tag .ok
        ([table, first, count]
          ++ ((readEntries s.tables[t] first.toNat count.toNat).map TableEntry.bytes).flatten)

/-- READ_TABLE (R31). -/
def execReadTable (tag table first count : Byte) (s : State) : Answer :=
  requestStep { code := .readTable, tag, payload := [table, first, count] } (ownReadTable tag table first count) s

end Sys2Proof.Machine
end

