-- ==== Sys2Proof/Machine/Plans.lean ====
section
/-! DEFINITION. LOAD-PLAN with its walk, and READ-PLAN (chapter 3). -/

namespace Sys2Proof.Machine

/-- An open group during the walk (R48): its REPEAT has count 0, and a field step has been met inside it. -/
structure OpenGroup where
  endless : Bool
  fieldMet : Bool
  deriving DecidableEq, Repr

/-- Every open group notes that a field step has been met (R48). -/
def noteField (groups : List OpenGroup) : List OpenGroup := groups.map (fun g => { g with fieldMet := true })

/-- Check 3 of the walk (R48) at a step, with the open groups (innermost first) and the steps after it: the fault found,
or the groups open after it. -/
def walkKind (groups : List OpenGroup) (after : List RawStep) : PlanStep → Except PlanFault (List OpenGroup)
  | .finish =>
    if !after.isEmpty then .error .finishEarly
    else if !groups.isEmpty then .error .unclosed
    else .ok groups
  | .repeatGroup n =>
    if 4 ≤ groups.length then .error .tooDeep
    else if n = 0 ∧ groups.length ≠ 0 then .error .openNested
    else .ok ({ endless := decide (n = 0), fieldMet := false } :: groups)
  | .again =>
    match groups with
    | [] => .error .strayAgain
    | g :: outer =>
      if g.endless then
        match after with
        | [] => if g.fieldMet then .ok outer else .error .openEmpty
        | next :: _ =>
          if next.kind ≠ 8 then .error .openNotLast
          else if g.fieldMet then .ok outer
          else .error .openEmpty
      else .ok outer
  | .matchLiteral _ .leave => if groups.isEmpty then .error .leaveOutside else .ok (noteField groups)
  | .matchLiteral _ .fault => .ok (noteField groups)
  | .key _ => .ok (noteField groups)
  | .value _ _ _ => .ok (noteField groups)
  | .skipField => .ok (noteField groups)
  | .post _ _ _ _ => .ok groups

/-- The walk from a step on (R48): the steps read, or the first fault with the index of its step. -/
def walkSteps (index : Nat) (groups : List OpenGroup) : List RawStep → Except (PlanFault × Nat) (List PlanStep)
  | [] => .ok []
  | r :: rest =>
    if !r.kindDefined then .error (.badKind, index)
    else match PlanStep.ofRaw r with
      | none => .error (.badParameter, index)
      | some step =>
        match walkKind groups rest step with
        | .error f => .error (f, index)
        | .ok groups' =>
          if rest.isEmpty && decide (step ≠ .finish) then .error (.noFinish, index)
          else match walkSteps (index + 1) groups' rest with
            | .error e => .error e
            | .ok steps => .ok (step :: steps)

/-- The walk through a whole plan (R48): the plan, or the first fault with its step index (absent for the header). -/
def walkPlan (startRequired tailPolicy : Byte) (steps : List RawStep) : Except (PlanFault × Option Nat) Plan :=
  match boolOfByte startRequired, TailPolicy.ofByte tailPolicy with
  | some sr, some tp =>
    match walkSteps 0 [] steps with
    | .error (f, i) => .error (f, some i)
    | .ok steps => .ok { startRequired := sr, tailPolicy := tp, steps }
  | _, _ => .error (.badHeader, none)

/-- The payload of a PLAN-INVALID reply: reason and step index, FFh when absent (section 10.5). -/
def planInvalidBytes (f : PlanFault) (index : Option Nat) : List Byte :=
  [f.byte, match index with
    | some i => natByte i
    | none => 0xFF]

/-- The owner's part of LOAD-PLAN (R50 to R52). -/
def ownLoadPlan (tag plan startRequired tailPolicy : Byte) (steps : List RawStep) (s : State) : State :=
  match finOfByte 8 plan with
  | none => s.answer tag .badArgument []
  | some p =>
    match walkPlan startRequired tailPolicy steps with
    | .error (f, i) => s.answer tag .planInvalid (planInvalidBytes f i)
    | .ok read =>
      let names := fun (l : Lane) => decide (l.settings.plan = p)
      if s.barredByUse names then s.answer tag .inUse []
      else
        let stored := { s with plans := s.plans.set p (some read) }
        (stored.discardContexts (s.discardedBy names)).answer tag .ok [laneSetByte (s.discardedBy names)]

/-- LOAD_PLAN (R49). -/
def execLoadPlan (tag plan startRequired tailPolicy : Byte) (steps : List RawStep) (s : State) : Answer :=
  requestStep
    { code := .loadPlan, tag
      payload := plan :: startRequired :: tailPolicy :: (steps.map RawStep.bytes).flatten }
    (ownLoadPlan tag plan startRequired tailPolicy steps) s

/-- The payload of the READ-PLAN reply (R53). -/
def readPlanBytes (plan : Byte) : Option Plan → List Byte
  | none => [plan, 0]
  | some p =>
    [plan, 1, boolByte p.startRequired, p.tailPolicy.byte] ++ (p.steps.map PlanStep.bytes).flatten

/-- The owner's part of READ-PLAN (R53). -/
def ownReadPlan (tag plan : Byte) (s : State) : State :=
  match finOfByte 8 plan with
  | none => s.answer tag .badArgument []
  | some p => s.answer tag .ok (readPlanBytes plan s.plans[p])

/-- READ_PLAN (R53). -/
def execReadPlan (tag plan : Byte) (s : State) : Answer :=
  requestStep { code := .readPlan, tag, payload := [plan] } (ownReadPlan tag plan) s

end Sys2Proof.Machine
end

