-- ==== Sys2Proof/Machine/Convert.lean ====
section
/-! DEFINITION. The conversions DECIMAL, HEX and RAW (section 3.3). -/

namespace Sys2Proof.Machine

/-- What DECIMAL has read of a field so far (R44): the digits as one number, how many they are, and how many stand after
the point (`none` before a point). -/
structure DecimalRead where
  number : Nat
  digits : Nat
  fraction : Option Nat
  deriving DecidableEq, Repr

/-- The value of a decimal digit, 30h to 39h. -/
def decimalDigit (b : Byte) : Option Nat :=
  if 0x30 ≤ b.toNat ∧ b.toNat ≤ 0x39 then some (b.toNat - 0x30) else none

/-- DECIMAL reads the translations after the sign (R44). -/
def readDecimal : DecimalRead → List Byte → Option DecimalRead
  | r, [] => some r
  | r, b :: bs =>
    match decimalDigit b with
    | some d =>
      readDecimal { number := r.number * 10 + d, digits := r.digits + 1, fraction := r.fraction.map (· + 1) } bs
    | none =>
      if b = 0x2E then
        match r.fraction with
        | none => readDecimal { r with fraction := some 0 } bs
        | some _ => none
      else none

/-- The whole number DECIMAL reads, with `f` fraction digits and no sign (R44). -/
def decimalMagnitude (f : Nat) (field : List Byte) : Option Nat :=
  match readDecimal { number := 0, digits := 0, fraction := none } field with
  | none => none
  | some r =>
    let after := r.fraction.getD 0
    if r.digits = 0 ∨ f < after then none else some (r.number * 10 ^ (f - after))

/-- The number DECIMAL reads with an optional sign (R44). -/
def decimalNumber (f : Nat) (field : List Byte) : Option Int :=
  match field with
  | [] => none
  | b :: bs =>
    if b = 0x2D then (decimalMagnitude f bs).map (fun n => -(n : Int))
    else if b = 0x2B then (decimalMagnitude f bs).map Int.ofNat
    else (decimalMagnitude f (b :: bs)).map Int.ofNat

/-- The value of a hexadecimal digit in either case (R45). -/
def hexDigit (b : Byte) : Option Nat :=
  if 0x30 ≤ b.toNat ∧ b.toNat ≤ 0x39 then some (b.toNat - 0x30)
  else if 0x41 ≤ b.toNat ∧ b.toNat ≤ 0x46 then some (b.toNat - 0x41 + 10)
  else if 0x61 ≤ b.toNat ∧ b.toNat ≤ 0x66 then some (b.toNat - 0x61 + 10)
  else none

/-- The number hexadecimal digits give, most significant first (R45). -/
def hexNumber : Nat → List Byte → Option Nat
  | n, [] => some n
  | n, b :: bs =>
    match hexDigit b with
    | some d => hexNumber (n * 16 + d) bs
    | none => none

/-- The number translations give in base 256, most significant first (R46). -/
def rawNumber (field : List Byte) : Nat := field.foldl (fun n b => n * 256 + b.toNat) 0

/-- A field has from 1 to `most` translations. -/
def fieldFits (most : Nat) (field : List Byte) : Bool := decide (1 ≤ field.length ∧ field.length ≤ most)

/-- The number a KEY step reads (R43 to R46), before its range is checked. -/
def keyNumber (c : Conversion) (field : List Byte) : Option Nat :=
  match c with
  | .decimal => decimalMagnitude 0 field
  | .hex => if fieldFits 8 field then hexNumber 0 field else none
  | .raw => if fieldFits 4 field then some (rawNumber field) else none

/-- The key a KEY step reads: the number, when it lies in the key range (R43). -/
def convertKey (c : Conversion) (field : List Byte) : Option Key :=
  match keyNumber c field with
  | some n => if n ≤ 4294967295 then some (BitVec.ofNat 32 n) else none
  | none => none

/-- The number a VALUE step reads (R43 to R46), before its range is checked. -/
def valueNumber (c : Conversion) (f : Nat) (field : List Byte) : Option Int :=
  match c with
  | .decimal => decimalNumber f field
  | .hex => if fieldFits 12 field then (hexNumber 0 field).map Int.ofNat else none
  | .raw => if fieldFits 6 field then some (Int.ofNat (rawNumber field)) else none

/-- The value a VALUE step reads: the number, when it lies in the value range (R43). -/
def convertValue (c : Conversion) (f : Nat) (field : List Byte) : Option Value :=
  match valueNumber c f field with
  | some n =>
    if -140737488355328 ≤ n ∧ n ≤ 140737488355327 then some (BitVec.ofInt 48 n) else none
  | none => none

end Sys2Proof.Machine
end

