-- ==== Sys2Proof/Machine/Route.lean ====
section
/-! DEFINITION. The route map: the lookup (R82, R83) and SET-WINDOW, CLEAR-WINDOW, READ-WINDOW, LOOKUP (chapter 5). -/

namespace Sys2Proof.Machine

/-- The key lies in the window's range (R80). -/
def Window.holds (w : Window) (key : Nat) : Bool := decide (w.base.toNat ≤ key ∧ key ≤ w.limit.toNat)

/-- The first window that meets a condition, with its index, counting from `i`. -/
def findWindow (p : Nat → Window → Bool) : Nat → List (Option Window) → Option (Nat × Window)
  | _, [] => none
  | i, none :: ws => findWindow p (i + 1) ws
  | i, some w :: ws => if p i w then some (i, w) else findWindow p (i + 1) ws

/-- The result of a lookup (R83). -/
inductive LookupResult where
  | routed (group : Nat)
  | miss (level : Nat)
  deriving DecidableEq, Repr

/-- A lookup from a level on (R82), visiting at most `visits` windows: the result and the windows visited, in order. -/
def lookupFrom (windows : List (Option Window)) : Nat → Fin 4 → Nat → LookupResult × List Nat
  | 0, level, _ => (.miss level, [])
  | visits + 1, level, key =>
    match findWindow (fun _ w => decide (w.level = level) && w.holds key) 0 windows with
    | none => (.miss level, [])
    | some (i, w) =>
      match w.kind with
      | .single g => (.routed g.toNat, [i])
      | .spread g => (.routed (g.toNat + (key - w.base.toNat)), [i])
      | .descend target rebase =>
        let r := lookupFrom windows visits target (if rebase then key - w.base.toNat else key)
        (r.1, i :: r.2)

/-- A lookup (R82): from level 0, at most one window at each of the four levels. -/
def lookupKey (windows : Vector (Option Window) 128) (key : Nat) : LookupResult × List Nat :=
  lookupFrom windows.toList 4 0 key

/-- Two ranges intersect (R86). -/
def Window.intersects (w v : Window) : Bool :=
  decide (w.base.toNat ≤ v.limit.toNat ∧ v.base.toNat ≤ w.limit.toNat)

/-- The lowest-numbered valid window of the same level, other than the one at the index written, whose range intersects
(R86). -/
def overlapping (windows : Vector (Option Window) 128) (index : Nat) (w : Window) : Option Nat :=
  (findWindow (fun i v => decide (i ≠ index) && decide (v.level = w.level) && w.intersects v) 0
    windows.toList).map Prod.fst

/-- The owner's part of SET-WINDOW (R85 to R87). -/
def ownSetWindow (tag : Byte) (raw : RawWindow) (s : State) : State :=
  match finOfByte 128 raw.index, Window.ofRaw raw with
  | some i, some w =>
    match overlapping s.windows i w with
    | some j => s.answer tag .overlap [natByte j]
    | none =>
      { s with windows := s.windows.set i (some w) }.answer tag .ok
        [raw.index, boolByte s.windows[i].isSome]
  | _, _ => s.answer tag .badArgument []

/-- SET_WINDOW (R85). -/
def execSetWindow (tag : Byte) (raw : RawWindow) (s : State) : Answer :=
  requestStep { code := .setWindow, tag, payload := raw.bytes } (ownSetWindow tag raw) s

/-- The owner's part of CLEAR-WINDOW (R88). -/
def ownClearWindow (tag index : Byte) (s : State) : State :=
  match finOfByte 128 index with
  | none => s.answer tag .badArgument []
  | some i =>
    { s with windows := s.windows.set i none }.answer tag .ok [index, boolByte s.windows[i].isSome]

/-- CLEAR_WINDOW (R88). -/
def execClearWindow (tag index : Byte) (s : State) : Answer :=
  requestStep { code := .clearWindow, tag, payload := [index] } (ownClearWindow tag index) s

/-- The owner's part of READ-WINDOW (R89). -/
def ownReadWindow (tag index : Byte) (s : State) : State :=
  match finOfByte 128 index with
  | none => s.answer tag .badArgument []
  | some i => s.answer tag .ok (windowBytes index s.windows[i])

/-- READ_WINDOW (R89). -/
def execReadWindow (tag index : Byte) (s : State) : Answer :=
  requestStep { code := .readWindow, tag, payload := [index] } (ownReadWindow tag index) s

/-- The payload of the LOOKUP reply (R90, section 10.5). -/
def lookupBytes (r : LookupResult × List Nat) : List Byte :=
  (match r.1 with
    | .routed g => [0] ++ natBytes16 g ++ [0xFF]
    | .miss level => [1, 0xFF, 0xFF, natByte level])
  ++ [natByte r.2.length] ++ r.2.map natByte

/-- The owner's part of LOOKUP (R90). -/
def ownLookup (tag : Byte) (key : Key) (s : State) : State :=
  s.answer tag .ok (lookupBytes (lookupKey s.windows key.toNat))

/-- LOOKUP (R90). -/
def execLookup (tag : Byte) (key : Key) (s : State) : Answer :=
  requestStep { code := .lookup, tag, payload := bytes32 key } (ownLookup tag key) s

end Sys2Proof.Machine
end

