-- ==== Sys2Proof/Machine/Scan.lean ====
section
/-! DEFINITION. The scan engine (chapter 4): how an entry is processed in a scan context, and the events ARBITER_GRANT,
SCAN_ENTRY and UNIT_ADMITTED. -/

namespace Sys2Proof.Machine

/-- What the scan engine reads beside a context: the lane's code table, its plan and its record length limit, and the
route map. -/
structure ScanEnv where
  table : List (Nat × TableEntry)
  plan : Plan
  limit : Nat
  windows : Vector (Option Window) 128
  deriving DecidableEq, Repr

/-! ### Steps and the cursor (sections 4.4, 4.5) -/

/-- The step after the AGAIN that closes the group `depth` levels out (0: the group in hand), searching the steps from
`index` on. -/
def afterAgain : Nat → Nat → List PlanStep → Nat
  | index, _, [] => index
  | index, depth, .again :: steps =>
    match depth with
    | 0 => index + 1
    | d + 1 => afterAgain (index + 1) d steps
  | index, depth, .repeatGroup _ :: steps => afterAgain (index + 1) (depth + 1) steps
  | index, depth, .key _ :: steps => afterAgain (index + 1) depth steps
  | index, depth, .value _ _ _ :: steps => afterAgain (index + 1) depth steps
  | index, depth, .skipField :: steps => afterAgain (index + 1) depth steps
  | index, depth, .matchLiteral _ _ :: steps => afterAgain (index + 1) depth steps
  | index, depth, .post _ _ _ _ :: steps => afterAgain (index + 1) depth steps
  | index, depth, .finish :: steps => afterAgain (index + 1) depth steps

/-- The step after the AGAIN of the group that holds step `from'`. -/
def Plan.afterGroup (p : Plan) (from' : Nat) : Nat := afterAgain from' 0 (p.steps.drop from')

/-- The index ADD-INDEX adds: the innermost group's completed repetitions, 0 outside every group (R41, R69). -/
def Context.addedIndex (c : Context) : Nat :=
  match c.stack with
  | [] => 0
  | e :: _ => e.completed

/-- The group a POST finds, `none` for a miss (R69, points 2 and 3). -/
def postGroup (windows : Vector (Option Window) 128) (key : Key) (added offset : Nat) : Option Group :=
  if 4294967295 < key.toNat + added then none
  else match (lookupKey windows (key.toNat + added)).1 with
    | .miss _ => none
    | .routed g => if 65488 ≤ g + offset then none else some (BitVec.ofNat 16 (g + offset))

/-- A pending entry at the end of the list, unless it holds 16 (R70). -/
def Context.pend (c : Context) (p : Pending) : Except RecordOutcome Context :=
  if 16 ≤ c.posts.length then .error .postLimit else .ok { c with posts := c.posts ++ [p] }

/-- A POST step (R69, R70): the context with its pending entry, or the outcome that ends the record. -/
def Context.post (env : ScanEnv) (c : Context) (slot : Fin 4) (offset : Fin 8) (addIndex rejectUnrouted : Bool) :
    Except RecordOutcome Context :=
  match c.key, c.slots[slot] with
  | some key, some v =>
    match postGroup env.windows key (if addIndex then c.addedIndex else 0) offset with
    | some g => c.pend (.post g v)
    | none => if rejectUnrouted then .error .unrouted else c.pend (.unrouted v)
  | _, _ => .error .short

/-- An AGAIN step (R68): the completed repetitions index increases, not past 255, and the cursor returns or moves on. -/
def Context.again (c : Context) : Context :=
  match c.stack with
  | [] => { c with cursor := c.cursor + 1 }
  | e :: outer =>
    let e := { e with completed := if 255 ≤ e.completed then e.completed else e.completed + 1 }
    if e.remaining = 0 then { c with cursor := e.first, stack := e :: outer, boundary := true }
    else if e.remaining = 1 then { c with cursor := c.cursor + 1, stack := outer }
    else { c with cursor := e.first, stack := { e with remaining := e.remaining - 1 } :: outer }

/-- A REPEAT step (R67): a new entry is pushed and the cursor moves on. -/
def Context.repeatGroup (c : Context) (count : Byte) : Context :=
  { c with
    cursor := c.cursor + 1
    stack := { first := c.cursor + 1, remaining := count.toNat, completed := 0 } :: c.stack }

/-- The cursor comes to a step and runs on through non-field steps (R67), to a field step, to FINISH, or to the end of
the record. `fuel` bounds the steps carried out (log entry 21). -/
def runCursor (env : ScanEnv) : Nat → Context → Context × Option RecordOutcome
  | 0, c => (c, none)
  | fuel + 1, c =>
    match env.plan.steps[c.cursor]? with
    | none => (c, none)
    | some (.key _) => (c, none)
    | some (.value _ _ _) => (c, none)
    | some .skipField => (c, none)
    | some (.matchLiteral _ _) => (c, none)
    | some .finish => ({ c with complete := true }, none)
    | some (.repeatGroup n) => runCursor env fuel (c.repeatGroup n)
    | some .again => runCursor env fuel c.again
    | some (.post slot offset addIndex rejectUnrouted) =>
      match c.post env slot offset addIndex rejectUnrouted with
      | .error o => (c, some o)
      | .ok c' => runCursor env fuel { c' with cursor := c'.cursor + 1 }

/-- More steps than any run of a stored plan takes: 18 steps, groups nested 4 deep, each repeated at most 255 times
(log entry 21). -/
def runFuel : Nat := 2 ^ 38

/-- The run of R67 from where the cursor stands. -/
def Context.run (env : ScanEnv) (c : Context) : Context × Option RecordOutcome := runCursor env runFuel c

/-- A field step consumes the field in the buffer (R37 to R39): the context with the cursor moved, or the outcome. -/
def Context.consume (env : ScanEnv) (c : Context) : Except RecordOutcome Context :=
  match env.plan.steps[c.cursor]? with
  | some (.key conversion) =>
    match convertKey conversion c.field with
    | some k => .ok { c with key := some k, cursor := c.cursor + 1 }
    | none => .error .convert
  | some (.value conversion slot f) =>
    match convertValue conversion f c.field with
    | some v => .ok { c with slots := c.slots.set slot (some v), cursor := c.cursor + 1 }
    | none => .error .convert
  | some .skipField => .ok { c with cursor := c.cursor + 1 }
  | some (.matchLiteral literal onMiss) =>
    if c.field = literal then .ok { c with cursor := c.cursor + 1 }
    else match onMiss with
      | .fault => .error .mismatch
      | .leave => .ok { c with stack := c.stack.tail, cursor := env.plan.afterGroup c.cursor }
  | some (.repeatGroup _) => .ok c
  | some .again => .ok c
  | some (.post _ _ _ _) => .ok c
  | some .finish => .ok c
  | none => .ok c

/-- A field ends (R66): the tail policy deals with it once the plan is complete, else the field step at the cursor
consumes it and the cursor runs on. The field buffer is emptied in every case. -/
def Context.endField (env : ScanEnv) (c : Context) : Context × Option RecordOutcome :=
  if c.complete then
    ({ c with field := [] },
      if env.plan.tailPolicy = .strict ∧ c.field ≠ [] then some .overlong else none)
  else match c.consume env with
    | .error o => ({ c with field := [] }, some o)
    | .ok c' => Context.run env { c' with field := [], boundary := false }

/-! ### Records (sections 4.3, 4.6, 4.7) -/

/-- The unit formed when a record ends (R72). -/
def Context.unit (c : Context) (o : RecordOutcome) : FinishedUnit where
  outcome := o
  length := c.length
  posts := if o = .accepted then c.posts else []

/-- The context after a record ends, in the state it is left in: the pending post list is emptied as the unit is formed
(R72). -/
def Context.leave (c : Context) (state : CtxState) : Context := { c with state, posts := [] }

/-- The class and translation of a byte value through the lane's table (R21). -/
def ScanEnv.look (env : ScanEnv) (value : Byte) : TableEntry := tableEntry env.table value.toNat

/-- Beginning a record, steps 1 and 2 of R60: the context is cleared, the first byte is counted, IN-RECORD. -/
def Context.begun : Context := { Context.cleared with state := .inRecord, length := 1 }

/-- The state a record's end leaves the context in, before its entry is handled further (R73). -/
def RecordOutcome.stateAfter : RecordOutcome → CtxState
  | .accepted => .await
  | .short => .await
  | .truncated => .await
  | .broken => .inRecord
  | .mismatch => .resync
  | .convert => .resync
  | .byteFault => .resync
  | .gap => .resync
  | .overlong => .resync
  | .postLimit => .resync
  | .unrouted => .resync

/-- A record ends with an outcome while its context is being brought through an entry. -/
def Context.finish (c : Context) (o : RecordOutcome) : Context × List FinishedUnit :=
  (c.leave o.stateAfter, [c.unit o])

/-- A context brought so far, and the outcome that ended its record, if any. -/
def settleRecord (r : Context × Option RecordOutcome) : Context × List FinishedUnit :=
  match r.2 with
  | none => (r.1, [])
  | some o => r.1.finish o

/-- A record begins (R60) at a byte of the entry given. -/
def beginRecord (env : ScanEnv) (e : TableEntry) : Context × List FinishedUnit :=
  match Context.run env Context.begun with
  | (c, some o) => c.finish o
  | (c, none) =>
    match e.cls with
    | .data => ({ c with field := c.field ++ [e.translation] }, [])
    | .sep => settleRecord (c.endField env)
    | .start => (c, [])
    | .skip => (c, [])
    | .fin => (c, [])
    | .fault => (c, [])

/-- An entry in RESYNC (R74); a gap-before mark is ignored. -/
def inResync (env : ScanEnv) (c : Context) : FifoEntry → Context × List FinishedUnit
  | .idleEnd _ => ({ c with state := .await }, [])
  | .byte _ true _ => (c, [])
  | .byte value false _ =>
    match (env.look value).cls with
    | .fin => ({ c with state := .await }, [])
    | .start => beginRecord env (env.look value)
    | .data => (c, [])
    | .sep => (c, [])
    | .skip => (c, [])
    | .fault => (c, [])

/-- An entry in AWAIT (R61); a gap-before mark is ignored. -/
def inAwait (env : ScanEnv) (c : Context) : FifoEntry → Context × List FinishedUnit
  | .idleEnd _ => (c, [])
  | .byte _ true _ => (c, [])
  | .byte value false _ =>
    match (env.look value).cls with
    | .start => beginRecord env (env.look value)
    | .data => if env.plan.startRequired then (c, []) else beginRecord env (env.look value)
    | .sep => if env.plan.startRequired then (c, []) else beginRecord env (env.look value)
    | .skip => (c, [])
    | .fin => (c, [])
    | .fault => (c, [])

/-- A record ends with an outcome, and the entry that caused it is handled as R73 gives: in RESYNC for the faults that
leave the context there, and not at all for the others. -/
def faultRecord (env : ScanEnv) (c : Context) (o : RecordOutcome) (entry : FifoEntry) : Context × List FinishedUnit :=
  let r := c.finish o
  match o.stateAfter with
  | .resync =>
    let r' := inResync env r.1 entry
    (r'.1, r.2 ++ r'.2)
  | .await => r
  | .inRecord => r

/-- A record is ended at END (R71), its last field having been dealt with. -/
def endAtEnd (env : ScanEnv) (c : Context) : Context × List FinishedUnit :=
  if c.complete then c.finish .accepted
  else if c.boundary then
    match c.stack.dropWhile (fun e => e.remaining ≠ 0) with
    | e :: outer =>
      { c with stack := outer, cursor := env.plan.afterGroup e.first, complete := true }.finish .accepted
    | [] => { c with complete := true }.finish .accepted
  else c.finish .short

/-- A field is ended by a byte within a record (R66); an outcome it gives is dealt with under R73. -/
def endFieldBy (env : ScanEnv) (c : Context) (entry : FifoEntry) : Context × Option (Context × List FinishedUnit) :=
  match c.endField env with
  | (c', some o) => (c', some (faultRecord env c' o entry))
  | (c', none) => (c', none)

/-- A counted byte without a line error, by its class (R64). -/
def byClass (env : ScanEnv) (c : Context) (e : TableEntry) (entry : FifoEntry) : Context × List FinishedUnit :=
  match e.cls with
  | .data =>
    if 32 ≤ c.field.length then faultRecord env c .overlong entry
    else ({ c with field := c.field ++ [e.translation] }, [])
  | .skip => (c, [])
  | .sep =>
    match endFieldBy env c entry with
    | (_, some r) => r
    | (c', none) => (c', [])
  | .fin =>
    match endFieldBy env c entry with
    | (_, some r) => r
    | (c', none) => endAtEnd env c'
  | .start =>
    let r := beginRecord env e
    (r.1, { c with length := c.length - 1 }.unit .broken :: r.2)
  | .fault => faultRecord env c .byteFault entry

/-- A byte in IN-RECORD without a gap-before mark (R63): counted, unless that would pass the limit. -/
def countByte (env : ScanEnv) (c : Context) (value : Byte) (lineError : Bool) (entry : FifoEntry) :
    Context × List FinishedUnit :=
  if env.limit < c.length + 1 then faultRecord env c .overlong entry
  else
    let c := { c with length := c.length + 1 }
    if lineError then faultRecord env c .byteFault entry
    else byClass env c (env.look value) entry

/-- An entry in IN-RECORD (R62). -/
def inRecord (env : ScanEnv) (c : Context) (entry : FifoEntry) : Context × List FinishedUnit :=
  match entry with
  | .idleEnd true => faultRecord env c .gap entry
  | .byte _ _ true => faultRecord env c .gap entry
  | .idleEnd false => c.finish .truncated
  | .byte value lineError false => countByte env c value lineError entry

/-- An entry is processed completely, according to the state of the context when it is taken (section 4.3): the context
after it, and the units of the records it ended, the earlier first (R75). -/
def processEntry (env : ScanEnv) (c : Context) (entry : FifoEntry) : Context × List FinishedUnit :=
  match c.state with
  | .await => inAwait env c entry
  | .inRecord => inRecord env c entry
  | .resync => inResync env c entry

/-! ### The arbiter (R56) -/

/-- A lane is eligible: enabled, with an entry in its FIFO. -/
def Lane.eligible (l : Lane) : Bool := l.settings.enabled && !l.fifo.isEmpty

/-- The lanes in the order the arbiter considers them. -/
def arbiterOrder (last : Fin 4) : List (Fin 4) := [last + 1, last + 2, last + 3, last]

/-- The lane the arbiter grants, if any: the engine RUNNING, the scan engine FREE, and no flush waiting, which is taken
before any new grant (R16). -/
def State.arbiterChoice (s : State) : Option (Fin 4) :=
  if s.engine = .running ∧ s.scan = .free ∧ s.flushWaiting = none then
    (arbiterOrder s.lastGranted).find? (fun n => (s.lane n).eligible)
  else none

/-- ARBITER_GRANT (R56). -/
def execArbiterGrant (s : State) : Answer :=
  match s.arbiterChoice with
  | some n => .next { s with scan := .scanning n, lastGranted := n, taken := 0 }
  | none => .next s

/-! ### Taking an entry (R57) -/

/-- A grant-end condition of R57 holds, after an entry that ended no record. -/
def State.grantEnds (s : State) (n : Fin 4) : Bool :=
  (s.lane n).fifo.isEmpty || decide (64 ≤ s.taken) || decide (s.engine ≠ .running)
    || decide (s.flushWaiting = some n)

/-- After an entry has been processed (R57): release, next entry, or end of the grant. -/
def State.afterEntry (s : State) (n : Fin 4) (units : List FinishedUnit) : State :=
  if !units.isEmpty then { s with scan := .releasing n units }
  else if s.grantEnds n then ({ s with scan := .free } : State).testHaltDone
  else s

/-- What the scan engine reads for a lane. -/
def State.scanEnv (s : State) (n : Fin 4) (plan : Plan) : ScanEnv where
  table := s.tables[(s.lane n).settings.table]
  plan := plan
  limit := (s.lane n).settings.limit.toNat
  windows := s.windows

/-- The oldest entry of a granted lane is taken and processed (R57). -/
def State.takeEntry (s : State) (n : Fin 4) (plan : Plan) (entry : FifoEntry) (rest : List FifoEntry) : State :=
  let r := processEntry (s.scanEnv n plan) (s.lane n).ctx entry
  State.afterEntry { s.putLane n { s.lane n with fifo := rest, ctx := r.1 } with taken := s.taken + 1 } n r.2

/-- SCAN_ENTRY (R57). Without a plan for the lane there is no reading: log entry 22. -/
def execScanEntry (s : State) : Answer :=
  match s.scan with
  | .scanning n =>
    match (s.lane n).fifo with
    | [] => .next s
    | entry :: rest =>
      match s.plans[(s.lane n).settings.plan] with
      | some plan => .next (s.takeEntry n plan entry rest)
      | none => .fault .scanWithoutPlan
  | .free => .next s
  | .releasing _ _ => .next s

/-! ### Releasing (R76 to R78) -/

/-- The lane group base (R76). -/
def laneGroupBase (n : Fin 4) : Nat := 65488 + 12 * n.val

/-- The queue entry a pending entry becomes (R76). -/
def pendingEntry (n : Fin 4) : Pending → QueueEntry
  | .post g v => { group := g, kind := .post v, origin := .engine }
  | .unrouted v => { group := BitVec.ofNat 16 (laneGroupBase n + 11), kind := .post v, origin := .engine }

/-- The outcome entry of a unit (R76). -/
def outcomeEntry (n : Fin 4) (u : FinishedUnit) : QueueEntry where
  group := BitVec.ofNat 16 (laneGroupBase n + u.outcome.code)
  kind := .post (BitVec.ofNat 48 u.length)
  origin := .engine

/-- The queue entries of a unit, in its order (R76). -/
def unitEntries (n : Fin 4) (u : FinishedUnit) : List QueueEntry :=
  u.posts.map (pendingEntry n) ++ [outcomeEntry n u]

/-- The notice of an admitted unit, if any (R78). -/
def State.notifyFault (s : State) (n : Fin 4) (u : FinishedUnit) : State :=
  if u.outcome ≠ .accepted ∧ (s.lane n).settings.faultNotices = true then
    s.notify (.recordFault n u.outcome u.length)
  else s

/-- The scan engine after a unit has been admitted (R78): it goes on releasing, waits for a flush of this lane to be
taken, or becomes FREE. -/
def State.afterAdmission (s : State) (n : Fin 4) (units : List FinishedUnit) : State :=
  if units.isEmpty ∧ s.flushWaiting ≠ some n then ({ s with scan := .free } : State).testHaltDone
  else { s with scan := .releasing n units }

/-- UNIT_ADMITTED (R77, R78): the oldest unit held is admitted whole, when the queue then holds no more than 28
entries (R115). -/
def execUnitAdmitted (s : State) : Answer :=
  match s.scan with
  | .releasing n (u :: units) =>
    if s.store.queue.length + (unitEntries n u).length ≤ 28 then
      let s' := s.withStore { s.store with queue := s.store.queue ++ unitEntries n u }
      .next ((s'.notifyFault n u).afterAdmission n units)
    else .next s
  | .releasing _ [] => .next s
  | .free => .next s
  | .scanning _ => .next s

end Sys2Proof.Machine
end

