-- ==== Sys2Proof/Machine/Tally.lean ====
section
/-! DEFINITION. READ-TALLY, CLEAR-TALLY, CLEAR-FLAGS (chapter 6), CONFIGURE-STORE and CLEAR-STORE (chapter 7). -/

namespace Sys2Proof.Machine

/-- `n` consecutive groups from the first on. -/
def groupsFrom : Nat → Nat → List Nat
  | _, 0 => []
  | first, n + 1 => first :: groupsFrom (first + 1) n

/-- LINK entries of one kind for a list of groups (R101, R107, R109). -/
def linkEntries (kind : EntryKind) (groups : List Nat) : List QueueEntry :=
  groups.map (fun g => { group := BitVec.ofNat 16 g, kind, origin := .link })

/-- A tally request that has passed its own checks is refused or admitted whole (R116), and an admitted one is held until
its entries have completed (R158). -/
def State.admitTally (s : State) (tag : Byte) (entries : List QueueEntry) : State :=
  if s.store.state = .uninitialised then s.answer tag .storeNotReady []
  else if s.store.state = .clearing then s.answer tag .storeBusy []
  else if 32 - entries.length < s.store.queue.length then s.answer tag .queueFull []
  else
    (s.withStore { s.store with queue := s.store.queue ++ entries }).holdFor (.tally entries.length [])

/-- The owner's part of READ-TALLY (R101). -/
def ownReadTally (tag : Byte) (first : Group) (count width shift clearAfter : Byte) (s : State) : State :=
  if ¬(1 ≤ count.toNat ∧ count.toNat ≤ 6) then s.answer tag .badArgument []
  else if 65535 < first.toNat + count.toNat - 1 then s.answer tag .badArgument []
  else match ReadWidth.ofByte width with
    | none => s.answer tag .badArgument []
    | some w =>
      if 16 < shift.toNat then s.answer tag .badArgument []
      else match boolOfByte clearAfter with
        | none => s.answer tag .badArgument []
        | some clear =>
          s.admitTally tag (linkEntries (.read w shift.toNat clear) (groupsFrom first.toNat count.toNat))

/-- READ_TALLY (R101). -/
def execReadTally (tag : Byte) (first : Group) (count width shift clearAfter : Byte) (s : State) : Answer :=
  requestStep
    { code := .readTally, tag, payload := bytes16 first ++ [count, width, shift, clearAfter] }
    (ownReadTally tag first count width shift clearAfter) s

/-- The owner's part of CLEAR-TALLY (R107). -/
def ownClearTally (tag : Byte) (first : Group) (count : Byte) (s : State) : State :=
  if ¬(1 ≤ count.toNat ∧ count.toNat ≤ 16) then s.answer tag .badArgument []
  else if 65535 < first.toNat + count.toNat - 1 then s.answer tag .badArgument []
  else s.admitTally tag (linkEntries .clear (groupsFrom first.toNat count.toNat))

/-- CLEAR_TALLY (R107). -/
def execClearTally (tag : Byte) (first : Group) (count : Byte) (s : State) : Answer :=
  requestStep { code := .clearTally, tag, payload := bytes16 first ++ [count] } (ownClearTally tag first count) s

/-- The owner's part of CLEAR-FLAGS (R109). -/
def ownClearFlags (tag : Byte) (group : Group) (s : State) : State :=
  s.admitTally tag (linkEntries .clearFlags [group.toNat])

/-- CLEAR_FLAGS (R109). -/
def execClearFlags (tag : Byte) (group : Group) (s : State) : Answer :=
  requestStep { code := .clearFlags, tag, payload := bytes16 group } (ownClearFlags tag group) s

/-- The owner's part of CONFIGURE-STORE (R131, R132). -/
def ownConfigureStore (tag sumMode rowPolicy : Byte) (s : State) : State :=
  match SumMode.ofByte sumMode, RowPolicy.ofByte rowPolicy with
  | some m, some p =>
    if s.engine ≠ .stopped ∨ s.store.state = .clearing then s.answer tag .wrongState []
    else { s with store := { s.store with sumMode := m, rowPolicy := p } }.answer tag .ok []
  | _, _ => s.answer tag .badArgument []

/-- CONFIGURE_STORE (R131). -/
def execConfigureStore (tag sumMode rowPolicy : Byte) (s : State) : Answer :=
  requestStep { code := .configureStore, tag, payload := [sumMode, rowPolicy] }
    (ownConfigureStore tag sumMode rowPolicy) s

/-- The store when a clear begins (R133, R134): no row write completed, catching up where CATCH-UP was (R130). -/
def Store.beginClear (st : Store) : Store :=
  { st with state := .clearing, rowsDone := 0, catchingUp := decide (st.state = .catchUp) }

/-- The owner's part of CLEAR-STORE (R133). -/
def ownClearStore (tag : Byte) (s : State) : State :=
  if s.engine ≠ .stopped ∨ s.store.state = .clearing then s.answer tag .wrongState []
  else (s.withStore s.store.beginClear).answer tag .accepted []

/-- CLEAR_STORE (R133). -/
def execClearStore (tag : Byte) (s : State) : Answer :=
  requestStep { code := .clearStore, tag, payload := [] } (ownClearStore tag) s

end Sys2Proof.Machine
end

