-- ==== Sys2Proof/Machine/Dispatch.lean ====
section
/-! DEFINITION. The one match from commands to their meanings. -/

namespace Sys2Proof.Machine

/-- The effect of a command on everything but the queue of commands. -/
def exec (i : Instr) (s : State) : Host.Outcome State Fault Refusal :=
  match i with
  | .identify tag => Sys2Proof.Machine.execIdentify tag s
  | .status tag => Sys2Proof.Machine.execStatus tag s
  | .start tag => Sys2Proof.Machine.execStart tag s
  | .halt tag => Sys2Proof.Machine.execHalt tag s
  | .reset tag => Sys2Proof.Machine.execReset tag s
  | .fetchNotices tag maximum => Sys2Proof.Machine.execFetchNotices tag maximum s
  | .setLane tag lane settings => Sys2Proof.Machine.execSetLane tag lane settings s
  | .readLane tag lane => Sys2Proof.Machine.execReadLane tag lane s
  | .feed tag lane data => Sys2Proof.Machine.execFeed tag lane data s
  | .flushLane tag lane => Sys2Proof.Machine.execFlushLane tag lane s
  | .flushTaken => Sys2Proof.Machine.execFlushTaken s
  | .loadTable tag table first entries => Sys2Proof.Machine.execLoadTable tag table first entries s
  | .readTable tag table first count => Sys2Proof.Machine.execReadTable tag table first count s
  | .loadPlan tag plan startRequired tailPolicy steps => Sys2Proof.Machine.execLoadPlan tag plan startRequired tailPolicy steps s
  | .readPlan tag plan => Sys2Proof.Machine.execReadPlan tag plan s
  | .setWindow tag window => Sys2Proof.Machine.execSetWindow tag window s
  | .clearWindow tag index => Sys2Proof.Machine.execClearWindow tag index s
  | .readWindow tag index => Sys2Proof.Machine.execReadWindow tag index s
  | .lookup tag key => Sys2Proof.Machine.execLookup tag key s
  | .configureStore tag sumMode rowPolicy => Sys2Proof.Machine.execConfigureStore tag sumMode rowPolicy s
  | .clearStore tag => Sys2Proof.Machine.execClearStore tag s
  | .readTally tag first count width shift clearAfter => Sys2Proof.Machine.execReadTally tag first count width shift clearAfter s
  | .clearTally tag first count => Sys2Proof.Machine.execClearTally tag first count s
  | .clearFlags tag group => Sys2Proof.Machine.execClearFlags tag group s
  | .linkByteReceived value framingError staysSpace => Sys2Proof.Machine.execLinkByteReceived value framingError staysSpace s
  | .frameTimeout => Sys2Proof.Machine.execFrameTimeout s
  | .discardTimeout => Sys2Proof.Machine.execDiscardTimeout s
  | .replySent => Sys2Proof.Machine.execReplySent s
  | .powerOnReset => Sys2Proof.Machine.execPowerOnReset s
  | .powerOnResetEnd spdHigh => Sys2Proof.Machine.execPowerOnResetEnd spdHigh s
  | .linkStartupWaitEnd => Sys2Proof.Machine.execLinkStartupWaitEnd s
  | .timeStampTick => Sys2Proof.Machine.execTimeStampTick s
  | .pinCharacterReceived lane value parityBit stopMark staysSpace => Sys2Proof.Machine.execPinCharacterReceived lane value parityBit stopMark staysSpace s
  | .receiverRestEnd lane => Sys2Proof.Machine.execReceiverRestEnd lane s
  | .idleTimerExpiry lane => Sys2Proof.Machine.execIdleTimerExpiry lane s
  | .arbiterGrant => Sys2Proof.Machine.execArbiterGrant s
  | .scanEntry => Sys2Proof.Machine.execScanEntry s
  | .unitAdmitted => Sys2Proof.Machine.execUnitAdmitted s
  | .activationComplete bank => Sys2Proof.Machine.execActivationComplete bank s
  | .prechargeComplete bank => Sys2Proof.Machine.execPrechargeComplete bank s
  | .recordOperationComplete bank => Sys2Proof.Machine.execRecordOperationComplete bank s
  | .recordDamage group contents difference => Sys2Proof.Machine.execRecordDamage group contents difference s
  | .refreshDue => Sys2Proof.Machine.execRefreshDue s
  | .refreshComplete => Sys2Proof.Machine.execRefreshComplete s
  | .rowWriteComplete bank => Sys2Proof.Machine.execRowWriteComplete bank s
  | .startBit lane => Sys2Proof.Machine.execStartBit lane s
  | .linkBreakEnd => Sys2Proof.Machine.execLinkBreakEnd s

end Sys2Proof.Machine
end

