-- ==== Sys2Proof/WellFormed.lean ====
section
/-! DEFINITION. Which commands can be sent: a request whose payload its layout admits, an event the outside world can
bring. exec is total all the same: an ill-formed request is answered as the link answers its bytes. -/

namespace Sys2Proof

/-- A command is well formed when its operands can occur: FEED carries 1 to 239 bytes (R14), LOAD-TABLE 1 to 112
entries (R24), LOAD-PLAN 1 to 18 steps (R49); a line stays at space only after a stop bit at space (R4, R152); damage
leaves a check code that does not match (R122). -/
def Instr.wellFormed : Instr → Bool
  | .feed _ _ data => decide (1 ≤ data.length ∧ data.length ≤ 239)
  | .loadTable _ _ _ entries => decide (1 ≤ entries.length ∧ entries.length ≤ 112)
  | .loadPlan _ _ _ _ steps => decide (1 ≤ steps.length ∧ steps.length ≤ 18)
  | .linkByteReceived _ framingError staysSpace => framingError || !staysSpace
  | .pinCharacterReceived _ _ _ stopMark staysSpace => !stopMark || !staysSpace
  | .recordDamage _ _ difference => difference != 0
  | .identify _ => true
  | .status _ => true
  | .start _ => true
  | .halt _ => true
  | .reset _ => true
  | .fetchNotices _ _ => true
  | .setLane _ _ _ => true
  | .readLane _ _ => true
  | .flushLane _ _ => true
  | .flushTaken => true
  | .readTable _ _ _ _ => true
  | .readPlan _ _ => true
  | .setWindow _ _ => true
  | .clearWindow _ _ => true
  | .readWindow _ _ => true
  | .lookup _ _ => true
  | .configureStore _ _ _ => true
  | .clearStore _ => true
  | .readTally _ _ _ _ _ _ => true
  | .clearTally _ _ _ => true
  | .clearFlags _ _ => true
  | .frameTimeout => true
  | .discardTimeout => true
  | .replySent => true
  | .powerOnReset => true
  | .powerOnResetEnd _ => true
  | .linkStartupWaitEnd => true
  | .timeStampTick => true
  | .receiverRestEnd _ => true
  | .idleTimerExpiry _ => true
  | .arbiterGrant => true
  | .scanEntry => true
  | .unitAdmitted => true
  | .activationComplete _ => true
  | .prechargeComplete _ => true
  | .recordOperationComplete _ => true
  | .refreshDue => true
  | .refreshComplete => true
  | .rowWriteComplete _ => true
  | .startBit _ => true
  | .linkBreakEnd => true

end Sys2Proof
end

