-- ==== Sys2Proof/Safety.lean ====
section
/-! DEFINITION. What counts as a good state of the part: the invariants the manual states of its blocks, each on its own;
and the request a request command sends. -/

namespace Sys2Proof.Machine

/-- No lane FIFO holds more than 512 entries (R3). -/
def State.FifosBounded (s : State) : Prop := ∀ n : Fin 4, (s.lane n).fifo.length ≤ 512

/-- The notice queue holds no more than 32 notices (R148, R150). -/
def State.NoticesBounded (s : State) : Prop := s.notices.length ≤ 32

/-- The tally queue holds no more than 32 entries, and every ENGINE entry stands within its first 28 places (R115). -/
def State.QueueBounded (s : State) : Prop :=
  s.store.queue.length ≤ 32 ∧
    ∀ (i : Nat) (e : QueueEntry), s.store.queue[i]? = some e → e.origin = .engine → i < 28

/-- The refresh debt does not exceed 8, and no bank is open or working while a refresh runs (R129). -/
def State.RefreshSafe (s : State) : Prop :=
  s.store.debt ≤ 8 ∧ (s.store.refresh = .running → ∀ b : Fin 8, s.store.bank b = .closed)

/-- A bank that works on a record works on its head (R118, R119). -/
def Store.HeadsWorking (st : Store) : Prop :=
  ∀ (b : Fin 8) (row : Fin 1024) (e : QueueEntry) (mode : SumMode) (asRead : StoredRecord) (runOn : Bool),
    st.bank b = .working row (.record e mode asRead runOn) → headOf b st.queue = some e

/-- Every bank that works on a record works on its head. -/
def State.HeadsWorking (s : State) : Prop := s.store.HeadsWorking

/-- A window gives no group above 65,487, leads only deeper, and its range is not empty (R80, R81). -/
def Window.Sound (w : Window) : Prop :=
  w.base.toNat ≤ w.limit.toNat ∧
    match w.kind with
    | .single g => g.toNat ≤ 65487
    | .spread g => g.toNat + (w.limit.toNat - w.base.toNat) ≤ 65487
    | .descend target _ => w.level < target

/-- The valid windows are sound, and no two of one level hold a common key (R81). -/
def WindowsSound (windows : Vector (Option Window) 128) : Prop :=
  (∀ (i : Fin 128) (w : Window), windows[i] = some w → w.Sound) ∧
    ∀ (i j : Fin 128) (w v : Window), i ≠ j → windows[i] = some w → windows[j] = some v → w.level = v.level →
      ∀ key : Nat, ¬(w.holds key = true ∧ v.holds key = true)

/-- The route map is sound (R81). -/
def State.RouteSound (s : State) : Prop := WindowsSound s.windows

/-- The code tables and the tally store are held in canonical form. -/
def State.MemoriesCanonical (s : State) : Prop :=
  (∀ t : Fin 8, cellsWf 256 (fun i => some (blankEntry i)) s.tables[t] = true) ∧ s.store.cellsWf = true

/-- The scan engine holds a lane only while the engine is not STOPPED; while the engine is not STOPPED every enabled lane's
plan is present; and a lane being scanned is enabled with an entry in its FIFO (R56, R57, R138, R141). -/
def State.ScanSound (s : State) : Prop :=
  (s.engine = .stopped → s.scan = .free) ∧
  (s.engine ≠ .stopped → ∀ n : Fin 4, (s.lane n).settings.enabled = true →
    s.plans[(s.lane n).settings.plan].isSome = true) ∧
  ∀ n : Fin 4, s.scan = .scanning n → (s.lane n).settings.enabled = true ∧ (s.lane n).fifo ≠ []

/-- A healthy record with a count has its minimum not above its maximum (R94). -/
def StoredRecord.Ordered (r : StoredRecord) : Prop :=
  r.condition = .healthy → r.contents.count ≠ 0 → r.contents.minimum.toInt ≤ r.contents.maximum.toInt

/-! ### Plans (R47) -/

/-- The step consumes a field (R36). -/
def PlanStep.isField : PlanStep → Bool
  | .key _ => true
  | .value _ _ _ => true
  | .skipField => true
  | .matchLiteral _ _ => true
  | .repeatGroup _ => false
  | .again => false
  | .post _ _ _ _ => false
  | .finish => false

/-- The step opens a repetition group. -/
def PlanStep.opens : PlanStep → Bool
  | .repeatGroup _ => true
  | .key _ => false
  | .value _ _ _ => false
  | .skipField => false
  | .matchLiteral _ _ => false
  | .again => false
  | .post _ _ _ _ => false
  | .finish => false

/-- The number of groups open before step `i`: the REPEAT steps before it less the AGAIN steps before it. -/
def Plan.depthAt (p : Plan) (i : Nat) : Int :=
  ((p.steps.take i).countP PlanStep.opens : Int) - ((p.steps.take i).countP (fun x => x = .again) : Int)

/-- A step's parameters are in the ranges of R36 that its type does not already give. -/
def PlanStep.InRange : PlanStep → Prop
  | .value c _ f => f ≤ 6 ∧ (c ≠ .decimal → f = 0)
  | .matchLiteral literal _ => 1 ≤ literal.length ∧ literal.length ≤ 8
  | .key _ => True
  | .skipField => True
  | .repeatGroup _ => True
  | .again => True
  | .post _ _ _ _ => True
  | .finish => True

/-- A plan has 1 to 18 steps (R33), is balanced, ends in its only FINISH, and nests groups no deeper than 4; its count-0
group stands at depth 1, right before FINISH, with a field step inside; LEAVE stands inside a group (R47). -/
structure Plan.Valid (p : Plan) : Prop where
  size : 1 ≤ p.steps.length ∧ p.steps.length ≤ 18
  inRange : ∀ x ∈ p.steps, x.InRange
  finishLast : ∀ i : Nat, p.steps[i]? = some .finish ↔ i + 1 = p.steps.length
  depthNonneg : ∀ i : Nat, 0 ≤ p.depthAt i
  depthBounded : ∀ i : Nat, p.depthAt i ≤ 4
  balanced : p.depthAt p.steps.length = 0
  leaveInside : ∀ (i : Nat) (l : List Byte), p.steps[i]? = some (.matchLiteral l .leave) → 0 < p.depthAt i
  endless : ∀ i : Nat, p.steps[i]? = some (.repeatGroup 0) →
    p.depthAt i = 0 ∧ p.steps[p.steps.length - 2]? = some .again ∧
      (∀ j : Nat, i < j → j < p.steps.length - 1 → 0 < p.depthAt j) ∧
      ∃ (k : Nat) (x : PlanStep), i < k ∧ k < p.steps.length - 2 ∧ p.steps[k]? = some x ∧ x.isField = true

/-- Every present plan is valid (R47). -/
def State.PlansValid (s : State) : Prop := ∀ (i : Fin 8) (p : Plan), s.plans[i] = some p → p.Valid

/-! ### The walk of LOAD-PLAN (R48), fault by fault -/

/-- The kind code of the step at `i`, 0 where there is none. -/
def kindAt (steps : List RawStep) (i : Nat) : Byte :=
  match steps[i]? with
  | some r => r.kind
  | none => 0

/-- The depth before the step at `i`: the REPEAT steps (kind 5) before it less the AGAIN steps (kind 6) before it. -/
def walkDepth (steps : List RawStep) (i : Nat) : Int :=
  ((steps.take i).countP (fun r => r.kind = 5) : Int) - ((steps.take i).countP (fun r => r.kind = 6) : Int)

/-- The REPEAT at `k` opened the group that is innermost before the step at `i`. -/
def opensGroupOf (steps : List RawStep) (k i : Nat) : Bool :=
  kindAt steps k == 5 && decide (walkDepth steps k + 1 = walkDepth steps i) &&
    (List.range (i + 1)).all (fun m => decide (m ≤ k) || decide (walkDepth steps i ≤ walkDepth steps m))

/-- The innermost open group before the step at `i` has count 0. -/
def inEndless (steps : List RawStep) (i : Nat) : Bool :=
  (List.range i).any (fun k => opensGroupOf steps k i && decide (steps[k]?.map RawStep.b1 = some 0))

/-- A field step (kinds 1 to 4) stands in the innermost open group before the step at `i`. -/
def fieldInGroup (steps : List RawStep) (i : Nat) : Bool :=
  (List.range i).any (fun k => opensGroupOf steps k i &&
    (List.range i).any (fun m => decide (k < m ∧ 1 ≤ (kindAt steps m).toNat ∧ (kindAt steps m).toNat ≤ 4)))

/-- The first of the checks of R48 that the step at `i` fails, in the order of the rule, the steps before it having passed
theirs: the kind code; the parameters; FINISH; REPEAT; AGAIN; LEAVE; the last step. -/
def planFaultAt (steps : List RawStep) (i : Nat) : Option PlanFault :=
  match steps[i]? with
  | none => none
  | some r =>
    let last := decide (i + 1 = steps.length)
    if ¬(1 ≤ r.kind.toNat ∧ r.kind.toNat ≤ 8) then some .badKind
    else if PlanStep.ofRaw r = none then some .badParameter
    else if r.kind = 8 ∧ last = false then some .finishEarly
    else if r.kind = 8 ∧ walkDepth steps i ≠ 0 then some .unclosed
    else if r.kind = 5 ∧ 4 ≤ walkDepth steps i then some .tooDeep
    else if r.kind = 5 ∧ r.b1 = 0 ∧ walkDepth steps i ≠ 0 then some .openNested
    else if r.kind = 6 ∧ walkDepth steps i = 0 then some .strayAgain
    else if r.kind = 6 ∧ inEndless steps i = true ∧ last = false ∧ kindAt steps (i + 1) ≠ 8 then some .openNotLast
    else if r.kind = 6 ∧ inEndless steps i = true ∧ fieldInGroup steps i = false then some .openEmpty
    else if r.kind = 4 ∧ r.b1 = 1 ∧ walkDepth steps i = 0 then some .leaveOutside
    else if last = true ∧ r.kind ≠ 8 then some .noFinish
    else none

/-! ### Fields as numbers (R44 to R46) -/

/-- The number that digits give in a base, most significant first. -/
def digitsNumber (base : Nat) (digits : List Nat) : Nat := digits.foldl (fun n d => n * base + d) 0

/-- The form of a field that DECIMAL accepts with `f` fraction digits (R44): an optional sign, digits, an optional point
with at most `f` digits after it, and at least one digit in all. -/
def DecimalForm (f : Nat) (sign whole fraction field : List Byte) : Prop :=
  (sign = [] ∨ sign = [0x2D] ∨ sign = [0x2B]) ∧
  (∀ d ∈ whole ++ fraction, 0x30 ≤ d.toNat ∧ d.toNat ≤ 0x39) ∧
  whole ++ fraction ≠ [] ∧ fraction.length ≤ f ∧
  (field = sign ++ whole ++ 0x2E :: fraction ∨ (fraction = [] ∧ field = sign ++ whole))

/-- A hexadecimal digit in either case (R45). -/
def IsHexDigit (b : Byte) : Prop :=
  (0x30 ≤ b.toNat ∧ b.toNat ≤ 0x39) ∨ (0x41 ≤ b.toNat ∧ b.toNat ≤ 0x46) ∨ (0x61 ≤ b.toNat ∧ b.toNat ≤ 0x66)

/-- The number a hexadecimal digit stands for (R45). -/
def hexValue (b : Byte) : Nat :=
  if b.toNat ≤ 0x39 then b.toNat - 0x30 else if b.toNat ≤ 0x46 then b.toNat - 0x41 + 10 else b.toNat - 0x61 + 10

/-! ### Scan contexts (R59) -/

/-- The lists of a context within their sizes: at most 16 pending posts (R70) and at most 32 translations in the field
(R64). -/
def Context.Bounded (c : Context) : Prop := c.posts.length ≤ 16 ∧ c.field.length ≤ 32

/-- The cursor and the repetition stack within their ranges: a step index 0 to 17, at most 4 entries, each with a first
step, a remaining count and a completed repetitions index in range (R47, R59). -/
def Context.InRanges (c : Context) : Prop :=
  c.cursor ≤ 17 ∧ c.stack.length ≤ 4 ∧ ∀ e ∈ c.stack, e.first ≤ 17 ∧ e.remaining ≤ 255 ∧ e.completed ≤ 255

/-- A context stands at a step of its plan with one entry on its stack for each group open there, each entry naming a step
inside its own group: the entry `i` from the innermost is of the group at depth `stack.length - i`. -/
def Context.Follows (c : Context) (p : Plan) : Prop :=
  c.cursor < p.steps.length ∧ (c.stack.length : Int) = p.depthAt c.cursor ∧
    ∀ (i : Nat) (e : RepEntry), c.stack[i]? = some e →
      e.first < p.steps.length ∧ p.depthAt e.first = (c.stack.length : Int) - i

/-- Every scan context keeps the sizes and ranges of R59, its record length within its lane's limit, itself 1 to 1,024;
and a context in a record belongs to an enabled lane and follows that lane's plan. -/
def State.ContextsBounded (s : State) : Prop :=
  ∀ n : Fin 4,
    (s.lane n).ctx.Bounded ∧ (s.lane n).ctx.InRanges ∧ 1 ≤ (s.lane n).settings.limit.toNat ∧
    (s.lane n).ctx.length ≤ (s.lane n).settings.limit.toNat ∧ (s.lane n).settings.limit.toNat ≤ 1024 ∧
    ((s.lane n).ctx.state = .inRecord → (s.lane n).settings.enabled = true ∧
      ∃ p : Plan, s.plans[(s.lane n).settings.plan] = some p ∧ (s.lane n).ctx.Follows p)

/-- Every block as its chapter gives it after a power-on reset, which is still in force: R18, R23, R54, R79, R91, R135,
R137, R146, R151, R163. The contents of the records are the free value of log entry 9; the link's state, discarder and
discarded flag before the start-up wait has ended are the model's choice, log entry 37. -/
structure State.FreshFromPowerOn (s : State) : Prop where
  inForce : s.porHeld = true
  timeStamp : s.timeStamp = 0
  lanes : ∀ n : Fin 4, s.lane n =
    { settings := { enabled := false, source := .pin, rate := .b9600, parity := .none, table := n.castLE (by decide)
                    plan := n.castLE (by decide), idle := 0, limit := 256, faultNotices := false }
      fifo := [], gapPending := false, markerLast := false, timer := none, rx := .off
      ctx := { state := .await, cursor := 0, stack := [], field := [], length := 0, key := none
               slots := #v[none, none, none, none], complete := false, boundary := false, posts := [] } }
  tables : ∀ (k : Fin 8) (i : Fin 256), tableEntry s.tables[k] i.val = { translation := BitVec.ofNat 8 i.val, cls := .data }
  plans : ∀ k : Fin 8, s.plans[k] = none
  windows : ∀ k : Fin 128, s.windows[k] = none
  scan : s.scan = .free ∧ s.lastGranted = 3 ∧ s.taken = 0
  store : s.store.state = .uninitialised ∧ s.store.sumMode = .saturate ∧ s.store.rowPolicy = .keepOpen ∧
    s.store.queue = [] ∧ (∀ b : Fin 8, s.store.bank b = .closed) ∧ s.store.debt = 0 ∧ s.store.refresh = .none ∧
    s.store.catchingUp = false
  records : ∀ g : Nat, s.store.record g = recordOfBits (Config.powerOnRecordBits s.store.epoch g)
  engine : s.engine = .stopped ∧ s.notices = [] ∧ s.overflow = false
  link : s.link.state = .idle ∧ s.link.discarder = .waiting ∧ s.link.discarded = false ∧ s.link.startupWait = false

/-- The replies to come fit their frames (R159): a plan has at most 18 steps, each in range (R33, R36); a request held has
at most 240 bytes of payload; a request held for its tally entries is one of the three, and a READ-TALLY among them is
for at most 6 groups; a reply formed has at most 239 bytes of payload. -/
def State.RepliesFit (s : State) : Prop :=
  (∀ (k : Fin 8) (p : Plan), s.plans[k] = some p → p.steps.length ≤ 18 ∧ ∀ x ∈ p.steps, x.InRange) ∧
  match s.link.state with
  | .idle => True
  | .receiving _ _ => True
  | .held r .owner => r.payload.length ≤ 240 ∧ r.code.lengthMatches r.payload.length = true
  | .held r (.tally left readouts) =>
    1 ≤ left ∧ left + readouts.length ≤ 16 ∧
      ((r.code = .readTally ∧ left + readouts.length ≤ 6) ∨
        ((r.code = .clearTally ∨ r.code = .clearFlags) ∧ r.payload.length ≤ 3))
  | .held _ (.flush _) => True
  | .replying r => r.payload.length ≤ 239

/-! ### Requests -/

/-- The request a request command sends (section 10.5); the events send none. -/
def requestOf : Instr → Option Request
  | .identify tag => some { code := .identify, tag, payload := [] }
  | .status tag => some { code := .status, tag, payload := [] }
  | .start tag => some { code := .start, tag, payload := [] }
  | .halt tag => some { code := .halt, tag, payload := [] }
  | .reset tag => some { code := .reset, tag, payload := [] }
  | .fetchNotices tag maximum => some { code := .fetchNotices, tag, payload := [maximum] }
  | .setLane tag lane settings => some { code := .setLane, tag, payload := lane :: settings.bytes }
  | .readLane tag lane => some { code := .readLane, tag, payload := [lane] }
  | .feed tag lane data => some { code := .feed, tag, payload := lane :: data }
  | .flushLane tag lane => some { code := .flushLane, tag, payload := [lane] }
  | .flushTaken => none
  | .loadTable tag table first entries =>
    some { code := .loadTable, tag, payload := table :: first :: (entries.map RawTableEntry.bytes).flatten }
  | .readTable tag table first count => some { code := .readTable, tag, payload := [table, first, count] }
  | .loadPlan tag plan startRequired tailPolicy steps =>
    some { code := .loadPlan, tag
           payload := plan :: startRequired :: tailPolicy :: (steps.map RawStep.bytes).flatten }
  | .readPlan tag plan => some { code := .readPlan, tag, payload := [plan] }
  | .setWindow tag window => some { code := .setWindow, tag, payload := window.bytes }
  | .clearWindow tag index => some { code := .clearWindow, tag, payload := [index] }
  | .readWindow tag index => some { code := .readWindow, tag, payload := [index] }
  | .lookup tag key => some { code := .lookup, tag, payload := bytes32 key }
  | .configureStore tag sumMode rowPolicy => some { code := .configureStore, tag, payload := [sumMode, rowPolicy] }
  | .clearStore tag => some { code := .clearStore, tag, payload := [] }
  | .readTally tag first count width shift clearAfter =>
    some { code := .readTally, tag, payload := bytes16 first ++ [count, width, shift, clearAfter] }
  | .clearTally tag first count => some { code := .clearTally, tag, payload := bytes16 first ++ [count] }
  | .clearFlags tag group => some { code := .clearFlags, tag, payload := bytes16 group }
  | .linkByteReceived _ _ _ => none
  | .frameTimeout => none
  | .discardTimeout => none
  | .replySent => none
  | .powerOnReset => none
  | .powerOnResetEnd _ => none
  | .linkStartupWaitEnd => none
  | .timeStampTick => none
  | .pinCharacterReceived _ _ _ _ _ => none
  | .receiverRestEnd _ => none
  | .idleTimerExpiry _ => none
  | .arbiterGrant => none
  | .scanEntry => none
  | .unitAdmitted => none
  | .activationComplete _ => none
  | .prechargeComplete _ => none
  | .recordOperationComplete _ => none
  | .recordDamage _ _ _ => none
  | .refreshDue => none
  | .refreshComplete => none
  | .rowWriteComplete _ => none
  | .startBit _ => none
  | .linkBreakEnd => none

/-- The link receives bytes: no power-on reset in force, no break, no start-up wait, no frame being discarded. -/
def State.linkOpen (s : State) : Prop :=
  s.porHeld = false ∧ s.link.inBreak = false ∧ s.link.startupWait = false ∧ s.link.discarder = .waiting

end Sys2Proof.Machine
end

