-- ==== Sys2Proof/Certificates/Slice0/Obligations.lean ====
section
/-! DEFINITION. The statements for the provers. A statement about a request speaks of a link that holds the request for its
owner (R158), and gives the whole state after it: what it does not name is unchanged. RequestReachesItsOwner brings a
request command sent to an idle link to that state. -/

section

open Sys2Proof Sys2Proof.Machine

/-! ### The machine -/

/-- A step carries out the command at the front of the queue, on the state with the queue's rest. With no command waiting
the part idles: the model's choice, log entry 2. -/
def Obligations.StepRunsFrontCommand : Prop :=
  (∀ (s : State) (c : Instr) (rest : List Instr),
    s.pending = c :: rest → step s = exec c { s with pending := rest }) ∧
  ∀ s : State, s.pending = [] → step s = .next s

/-- No command changes the queue of commands or is refused; SCAN_ENTRY alone can fault, and only for a lane with an
entry to take and no plan (log entry 22). -/
def Obligations.CommandsKeepQueueAndComplete : Prop :=
  ∀ (c : Instr) (s : State),
    (∀ t, exec c s = .next t → t.pending = s.pending) ∧
    (∀ r, exec c s ≠ .refused r) ∧
    ((∃ f, exec c s = .fault f) ↔ c = .scanEntry ∧ ∃ n : Fin 4, s.scan = .scanning n ∧ (s.lane n).fifo ≠ [] ∧
      s.plans[(s.lane n).settings.plan] = none)

/-- What only certain commands can change: the time stamp, the settings, tables, plans, windows, the store's settings. -/
def Obligations.StaticStateChangesOnlyByItsRequests : Prop :=
  ∀ (c : Instr) (s t : State), exec c s = .next t → c ≠ .powerOnReset →
    (c ≠ .timeStampTick → t.timeStamp = s.timeStamp) ∧
    ((∀ tag lane settings, c ≠ .setLane tag lane settings) → ∀ n : Fin 4, (t.lane n).settings = (s.lane n).settings) ∧
    ((∀ tag table first entries, c ≠ .loadTable tag table first entries) → t.tables = s.tables) ∧
    ((∀ tag plan start tail steps, c ≠ .loadPlan tag plan start tail steps) → t.plans = s.plans) ∧
    ((∀ tag window, c ≠ .setWindow tag window) → (∀ tag index, c ≠ .clearWindow tag index) → t.windows = s.windows) ∧
    ((∀ tag mode policy, c ≠ .configureStore tag mode policy) →
      t.store.sumMode = s.store.sumMode ∧ t.store.rowPolicy = s.store.rowPolicy) ∧
    ((∀ spd, c ≠ .powerOnResetEnd spd) → t.porHeld = s.porHeld ∧ t.link.rate = s.link.rate)

/-- A group record changes only by the completion of a record operation on that very group, of a row write of its bank
and row, by damage to it, or by a power-on reset: whatever else is commanded, those events for other groups included,
leaves it. -/
def Obligations.RecordsChangeOnlyByStoreEvents : Prop :=
  ∀ (c : Instr) (s t : State) (g : Nat), exec c s = .next t → c ≠ .powerOnReset →
    (∀ b row e mode asRead runOn, c = .recordOperationComplete b →
      s.store.bank b = .working row (.record e mode asRead runOn) → e.group.toNat ≠ g) →
    (∀ b row runOn, c = .rowWriteComplete b → s.store.bank b = .working row (.rowWrite runOn) →
      ¬(g % 8 = b.val ∧ g / 64 = row.val)) →
    (∀ (group : Group) contents difference, c = .recordDamage group contents difference → group.toNat ≠ g) →
    t.store.record g = s.store.record g

/-! ### Reset and power -/

/-- POWER_ON_RESET brings every block up as its chapter gives (R18, R23, R54, R79, R91, R135, R137, R146, R151, R163), and
State.reset is such a state. The record contents are the free value of log entry 9; the link rate of before stands until
the strap is read (log entry 7); the link's state, discarder and discarded flag while the reset is in force are the model's
choice, log entry 37. -/
def Obligations.PowerOnResetState : Prop :=
  (∀ s : State, ∃ t, exec .powerOnReset s = .next t ∧ t.FreshFromPowerOn ∧ t.pending = s.pending ∧
    t.link.rate = s.link.rate) ∧
  State.reset.FreshFromPowerOn ∧ State.reset.pending = []

/-- The end of the power-on reset reads the strap and begins the start-up wait, whose end, 2 ms later, makes the link IDLE
(R152, R163); the time stamp counts milliseconds outside a power-on reset and wraps (R146). That the 2 ms are judged by the
time stamp, which stands at 0 when the reset ends, is the model's reading, log entry 15; that POWER_ON_RESET_END with no
reset in force and LINK_STARTUP_WAIT_END with no wait, or before its time, change nothing is the model's choice, log entry
3. -/
def Obligations.PowerOnEndsAndTimeRuns : Prop :=
  ∀ s : State,
    (∀ spd : Bool, exec (.powerOnResetEnd spd) s = .next (if s.porHeld = true then
      { s with
        porHeld := false
        link := { s.link with rate := if spd then .b921600 else .b115200, startupWait := true } }
      else s)) ∧
    exec .linkStartupWaitEnd s = .next (if s.link.startupWait = true ∧ 2 ≤ s.timeStamp.toNat then
      { s with link := { s.link with
          state := .idle, startupWait := false, discarder := .waiting, discarded := false } }
      else s) ∧
    exec .timeStampTick s = .next (if s.porHeld = true then s else
      { s with timeStamp := BitVec.ofNat 32 ((s.timeStamp.toNat + 1) % 4294967296) })

/-- RESET is answered OK at once, and its reply carries the soft reset to come (R145). When that reply has been sent the
soft reset takes effect on every block (R18, R79, R136, R142, R146, R151, R163). In the store (R136): of the queue exactly
the head of each bank with a record operation in flight is kept; each bank goes on to be closed, without the work it was
opening or closing a row for; a refresh being prepared or running goes on, and one is begun where the debt is above 0 with
the queue now empty, or is 8. That operations and row writes in flight stay WORKING, and queued, after the reset is the
model's reading, log entry 12; what becomes of a row being opened, log entry 13; that the break state of the LRX receiver
and the time of the last byte are kept, log entry 26. -/
def Obligations.ResetAnsweredThenTakesEffect : Prop :=
  (∀ (s : State) (tag : Byte), s.link.state = .held { code := .reset, tag, payload := [] } .owner →
    exec (.reset tag) s = .next { s with link := { s.link with
      state := .replying { status := .ok, tag, discarded := s.link.discarded, noticesWaiting := decide (s.notices ≠ [])
                           payload := [], thenReset := true }
      discarded := false } }) ∧
  ∀ (s : State) (r : Reply), s.link.state = .replying r → r.thenReset = true →
    ∃ (lanes : Vector Lane 4) (store : Store),
      exec .replySent s = .next { s with
        lanes := lanes, store := store, scan := .free, lastGranted := 3, taken := 0, engine := .stopped, notices := [],
        overflow := false
        link := { s.link with state := .idle, discarder := .waiting, discarded := false } } ∧
      (∀ n : Fin 4, lanes[n] =
        { settings := (s.lane n).settings, fifo := [], gapPending := false, markerLast := false, timer := none
          rx := if (s.lane n).settings.enabled = true ∧ (s.lane n).settings.source = .pin then .waitingForRest else .off
          ctx := Context.cleared }) ∧
      store.sumMode = s.store.sumMode ∧ store.rowPolicy = s.store.rowPolicy ∧
      (∀ g : Nat, store.record g = s.store.record g) ∧
      store.state = (match s.store.state with
        | .uninitialised => .uninitialised
        | .clearing => .uninitialised
        | .ready => if s.store.debt = 8 ∧ s.store.refresh = .none then .catchUp else .ready
        | .catchUp => if s.store.debt = 8 ∧ s.store.refresh = .none then .catchUp else .ready) ∧
      store.catchingUp = false ∧
      (store.queue.Sublist s.store.queue ∧ ∀ b : Fin 8,
        ((∃ row e m x y, s.store.bank b = .working row (.record e m x y)) →
          store.queue.filter (fun e => e.bank = b.val) = (s.store.queue.filter (fun e => e.bank = b.val)).take 1) ∧
        ((∀ row e m x y, s.store.bank b ≠ .working row (.record e m x y)) → ∀ e ∈ store.queue, e.bank ≠ b.val)) ∧
      (∀ b : Fin 8, store.bank b = match s.store.bank b with
        | .closed => .closed
        | .opening row _ => .opening row none
        | .opened _ => .closing none
        | .working row (.record e m x _) => .working row (.record e m x true)
        | .working row (.rowWrite _) => .working row (.rowWrite true)
        | .closing _ => .closing none) ∧
      let begins := s.store.refresh = .preparing ∨
        s.store.refresh = .none ∧ 0 < s.store.debt ∧ (store.queue = [] ∨ s.store.debt = 8)
      let allClosed := ∀ b : Fin 8, s.store.bank b = .closed
      (s.store.refresh = .running → store.refresh = .running ∧ store.debt = s.store.debt) ∧
      (begins → allClosed → store.refresh = .running ∧ store.debt = s.store.debt - 1) ∧
      (begins → ¬allClosed → store.refresh = .preparing ∧ store.debt = s.store.debt) ∧
      (s.store.refresh = .none → ¬begins → store.refresh = .none ∧ store.debt = s.store.debt)

/-! ### The control link -/

/-- Characters on LRX that are no bytes for the link: during a power-on reset (R163), in a break (R152), in the start-up
wait (R163); the end of a break; and the 20 ms timeouts between bytes (R155, R160). The model's own: the timeouts are judged by
the time stamp (log entry 15), a break is noted during the start-up wait too (log entry 25), and a timeout commanded before
its time, or with no frame under way, changes nothing (log entry 3). -/
def Obligations.LinkClosedAndTimeouts : Prop :=
  (∀ (s : State) (value : Byte) (framingError staysSpace : Bool),
    (s.porHeld = true ∨ s.link.inBreak = true →
      exec (.linkByteReceived value framingError staysSpace) s = .next s) ∧
    (s.porHeld = false → s.link.inBreak = false → s.link.startupWait = true →
      exec (.linkByteReceived value framingError staysSpace) s
        = .next { s with link := { s.link with inBreak := framingError && staysSpace } }) ∧
    exec .linkBreakEnd s = .next { s with link := { s.link with inBreak := false } }) ∧
  ∀ s : State,
    (∀ len rest, s.link.state = .receiving len rest → exec .frameTimeout s = .next
      (if 20 ≤ (s.timeStamp - s.link.lastByteAt).toNat then s.formReply .frameError 0 [1] false else s)) ∧
    ((∀ len rest, s.link.state ≠ .receiving len rest) → exec .frameTimeout s = .next s) ∧
    (∀ expected, s.link.discarder = .discarding expected → exec .discardTimeout s = .next
      (if 20 ≤ (s.timeStamp - s.link.lastByteAt).toNat then
        { s with link := { s.link with discarder := .waiting } } else s)) ∧
    (s.link.discarder = .waiting → exec .discardTimeout s = .next s)

/-- A byte received in IDLE (R154), or by the discarder (R160, R161). -/
def Obligations.LinkBytesIdleBusyAndDiscarded : Prop :=
  ∀ (s : State) (value : Byte) (framingError staysSpace : Bool),
    s.porHeld = false → s.link.inBreak = false → s.link.startupWait = false →
    (s.link.discarder = .waiting → s.link.state = .idle →
      exec (.linkByteReceived value framingError staysSpace) s = .next { s with link := { s.link with
        inBreak := framingError && staysSpace
        lastByteAt := s.timeStamp
        state := if value = 0xA5 ∧ framingError = false then .receiving none [] else .idle } }) ∧
    (s.link.discarder = .waiting → (∃ r w, s.link.state = .held r w) ∨ (∃ r, s.link.state = .replying r) →
      exec (.linkByteReceived value framingError staysSpace) s = .next { s with link := { s.link with
        inBreak := framingError && staysSpace
        lastByteAt := s.timeStamp
        discarder := if value = 0xA5 ∧ framingError = false then .discarding none else .waiting
        discarded := s.link.discarded || (decide (value = 0xA5) && !framingError) } }) ∧
    (∀ expected : Option Nat, s.link.discarder = .discarding expected →
      exec (.linkByteReceived value framingError staysSpace) s = .next { s with link := { s.link with
        inBreak := framingError && staysSpace
        lastByteAt := s.timeStamp
        discarder :=
          if framingError = true then .waiting
          else match expected with
            | none => if 2 ≤ value.toNat ∧ value.toNat ≤ 242 then .discarding (some (value.toNat + 2)) else .waiting
            | some n => if n ≤ 1 then .waiting else .discarding (some (n - 1)) } })

/-- A byte received in RECEIVING (R154 to R157): the length byte, a byte of the frame, the last byte with the checks of
CRC, code and length, and a byte with a framing error. That a byte with a framing error is BAD-CHARACTER whatever its value,
a length byte out of range included, is the model's reading, log entry 19. -/
def Obligations.LinkBytesReceiving : Prop :=
  ∀ (s : State) (value : Byte) (staysSpace : Bool), s.linkOpen →
    (∀ len rest, s.link.state = .receiving len rest →
      exec (.linkByteReceived value true staysSpace) s = .next
        (({ s with link := { s.link with inBreak := staysSpace, lastByteAt := s.timeStamp } } : State).formReply
          .frameError 0 [3] false)) ∧
    (s.link.state = .receiving none [] →
      exec (.linkByteReceived value false staysSpace) s = .next
        (if 2 ≤ value.toNat ∧ value.toNat ≤ 242 then
          { s with link := { s.link with lastByteAt := s.timeStamp, state := .receiving (some value) [] } }
        else ({ s with link := { s.link with lastByteAt := s.timeStamp } } : State).formReply .frameError 0 [2] false)) ∧
    (∀ (len : Byte) (rest : List Byte), s.link.state = .receiving (some len) rest → rest.length + 1 < len.toNat + 2 →
      exec (.linkByteReceived value false staysSpace) s = .next
        { s with link := { s.link with lastByteAt := s.timeStamp, state := .receiving (some len) (rest ++ [value]) } }) ∧
    (∀ (len code tag high : Byte) (payload : List Byte), len.toNat = payload.length + 2 →
      s.link.state = .receiving (some len) (code :: tag :: payload ++ [high]) →
      exec (.linkByteReceived value false staysSpace) s = .next
        (let u : State := { s with link := { s.link with lastByteAt := s.timeStamp } }
        if bytes16 (crc16 (len :: code :: tag :: payload)) ≠ [high, value] then u.formReply .frameError 0 [4] false
        else match RequestCode.ofByte code with
          | none => u.formReply .unknownRequest tag [] false
          | some c =>
            if c.lengthMatches payload.length = false then u.formReply .lengthError tag [] false
            else { u with link := { u.link with state := .held { code := c, tag, payload } .owner } }))

/-- A reply is formed with the discarded flag, which it clears, and with the notices-waiting flag, which is the condition of
ATTN (R159, R161, R162, R150); it is sent as formed, and its last byte makes the link IDLE (R159). That a reply leaves as
the one event REPLY_SENT is the model's choice, log entry 28, and that REPLY_SENT while the link is not REPLYING changes
nothing, log entry 3. -/
def Obligations.RepliesAreFormedAndSent : Prop :=
  (∀ (s : State) (status : Status) (tag : Byte) (payload : List Byte) (thenReset : Bool),
    s.formReply status tag payload thenReset = { s with link := { s.link with
      state := .replying
        { status, tag, discarded := s.link.discarded, noticesWaiting := decide (s.notices ≠ []), payload, thenReset }
      discarded := false } }) ∧
  (∀ s : State, s.attnLow = true ↔ s.notices ≠ []) ∧
  (∀ r : Reply, r.payload.length ≤ 239 →
    ∃ flags high low : Byte, flags.toNat = (if r.discarded then 1 else 0) + (if r.noticesWaiting then 2 else 0) ∧
      bytes16 (crc16 (BitVec.ofNat 8 (r.payload.length + 3) :: r.status.byte :: r.tag :: flags :: r.payload))
        = [high, low] ∧
      r.frame = [0xA5, BitVec.ofNat 8 (r.payload.length + 3), r.status.byte, r.tag, flags] ++ r.payload
        ++ [high, low]) ∧
  ∀ (s : State),
    (∀ r : Reply, s.link.state = .replying r → r.thenReset = false →
      exec .replySent s = .next { s with link := { s.link with state := .idle } }) ∧
    ((∀ r : Reply, s.link.state ≠ .replying r) → exec .replySent s = .next s)

/-- A well-formed request command sent to an idle, open link is what it is on a link that holds the request for its
owner: its frame passes the CRC, code and length checks (R154 to R158, log entries 4 and 5). -/
def Obligations.RequestReachesItsOwner : Prop :=
  ∀ (c : Instr) (r : Request) (s : State), c.wellFormed = true → requestOf c = some r → s.linkOpen →
    s.link.state = .idle →
    exec c s = exec c { s with link := { s.link with state := .held r .owner, lastByteAt := s.timeStamp } }

/-- A request command whose frame reaches a busy link is discarded to its end and has no other effect than the discarded
flag (R160, R161); one whose payload does not match its layout is answered LENGTH-ERROR (R157). -/
def Obligations.RequestsDiscardedOrLengthError : Prop :=
  ∀ (c : Instr) (r : Request) (s : State), requestOf c = some r → r.payload.length ≤ 240 → s.linkOpen →
    ((∃ q w, s.link.state = .held q w) ∨ (∃ q, s.link.state = .replying q) → s.link.state ≠ .held r .owner →
      exec c s = .next { s with link := { s.link with discarded := true, lastByteAt := s.timeStamp } }) ∧
    (s.link.state = .idle → r.code.lengthMatches r.payload.length = false →
      exec c s = .next (({ s with link := { s.link with lastByteAt := s.timeStamp } } : State).formReply
        .lengthError r.tag [] false))

/-- No reply payload exceeds 239 bytes (R159): an invariant over the reply formed, the request held with the readouts
handed over so far, and the plans that READ-PLAN would report. -/
def Obligations.RepliesFitInvariant : Prop :=
  ∀ s t : State, s.RepliesFit → step s = .next t → t.RepliesFit

/-- The codes of requests and statuses are those of section 10.3, numbers of several bytes stand most significant byte
first (R164), and the CRC gives R165's check values. -/
def Obligations.CodesAndCrcCheckValues : Prop :=
  RequestCode.all.map RequestCode.byte
    = [0x01, 0x02, 0x03, 0x04, 0x05, 0x06, 0x10, 0x11, 0x12, 0x13, 0x20, 0x21, 0x28, 0x29, 0x30, 0x31, 0x32, 0x33, 0x40,
       0x41, 0x48, 0x49, 0x4A] ∧
  (∀ c : RequestCode, c ∈ RequestCode.all ∧ RequestCode.ofByte c.byte = some c) ∧
  ([Status.ok, .accepted, .frameError, .lengthError, .unknownRequest, .badArgument, .inUse, .wrongState, .wrongSource,
      .laneOff, .fifoFull, .planInvalid, .overlap, .queueFull, .storeBusy, .storeNotReady,
      .configIncomplete].map Status.byte
    = [0x00, 0x01, 0x80, 0x81, 0x82, 0x83, 0x84, 0x85, 0x86, 0x87, 0x88, 0x89, 0x8A, 0x8B, 0x8C, 0x8D, 0x8E]) ∧
  (∀ x : BitVec 16, bytes16 x = [BitVec.ofNat 8 (x.toNat / 2 ^ 8), BitVec.ofNat 8 x.toNat]) ∧
  (∀ x : BitVec 32, bytes32 x = [BitVec.ofNat 8 (x.toNat / 2 ^ 24), BitVec.ofNat 8 (x.toNat / 2 ^ 16),
    BitVec.ofNat 8 (x.toNat / 2 ^ 8), BitVec.ofNat 8 x.toNat]) ∧
  (∀ x : BitVec 64, bytes64 x = bytes32 (BitVec.ofNat 32 (x.toNat / 2 ^ 32)) ++ bytes32 (BitVec.ofNat 32 x.toNat)) ∧
  crc16 [0x00] = 0xE1F0 ∧
  crc16 [0x31, 0x32, 0x33, 0x34, 0x35, 0x36, 0x37, 0x38, 0x39] = 0x29B1

/-! ### Engine control and notices -/

/-- IDENTIFY (R144). -/
def Obligations.IdentifyReportsFixedItems : Prop :=
  (∀ (s : State) (tag : Byte), s.link.state = .held { code := .identify, tag, payload := [] } .owner →
    exec (.identify tag) s = .next (s.answer tag .ok
      ([0x4E, 0x4C, 0x04, 0x16, 2, 4, 0x02, 0x00, 8, 8, 18, 4]
        ++ bytes32 (BitVec.ofNat 32 65536) ++ bytes16 (BitVec.ofNat 16 65488) ++ [32, 28, 32, 16, 128]))) ∧
  ∀ n : Nat, RequestCode.lengthMatches .identify n = true ↔ n = 0

/-- STATUS (R143, section 10.6.6): one snapshot of the blocks, and nothing changes. -/
def Obligations.StatusReportsTheBlocks : Prop :=
  (∀ (s : State) (tag : Byte), s.link.state = .held { code := .status, tag, payload := [] } .owner →
    exec (.status tag) s = .next (s.answer tag .ok
      ([match s.engine with | .stopped => 0 | .running => 1 | .halting => 2,
        match s.scan with | .free => 0 | .scanning _ => 1 | .releasing _ _ => 2,
        match s.scan with | .free => 0xFF | .scanning n => natByte n | .releasing n _ => natByte n,
        match s.store.state with | .uninitialised => 0 | .clearing => 1 | .ready => 2 | .catchUp => 3,
        natByte s.store.debt,
        match s.store.sumMode with | .saturate => 0 | .wrap => 1,
        match s.store.rowPolicy with | .keepOpen => 0 | .closeAfter => 1,
        natByte s.store.queue.length, natByte (s.store.queue.countP (fun e => decide (e.origin = .engine))),
        natByte s.notices.length, if s.overflow then 1 else 0]
      ++ bytes32 s.timeStamp
      ++ ([0, 1, 2, 3] : List (Fin 4)).flatMap (fun n =>
        ([if (s.lane n).settings.enabled then 1 else 0,
          match (s.lane n).ctx.state with | .await => 0 | .inRecord => 1 | .resync => 2] : List Byte)
        ++ natBytes16 (s.lane n).fifo.length
        ++ ([if (s.lane n).gapPending then 1 else 0,
          match s.scan with
          | .free => 0
          | .scanning m => if m = n then 1 else 0
          | .releasing m _ => if m = n then 1 else 0] : List Byte))))) ∧
  ∀ n : Nat, RequestCode.lengthMatches .status n = true ↔ n = 0

/-- START: the checks of R138 in order, and R139. -/
def Obligations.StartChecksAndRuns : Prop :=
  (∀ (s : State) (tag : Byte), s.link.state = .held { code := .start, tag, payload := [] } .owner →
    exec (.start tag) s = .next
      (if s.engine ≠ .stopped then s.answer tag .wrongState []
      else if s.store.state ≠ .ready then s.answer tag .storeNotReady []
      else if ∀ n : Fin 4, (s.lane n).settings.enabled = false then s.answer tag .configIncomplete [0xFF]
      else match ([0, 1, 2, 3] : List (Fin 4)).find? (fun n =>
          decide ((s.lane n).settings.enabled = true ∧ s.plans[(s.lane n).settings.plan] = none)) with
        | some n => s.answer tag .configIncomplete [natByte n]
        | none => ({ s with engine := .running } : State).answer tag .ok [])) ∧
  ∀ n : Nat, RequestCode.lengthMatches .start n = true ↔ n = 0

/-- HALT (R140), and the test for HALT-DONE (R141), which HALT makes before its reply is formed. -/
def Obligations.HaltAndHaltDone : Prop :=
  ((∀ s : State, s.testHaltDone =
    if s.engine = .halting ∧ s.scan = .free ∧ (∀ e ∈ s.store.queue, e.origin ≠ .engine) then
      ({ s with engine := .stopped } : State).notify .haltDone
    else s) ∧
  ∀ (s : State) (tag : Byte), s.link.state = .held { code := .halt, tag, payload := [] } .owner →
    exec (.halt tag) s = .next (match s.engine with
      | .stopped => s.answer tag .wrongState []
      | .halting => s.answer tag .accepted []
      | .running => ({ s with engine := .halting } : State).testHaltDone.answer tag .accepted [])) ∧
  ∀ n : Nat, RequestCode.lengthMatches .halt n = true ↔ n = 0

/-- A notice produced enters the queue with the time stamp, or is discarded when 32 are held and sets the flag (R148); the
sixteen bytes of each kind of notice (section 10.6.5), with the outcome codes of R72; and FETCH-NOTICES (R149). -/
def Obligations.NoticesEnterAndAreFetched : Prop :=
  ((∀ (s : State) (k : NoticeKind), s.notify k =
    if s.notices.length < 32 then { s with notices := s.notices ++ [{ kind := k, stamp := s.timeStamp }] }
    else { s with overflow := true }) ∧
  (∀ (stamp : Stamp) (lane : Fin 4) (outcome : RecordOutcome) (length : Nat) (group : Group),
    let stampBytes := bytes32 stamp
    Notice.bytes { kind := .laneGap lane, stamp } =
      [1, 0x01] ++ stampBytes ++ [natByte lane, 0, 0, 0, 0, 0, 0, 0, 0, 0] ∧
    Notice.bytes { kind := .recordFault lane outcome length, stamp } =
      [2, 0x07] ++ stampBytes ++ [natByte lane, natByte outcome.code] ++ bytes16 (BitVec.ofNat 16 length)
        ++ [0, 0, 0, 0, 0, 0] ∧
    Notice.bytes { kind := .storePoison group, stamp } =
      [3, 0x08] ++ stampBytes ++ [0, 0, 0, 0] ++ bytes16 group ++ [0, 0, 0, 0] ∧
    Notice.bytes { kind := .clearDone, stamp } = [4, 0x00] ++ stampBytes ++ [0, 0, 0, 0, 0, 0, 0, 0, 0, 0] ∧
    Notice.bytes { kind := .haltDone, stamp } = [5, 0x00] ++ stampBytes ++ [0, 0, 0, 0, 0, 0, 0, 0, 0, 0]) ∧
  [RecordOutcome.accepted, .short, .mismatch, .convert, .byteFault, .gap, .overlong, .truncated, .broken, .postLimit,
    .unrouted].map RecordOutcome.code = [0, 1, 2, 3, 4, 5, 6, 7, 8, 9, 10] ∧
  ∀ (s : State) (tag maximum : Byte), s.link.state = .held { code := .fetchNotices, tag, payload := [maximum] } .owner →
    exec (.fetchNotices tag maximum) s = .next
      (if 1 ≤ maximum.toNat ∧ maximum.toNat ≤ 8 then
        ({ s with notices := s.notices.drop maximum.toNat, overflow := false } : State).answer tag .ok
          ((if s.overflow then 1 else 0) :: natByte (min maximum.toNat s.notices.length)
            :: ((s.notices.take maximum.toNat).map Notice.bytes).flatten)
      else s.answer tag .badArgument [])) ∧
  ∀ n : Nat, RequestCode.lengthMatches .fetchNotices n = true ↔ n = 1

/-! ### Lanes -/

/-- SET-LANE: the checks of R11, in order, and the changes of R12. -/
def Obligations.SetLaneWritesTheLane : Prop :=
  ∀ (s : State) (tag lane : Byte) (raw : RawSettings),
    s.link.state = .held { code := .setLane, tag, payload := lane :: raw.bytes } .owner →
    let argumentsGood := lane.toNat ≤ 3 ∧ raw.enabled.toNat ≤ 1 ∧ raw.source.toNat ≤ 1 ∧ raw.rate.toNat ≤ 7 ∧
      raw.parity.toNat ≤ 2 ∧ raw.table.toNat ≤ 7 ∧ raw.plan.toNat ≤ 7 ∧ raw.faultNotices.toNat ≤ 1 ∧
      16 ≤ raw.limit.toNat ∧ raw.limit.toNat ≤ 1024
    (¬argumentsGood → exec (.setLane tag lane raw) s = .next (s.answer tag .badArgument [])) ∧
    (argumentsGood → s.engine ≠ .stopped → exec (.setLane tag lane raw) s = .next (s.answer tag .inUse [])) ∧
    (argumentsGood → s.engine = .stopped → ∃ (n : Fin 4) (settings : Settings),
      n.val = lane.toNat ∧ settings.bytes = raw.bytes ∧
      exec (.setLane tag lane raw) s = .next ((s.putLane n
        { settings := settings, fifo := [], gapPending := false, markerLast := false, timer := none
          rx := if settings.enabled = true ∧ settings.source = .pin then .waitingForRest else .off
          ctx := Context.cleared }).answer tag .ok []))

/-- READ-LANE, READ-TABLE and READ-PLAN report what is held and change nothing (R13, R31, R32, R53). -/
def Obligations.ReadsReportAndChangeNothing : Prop :=
  ((∀ (s : State) (tag lane : Byte), s.link.state = .held { code := .readLane, tag, payload := [lane] } .owner →
    (3 < lane.toNat → exec (.readLane tag lane) s = .next (s.answer tag .badArgument [])) ∧
    ∀ n : Fin 4, n.val = lane.toNat → exec (.readLane tag lane) s = .next (s.answer tag .ok
      ([lane, boolByte (s.lane n).settings.enabled, (s.lane n).settings.source.byte, (s.lane n).settings.rate.byte,
          (s.lane n).settings.parity.byte, natByte (s.lane n).settings.table, natByte (s.lane n).settings.plan,
          (s.lane n).settings.idle]
        ++ bytes16 (s.lane n).settings.limit ++ [boolByte (s.lane n).settings.faultNotices]
        ++ natBytes16 (s.lane n).fifo.length
        ++ [boolByte (s.lane n).gapPending, boolByte (s.lane n).timer.isSome]))) ∧
  (∀ (s : State) (tag table first count : Byte),
    s.link.state = .held { code := .readTable, tag, payload := [table, first, count] } .owner →
    (7 < table.toNat ∨ count.toNat < 1 ∨ 112 < count.toNat ∨ 256 < first.toNat + count.toNat →
      exec (.readTable tag table first count) s = .next (s.answer tag .badArgument [])) ∧
    ∀ k : Fin 8, k.val = table.toNat → 1 ≤ count.toNat → count.toNat ≤ 112 → first.toNat + count.toNat ≤ 256 →
      exec (.readTable tag table first count) s = .next (s.answer tag .ok
        ([table, first, count] ++ (List.range count.toNat).flatMap (fun j =>
          [(tableEntry s.tables[k] (first.toNat + j)).translation,
            (tableEntry s.tables[k] (first.toNat + j)).cls.byte])))) ∧
  ∀ (s : State) (tag plan : Byte), s.link.state = .held { code := .readPlan, tag, payload := [plan] } .owner →
    (7 < plan.toNat → exec (.readPlan tag plan) s = .next (s.answer tag .badArgument [])) ∧
    ∀ k : Fin 8, k.val = plan.toNat → exec (.readPlan tag plan) s = .next (s.answer tag .ok
      (match s.plans[k] with
      | none => [plan, 0]
      | some p => [plan, 1, boolByte p.startRequired, p.tailPolicy.byte] ++ p.steps.flatMap PlanStep.bytes))) ∧
  (∀ n : Nat, (RequestCode.lengthMatches .readLane n = true ↔ n = 1) ∧
    (RequestCode.lengthMatches .readTable n = true ↔ n = 3) ∧ (RequestCode.lengthMatches .readPlan n = true ↔ n = 1))

/-- FEED: the checks of R14 in order, with the free places in every reply, and the entering of R15. -/
def Obligations.FeedEntersOrRefusesWhole : Prop :=
  (∀ (s : State) (tag lane b : Byte) (bs : List Byte),
    s.link.state = .held { code := .feed, tag, payload := lane :: b :: bs } .owner →
    (3 < lane.toNat → exec (.feed tag lane (b :: bs)) s = .next (s.answer tag .badArgument [0, 0])) ∧
    ∀ n : Fin 4, n.val = lane.toNat →
      exec (.feed tag lane (b :: bs)) s = .next
        (if (s.lane n).settings.enabled = false then
          s.answer tag .laneOff (natBytes16 (512 - (s.lane n).fifo.length))
        else if (s.lane n).settings.source ≠ .link then
          s.answer tag .wrongSource (natBytes16 (512 - (s.lane n).fifo.length))
        else if 512 - (s.lane n).fifo.length < bs.length + 1 then
          s.answer tag .fifoFull (natBytes16 (512 - (s.lane n).fifo.length))
        else (s.putLane n { s.lane n with
            fifo := (s.lane n).fifo ++ .byte b false (s.lane n).gapPending :: bs.map (fun x => .byte x false false)
            gapPending := false
            markerLast := false
            timer := if (s.lane n).settings.idle = 0 then (s.lane n).timer else some s.timeStamp }).answer tag .ok
          (natBytes16 (512 - ((s.lane n).fifo.length + (bs.length + 1)))))) ∧
  ∀ n : Nat, RequestCode.lengthMatches .feed n = true ↔ 2 ≤ n ∧ n ≤ 240

/-- FLUSH-LANE: refused, taken at once, or waiting while the scan engine holds the lane (R16); and the taking of a waiting
flush (R16, R17), after which the scan engine is FREE. The model's own: when a waiting flush can be taken, and that a
release with no unit left waits for it (log entry 17); that the halt-done test comes before the reply is formed (log entry
18); that FLUSH_TAKEN with no flush waiting, or not yet ready, changes nothing (log entry 3). -/
def Obligations.FlushIsTakenOrWaits : Prop :=
  (∀ (s : State) (tag lane : Byte), s.link.state = .held { code := .flushLane, tag, payload := [lane] } .owner →
    (3 < lane.toNat → exec (.flushLane tag lane) s = .next (s.answer tag .badArgument [])) ∧
    ∀ n : Fin 4, n.val = lane.toNat → exec (.flushLane tag lane) s = .next
      (if s.scanHolds n = true then { s with link := { s.link with
          state := .held { code := .flushLane, tag, payload := [lane] } (.flush n) } }
      else (s.putLane n { s.lane n with
          fifo := [], gapPending := false, markerLast := false, timer := none, ctx := Context.cleared }).answer tag .ok
        (natBytes16 (s.lane n).fifo.length))) ∧
  (∀ (s : State) (n : Fin 4), s.scanHolds n = true ↔ s.scan = .scanning n ∨ ∃ units, s.scan = .releasing n units) ∧
  (∀ (s : State) (r : Request) (n : Fin 4), s.link.state = .held r (.flush n) →
    let emptied : State := s.putLane n { s.lane n with
      fifo := [], gapPending := false, markerLast := false, timer := none, ctx := Context.cleared }
    (s.scanHolds n = false → exec .flushTaken s = .next (emptied.answer r.tag .ok (natBytes16 (s.lane n).fifo.length))) ∧
    ((s.scan = .scanning n ∧ 1 ≤ s.taken) ∨ s.scan = .releasing n [] → exec .flushTaken s = .next
      (({ emptied with scan := .free } : State).testHaltDone.answer r.tag .ok (natBytes16 (s.lane n).fifo.length))) ∧
    ((s.scan = .scanning n ∧ s.taken = 0) ∨ (∃ u us, s.scan = .releasing n (u :: us)) →
      exec .flushTaken s = .next s)) ∧
  ∀ s : State, (∀ r n, s.link.state ≠ .held r (.flush n)) → exec .flushTaken s = .next s

/-- A character completes on a field line (R4 to R8): entered with its line error, or lost; the line states and START_BIT
and RECEIVER_REST_END. -/
def Obligations.PinReceiver : Prop :=
  ∀ (s : State) (n : Fin 4),
    ((s.lane n).settings.enabled = true → (s.lane n).settings.source = .pin → (s.lane n).rx = .inCharacter →
      ∀ (value : Byte) (parityBit stopMark staysSpace : Bool),
      let lineError : Bool := !stopMark || (match (s.lane n).settings.parity with
        | .none => false
        | .even => decide ((onesOf value + (if parityBit then 1 else 0)) % 2 ≠ 0)
        | .odd => decide ((onesOf value + (if parityBit then 1 else 0)) % 2 ≠ 1))
      let rx := if stopMark = false ∧ staysSpace = true then RxState.waitingForRest else .ready
      let timer := if (s.lane n).settings.idle = 0 then (s.lane n).timer else some s.timeStamp
      exec (.pinCharacterReceived n value parityBit stopMark staysSpace) s = .next
        (if (s.lane n).fifo.length < 512 then
          s.putLane n { s.lane n with
            rx := rx, timer := timer, fifo := (s.lane n).fifo ++ [.byte value lineError (s.lane n).gapPending]
            gapPending := false, markerLast := false }
        else if (s.lane n).gapPending = true then s.putLane n { s.lane n with rx := rx, timer := timer }
        else (s.putLane n { s.lane n with rx := rx, timer := timer, gapPending := true }).notify (.laneGap n))) ∧
    ((s.lane n).settings.enabled = true → (s.lane n).settings.source = .pin → (s.lane n).rx = .ready →
      exec (.startBit n) s = .next (s.putLane n { s.lane n with rx := .inCharacter })) ∧
    ((s.lane n).settings.enabled = true → (s.lane n).settings.source = .pin → (s.lane n).rx = .waitingForRest →
      exec (.receiverRestEnd n) s = .next (s.putLane n { s.lane n with rx := .ready })) ∧
    ((s.lane n).settings.enabled = false ∨ (s.lane n).settings.source = .link →
      exec (.startBit n) s = .next s ∧ exec (.receiverRestEnd n) s = .next s ∧
      ∀ (value : Byte) (parityBit stopMark staysSpace : Bool),
        exec (.pinCharacterReceived n value parityBit stopMark staysSpace) s = .next s)

/-- The expiry of the idle timer (R9): one marker, entered or lost, unless the last entry entered was a marker. The model's
own: the time is judged by the time stamp, and before its time the expiry changes nothing (log entry 15); nor does it with
the timer disarmed (log entry 3). -/
def Obligations.IdleTimerExpires : Prop :=
  ∀ (s : State) (n : Fin 4),
    (∀ armed : Stamp, (s.lane n).timer = some armed →
      (s.lane n).settings.idle.toNat ≤ (s.timeStamp - armed).toNat →
      exec (.idleTimerExpiry n) s = .next
        (if (s.lane n).markerLast = true then s.putLane n { s.lane n with timer := none }
        else if (s.lane n).fifo.length < 512 then
          s.putLane n { s.lane n with
            timer := none, fifo := (s.lane n).fifo ++ [.idleEnd (s.lane n).gapPending], gapPending := false
            markerLast := true }
        else if (s.lane n).gapPending = true then s.putLane n { s.lane n with timer := none }
        else (s.putLane n { s.lane n with timer := none, gapPending := true }).notify (.laneGap n))) ∧
    (∀ armed : Stamp, (s.lane n).timer = some armed →
      (s.timeStamp - armed).toNat < (s.lane n).settings.idle.toNat → exec (.idleTimerExpiry n) s = .next s) ∧
    ((s.lane n).timer = none → exec (.idleTimerExpiry n) s = .next s)

/-! ### Code tables, plans, route map -/

/-- LOAD-TABLE: the checks of R25 to R27, the writing of R28, the discards of R29. -/
def Obligations.LoadTableWritesWholeOrNothing : Prop :=
  ∀ (s : State) (tag table first : Byte) (entries : List RawTableEntry),
    s.link.state = .held
      { code := .loadTable, tag, payload := table :: first :: (entries.map RawTableEntry.bytes).flatten } .owner →
    entries ≠ [] →
    (7 < table.toNat ∨ 256 < first.toNat + entries.length ∨ (∃ e ∈ entries, 5 < e.classCode.toNat) →
      exec (.loadTable tag table first entries) s = .next (s.answer tag .badArgument [])) ∧
    ∀ k : Fin 8, k.val = table.toNat → first.toNat + entries.length ≤ 256 → (∀ e ∈ entries, e.classCode.toNat ≤ 5) →
      let inUse := s.engine ≠ .stopped ∧
        ∃ n : Fin 4, (s.lane n).settings.enabled = true ∧ (s.lane n).settings.table = k
      (inUse → exec (.loadTable tag table first entries) s = .next (s.answer tag .inUse [])) ∧
      (¬inUse → ∃ (tables : Vector (List (Nat × TableEntry)) 8) (lanes : Vector Lane 4) (named : Byte),
        exec (.loadTable tag table first entries) s
          = .next (({ s with tables := tables, lanes := lanes } : State).answer tag .ok [named]) ∧
        (∀ j : Fin 8, j ≠ k → tables[j] = s.tables[j]) ∧
        (∀ i : Nat, i < first.toNat ∨ first.toNat + entries.length ≤ i →
          tableEntry tables[k] i = tableEntry s.tables[k] i) ∧
        (∀ (i : Nat) (e : RawTableEntry), entries[i]? = some e →
          (tableEntry tables[k] (first.toNat + i)).translation = e.translation ∧
          (tableEntry tables[k] (first.toNat + i)).cls.byte = e.classCode) ∧
        named.toNat < 16 ∧
        ∀ n : Fin 4,
          named.getLsbD n.val = decide (s.engine = .stopped ∧ (s.lane n).settings.table = k ∧
            (s.lane n).ctx.state ≠ .await) ∧
          lanes[n] = if named.getLsbD n.val = true then { s.lane n with ctx := Context.cleared } else s.lane n)

/-- LOAD-PLAN: the checks of R50 and R51 in order, the storing, the discards of R52. The fault the walk names is the
header's, with no step index, or else the first in step order, by the checks of R48 at that step (planFaultAt), with its
reason code. -/
def Obligations.LoadPlanStoresOrRefuses : Prop :=
  (∀ (startRequired tailPolicy : Byte) (steps : List RawStep) (f : PlanFault) (index : Option Nat),
    walkPlan startRequired tailPolicy steps = .error (f, index) ↔
      ((1 < startRequired.toNat ∨ 1 < tailPolicy.toNat) ∧ f = .badHeader ∧ index = none) ∨
      (startRequired.toNat ≤ 1 ∧ tailPolicy.toNat ≤ 1 ∧ ∃ i : Nat, index = some i ∧ planFaultAt steps i = some f ∧
        ∀ j : Nat, j < i → planFaultAt steps j = none)) ∧
  [PlanFault.badKind, .badParameter, .badHeader, .finishEarly, .noFinish, .unclosed, .strayAgain, .tooDeep, .openNested,
    .openNotLast, .openEmpty, .leaveOutside].map PlanFault.byte = [1, 2, 3, 4, 5, 6, 7, 8, 9, 10, 11, 12] ∧
  ∀ (s : State) (tag plan startRequired tailPolicy : Byte) (steps : List RawStep),
    s.link.state = .held
      { code := .loadPlan, tag
        payload := plan :: startRequired :: tailPolicy :: (steps.map RawStep.bytes).flatten } .owner →
    (7 < plan.toNat →
      exec (.loadPlan tag plan startRequired tailPolicy steps) s = .next (s.answer tag .badArgument [])) ∧
    ∀ k : Fin 8, k.val = plan.toNat →
      (∀ (f : PlanFault) (i : Option Nat), walkPlan startRequired tailPolicy steps = .error (f, i) →
        exec (.loadPlan tag plan startRequired tailPolicy steps) s = .next (s.answer tag .planInvalid
          [f.byte, match i with | some i => natByte i | none => 0xFF])) ∧
      ∀ p : Plan, walkPlan startRequired tailPolicy steps = .ok p →
        let inUse := s.engine ≠ .stopped ∧
          ∃ n : Fin 4, (s.lane n).settings.enabled = true ∧ (s.lane n).settings.plan = k
        (inUse → exec (.loadPlan tag plan startRequired tailPolicy steps) s = .next (s.answer tag .inUse [])) ∧
        (¬inUse → ∃ (lanes : Vector Lane 4) (named : Byte),
          exec (.loadPlan tag plan startRequired tailPolicy steps) s = .next
            (({ s with plans := s.plans.set k (some p), lanes := lanes } : State).answer tag .ok [named]) ∧
          named.toNat < 16 ∧
          ∀ n : Fin 4,
            named.getLsbD n.val = decide (s.engine = .stopped ∧ (s.lane n).settings.plan = k ∧
              (s.lane n).ctx.state ≠ .await) ∧
            lanes[n] = if named.getLsbD n.val = true then { s.lane n with ctx := Context.cleared } else s.lane n)

/-- The walk of R48 passes a load of 1 to 18 steps exactly when the plan it spells meets every condition of R47, and the
plan then holds exactly the header and the steps carried. Every present plan keeps the conditions of R47, whatever the part
does; the premise RepliesFit (kept by every step, RepliesFitInvariant) says that a request held matches its layout. -/
def Obligations.OnlyValidPlansAreStored : Prop :=
  (∀ (startRequired tailPolicy : Byte) (steps : List RawStep) (p : Plan), 1 ≤ steps.length → steps.length ≤ 18 →
    (walkPlan startRequired tailPolicy steps = .ok p ↔
      p.Valid ∧ boolOfByte startRequired = some p.startRequired ∧ TailPolicy.ofByte tailPolicy = some p.tailPolicy ∧
      steps.map PlanStep.ofRaw = p.steps.map some)) ∧
  ∀ s t : State, s.RepliesFit → s.PlansValid → step s = .next t → t.PlansValid

/-- What the part reports of settings, a table entry, a step or a window can be sent back to it and is read as the same:
the layouts of section 10.6 lose nothing. -/
def Obligations.LayoutsReadBack : Prop :=
  (∀ (x : Settings) (r : RawSettings), r.bytes = x.bytes → Settings.ofRaw r = some x) ∧
  (∀ (x : TableEntry) (r : RawTableEntry), r.bytes = x.bytes → TableEntry.ofRaw r = some x) ∧
  (∀ (x : PlanStep) (r : RawStep), x.InRange → r.bytes = x.bytes → PlanStep.ofRaw r = some x) ∧
  (∀ (x : Window) (r : RawWindow) (index : Byte), x.Sound → r.bytes = windowBytes index (some x) →
    Window.ofRaw r = some x)

/-- SET-WINDOW: the argument checks of R85, the OVERLAP check of R86 with the lowest-numbered window it names, the
writing of R87. -/
def Obligations.SetWindowChecksAndWrites : Prop :=
  (∀ (s : State) (tag : Byte) (raw : RawWindow), s.link.state = .held { code := .setWindow, tag, payload := raw.bytes } .owner →
    let group := 256 * raw.p12.toNat + raw.p13.toNat
    let argumentsGood := raw.index.toNat ≤ 127 ∧ raw.level.toNat ≤ 3 ∧ raw.base.toNat ≤ raw.limit.toNat ∧
      ((raw.kind = 0 ∧ group ≤ 65487) ∨
        (raw.kind = 1 ∧ group + (raw.limit.toNat - raw.base.toNat) ≤ 65487) ∨
        (raw.kind = 2 ∧ raw.p13.toNat ≤ 1 ∧ raw.level.toNat < raw.p12.toNat ∧ raw.p12.toNat ≤ 3))
    let meets := fun (j : Fin 128) => j.val ≠ raw.index.toNat ∧ ∃ v : Window, s.windows[j] = some v ∧
      v.level.val = raw.level.toNat ∧ raw.base.toNat ≤ v.limit.toNat ∧ v.base.toNat ≤ raw.limit.toNat
    (¬argumentsGood → exec (.setWindow tag raw) s = .next (s.answer tag .badArgument [])) ∧
    (argumentsGood → ∀ j : Fin 128, meets j → (∀ i : Fin 128, i < j → ¬meets i) →
      exec (.setWindow tag raw) s = .next (s.answer tag .overlap [natByte j])) ∧
    (argumentsGood → (∀ j : Fin 128, ¬meets j) → ∃ (i : Fin 128) (w : Window),
      i.val = raw.index.toNat ∧ w.level.val = raw.level.toNat ∧ w.base = raw.base ∧ w.limit = raw.limit ∧
      w.kind.bytes = (raw.kind, [raw.p12, raw.p13]) ∧
      exec (.setWindow tag raw) s = .next (({ s with windows := s.windows.set i (some w) } : State).answer tag .ok
        [raw.index, if s.windows[i].isSome then 1 else 0]))) ∧
  ∀ n : Nat, RequestCode.lengthMatches .setWindow n = true ↔ n = 14

/-- CLEAR-WINDOW (R88), READ-WINDOW (R89, section 10.6.3), and LOOKUP, which runs one lookup from level 0 with the key
carried and reports its result (R90). -/
def Obligations.WindowsClearedReadAndLookedUp : Prop :=
  ((∀ (s : State) (tag index : Byte), s.link.state = .held { code := .clearWindow, tag, payload := [index] } .owner →
    (127 < index.toNat → exec (.clearWindow tag index) s = .next (s.answer tag .badArgument [])) ∧
    ∀ i : Fin 128, i.val = index.toNat →
      exec (.clearWindow tag index) s = .next (({ s with windows := s.windows.set i none } : State).answer tag .ok
        [index, if s.windows[i].isSome then 1 else 0])) ∧
  ∀ n : Nat, RequestCode.lengthMatches .clearWindow n = true ↔ n = 1) ∧
  ((∀ (s : State) (tag index : Byte), s.link.state = .held { code := .readWindow, tag, payload := [index] } .owner →
    (127 < index.toNat → exec (.readWindow tag index) s = .next (s.answer tag .badArgument [])) ∧
    ∀ i : Fin 128, i.val = index.toNat →
      (s.windows[i] = none → exec (.readWindow tag index) s = .next
        (s.answer tag .ok [index, 0, 0, 0, 0, 0, 0, 0, 0, 0, 0, 0, 0, 0])) ∧
      ∀ w : Window, s.windows[i] = some w → exec (.readWindow tag index) s = .next (s.answer tag .ok
        ([index, 1, natByte w.level, w.kind.bytes.1] ++ bytes32 w.base ++ bytes32 w.limit ++ w.kind.bytes.2))) ∧
  ∀ n : Nat, RequestCode.lengthMatches .readWindow n = true ↔ n = 1) ∧
  (∀ (s : State) (tag : Byte) (key : Key), s.link.state = .held { code := .lookup, tag, payload := bytes32 key } .owner →
    (∀ g visited, lookupKey s.windows key.toNat = (.routed g, visited) → exec (.lookup tag key) s = .next
      (s.answer tag .ok ([0] ++ natBytes16 g ++ [0xFF, natByte visited.length] ++ visited.map natByte))) ∧
    (∀ level visited, lookupKey s.windows key.toNat = (.miss level, visited) → exec (.lookup tag key) s = .next
      (s.answer tag .ok ([1, 0xFF, 0xFF, natByte level, natByte visited.length] ++ visited.map natByte)))) ∧
  ∀ n : Nat, RequestCode.lengthMatches .lookup n = true ↔ n = 4

/-- The lookup as R82 gives it, in a map that keeps R81: at a level where no window holds the key it is a MISS there; else
the one window that holds it is visited, and its kind decides. -/
def Obligations.LookupFollowsTheMap : Prop :=
  ∀ windows : Vector (Option Window) 128, WindowsSound windows →
    let search := fun (level : Fin 4) (key : Nat) => lookupFrom windows.toList (4 - level.val) level key
    (∀ key : Nat, lookupKey windows key = search 0 key) ∧
    (∀ (level : Fin 4) (key : Nat),
      (∀ (i : Fin 128) (w : Window), windows[i] = some w → w.level = level →
        ¬(w.base.toNat ≤ key ∧ key ≤ w.limit.toNat)) →
      search level key = (.miss level.val, [])) ∧
    (∀ (level : Fin 4) (key : Nat) (i : Fin 128) (w : Window), windows[i] = some w → w.level = level →
      w.base.toNat ≤ key → key ≤ w.limit.toNat →
      search level key = match w.kind with
        | .single g => (.routed g.toNat, [i.val])
        | .spread g => (.routed (g.toNat + (key - w.base.toNat)), [i.val])
        | .descend target rebase =>
          ((search target (if rebase then key - w.base.toNat else key)).1,
            i.val :: (search target (if rebase then key - w.base.toNat else key)).2)) ∧
    ∀ key : Nat, (lookupKey windows key).2.length ≤ 4 ∧
      (∀ g, (lookupKey windows key).1 = .routed g → g ≤ 65487 ∧ 1 ≤ (lookupKey windows key).2.length) ∧
      (∀ level, (lookupKey windows key).1 = .miss level → level ≤ 3 ∧ (lookupKey windows key).2.length ≤ level)

/-- The route map keeps the conditions of R81, from power-on on. -/
def Obligations.RouteMapStaysSound : Prop :=
  State.reset.RouteSound ∧ ∀ s t : State, s.RouteSound → step s = .next t → t.RouteSound

/-! ### The scan engine -/

/-- The arbiter's grant (R56), held back while a flush waits (R16). -/
def Obligations.ArbiterGrantsRoundRobin : Prop :=
  ∀ s : State,
    (s.engine = .running → s.scan = .free → (∀ r n, s.link.state ≠ .held r (.flush n)) →
      exec .arbiterGrant s = .next (match ([s.lastGranted + 1, s.lastGranted + 2, s.lastGranted + 3, s.lastGranted]).find?
          (fun n => decide ((s.lane n).settings.enabled = true ∧ (s.lane n).fifo ≠ [])) with
        | some n => { s with scan := .scanning n, lastGranted := n, taken := 0 }
        | none => s)) ∧
    (s.engine ≠ .running ∨ s.scan ≠ .free ∨ (∃ r n, s.link.state = .held r (.flush n)) →
      exec .arbiterGrant s = .next s)

/-- An entry is taken and processed, and the grant goes on, ends, or goes to RELEASING (R57, R58). -/
def Obligations.ScanEntryTakesOldestEntry : Prop :=
  ∀ (s : State) (n : Fin 4) (entry : FifoEntry) (rest : List FifoEntry) (p : Plan),
    s.scan = .scanning n → (s.lane n).fifo = entry :: rest → s.plans[(s.lane n).settings.plan] = some p →
    let result := processEntry
      { table := s.tables[(s.lane n).settings.table], plan := p, limit := (s.lane n).settings.limit.toNat
        windows := s.windows } (s.lane n).ctx entry
    let taken : State :=
      { s.putLane n { s.lane n with fifo := rest, ctx := result.1 } with taken := s.taken + 1 }
    exec .scanEntry s = .next
      (if result.2 ≠ [] then { taken with scan := .releasing n result.2 }
      else if rest = [] ∨ 64 ≤ s.taken + 1 ∨ s.engine ≠ .running ∨ s.flushWaiting = some n then
        ({ taken with scan := .free } : State).testHaltDone
      else taken)

/-- Entries taken in AWAIT and in RESYNC (R61, R74): dropped, or the beginning of a record, or the return to AWAIT. And how
a record begins (R60): the context is cleared with length 1 and goes to IN-RECORD, the non-field steps from step 0 are
carried out, and the byte that began it is processed: a DATA byte's translation is the field's first, a SEP byte ends the
empty field. A step that ends the record at once ends it as SHORT, and the byte is taken no further. -/
def Obligations.EntriesOutsideARecord : Prop :=
  ∀ (env : ScanEnv) (c : Context) (value : Byte) (gap : Bool),
    let byte := FifoEntry.byte value false gap
    let look := tableEntry env.table value.toNat
    (c.state = .await →
      processEntry env c (.idleEnd gap) = (c, []) ∧ processEntry env c (.byte value true gap) = (c, []) ∧
      (look.cls = .start → processEntry env c byte = beginRecord env look) ∧
      (look.cls = .data ∨ look.cls = .sep → env.plan.startRequired = false →
        processEntry env c byte = beginRecord env look) ∧
      (look.cls = .data ∨ look.cls = .sep → env.plan.startRequired = true → processEntry env c byte = (c, [])) ∧
      (look.cls = .skip ∨ look.cls = .fin ∨ look.cls = .fault → processEntry env c byte = (c, []))) ∧
    (c.state = .resync →
      processEntry env c (.idleEnd gap) = ({ c with state := .await }, []) ∧
      processEntry env c (.byte value true gap) = (c, []) ∧
      (look.cls = .start → processEntry env c byte = beginRecord env look) ∧
      (look.cls = .fin → processEntry env c byte = ({ c with state := .await }, [])) ∧
      (look.cls ≠ .start → look.cls ≠ .fin → processEntry env c byte = (c, []))) ∧
    let run := Context.run env
      { state := .inRecord, cursor := 0, stack := [], field := [], length := 1, key := none
        slots := #v[none, none, none, none], complete := false, boundary := false, posts := [] }
    let endedWith := fun (c : Context) (o : RecordOutcome) =>
      (({ c with state := if o = .short then .await else .resync, posts := [] },
        [{ outcome := o, length := 1, posts := [] }]) : Context × List FinishedUnit)
    (∀ o : RecordOutcome, run.2 = some o → o = .short ∧ beginRecord env look = endedWith run.1 o) ∧
    (run.2 = none →
      (look.cls = .start → beginRecord env look = (run.1, [])) ∧
      (look.cls = .data → beginRecord env look = ({ run.1 with field := [look.translation] }, [])) ∧
      (look.cls = .sep →
        ((run.1.endField env).2 = none → beginRecord env look = ((run.1.endField env).1, [])) ∧
        ∀ o : RecordOutcome, (run.1.endField env).2 = some o →
          beginRecord env look = endedWith (run.1.endField env).1 o))

/-- The checks of an entry in a record, in their order: gap, idle marker, length limit, line error, then the class (R62 to
R64). A fault leaves the context in RESYNC, where the entry is handled further (R73). -/
def Obligations.EntriesInsideARecord : Prop :=
  ∀ (env : ScanEnv) (c : Context) (value : Byte) (lineError : Bool), c.state = .inRecord →
    let faulted := fun (c : Context) (o : RecordOutcome) (entry : FifoEntry) =>
      let r := processEntry env { c with state := .resync, posts := [] } entry
      ((r.1, { outcome := o, length := c.length, posts := [] } :: r.2) : Context × List FinishedUnit)
    let counted := { c with length := c.length + 1 }
    let look := tableEntry env.table value.toNat
    let byte := FifoEntry.byte value false false
    processEntry env c (.idleEnd true) = faulted c .gap (.idleEnd true) ∧
    processEntry env c (.byte value lineError true) = faulted c .gap (.byte value lineError true) ∧
    processEntry env c (.idleEnd false)
      = ({ c with state := .await, posts := [] }, [{ outcome := .truncated, length := c.length, posts := [] }]) ∧
    (env.limit < c.length + 1 →
      processEntry env c (.byte value lineError false) = faulted c .overlong (.byte value lineError false)) ∧
    (c.length + 1 ≤ env.limit →
      processEntry env c (.byte value true false) = faulted counted .byteFault (.byte value true false) ∧
      (look.cls = .fault → processEntry env c byte = faulted counted .byteFault byte) ∧
      (look.cls = .skip → processEntry env c byte = (counted, [])) ∧
      (look.cls = .data → c.field.length < 32 →
        processEntry env c byte = ({ counted with field := c.field ++ [look.translation] }, [])) ∧
      (look.cls = .data → 32 ≤ c.field.length → processEntry env c byte = faulted counted .overlong byte) ∧
      (look.cls = .start → processEntry env c byte = ((beginRecord env look).1,
        { outcome := .broken, length := c.length, posts := [] } :: (beginRecord env look).2)) ∧
      (look.cls = .sep ∨ look.cls = .fin → ∀ o : RecordOutcome, (counted.endField env).2 = some o →
        o = .short ∧ processEntry env c byte = ({ (counted.endField env).1 with state := .await, posts := [] },
          [{ outcome := .short, length := (counted.endField env).1.length, posts := [] }]) ∨
        o ≠ .short ∧ processEntry env c byte = faulted (counted.endField env).1 o byte) ∧
      (look.cls = .sep → (counted.endField env).2 = none → processEntry env c byte = ((counted.endField env).1, [])))

/-- A record ended at END (R71): accepted with its posts when the plan is complete or the cursor stands at a repetition
boundary, else SHORT; the context goes to AWAIT. -/
def Obligations.RecordEndsAtEnd : Prop :=
  ∀ (env : ScanEnv) (c : Context) (value : Byte), c.state = .inRecord → c.length + 1 ≤ env.limit →
    (tableEntry env.table value.toNat).cls = .fin →
    let ended := (({ c with length := c.length + 1 } : Context).endField env).1
    (({ c with length := c.length + 1 } : Context).endField env).2 = none →
    ∃ c' : Context, c'.state = .await ∧ c'.posts = [] ∧
      processEntry env c (.byte value false false) = (c',
        [if ended.complete = true ∨ ended.boundary = true then
          { outcome := .accepted, length := ended.length, posts := ended.posts }
        else { outcome := .short, length := ended.length, posts := [] }])

/-- A field ends (R66): the tail policy (R35) once the plan is complete, else the field step at the cursor consumes it
(R37 to R39); the buffer is emptied, and the cursor runs on. The conversions of the KEY and VALUE steps: DECIMAL (R44), HEX
(R45) and RAW (R46) with the ranges of R43, each with what it accepts, what it gives, and its failure on every other field.
And where a LEAVE goes: the step after the AGAIN that closes the innermost group, which every valid plan has. -/
def Obligations.FieldsAreConsumed : Prop :=
  (∀ (f : Nat) (field : List Byte),
    (∀ sign whole fraction : List Byte, DecimalForm f sign whole fraction field →
      let n : Int := (if sign = [0x2D] then -1 else 1) *
        ((digitsNumber 10 ((whole ++ fraction).map (fun d => d.toNat - 0x30)) * 10 ^ (f - fraction.length) : Nat) : Int)
      (-140737488355328 ≤ n ∧ n ≤ 140737488355327 →
        ∃ v : Value, convertValue .decimal f field = some v ∧ v.toInt = n) ∧
      (n < -140737488355328 ∨ 140737488355327 < n → convertValue .decimal f field = none)) ∧
    ((∀ sign whole fraction : List Byte, ¬DecimalForm f sign whole fraction field) →
      convertValue .decimal f field = none) ∧
    (∀ whole : List Byte, DecimalForm 0 [] whole [] field →
      let n := digitsNumber 10 (whole.map (fun d => d.toNat - 0x30))
      (n ≤ 4294967295 → ∃ k : Key, convertKey .decimal field = some k ∧ k.toNat = n) ∧
      (4294967295 < n → convertKey .decimal field = none)) ∧
    ((∀ whole : List Byte, ¬DecimalForm 0 [] whole [] field) → convertKey .decimal field = none) ∧
    (let n := digitsNumber 16 (field.map hexValue)
     ((∀ b ∈ field, IsHexDigit b) ∧ 1 ≤ field.length ∧ field.length ≤ 8 →
       ∃ k : Key, convertKey .hex field = some k ∧ k.toNat = n) ∧
     (¬((∀ b ∈ field, IsHexDigit b) ∧ 1 ≤ field.length ∧ field.length ≤ 8) → convertKey .hex field = none) ∧
     ((∀ b ∈ field, IsHexDigit b) ∧ 1 ≤ field.length ∧ field.length ≤ 12 ∧ n ≤ 140737488355327 →
       ∃ v : Value, convertValue .hex f field = some v ∧ v.toInt = n) ∧
     (¬((∀ b ∈ field, IsHexDigit b) ∧ 1 ≤ field.length ∧ field.length ≤ 12 ∧ n ≤ 140737488355327) →
       convertValue .hex f field = none)) ∧
    (let n := digitsNumber 256 (field.map BitVec.toNat)
     (1 ≤ field.length ∧ field.length ≤ 4 → ∃ k : Key, convertKey .raw field = some k ∧ k.toNat = n) ∧
     (¬(1 ≤ field.length ∧ field.length ≤ 4) → convertKey .raw field = none) ∧
     (1 ≤ field.length ∧ field.length ≤ 6 ∧ n ≤ 140737488355327 →
       ∃ v : Value, convertValue .raw f field = some v ∧ v.toInt = n) ∧
     (¬(1 ≤ field.length ∧ field.length ≤ 6 ∧ n ≤ 140737488355327) → convertValue .raw f field = none))) ∧
  (∀ (p : Plan) (i : Nat),
    let closes := fun (j : Nat) => i ≤ j ∧ p.steps[j]? = some .again ∧ p.depthAt (j + 1) = p.depthAt i - 1 ∧
      ∀ k : Nat, i ≤ k → k ≤ j → p.depthAt i ≤ p.depthAt k
    (∀ j : Nat, closes j → p.afterGroup i = j + 1) ∧ (p.Valid → 0 < p.depthAt i → ∃ j : Nat, closes j)) ∧
  ∀ (env : ScanEnv) (c : Context),
    (c.complete = true → c.endField env = ({ c with field := [] },
      if env.plan.tailPolicy = .strict ∧ c.field ≠ [] then some .overlong else none)) ∧
    (c.complete = false →
      (∀ conversion, env.plan.steps[c.cursor]? = some (.key conversion) → c.endField env =
        match convertKey conversion c.field with
        | none => ({ c with field := [] }, some .convert)
        | some k => Context.run env { c with field := [], boundary := false, key := some k, cursor := c.cursor + 1 }) ∧
      (∀ conversion slot f, env.plan.steps[c.cursor]? = some (.value conversion slot f) → c.endField env =
        match convertValue conversion f c.field with
        | none => ({ c with field := [] }, some .convert)
        | some v => Context.run env
          { c with field := [], boundary := false, slots := c.slots.set slot (some v), cursor := c.cursor + 1 }) ∧
      (env.plan.steps[c.cursor]? = some .skipField →
        c.endField env = Context.run env { c with field := [], boundary := false, cursor := c.cursor + 1 }) ∧
      (∀ literal onMiss, env.plan.steps[c.cursor]? = some (.matchLiteral literal onMiss) → c.field = literal →
        c.endField env = Context.run env { c with field := [], boundary := false, cursor := c.cursor + 1 }) ∧
      (∀ literal, env.plan.steps[c.cursor]? = some (.matchLiteral literal .fault) → c.field ≠ literal →
        c.endField env = ({ c with field := [] }, some .mismatch)) ∧
      (∀ literal, env.plan.steps[c.cursor]? = some (.matchLiteral literal .leave) → c.field ≠ literal →
        c.endField env = Context.run env
          { c with field := [], boundary := false, stack := c.stack.tail, cursor := env.plan.afterGroup c.cursor }))

/-- The run through non-field steps (R67), with the movements of REPEAT, AGAIN (R68), POST (R69, R70) and FINISH. `fuel` is
the bound of log entry 21, 2^38 steps at the start of a run. -/
def Obligations.CursorRunsThroughSteps : Prop :=
  (∀ (env : ScanEnv) (c : Context), Context.run env c = runCursor env (2 ^ 38) c) ∧
  ∀ (env : ScanEnv) (c : Context) (fuel : Nat),
    (∀ step, env.plan.steps[c.cursor]? = some step → step.isField = true → runCursor env (fuel + 1) c = (c, none)) ∧
    (env.plan.steps[c.cursor]? = some .finish → runCursor env (fuel + 1) c = ({ c with complete := true }, none)) ∧
    (∀ count, env.plan.steps[c.cursor]? = some (.repeatGroup count) → runCursor env (fuel + 1) c = runCursor env fuel
      { c with
        stack := { first := c.cursor + 1, remaining := count.toNat, completed := 0 } :: c.stack
        cursor := c.cursor + 1 }) ∧
    (env.plan.steps[c.cursor]? = some .again → ∀ (e : RepEntry) (outer : List RepEntry), c.stack = e :: outer →
      runCursor env (fuel + 1) c = runCursor env fuel
        (if e.remaining = 0 then
          { c with cursor := e.first, boundary := true
                   stack := { e with completed := if 255 ≤ e.completed then e.completed else e.completed + 1 } :: outer }
        else if e.remaining = 1 then { c with cursor := c.cursor + 1, stack := outer }
        else { c with cursor := e.first
                      stack := { first := e.first, remaining := e.remaining - 1
                                 completed := if 255 ≤ e.completed then e.completed else e.completed + 1 } :: outer })) ∧
    (∀ (slot : Fin 4) (offset : Fin 8) (addIndex reject : Bool),
      env.plan.steps[c.cursor]? = some (.post slot offset addIndex reject) →
      (c.key = none ∨ c.slots[slot] = none → runCursor env (fuel + 1) c = (c, some .short)) ∧
      ∀ (k : Key) (v : Value), c.key = some k → c.slots[slot] = some v →
        let effective := k.toNat + (if addIndex then (match c.stack with | [] => 0 | e :: _ => e.completed) else 0)
        let hit := fun (g : Nat) =>
          effective ≤ 4294967295 ∧ (lookupKey env.windows effective).1 = .routed g ∧ g + offset.val < 65488
        let goOn := fun (p : Pending) =>
          if 16 ≤ c.posts.length then (c, some .postLimit)
          else runCursor env fuel { c with posts := c.posts ++ [p], cursor := c.cursor + 1 }
        (∀ g, hit g → runCursor env (fuel + 1) c = goOn (.post (BitVec.ofNat 16 (g + offset.val)) v)) ∧
        ((∀ g, ¬hit g) → runCursor env (fuel + 1) c =
          if reject = true then (c, some .unrouted) else goOn (.unrouted v)))

/-- Processing one entry ends at most two records, and the second of two ends as SHORT (R75); the unit of a record that is
not ACCEPTED carries no posts (R72). -/
def Obligations.AtMostTwoRecordsPerEntry : Prop :=
  ∀ (env : ScanEnv) (c : Context) (entry : FifoEntry),
    (processEntry env c entry).2.length ≤ 2 ∧
    (∀ u v, (processEntry env c entry).2 = [u, v] → v.outcome = .short) ∧
    (∀ u ∈ (processEntry env c entry).2, u.outcome ≠ .accepted → u.posts = [])

/-- A unit held is admitted whole when the queue then holds no more than 28 entries, with the queue entries of R76, the
notice of R78 and the end of the release; else the scan engine waits (R77). That a release with no unit left stays RELEASING
while a flush of its lane waits is the model's reading, log entry 17. -/
def Obligations.UnitsAreAdmittedWhole : Prop :=
  ∀ (s : State) (n : Fin 4) (u : FinishedUnit) (us : List FinishedUnit), s.scan = .releasing n (u :: us) →
    let base := 65488 + 12 * n.val
    let entries := u.posts.map (fun p => match p with
        | .post g v => ({ group := g, kind := .post v, origin := .engine } : QueueEntry)
        | .unrouted v => { group := BitVec.ofNat 16 (base + 11), kind := .post v, origin := .engine })
      ++ [{ group := BitVec.ofNat 16 (base + u.outcome.code), kind := .post (BitVec.ofNat 48 u.length)
            origin := .engine }]
    (28 < s.store.queue.length + entries.length → exec .unitAdmitted s = .next s) ∧
    (s.store.queue.length + entries.length ≤ 28 →
      let store := ({ s.store with queue := s.store.queue ++ entries } : Store).settle
      store.queue = s.store.queue ++ entries ∧
      store.state = s.store.state ∧ (∀ g : Nat, store.record g = s.store.record g) ∧
      let joined : State := { s with store := store }
      let noticed := if u.outcome ≠ .accepted ∧ (s.lane n).settings.faultNotices = true then
        joined.notify (.recordFault n u.outcome u.length) else joined
      exec .unitAdmitted s = .next
        (if us = [] ∧ s.flushWaiting ≠ some n then ({ noticed with scan := .free } : State).testHaltDone
        else { noticed with scan := .releasing n us }))

/-- The scan engine holds a lane only while the engine is not STOPPED, every enabled lane's plan is then present, and a
lane being scanned is enabled with an entry to take (R56, R57, R138, R141): kept by every step, so that no step from such
a state faults. -/
def Obligations.ScanStateStaysSound : Prop :=
  (∀ s t : State, s.ScanSound → step s = .next t → t.ScanSound) ∧
  ∀ (s : State) (f : Fault), s.ScanSound → step s ≠ .fault f

/-- The FIFOs hold at most 512 entries (R3), the notice queue at most 32 notices (R148, R150), the tally queue at most 32
entries with every ENGINE entry in the first 28 places (R115), and every item of a scan context keeps to the size R59 gives
it: 16 pending entries (R70), 32 translations, 4 entries on the repetition stack (R47), the record length within the
lane's limit, the cursor and the stack's numbers in range. Each is kept by every step; the contexts' by their lanes' plans
being valid (OnlyValidPlansAreStored) and a scanned lane enabled (ScanStateStaysSound). -/
def Obligations.BuffersStayBounded : Prop :=
  ∀ s t : State, step s = .next t →
    (s.FifosBounded → t.FifosBounded) ∧ (s.NoticesBounded → t.NoticesBounded) ∧ (s.QueueBounded → t.QueueBounded) ∧
    (s.PlansValid → s.ScanSound → s.ContextsBounded → t.ContextsBounded)

/-! ### The tally store -/

/-- READ-TALLY, CLEAR-TALLY and CLEAR-FLAGS: the argument checks (R101, R107, R109), then refused or admitted whole
(R116). -/
def Obligations.TallyRequestsAdmittedWhole : Prop :=
  (∀ (s : State) (tag : Byte) (r : Request) (entries : List QueueEntry), r.tag = tag → s.link.state = .held r .owner →
    entries.length ≤ 16 →
    (s.store.state = .uninitialised → s.admitTally tag entries = s.answer tag .storeNotReady []) ∧
    (s.store.state = .clearing → s.admitTally tag entries = s.answer tag .storeBusy []) ∧
    (s.store.state = .ready ∨ s.store.state = .catchUp →
      (32 < s.store.queue.length + entries.length → s.admitTally tag entries = s.answer tag .queueFull []) ∧
      (s.store.queue.length + entries.length ≤ 32 →
        let store := ({ s.store with queue := s.store.queue ++ entries } : Store).settle
        s.admitTally tag entries = { s with
          store := store, link := { s.link with state := .held r (.tally entries.length []) } } ∧
        store.queue = s.store.queue ++ entries ∧ store.state = s.store.state ∧
        ∀ g : Nat, store.record g = s.store.record g))) ∧
  (∀ (s : State) (tag : Byte) (first : Group) (count width shift clearAfter : Byte),
    s.link.state = .held { code := .readTally, tag, payload := bytes16 first ++ [count, width, shift, clearAfter] }
      .owner →
    let argumentsGood := 1 ≤ count.toNat ∧ count.toNat ≤ 6 ∧ first.toNat + count.toNat ≤ 65536 ∧
      (width = 32 ∨ width = 48) ∧ shift.toNat ≤ 16 ∧ clearAfter.toNat ≤ 1
    (¬argumentsGood → exec (.readTally tag first count width shift clearAfter) s
      = .next (s.answer tag .badArgument [])) ∧
    (argumentsGood → exec (.readTally tag first count width shift clearAfter) s
      = .next (s.admitTally tag ((List.range count.toNat).map (fun k =>
        { group := BitVec.ofNat 16 (first.toNat + k)
          kind := .read (if width = 32 then .w32 else .w48) shift.toNat (decide (clearAfter = 1)), origin := .link }))))) ∧
  (∀ (s : State) (tag : Byte) (first : Group) (count : Byte),
    s.link.state = .held { code := .clearTally, tag, payload := bytes16 first ++ [count] } .owner →
    let argumentsGood := 1 ≤ count.toNat ∧ count.toNat ≤ 16 ∧ first.toNat + count.toNat ≤ 65536
    (¬argumentsGood → exec (.clearTally tag first count) s = .next (s.answer tag .badArgument [])) ∧
    (argumentsGood → exec (.clearTally tag first count) s
      = .next (s.admitTally tag ((List.range count.toNat).map (fun k =>
        { group := BitVec.ofNat 16 (first.toNat + k), kind := .clear, origin := .link }))))) ∧
  ∀ (s : State) (tag : Byte) (group : Group),
    s.link.state = .held { code := .clearFlags, tag, payload := bytes16 group } .owner →
    exec (.clearFlags tag group) s
      = .next (s.admitTally tag [{ group := group, kind := .clearFlags, origin := .link }])

/-- CONFIGURE-STORE (R131, R132) and CLEAR-STORE (R133). -/
def Obligations.StoreRequests : Prop :=
  ((∀ (s : State) (tag sumMode rowPolicy : Byte),
    s.link.state = .held { code := .configureStore, tag, payload := [sumMode, rowPolicy] } .owner →
    exec (.configureStore tag sumMode rowPolicy) s = .next
      (if 1 < sumMode.toNat ∨ 1 < rowPolicy.toNat then s.answer tag .badArgument []
      else if s.engine ≠ .stopped ∨ s.store.state = .clearing then s.answer tag .wrongState []
      else ({ s with store := { s.store with
          sumMode := if sumMode = 0 then .saturate else .wrap
          rowPolicy := if rowPolicy = 0 then .keepOpen else .closeAfter } } : State).answer tag .ok [])) ∧
  ∀ (s : State) (tag : Byte), s.link.state = .held { code := .clearStore, tag, payload := [] } .owner →
    (s.engine ≠ .stopped ∨ s.store.state = .clearing →
      exec (.clearStore tag) s = .next (s.answer tag .wrongState [])) ∧
    (s.engine = .stopped → s.store.state ≠ .clearing →
      let store := ({ s.store with
        state := .clearing, rowsDone := 0, catchingUp := decide (s.store.state = .catchUp) } : Store).settle
      exec (.clearStore tag) s = .next (({ s with store := store } : State).answer tag .accepted []) ∧
      store.state = .clearing ∧ store.rowsDone = 0 ∧ store.catchingUp = decide (s.store.state = .catchUp) ∧
      store.queue = s.store.queue ∧ store.sumMode = s.store.sumMode ∧ store.rowPolicy = s.store.rowPolicy ∧
      ∀ g : Nat, store.record g = s.store.record g)) ∧
  (∀ n : Nat, (RequestCode.lengthMatches .configureStore n = true ↔ n = 2) ∧
    (RequestCode.lengthMatches .clearStore n = true ↔ n = 0))

/-- A bank's activation and precharge complete (R117): its work, on its head or on the row of a clear, goes on at once, or
the bank becomes CLOSED; records and queue are unchanged, and the controller goes on at once from the bank's new state
(Store.settle, of which RefreshesFallDueAndComplete says what it does). A row opened for work that a soft reset discarded is
closed again (R136): the model's reading, log entry 13. That an activation or precharge completing in a bank that is not
OPENING or CLOSING changes nothing is the model's choice, log entry 3. -/
def Obligations.BanksOpenAndClose : Prop :=
  ∀ (s : State) (b : Fin 8),
    let goesTo := fun (k : Bank) => (s.store.putBank b k).settle
    let keeps := fun (store : Store) =>
      store.queue = s.store.queue ∧ ∀ g : Nat, store.record g = s.store.record g
    (∀ row e, s.store.bank b = .opening row (some .head) → headOf b s.store.queue = some e →
      let k := Bank.working row (.record e s.store.sumMode (s.store.record e.group.toNat) false)
      exec (.activationComplete b) s = .next { s with store := goesTo k } ∧ (goesTo k).bank b = k ∧ keeps (goesTo k)) ∧
    (∀ row, s.store.bank b = .opening row (some .clearRow) →
      let k := Bank.working row (.rowWrite false)
      exec (.activationComplete b) s = .next { s with store := goesTo k } ∧ (goesTo k).bank b = k ∧ keeps (goesTo k)) ∧
    (∀ e, s.store.bank b = .closing (some .head) → headOf b s.store.queue = some e →
      let k := Bank.opening e.row (some .head)
      exec (.prechargeComplete b) s = .next { s with store := goesTo k } ∧ (goesTo k).bank b = k ∧ keeps (goesTo k)) ∧
    (∀ row : Fin 1024, s.store.bank b = .closing (some .clearRow) → row.val = s.store.rowsDone / 8 % 1024 →
      let k := Bank.opening row (some .clearRow)
      exec (.prechargeComplete b) s = .next { s with store := goesTo k } ∧ (goesTo k).bank b = k ∧ keeps (goesTo k)) ∧
    (s.store.bank b = .closing none →
      exec (.prechargeComplete b) s = .next { s with store := goesTo .closed } ∧ keeps (goesTo .closed) ∧
      ((goesTo .closed).bank b = .closed ∨ ∃ row work, (goesTo .closed).bank b = .opening row (some work))) ∧
    (∀ row, s.store.bank b = .opening row none →
      let k := Bank.closing none
      exec (.activationComplete b) s = .next { s with store := goesTo k } ∧ (goesTo k).bank b = k ∧ keeps (goesTo k)) ∧
    ((∀ row work, s.store.bank b ≠ .opening row work) → exec (.activationComplete b) s = .next s) ∧
    ((∀ work, s.store.bank b ≠ .closing work) → exec (.prechargeComplete b) s = .next s)

/-- A record operation completes (R121): its record is written as section 7.5 gives and no other, its entry leaves the
queue, the bank stays OPEN or goes to CLOSING by the row policy, a poisoning is notified (R123), and the result is handed
on: a LINK entry's to the held request, whose reply goes out with its last entry (R106, R108, R109, section 10.6.4); and a
halt may be done (R141). The model's own: the entry of an operation that a soft reset let run on sends no STORE-POISON and
its bank closes (log entry 12); readouts are kept in ascending group order as they come (log entry 27); STORE-POISON enters
before HALT-DONE (log entry 36) and before the reply is formed (log entry 30). -/
def Obligations.RecordOperationCompletes : Prop :=
  (∀ (s : State) (b : Fin 8) (row : Fin 1024) (e : QueueEntry) (mode : SumMode) (asRead : StoredRecord) (runOn : Bool),
    s.store.bank b = .working row (.record e mode asRead runOn) →
    let result := recordOperation e mode asRead
    ∃ store : Store,
      (∀ g : Nat, store.record g =
        if g = e.group.toNat then result.write.getD (s.store.record g) else s.store.record g) ∧
      store.queue = dropHead b s.store.queue ∧
      (∀ c : Fin 8, store.bank c =
        if c ≠ b then s.store.bank c
        else if runOn = true ∨ s.store.rowPolicy = .closeAfter then .closing none
        else .opened row) ∧
      store.state = s.store.state ∧ store.sumMode = s.store.sumMode ∧ store.rowPolicy = s.store.rowPolicy ∧
      store.debt = s.store.debt ∧ store.refresh = s.store.refresh ∧ store.catchingUp = s.store.catchingUp ∧
      store.rowsDone = s.store.rowsDone ∧
      let settled : State := { s with store := store.settle }
      let noticed := if result.poisons = true ∧ runOn = false then settled.notify (.storePoison e.group) else settled
      (e.origin = .engine → exec (.recordOperationComplete b) s = .next noticed.testHaltDone) ∧
      (e.origin = .link →
        ∀ (r : Request) (left : Nat) (readouts : List Readout), s.link.state = .held r (.tally left readouts) →
        let readouts' := match result.readout with | some x => insertReadout x readouts | none => readouts
        (2 ≤ left → exec (.recordOperationComplete b) s = .next
          ({ noticed with
            link := { s.link with state := .held r (.tally (left - 1) readouts') } } : State).testHaltDone) ∧
        (left = 1 → exec (.recordOperationComplete b) s = .next (noticed.answer r.tag .ok
          (if r.code = .readTally then r.payload.take 5 ++ readouts'.flatMap Readout.bytes
          else r.payload)).testHaltDone))) ∧
  (∀ (b : Fin 8) (q ahead behind : List QueueEntry) (e : QueueEntry), q = ahead ++ e :: behind →
    (∀ x ∈ ahead, x.bank ≠ b.val) → e.bank = b.val → headOf b q = some e ∧ dropHead b q = ahead ++ behind) ∧
  (∀ (x : Readout) (readouts : List Readout), (insertReadout x readouts).Perm (x :: readouts) ∧
    (readouts.Pairwise (fun y z => y.group.toNat ≤ z.group.toNat) →
      (insertReadout x readouts).Pairwise (fun y z => y.group.toNat ≤ z.group.toNat))) ∧
  ∀ x : Readout, ∃ flags : Byte,
    flags.toNat = (if x.minimum.isSome then 1 else 0) + (if x.maximum.isSome then 2 else 0)
      + (if x.sumLimited then 4 else 0) + (if x.minimumLimited then 8 else 0) + (if x.maximumLimited then 16 else 0)
      + (if x.sumWide then 32 else 0) + (if x.sumOverflowed then 64 else 0) + (if x.readoutLimited then 128 else 0) ∧
    x.bytes = bytes16 x.group ++ [if x.poisoned then 1 else 0, flags] ++ bytes64 (BitVec.ofNat 64 x.count)
      ++ bytes64 (BitVec.ofInt 64 x.sum)
      ++ bytes64 (match x.minimum with | some y => BitVec.ofInt 64 y | none => 0)
      ++ bytes64 (match x.maximum with | some y => BitVec.ofInt 64 y | none => 0)

/-- What a record operation does, by its kind and the condition it finds the record in (R122 to R127, R105). That the bits
of the absent minimum and maximum of a record written empty are 0 is the model's choice, log entry 24. -/
def Obligations.RecordOperationsByCondition : Prop :=
  ∀ (e : QueueEntry) (mode : SumMode) (r : StoredRecord),
    let poisoned : StoredRecord :=
      { contents := { r.contents with
          minimum := if r.contents.maximum.toInt < r.contents.minimum.toInt then r.contents.maximum
            else r.contents.minimum
          maximum := if r.contents.maximum.toInt < r.contents.minimum.toInt then r.contents.minimum
            else r.contents.maximum
          poisoned := true }
        difference := 0 }
    let reported : Readout :=
      { group := e.group, poisoned := true, count := 0, sum := 0, sumLimited := false, minimum := none
        minimumLimited := false, maximum := none, maximumLimited := false, sumWide := false, sumOverflowed := false
        readoutLimited := false }
    (∀ v, e.kind = .post v →
      (r.difference ≠ 0 → recordOperation e mode r = { write := some poisoned, poisons := true, readout := none }) ∧
      (r.difference = 0 → r.contents.poisoned = true →
        recordOperation e mode r = { write := none, poisons := false, readout := none }) ∧
      (r.difference = 0 → r.contents.poisoned = false → recordOperation e mode r =
        { write := some { contents := r.contents.post mode v, difference := 0 }, poisons := false, readout := none })) ∧
    (∀ w k clear, e.kind = .read w k clear →
      (r.difference ≠ 0 →
        recordOperation e mode r = { write := some poisoned, poisons := true, readout := some reported }) ∧
      (r.difference = 0 → r.contents.poisoned = true →
        recordOperation e mode r = { write := none, poisons := false, readout := some reported }) ∧
      (r.difference = 0 → r.contents.poisoned = false → recordOperation e mode r =
        { write := if clear = true then some StoredRecord.empty
            else if r.contents.limits w k = true then
              some { contents := { r.contents with readoutLimited := true }, difference := 0 }
            else none
          poisons := false
          readout := some (r.contents.readout e.group w k) })) ∧
    (e.kind = .clear → recordOperation e mode r =
      { write := some { contents := { count := 0, sum := 0, minimum := 0, maximum := 0, sumOverflowed := false
                                      readoutLimited := false, poisoned := false }, difference := 0 }
        poisons := false, readout := none }) ∧
    (e.kind = .clearFlags →
      (r.difference ≠ 0 → recordOperation e mode r = { write := some poisoned, poisons := true, readout := none }) ∧
      (r.difference = 0 → r.contents.poisoned = true →
        recordOperation e mode r = { write := none, poisons := false, readout := none }) ∧
      (r.difference = 0 → r.contents.poisoned = false → recordOperation e mode r =
        { write := some { contents := { r.contents with sumOverflowed := false, readoutLimited := false }, difference := 0 }
          poisons := false, readout := none }))

/-- A post applied to a record: count (R95), sum (R96), minimum and maximum (R97), sum-overflowed (R98); and a healthy
record's minimum is never above its maximum (R94), whichever record operation writes it. -/
def Obligations.PostArithmetic : Prop :=
  (∀ (mode : SumMode) (v : Value) (c : RecordContents),
    let exact := c.sum.toInt + v.toInt
    let after := c.post mode v
    after.count.toNat = (if c.count.toNat = 36028797018963967 then 36028797018963967 else c.count.toNat + 1) ∧
    after.sum.toInt =
      (if 36028797018963967 < exact then
        (match mode with | .saturate => 36028797018963967 | .wrap => exact - 72057594037927936)
      else if exact < -36028797018963968 then
        (match mode with | .saturate => -36028797018963968 | .wrap => exact + 72057594037927936)
      else exact) ∧
    after.minimum? = some (if c.count.toNat = 0 then v.toInt else min c.minimum.toInt v.toInt) ∧
    after.maximum? = some (if c.count.toNat = 0 then v.toInt else max c.maximum.toInt v.toInt) ∧
    (after.sumOverflowed = true ↔ c.sumOverflowed = true ∨ c.count.toNat = 36028797018963967 ∨
      36028797018963967 < exact ∨ exact < -36028797018963968) ∧
    after.readoutLimited = c.readoutLimited ∧ after.poisoned = c.poisoned) ∧
  (∀ (e : QueueEntry) (mode : SumMode) (r w : StoredRecord), r.Ordered → (recordOperation e mode r).write = some w →
    w.Ordered) ∧
  StoredRecord.empty.Ordered

/-- The conversion of a figure for delivery (R103): the shift rounds to the nearest whole number, a half upward, the limit
holds the width's range, order is kept, and what an absent figure gives. -/
def Obligations.FiguresAreConverted : Prop :=
  (∀ (w : ReadWidth) (k : Nat) (x : Int), k ≤ 16 →
    let top : Int := match w with | .w32 => 2147483647 | .w48 => 140737488355327
    let bottom : Int := match w with | .w32 => -2147483648 | .w48 => -140737488355328
    ∃ y : Int, (k = 0 → y = x) ∧
      (1 ≤ k → 2 ^ k * y ≤ x + 2 ^ (k - 1) ∧ x + 2 ^ (k - 1) < 2 ^ k * (y + 1)) ∧
      convertFigure w k x = (if top < y then (top, true) else if y < bottom then (bottom, true) else (y, false))) ∧
  (∀ (w : ReadWidth) (k : Nat) (x y : Int), x ≤ y → (convertFigure w k x).1 ≤ (convertFigure w k y).1) ∧
  (∀ (w : ReadWidth) (k : Nat), convertFigure? w k none = (none, false)) ∧
  (∀ (w : ReadWidth) (k : Nat) (x : Int),
    convertFigure? w k (some x) = (some (convertFigure w k x).1, (convertFigure w k x).2))

/-- The figures a READ of a healthy record delivers (R104, with R100). -/
def Obligations.ReadoutFigures : Prop :=
  ∀ (c : RecordContents) (group : Group) (w : ReadWidth) (k : Nat),
    let minimum := if c.count = 0 then none else some c.minimum.toInt
    let maximum := if c.count = 0 then none else some c.maximum.toInt
    c.readout group w k =
      { group := group, poisoned := false, count := c.count.toNat
        sum := (convertFigure w k c.sum.toInt).1, sumLimited := (convertFigure w k c.sum.toInt).2
        minimum := (convertFigure? w k minimum).1, minimumLimited := (convertFigure? w k minimum).2
        maximum := (convertFigure? w k maximum).1, maximumLimited := (convertFigure? w k maximum).2
        sumWide := decide (140737488355327 < c.sum.toInt ∨ c.sum.toInt < -140737488355328)
        sumOverflowed := c.sumOverflowed
        readoutLimited := c.readoutLimited || (convertFigure w k c.sum.toInt).2 || (convertFigure? w k minimum).2
          || (convertFigure? w k maximum).2 }

/-- A row write of a clear (R134): the 8 records of its row in its bank become empty and no other changes, its bank goes to
CLOSING, the count advances, and the last row write ends the clear with CLEAR-DONE; one that a soft reset let run on ends
none (R136, log entry 12). The controller then goes on at once (Store.settle). -/
def Obligations.RowWritesClearTheStore : Prop :=
  ∀ (s : State) (b : Fin 8) (row : Fin 1024) (runOn : Bool), s.store.bank b = .working row (.rowWrite runOn) →
    ∃ store : Store,
      (∀ g : Nat, store.record g =
        if g % 8 = b.val ∧ g / 64 = row.val then StoredRecord.empty else s.store.record g) ∧
      store.queue = s.store.queue ∧
      (∀ c : Fin 8, store.bank c = if c ≠ b then s.store.bank c else .closing none) ∧
      store.debt = s.store.debt ∧ store.refresh = s.store.refresh ∧
      store.rowsDone = (if runOn = true then s.store.rowsDone else s.store.rowsDone + 1) ∧
      (runOn = true ∨ s.store.rowsDone + 1 ≠ 8192 →
        exec (.rowWriteComplete b) s = .next { s with store := store.settle } ∧ store.state = s.store.state ∧
        store.catchingUp = s.store.catchingUp) ∧
      (runOn = false → s.store.rowsDone + 1 = 8192 →
        exec (.rowWriteComplete b) s = .next (({ s with store := store.settle } : State).notify .clearDone) ∧
        store.state = (if s.store.catchingUp = true then .catchUp else .ready) ∧ store.catchingUp = false)

/-- REFRESH_DUE and REFRESH_COMPLETE (R128 to R130, R136), and what the store controller does at once after any event
(Store.settle): it begins a refresh under the conditions of R129 and R130, lets the sequences in flight end and closes the
idle banks while it prepares it, runs it with every bank CLOSED, and else lets each bank start work on its head (R118, R119,
R120) or the clear on its next row write (R134). After a refresh with debt left the next one runs at once, where R129 or
R130 asks for it. The model's own: the timer is held exactly at a debt of 8 (log entry 33); nothing falls due while a
power-on reset is in force (log entry 20); idle banks close once every sequence in flight has ended (log entry 14);
REFRESH_COMPLETE with none running changes nothing (log entry 3). -/
def Obligations.RefreshesFallDueAndComplete : Prop :=
  (∀ st : Store,
    let wanted := st.refresh = .none ∧ 0 < st.debt ∧
      (st.queue = [] ∨ st.debt = 8 ∨ st.state = .catchUp ∨ (st.state = .clearing ∧ st.catchingUp = true))
    let inFlight := ∃ b : Fin 8, (∃ row work, st.bank b = .opening row work) ∨ (∃ row op, st.bank b = .working row op) ∨
      ∃ work, st.bank b = .closing (some work)
    let allClosed := ∀ b : Fin 8, st.bank b = .closed
    (st.settle.state = st.state ∧ st.settle.sumMode = st.sumMode ∧ st.settle.rowPolicy = st.rowPolicy ∧
      st.settle.queue = st.queue ∧ st.settle.catchingUp = st.catchingUp ∧ st.settle.rowsDone = st.rowsDone ∧
      ∀ g : Nat, st.settle.record g = st.record g) ∧
    (st.refresh = .running → st.settle = st) ∧
    (st.refresh = .preparing ∨ wanted →
      (allClosed → st.settle.refresh = .running ∧ st.settle.debt = st.debt - 1) ∧
      (¬allClosed → st.settle.refresh = .preparing ∧ st.settle.debt = st.debt) ∧
      (inFlight → ∀ b : Fin 8, st.settle.bank b = st.bank b) ∧
      (¬inFlight → ∀ b : Fin 8, st.settle.bank b = match st.bank b with
        | .opened _ => .closing none
        | k => k)) ∧
    (st.refresh = .none → ¬wanted → st.settle.refresh = .none ∧ st.settle.debt = st.debt ∧
      (st.state = .ready ∨ st.state = .uninitialised → ∀ b : Fin 8,
        (headOf b st.queue = none → st.settle.bank b = st.bank b) ∧
        ∀ e : QueueEntry, headOf b st.queue = some e → st.settle.bank b = match st.bank b with
          | .closed => .opening e.row (some .head)
          | .opened row =>
            if row = e.row then .working row (.record e st.sumMode (st.record e.group.toNat) false)
            else .closing (some .head)
          | k => k) ∧
      (st.state = .catchUp ∨ (st.state = .clearing ∧ st.catchingUp = true) → ∀ b : Fin 8, st.settle.bank b = st.bank b) ∧
      (st.state = .clearing → st.catchingUp = false →
        let atRow := ∃ b : Fin 8, (∃ row, st.bank b = .opening row (some .clearRow)) ∨
          st.bank b = .closing (some .clearRow) ∨ ∃ row, st.bank b = .working row (.rowWrite false)
        (8192 ≤ st.rowsDone ∨ atRow → ∀ b : Fin 8, st.settle.bank b = st.bank b) ∧
        (st.rowsDone < 8192 → ¬atRow → ∀ (b : Fin 8) (next : Fin 1024), next.val = st.rowsDone / 8 →
          st.settle.bank b =
            if b.val ≠ st.rowsDone % 8 then st.bank b
            else match st.bank b with
              | .closed => .opening next (some .clearRow)
              | .opened row => if row = next then .working row (.rowWrite false) else .closing (some .clearRow)
              | k => k)))) ∧
  ∀ s : State,
    (s.porHeld = true ∨ 8 ≤ s.store.debt → exec .refreshDue s = .next s) ∧
    (s.porHeld = false → s.store.debt < 8 → exec .refreshDue s = .next { s with
      store := ({ s.store with
        debt := s.store.debt + 1
        state := if s.store.debt = 7 ∧ s.store.state = .ready then .catchUp else s.store.state
        catchingUp := s.store.catchingUp || decide (s.store.debt = 7 ∧ s.store.state = .clearing) } : Store).settle }) ∧
    (s.store.refresh ≠ .running → exec .refreshComplete s = .next s) ∧
    (s.store.refresh = .running → exec .refreshComplete s = .next { s with
      store := ({ s.store with
        refresh := .none
        state :=
          if s.store.debt = 0 ∧ s.store.state = .catchUp then .ready
          else if s.store.debt = 8 ∧ s.store.state = .ready then .catchUp
          else s.store.state
        catchingUp :=
          if s.store.debt = 0 then false
          else if s.store.debt = 8 ∧ s.store.state = .clearing then true
          else s.store.catchingUp } : Store).settle }) ∧
    (s.store.refresh = .running → (∀ b : Fin 8, s.store.bank b = .closed) → 0 < s.store.debt →
      s.store.queue = [] ∨ s.store.debt = 8 ∨ s.store.state = .catchUp ∨
        (s.store.state = .clearing ∧ s.store.catchingUp = true) →
      ∃ store : Store, exec .refreshComplete s = .next { s with store := store } ∧ store.refresh = .running ∧
        store.debt = s.store.debt - 1 ∧ ∀ b : Fin 8, store.bank b = .closed)

/-- Damage befalls one stored record and nothing else: its check code no longer matches its contents (R122). Where a group
stands in the store is R111. -/
def Obligations.DamageReachesOneRecord : Prop :=
  ∀ (s : State) (group : Group) (contents : RecordContents) (difference : BitVec 16), difference ≠ 0 →
    ∃ store : Store, exec (.recordDamage group contents difference) s = .next { s with store := store } ∧
      store.queue = s.store.queue ∧ store.banks = s.store.banks ∧ store.state = s.store.state ∧
      store.sumMode = s.store.sumMode ∧ store.rowPolicy = s.store.rowPolicy ∧ store.debt = s.store.debt ∧
      store.refresh = s.store.refresh ∧ store.catchingUp = s.store.catchingUp ∧ store.rowsDone = s.store.rowsDone ∧
      (∀ g : Nat, store.record g =
        if g = group.toNat then { contents := contents, difference := difference } else s.store.record g) ∧
      (store.record group.toNat).checkCode ≠ Config.checkCode contents.bits ∧
      (store.record group.toNat).condition = .checkMismatch

/-- Where a group is held (R111): bank, row and place, each in its range, and the group back from them; and the bank and
row a tally queue entry needs (R118, R119). -/
def Obligations.GroupPlaces : Prop :=
  (∀ e : QueueEntry, e.bank = e.group.toNat % 8 ∧ e.row.val = e.group.toNat / 64) ∧
  (∀ g : Nat, groupBank g = g % 8 ∧ groupRow g = g / 64 ∧ groupPlace g = g / 8 % 8) ∧
  (∀ g : Nat, g < 65536 → groupBank g ≤ 7 ∧ groupRow g ≤ 1023 ∧ groupPlace g ≤ 7 ∧
    groupAt (groupRow g) (groupPlace g) (groupBank g) = g) ∧
  ∀ row place bank : Nat, row ≤ 1023 → place ≤ 7 → bank ≤ 7 →
    groupBank (groupAt row place bank) = bank ∧ groupRow (groupAt row place bank) = row ∧
    groupPlace (groupAt row place bank) = place ∧ groupAt row place bank = 64 * row + 8 * place + bank

/-- The debt never exceeds 8 and every bank is CLOSED while a refresh runs (R129); and a bank that works on a record works
on its head, the oldest entry of the queue that lies in it (R118, R119), so that the entry a completing operation takes from
the queue is its own (R121). Each is kept by every step. -/
def Obligations.RefreshStaysSafe : Prop :=
  ∀ s t : State, step s = .next t →
    (s.RefreshSafe → t.RefreshSafe) ∧ (s.HeadsWorking → t.HeadsWorking)

/-- The code tables and the store's records keep the canonical form of their memories: kept by every step. -/
def Obligations.MemoriesStayCanonical : Prop :=
  ∀ s t : State, s.MemoriesCanonical → step s = .next t → t.MemoriesCanonical

/-- State.reset meets every invariant. -/
def Obligations.ResetMeetsEveryInvariant : Prop :=
  State.reset.FifosBounded ∧ State.reset.NoticesBounded ∧ State.reset.QueueBounded ∧ State.reset.RefreshSafe ∧
  State.reset.HeadsWorking ∧ State.reset.RouteSound ∧ State.reset.MemoriesCanonical ∧ State.reset.ScanSound ∧
  State.reset.ContextsBounded ∧ State.reset.PlansValid ∧ State.reset.RepliesFit

end
end

