-- ==== Sys2Proof/Laws/Memory.lean ====
section
/-! SUPPORT. The sparse memories: reading after writing, and the canonical form kept by every memory operation. -/

namespace Sys2Proof.Machine

variable {α : Type}

/-! ### Reading after writing -/

theorem cellAt_insertCell (m : List (Nat × α)) (i j : Nat) (v : α) :
    cellAt (insertCell m i v) j = if i = j then some v else cellAt m j := by
  induction m with
  | nil => simp [insertCell, cellAt]
  | cons c m ih =>
    obtain ⟨k, w⟩ := c
    simp only [insertCell]
    split
    · simp [cellAt]
    · split
      · subst_vars
        simp only [cellAt]
        split <;> rfl
      · simp only [cellAt, ih]
        split
        · subst_vars
          split <;> first | rfl | omega
        · rfl

theorem cellAt_eraseCell (m : List (Nat × α)) (i j : Nat) :
    cellAt (eraseCell m i) j = if i = j then none else cellAt m j := by
  induction m with
  | nil => simp [eraseCell, cellAt]
  | cons c m ih =>
    obtain ⟨k, w⟩ := c
    unfold eraseCell at ih ⊢
    rw [List.filter_cons]
    simp only [ne_eq, decide_not, Bool.not_eq_eq_eq_not, Bool.not_true, decide_eq_false_iff_not] at ih ⊢
    split
    · rename_i hk
      simp only [cellAt, ih]
      split
      · subst_vars
        simp [Ne.symm hk]
      · rfl
    · rename_i hk
      have hk : k = i := by simpa using hk
      subst hk
      simp only [cellAt, ih]
      split <;> rfl

theorem cellAt_filter (m : List (Nat × α)) (p : Nat → Bool) (j : Nat) :
    cellAt (m.filter (fun c => p c.1)) j = if p j then cellAt m j else none := by
  induction m with
  | nil => simp [cellAt]
  | cons c m ih =>
    obtain ⟨k, w⟩ := c
    rw [List.filter_cons]
    by_cases hk : p k
    · simp only [hk, if_true, cellAt, ih]
      split
      · subst_vars; simp [hk]
      · rfl
    · simp only [hk, Bool.false_eq_true, if_false, cellAt, ih]
      split
      · rename_i h
        have : k ≠ j := by rintro rfl; exact hk h
        simp [this]
      · rfl

theorem cellAt_putCell [DecidableEq α] (blank : Option α) (m : List (Nat × α)) (i j : Nat) (v : α) :
    cellAt (putCell blank m i v) j =
      if i = j then (if blank = some v then none else some v) else cellAt m j := by
  unfold putCell
  split <;> simp [cellAt_insertCell, cellAt_eraseCell]

/-- A read of a written address gives the value written, whatever an unlisted address reads as. -/
theorem readCell_putCell_same [DecidableEq α] (blank : Option α) (unknown : α) (m : List (Nat × α)) (i : Nat) (v : α) :
    (cellAt (putCell blank m i v) i).getD (blank.getD unknown) = v := by
  rw [cellAt_putCell]
  by_cases h : blank = some v <;> simp [h]

/-! ### The canonical form -/

theorem rising_cons_iff (a : Nat × α) (m : List (Nat × α)) :
    rising (a :: m) = true ↔ rising m = true ∧ ∀ c ∈ m, a.1 < c.1 := by
  induction m generalizing a with
  | nil => simp [rising]
  | cons b m ih =>
    simp only [rising, Bool.and_eq_true, decide_eq_true_eq, List.mem_cons, forall_eq_or_imp]
    constructor
    · rintro ⟨h, hr⟩
      exact ⟨hr, h, fun c hc => Nat.lt_trans h (((ih b).1 hr).2 c hc)⟩
    · rintro ⟨hr, h, -⟩
      exact ⟨h, hr⟩

theorem rising_filter (p : Nat × α → Bool) (m : List (Nat × α)) (h : rising m = true) :
    rising (m.filter p) = true := by
  induction m with
  | nil => exact h
  | cons a m ih =>
    rw [rising_cons_iff] at h
    rw [List.filter_cons]
    split
    · exact (rising_cons_iff _ _).2 ⟨ih h.1, fun c hc => h.2 c (List.mem_filter.1 hc).1⟩
    · exact ih h.1

theorem mem_insertCell {m : List (Nat × α)} {i : Nat} {v : α} {c : Nat × α} (h : c ∈ insertCell m i v) :
    c = (i, v) ∨ c ∈ m := by
  induction m with
  | nil => simpa [insertCell] using h
  | cons a m ih =>
    obtain ⟨k, w⟩ := a
    simp only [insertCell] at h
    split at h
    · simpa using h
    · split at h
      · rcases List.mem_cons.1 h with h | h
        · exact .inl h
        · exact .inr (List.mem_cons_of_mem _ h)
      · rcases List.mem_cons.1 h with h | h
        · exact .inr (h ▸ List.mem_cons_self)
        · exact (ih h).imp_right (List.mem_cons_of_mem _)

theorem rising_insertCell (m : List (Nat × α)) (i : Nat) (v : α) (h : rising m = true) :
    rising (insertCell m i v) = true := by
  induction m with
  | nil => rfl
  | cons a m ih =>
    obtain ⟨k, w⟩ := a
    have hm := (rising_cons_iff _ _).1 h
    simp only [insertCell]
    split
    · rename_i hik
      refine (rising_cons_iff _ _).2 ⟨h, ?_⟩
      intro c hc
      rcases List.mem_cons.1 hc with rfl | hc
      · exact hik
      · exact Nat.lt_trans hik (hm.2 c hc)
    · split
      · rename_i hik
        exact (rising_cons_iff _ _).2 ⟨hm.1, fun c hc => hik ▸ hm.2 c hc⟩
      · refine (rising_cons_iff _ _).2 ⟨ih hm.1, ?_⟩
        intro c hc
        rcases mem_insertCell hc with rfl | hc
        · show k < i; omega
        · exact hm.2 c hc

theorem cellsWf_iff [DecidableEq α] (bound : Nat) (blank : Nat → Option α) (m : List (Nat × α)) :
    cellsWf bound blank m = true ↔ rising m = true ∧ ∀ c ∈ m, c.1 < bound ∧ blank c.1 ≠ some c.2 := by
  simp [cellsWf, List.all_eq_true]

/-- A filter of the cells keeps the canonical form. -/
theorem cellsWf_filter [DecidableEq α] {bound : Nat} {blank : Nat → Option α} {m : List (Nat × α)}
    (p : Nat × α → Bool) (h : cellsWf bound blank m = true) : cellsWf bound blank (m.filter p) = true := by
  rw [cellsWf_iff] at *
  exact ⟨rising_filter p m h.1, fun c hc => h.2 c (List.mem_filter.1 hc).1⟩

/-- A write keeps the canonical form. -/
theorem cellsWf_putCell [DecidableEq α] {bound : Nat} {blank : Nat → Option α} {m : List (Nat × α)} {i : Nat} (v : α)
    (hi : i < bound) (h : cellsWf bound blank m = true) : cellsWf bound blank (putCell (blank i) m i v) = true := by
  unfold putCell
  split
  · exact cellsWf_filter _ h
  · rename_i hb
    rw [cellsWf_iff] at *
    refine ⟨rising_insertCell m i v h.1, fun c hc => ?_⟩
    rcases mem_insertCell hc with rfl | hc
    · exact ⟨hi, hb⟩
    · exact h.2 c hc

/-- In canonical form, equal contents are equal lists. -/
theorem cells_ext [DecidableEq α] {bound : Nat} {blank : Nat → Option α} :
    ∀ {m n : List (Nat × α)}, cellsWf bound blank m = true → cellsWf bound blank n = true →
      (∀ i, cellAt m i = cellAt n i) → m = n := by
  intro m
  induction m with
  | nil =>
    intro n _ _ h
    cases n with
    | nil => rfl
    | cons b n => have := h b.1; simp [cellAt] at this
  | cons a m ih =>
    intro n hm hn h
    cases n with
    | nil => have := h a.1; simp [cellAt] at this
    | cons b n =>
      rw [cellsWf_iff, rising_cons_iff] at hm hn
      have none_below : ∀ (l : List (Nat × α)) (k : Nat), (∀ c ∈ l, k < c.1) → cellAt l k = none := by
        intro l k hl
        induction l with
        | nil => rfl
        | cons c l ihl =>
          obtain ⟨ck, cv⟩ := c
          have := hl (ck, cv) List.mem_cons_self
          simp only [cellAt]
          rw [if_neg (by simp only at this; omega)]
          exact ihl (fun c hc => hl c (List.mem_cons_of_mem _ hc))
      obtain ⟨ak, av⟩ := a
      obtain ⟨bk, bv⟩ := b
      have hab : ak = bk := by
        rcases Nat.lt_trichotomy ak bk with hlt | heq | hlt
        · have := h ak
          simp only [cellAt, if_true] at this
          rw [if_neg (by omega), none_below n ak
            (fun c hc => Nat.lt_trans hlt (hn.1.2 c hc))] at this
          cases this
        · exact heq
        · have := h bk
          simp only [cellAt, if_true] at this
          rw [if_neg (by omega), none_below m bk
            (fun c hc => Nat.lt_trans hlt (hm.1.2 c hc))] at this
          cases this
      subst hab
      have hv : av = bv := by simpa [cellAt] using h ak
      subst hv
      congr 1
      apply ih
      · exact (cellsWf_iff _ _ _).2 ⟨hm.1.1, fun c hc => hm.2 c (List.mem_cons_of_mem _ hc)⟩
      · exact (cellsWf_iff _ _ _).2 ⟨hn.1.1, fun c hc => hn.2 c (List.mem_cons_of_mem _ hc)⟩
      · intro i
        by_cases hi : ak = i
        · subst hi
          rw [none_below m ak hm.1.2, none_below n ak hn.1.2]
        · simpa [cellAt, hi] using h i

/-! ### Code tables -/

theorem tableEntry_putCell (t : List (Nat × TableEntry)) (i j : Nat) (e : TableEntry) :
    tableEntry (putCell (some (blankEntry i)) t i e) j = if i = j then e else tableEntry t j := by
  unfold tableEntry
  by_cases hij : i = j
  · subst hij
    rw [if_pos rfl]
    have := readCell_putCell_same (some (blankEntry i)) (blankEntry i) t i e
    simpa using this
  · rw [cellAt_putCell, if_neg hij, if_neg hij]

/-- A run written reads back at each of its indices, and every other index is as it was. -/
theorem tableEntry_writeEntries (es : List TableEntry) (t : List (Nat × TableEntry)) (first j : Nat) :
    tableEntry (writeEntries t first es) j =
      if first ≤ j then (es[j - first]?).getD (tableEntry t j) else tableEntry t j := by
  induction es generalizing t first with
  | nil => simp [writeEntries]
  | cons e es ih =>
    rw [writeEntries, ih, tableEntry_putCell]
    by_cases h1 : first + 1 ≤ j
    · have h2 : first ≤ j := by omega
      have h3 : first ≠ j := by omega
      have h4 : j - first = (j - (first + 1)) + 1 := by omega
      simp [h1, h2, h3, h4]
    · by_cases h2 : first = j
      · subst h2; simp [h1]
      · have h3 : ¬ first ≤ j := by omega
        simp [h1, h2, h3]

/-- A run written within the 256 entries keeps a table canonical. -/
theorem cellsWf_writeEntries (es : List TableEntry) {t : List (Nat × TableEntry)} {first : Nat}
    (hb : first + es.length ≤ 256) (h : cellsWf 256 (fun i => some (blankEntry i)) t = true) :
    cellsWf 256 (fun i => some (blankEntry i)) (writeEntries t first es) = true := by
  induction es generalizing t first with
  | nil => exact h
  | cons e es ih =>
    simp only [List.length_cons] at hb
    exact ih (by omega) (cellsWf_putCell (blank := fun i => some (blankEntry i)) e (by omega) h)

/-! ### The records of the store -/

/-- A record reads as it was last written, and a write touches no other group. -/
theorem Store.record_write (st : Store) (g h : Nat) (r : StoredRecord) :
    (st.write g r).record h = if g = h then r else st.record h := by
  by_cases hg : g = h
  · subst hg
    have := readCell_putCell_same (st.blank g) (recordOfBits (Config.powerOnRecordBits st.epoch g)) st.cells g r
    rw [if_pos rfl]
    unfold Store.record
    have hb : (st.write g r).blank g = st.blank g := rfl
    rw [hb]
    simp only [Store.write] at *
    split <;> simp_all
  · rw [if_neg hg]
    unfold Store.record
    have hb : (st.write g r).blank h = st.blank h := rfl
    have hc : cellAt (st.write g r).cells h = cellAt st.cells h := by
      simp only [Store.write, cellAt_putCell, if_neg hg]
    rw [hb, hc]
    rfl

/-- A write of a record keeps the store's memory canonical. -/
theorem Store.cellsWf_write (st : Store) {g : Nat} (r : StoredRecord) (hg : g < 65536) (h : st.cellsWf = true) :
    (st.write g r).cellsWf = true :=
  cellsWf_putCell (blank := st.blank) r hg h

theorem Store.cellsWf_writeResult (st : Store) {g : Nat} (w : Option StoredRecord) (hg : g < 65536)
    (h : st.cellsWf = true) : (st.writeResult g w).cellsWf = true := by
  cases w with
  | none => exact h
  | some r => exact st.cellsWf_write r hg h

theorem Store.record_writeResult (st : Store) (g h : Nat) (w : Option StoredRecord) :
    (st.writeResult g w).record h = if g = h then w.getD (st.record h) else st.record h := by
  cases w with
  | none => simp [Store.writeResult]
  | some r => simp [Store.writeResult, Store.record_write]

/-- The code agrees with the contents exactly when the difference held is 0 (R122, log entry 10). -/
theorem StoredRecord.checkCode_agrees (r : StoredRecord) :
    r.checkCode = Config.checkCode r.contents.bits ↔ r.difference = 0 := by
  unfold StoredRecord.checkCode
  constructor
  · intro h
    have h2 := congrArg (Config.checkCode r.contents.bits ^^^ ·) h
    simpa [← BitVec.xor_assoc] using h2
  · intro h; simp [h]

end Sys2Proof.Machine
end

