-- ==== Sys2Proof/Laws/State.lean ====
section
/-! SUPPORT. What each named update of the state leaves in each field: true by rfl, or by the cases of the update. -/

namespace Sys2Proof.Machine

-- One theorem at a time: their tasks wait on the same declarations, and each waiting task holds a thread's stack.
set_option Elab.async false

variable (s : State)

/-! ### putLane -/

@[simp] theorem State.putLane_pending (n : Fin 4) (l : Lane) : (s.putLane n l).pending = s.pending := rfl
@[simp] theorem State.putLane_porHeld (n : Fin 4) (l : Lane) : (s.putLane n l).porHeld = s.porHeld := rfl
@[simp] theorem State.putLane_timeStamp (n : Fin 4) (l : Lane) : (s.putLane n l).timeStamp = s.timeStamp := rfl
@[simp] theorem State.putLane_tables (n : Fin 4) (l : Lane) : (s.putLane n l).tables = s.tables := rfl
@[simp] theorem State.putLane_plans (n : Fin 4) (l : Lane) : (s.putLane n l).plans = s.plans := rfl
@[simp] theorem State.putLane_windows (n : Fin 4) (l : Lane) : (s.putLane n l).windows = s.windows := rfl
@[simp] theorem State.putLane_scan (n : Fin 4) (l : Lane) : (s.putLane n l).scan = s.scan := rfl
@[simp] theorem State.putLane_lastGranted (n : Fin 4) (l : Lane) : (s.putLane n l).lastGranted = s.lastGranted := rfl
@[simp] theorem State.putLane_taken (n : Fin 4) (l : Lane) : (s.putLane n l).taken = s.taken := rfl
@[simp] theorem State.putLane_store (n : Fin 4) (l : Lane) : (s.putLane n l).store = s.store := rfl
@[simp] theorem State.putLane_engine (n : Fin 4) (l : Lane) : (s.putLane n l).engine = s.engine := rfl
@[simp] theorem State.putLane_notices (n : Fin 4) (l : Lane) : (s.putLane n l).notices = s.notices := rfl
@[simp] theorem State.putLane_overflow (n : Fin 4) (l : Lane) : (s.putLane n l).overflow = s.overflow := rfl
@[simp] theorem State.putLane_link (n : Fin 4) (l : Lane) : (s.putLane n l).link = s.link := rfl

/-! ### formReply -/

@[simp] theorem State.formReply_pending (st : Status) (tag : Byte) (p : List Byte) (r : Bool) : (s.formReply st tag p r).pending = s.pending := rfl
@[simp] theorem State.formReply_porHeld (st : Status) (tag : Byte) (p : List Byte) (r : Bool) : (s.formReply st tag p r).porHeld = s.porHeld := rfl
@[simp] theorem State.formReply_timeStamp (st : Status) (tag : Byte) (p : List Byte) (r : Bool) : (s.formReply st tag p r).timeStamp = s.timeStamp := rfl
@[simp] theorem State.formReply_lanes (st : Status) (tag : Byte) (p : List Byte) (r : Bool) : (s.formReply st tag p r).lanes = s.lanes := rfl
@[simp] theorem State.formReply_tables (st : Status) (tag : Byte) (p : List Byte) (r : Bool) : (s.formReply st tag p r).tables = s.tables := rfl
@[simp] theorem State.formReply_plans (st : Status) (tag : Byte) (p : List Byte) (r : Bool) : (s.formReply st tag p r).plans = s.plans := rfl
@[simp] theorem State.formReply_windows (st : Status) (tag : Byte) (p : List Byte) (r : Bool) : (s.formReply st tag p r).windows = s.windows := rfl
@[simp] theorem State.formReply_scan (st : Status) (tag : Byte) (p : List Byte) (r : Bool) : (s.formReply st tag p r).scan = s.scan := rfl
@[simp] theorem State.formReply_lastGranted (st : Status) (tag : Byte) (p : List Byte) (r : Bool) : (s.formReply st tag p r).lastGranted = s.lastGranted := rfl
@[simp] theorem State.formReply_taken (st : Status) (tag : Byte) (p : List Byte) (r : Bool) : (s.formReply st tag p r).taken = s.taken := rfl
@[simp] theorem State.formReply_store (st : Status) (tag : Byte) (p : List Byte) (r : Bool) : (s.formReply st tag p r).store = s.store := rfl
@[simp] theorem State.formReply_engine (st : Status) (tag : Byte) (p : List Byte) (r : Bool) : (s.formReply st tag p r).engine = s.engine := rfl
@[simp] theorem State.formReply_notices (st : Status) (tag : Byte) (p : List Byte) (r : Bool) : (s.formReply st tag p r).notices = s.notices := rfl
@[simp] theorem State.formReply_overflow (st : Status) (tag : Byte) (p : List Byte) (r : Bool) : (s.formReply st tag p r).overflow = s.overflow := rfl

/-! ### answer -/

@[simp] theorem State.answer_pending (tag : Byte) (st : Status) (p : List Byte) : (s.answer tag st p).pending = s.pending := rfl
@[simp] theorem State.answer_porHeld (tag : Byte) (st : Status) (p : List Byte) : (s.answer tag st p).porHeld = s.porHeld := rfl
@[simp] theorem State.answer_timeStamp (tag : Byte) (st : Status) (p : List Byte) : (s.answer tag st p).timeStamp = s.timeStamp := rfl
@[simp] theorem State.answer_lanes (tag : Byte) (st : Status) (p : List Byte) : (s.answer tag st p).lanes = s.lanes := rfl
@[simp] theorem State.answer_tables (tag : Byte) (st : Status) (p : List Byte) : (s.answer tag st p).tables = s.tables := rfl
@[simp] theorem State.answer_plans (tag : Byte) (st : Status) (p : List Byte) : (s.answer tag st p).plans = s.plans := rfl
@[simp] theorem State.answer_windows (tag : Byte) (st : Status) (p : List Byte) : (s.answer tag st p).windows = s.windows := rfl
@[simp] theorem State.answer_scan (tag : Byte) (st : Status) (p : List Byte) : (s.answer tag st p).scan = s.scan := rfl
@[simp] theorem State.answer_lastGranted (tag : Byte) (st : Status) (p : List Byte) : (s.answer tag st p).lastGranted = s.lastGranted := rfl
@[simp] theorem State.answer_taken (tag : Byte) (st : Status) (p : List Byte) : (s.answer tag st p).taken = s.taken := rfl
@[simp] theorem State.answer_store (tag : Byte) (st : Status) (p : List Byte) : (s.answer tag st p).store = s.store := rfl
@[simp] theorem State.answer_engine (tag : Byte) (st : Status) (p : List Byte) : (s.answer tag st p).engine = s.engine := rfl
@[simp] theorem State.answer_notices (tag : Byte) (st : Status) (p : List Byte) : (s.answer tag st p).notices = s.notices := rfl
@[simp] theorem State.answer_overflow (tag : Byte) (st : Status) (p : List Byte) : (s.answer tag st p).overflow = s.overflow := rfl

/-! ### frameError -/

@[simp] theorem State.frameError_pending (r : FrameErrorReason) : (s.frameError r).pending = s.pending := rfl
@[simp] theorem State.frameError_porHeld (r : FrameErrorReason) : (s.frameError r).porHeld = s.porHeld := rfl
@[simp] theorem State.frameError_timeStamp (r : FrameErrorReason) : (s.frameError r).timeStamp = s.timeStamp := rfl
@[simp] theorem State.frameError_lanes (r : FrameErrorReason) : (s.frameError r).lanes = s.lanes := rfl
@[simp] theorem State.frameError_tables (r : FrameErrorReason) : (s.frameError r).tables = s.tables := rfl
@[simp] theorem State.frameError_plans (r : FrameErrorReason) : (s.frameError r).plans = s.plans := rfl
@[simp] theorem State.frameError_windows (r : FrameErrorReason) : (s.frameError r).windows = s.windows := rfl
@[simp] theorem State.frameError_scan (r : FrameErrorReason) : (s.frameError r).scan = s.scan := rfl
@[simp] theorem State.frameError_lastGranted (r : FrameErrorReason) : (s.frameError r).lastGranted = s.lastGranted := rfl
@[simp] theorem State.frameError_taken (r : FrameErrorReason) : (s.frameError r).taken = s.taken := rfl
@[simp] theorem State.frameError_store (r : FrameErrorReason) : (s.frameError r).store = s.store := rfl
@[simp] theorem State.frameError_engine (r : FrameErrorReason) : (s.frameError r).engine = s.engine := rfl
@[simp] theorem State.frameError_notices (r : FrameErrorReason) : (s.frameError r).notices = s.notices := rfl
@[simp] theorem State.frameError_overflow (r : FrameErrorReason) : (s.frameError r).overflow = s.overflow := rfl

/-! ### linkTo -/

@[simp] theorem State.linkTo_pending (l : LinkState) : (s.linkTo l).pending = s.pending := rfl
@[simp] theorem State.linkTo_porHeld (l : LinkState) : (s.linkTo l).porHeld = s.porHeld := rfl
@[simp] theorem State.linkTo_timeStamp (l : LinkState) : (s.linkTo l).timeStamp = s.timeStamp := rfl
@[simp] theorem State.linkTo_lanes (l : LinkState) : (s.linkTo l).lanes = s.lanes := rfl
@[simp] theorem State.linkTo_tables (l : LinkState) : (s.linkTo l).tables = s.tables := rfl
@[simp] theorem State.linkTo_plans (l : LinkState) : (s.linkTo l).plans = s.plans := rfl
@[simp] theorem State.linkTo_windows (l : LinkState) : (s.linkTo l).windows = s.windows := rfl
@[simp] theorem State.linkTo_scan (l : LinkState) : (s.linkTo l).scan = s.scan := rfl
@[simp] theorem State.linkTo_lastGranted (l : LinkState) : (s.linkTo l).lastGranted = s.lastGranted := rfl
@[simp] theorem State.linkTo_taken (l : LinkState) : (s.linkTo l).taken = s.taken := rfl
@[simp] theorem State.linkTo_store (l : LinkState) : (s.linkTo l).store = s.store := rfl
@[simp] theorem State.linkTo_engine (l : LinkState) : (s.linkTo l).engine = s.engine := rfl
@[simp] theorem State.linkTo_notices (l : LinkState) : (s.linkTo l).notices = s.notices := rfl
@[simp] theorem State.linkTo_overflow (l : LinkState) : (s.linkTo l).overflow = s.overflow := rfl

/-! ### discarderTo -/

@[simp] theorem State.discarderTo_pending (d : Discarder) : (s.discarderTo d).pending = s.pending := rfl
@[simp] theorem State.discarderTo_porHeld (d : Discarder) : (s.discarderTo d).porHeld = s.porHeld := rfl
@[simp] theorem State.discarderTo_timeStamp (d : Discarder) : (s.discarderTo d).timeStamp = s.timeStamp := rfl
@[simp] theorem State.discarderTo_lanes (d : Discarder) : (s.discarderTo d).lanes = s.lanes := rfl
@[simp] theorem State.discarderTo_tables (d : Discarder) : (s.discarderTo d).tables = s.tables := rfl
@[simp] theorem State.discarderTo_plans (d : Discarder) : (s.discarderTo d).plans = s.plans := rfl
@[simp] theorem State.discarderTo_windows (d : Discarder) : (s.discarderTo d).windows = s.windows := rfl
@[simp] theorem State.discarderTo_scan (d : Discarder) : (s.discarderTo d).scan = s.scan := rfl
@[simp] theorem State.discarderTo_lastGranted (d : Discarder) : (s.discarderTo d).lastGranted = s.lastGranted := rfl
@[simp] theorem State.discarderTo_taken (d : Discarder) : (s.discarderTo d).taken = s.taken := rfl
@[simp] theorem State.discarderTo_store (d : Discarder) : (s.discarderTo d).store = s.store := rfl
@[simp] theorem State.discarderTo_engine (d : Discarder) : (s.discarderTo d).engine = s.engine := rfl
@[simp] theorem State.discarderTo_notices (d : Discarder) : (s.discarderTo d).notices = s.notices := rfl
@[simp] theorem State.discarderTo_overflow (d : Discarder) : (s.discarderTo d).overflow = s.overflow := rfl

/-! ### beginDiscard -/

@[simp] theorem State.beginDiscard_pending  : (s.beginDiscard).pending = s.pending := rfl
@[simp] theorem State.beginDiscard_porHeld  : (s.beginDiscard).porHeld = s.porHeld := rfl
@[simp] theorem State.beginDiscard_timeStamp  : (s.beginDiscard).timeStamp = s.timeStamp := rfl
@[simp] theorem State.beginDiscard_lanes  : (s.beginDiscard).lanes = s.lanes := rfl
@[simp] theorem State.beginDiscard_tables  : (s.beginDiscard).tables = s.tables := rfl
@[simp] theorem State.beginDiscard_plans  : (s.beginDiscard).plans = s.plans := rfl
@[simp] theorem State.beginDiscard_windows  : (s.beginDiscard).windows = s.windows := rfl
@[simp] theorem State.beginDiscard_scan  : (s.beginDiscard).scan = s.scan := rfl
@[simp] theorem State.beginDiscard_lastGranted  : (s.beginDiscard).lastGranted = s.lastGranted := rfl
@[simp] theorem State.beginDiscard_taken  : (s.beginDiscard).taken = s.taken := rfl
@[simp] theorem State.beginDiscard_store  : (s.beginDiscard).store = s.store := rfl
@[simp] theorem State.beginDiscard_engine  : (s.beginDiscard).engine = s.engine := rfl
@[simp] theorem State.beginDiscard_notices  : (s.beginDiscard).notices = s.notices := rfl
@[simp] theorem State.beginDiscard_overflow  : (s.beginDiscard).overflow = s.overflow := rfl

/-! ### withStore -/

@[simp] theorem State.withStore_pending (st : Store) : (s.withStore st).pending = s.pending := rfl
@[simp] theorem State.withStore_porHeld (st : Store) : (s.withStore st).porHeld = s.porHeld := rfl
@[simp] theorem State.withStore_timeStamp (st : Store) : (s.withStore st).timeStamp = s.timeStamp := rfl
@[simp] theorem State.withStore_lanes (st : Store) : (s.withStore st).lanes = s.lanes := rfl
@[simp] theorem State.withStore_tables (st : Store) : (s.withStore st).tables = s.tables := rfl
@[simp] theorem State.withStore_plans (st : Store) : (s.withStore st).plans = s.plans := rfl
@[simp] theorem State.withStore_windows (st : Store) : (s.withStore st).windows = s.windows := rfl
@[simp] theorem State.withStore_scan (st : Store) : (s.withStore st).scan = s.scan := rfl
@[simp] theorem State.withStore_lastGranted (st : Store) : (s.withStore st).lastGranted = s.lastGranted := rfl
@[simp] theorem State.withStore_taken (st : Store) : (s.withStore st).taken = s.taken := rfl
@[simp] theorem State.withStore_engine (st : Store) : (s.withStore st).engine = s.engine := rfl
@[simp] theorem State.withStore_notices (st : Store) : (s.withStore st).notices = s.notices := rfl
@[simp] theorem State.withStore_overflow (st : Store) : (s.withStore st).overflow = s.overflow := rfl
@[simp] theorem State.withStore_link (st : Store) : (s.withStore st).link = s.link := rfl

@[simp] theorem State.withStore_store (st : Store) : (s.withStore st).store = st.settle := rfl
@[simp] theorem State.putLane_lanes (n : Fin 4) (l : Lane) : (s.putLane n l).lanes = s.lanes.set n l := rfl

/-! ### notify -/

@[simp] theorem State.notify_pending (k : NoticeKind) : (s.notify k).pending = s.pending := by
  unfold State.notify; split <;> rfl
@[simp] theorem State.notify_porHeld (k : NoticeKind) : (s.notify k).porHeld = s.porHeld := by
  unfold State.notify; split <;> rfl
@[simp] theorem State.notify_timeStamp (k : NoticeKind) : (s.notify k).timeStamp = s.timeStamp := by
  unfold State.notify; split <;> rfl
@[simp] theorem State.notify_lanes (k : NoticeKind) : (s.notify k).lanes = s.lanes := by
  unfold State.notify; split <;> rfl
@[simp] theorem State.notify_tables (k : NoticeKind) : (s.notify k).tables = s.tables := by
  unfold State.notify; split <;> rfl
@[simp] theorem State.notify_plans (k : NoticeKind) : (s.notify k).plans = s.plans := by
  unfold State.notify; split <;> rfl
@[simp] theorem State.notify_windows (k : NoticeKind) : (s.notify k).windows = s.windows := by
  unfold State.notify; split <;> rfl
@[simp] theorem State.notify_scan (k : NoticeKind) : (s.notify k).scan = s.scan := by
  unfold State.notify; split <;> rfl
@[simp] theorem State.notify_lastGranted (k : NoticeKind) : (s.notify k).lastGranted = s.lastGranted := by
  unfold State.notify; split <;> rfl
@[simp] theorem State.notify_taken (k : NoticeKind) : (s.notify k).taken = s.taken := by
  unfold State.notify; split <;> rfl
@[simp] theorem State.notify_store (k : NoticeKind) : (s.notify k).store = s.store := by
  unfold State.notify; split <;> rfl
@[simp] theorem State.notify_engine (k : NoticeKind) : (s.notify k).engine = s.engine := by
  unfold State.notify; split <;> rfl
@[simp] theorem State.notify_link (k : NoticeKind) : (s.notify k).link = s.link := by
  unfold State.notify; split <;> rfl

/-! ### holdFor -/

@[simp] theorem State.holdFor_pending (w : HeldFor) : (s.holdFor w).pending = s.pending := by
  unfold State.holdFor; split <;> rfl
@[simp] theorem State.holdFor_porHeld (w : HeldFor) : (s.holdFor w).porHeld = s.porHeld := by
  unfold State.holdFor; split <;> rfl
@[simp] theorem State.holdFor_timeStamp (w : HeldFor) : (s.holdFor w).timeStamp = s.timeStamp := by
  unfold State.holdFor; split <;> rfl
@[simp] theorem State.holdFor_lanes (w : HeldFor) : (s.holdFor w).lanes = s.lanes := by
  unfold State.holdFor; split <;> rfl
@[simp] theorem State.holdFor_tables (w : HeldFor) : (s.holdFor w).tables = s.tables := by
  unfold State.holdFor; split <;> rfl
@[simp] theorem State.holdFor_plans (w : HeldFor) : (s.holdFor w).plans = s.plans := by
  unfold State.holdFor; split <;> rfl
@[simp] theorem State.holdFor_windows (w : HeldFor) : (s.holdFor w).windows = s.windows := by
  unfold State.holdFor; split <;> rfl
@[simp] theorem State.holdFor_scan (w : HeldFor) : (s.holdFor w).scan = s.scan := by
  unfold State.holdFor; split <;> rfl
@[simp] theorem State.holdFor_lastGranted (w : HeldFor) : (s.holdFor w).lastGranted = s.lastGranted := by
  unfold State.holdFor; split <;> rfl
@[simp] theorem State.holdFor_taken (w : HeldFor) : (s.holdFor w).taken = s.taken := by
  unfold State.holdFor; split <;> rfl
@[simp] theorem State.holdFor_store (w : HeldFor) : (s.holdFor w).store = s.store := by
  unfold State.holdFor; split <;> rfl
@[simp] theorem State.holdFor_engine (w : HeldFor) : (s.holdFor w).engine = s.engine := by
  unfold State.holdFor; split <;> rfl
@[simp] theorem State.holdFor_notices (w : HeldFor) : (s.holdFor w).notices = s.notices := by
  unfold State.holdFor; split <;> rfl
@[simp] theorem State.holdFor_overflow (w : HeldFor) : (s.holdFor w).overflow = s.overflow := by
  unfold State.holdFor; split <;> rfl

/-! ### testHaltDone -/

@[simp] theorem State.testHaltDone_pending  : (s.testHaltDone).pending = s.pending := by
  unfold State.testHaltDone; split <;> simp
@[simp] theorem State.testHaltDone_porHeld  : (s.testHaltDone).porHeld = s.porHeld := by
  unfold State.testHaltDone; split <;> simp
@[simp] theorem State.testHaltDone_timeStamp  : (s.testHaltDone).timeStamp = s.timeStamp := by
  unfold State.testHaltDone; split <;> simp
@[simp] theorem State.testHaltDone_lanes  : (s.testHaltDone).lanes = s.lanes := by
  unfold State.testHaltDone; split <;> simp
@[simp] theorem State.testHaltDone_tables  : (s.testHaltDone).tables = s.tables := by
  unfold State.testHaltDone; split <;> simp
@[simp] theorem State.testHaltDone_plans  : (s.testHaltDone).plans = s.plans := by
  unfold State.testHaltDone; split <;> simp
@[simp] theorem State.testHaltDone_windows  : (s.testHaltDone).windows = s.windows := by
  unfold State.testHaltDone; split <;> simp
@[simp] theorem State.testHaltDone_scan  : (s.testHaltDone).scan = s.scan := by
  unfold State.testHaltDone; split <;> simp
@[simp] theorem State.testHaltDone_lastGranted  : (s.testHaltDone).lastGranted = s.lastGranted := by
  unfold State.testHaltDone; split <;> simp
@[simp] theorem State.testHaltDone_taken  : (s.testHaltDone).taken = s.taken := by
  unfold State.testHaltDone; split <;> simp
@[simp] theorem State.testHaltDone_store  : (s.testHaltDone).store = s.store := by
  unfold State.testHaltDone; split <;> simp
@[simp] theorem State.testHaltDone_link  : (s.testHaltDone).link = s.link := by
  unfold State.testHaltDone; split <;> simp

/-! ### loseEntry -/

@[simp] theorem State.loseEntry_pending (n : Fin 4) : (s.loseEntry n).pending = s.pending := by
  unfold State.loseEntry; simp only; split <;> simp
@[simp] theorem State.loseEntry_porHeld (n : Fin 4) : (s.loseEntry n).porHeld = s.porHeld := by
  unfold State.loseEntry; simp only; split <;> simp
@[simp] theorem State.loseEntry_timeStamp (n : Fin 4) : (s.loseEntry n).timeStamp = s.timeStamp := by
  unfold State.loseEntry; simp only; split <;> simp
@[simp] theorem State.loseEntry_tables (n : Fin 4) : (s.loseEntry n).tables = s.tables := by
  unfold State.loseEntry; simp only; split <;> simp
@[simp] theorem State.loseEntry_plans (n : Fin 4) : (s.loseEntry n).plans = s.plans := by
  unfold State.loseEntry; simp only; split <;> simp
@[simp] theorem State.loseEntry_windows (n : Fin 4) : (s.loseEntry n).windows = s.windows := by
  unfold State.loseEntry; simp only; split <;> simp
@[simp] theorem State.loseEntry_scan (n : Fin 4) : (s.loseEntry n).scan = s.scan := by
  unfold State.loseEntry; simp only; split <;> simp
@[simp] theorem State.loseEntry_lastGranted (n : Fin 4) : (s.loseEntry n).lastGranted = s.lastGranted := by
  unfold State.loseEntry; simp only; split <;> simp
@[simp] theorem State.loseEntry_taken (n : Fin 4) : (s.loseEntry n).taken = s.taken := by
  unfold State.loseEntry; simp only; split <;> simp
@[simp] theorem State.loseEntry_store (n : Fin 4) : (s.loseEntry n).store = s.store := by
  unfold State.loseEntry; simp only; split <;> simp
@[simp] theorem State.loseEntry_engine (n : Fin 4) : (s.loseEntry n).engine = s.engine := by
  unfold State.loseEntry; simp only; split <;> simp
@[simp] theorem State.loseEntry_link (n : Fin 4) : (s.loseEntry n).link = s.link := by
  unfold State.loseEntry; simp only; split <;> simp

/-! ### noteBreak -/

@[simp] theorem State.noteBreak_pending (f sp : Bool) : (s.noteBreak f sp).pending = s.pending := by
  unfold State.noteBreak; split <;> rfl
@[simp] theorem State.noteBreak_porHeld (f sp : Bool) : (s.noteBreak f sp).porHeld = s.porHeld := by
  unfold State.noteBreak; split <;> rfl
@[simp] theorem State.noteBreak_timeStamp (f sp : Bool) : (s.noteBreak f sp).timeStamp = s.timeStamp := by
  unfold State.noteBreak; split <;> rfl
@[simp] theorem State.noteBreak_lanes (f sp : Bool) : (s.noteBreak f sp).lanes = s.lanes := by
  unfold State.noteBreak; split <;> rfl
@[simp] theorem State.noteBreak_tables (f sp : Bool) : (s.noteBreak f sp).tables = s.tables := by
  unfold State.noteBreak; split <;> rfl
@[simp] theorem State.noteBreak_plans (f sp : Bool) : (s.noteBreak f sp).plans = s.plans := by
  unfold State.noteBreak; split <;> rfl
@[simp] theorem State.noteBreak_windows (f sp : Bool) : (s.noteBreak f sp).windows = s.windows := by
  unfold State.noteBreak; split <;> rfl
@[simp] theorem State.noteBreak_scan (f sp : Bool) : (s.noteBreak f sp).scan = s.scan := by
  unfold State.noteBreak; split <;> rfl
@[simp] theorem State.noteBreak_lastGranted (f sp : Bool) : (s.noteBreak f sp).lastGranted = s.lastGranted := by
  unfold State.noteBreak; split <;> rfl
@[simp] theorem State.noteBreak_taken (f sp : Bool) : (s.noteBreak f sp).taken = s.taken := by
  unfold State.noteBreak; split <;> rfl
@[simp] theorem State.noteBreak_store (f sp : Bool) : (s.noteBreak f sp).store = s.store := by
  unfold State.noteBreak; split <;> rfl
@[simp] theorem State.noteBreak_engine (f sp : Bool) : (s.noteBreak f sp).engine = s.engine := by
  unfold State.noteBreak; split <;> rfl
@[simp] theorem State.noteBreak_notices (f sp : Bool) : (s.noteBreak f sp).notices = s.notices := by
  unfold State.noteBreak; split <;> rfl
@[simp] theorem State.noteBreak_overflow (f sp : Bool) : (s.noteBreak f sp).overflow = s.overflow := by
  unfold State.noteBreak; split <;> rfl

/-! ### discardByte -/

@[simp] theorem State.discardByte_pending (e : Option Nat) (v : Byte) (f : Bool) : (s.discardByte e v f).pending = s.pending := by
  unfold State.discardByte; repeat' split
  all_goals rfl
@[simp] theorem State.discardByte_porHeld (e : Option Nat) (v : Byte) (f : Bool) : (s.discardByte e v f).porHeld = s.porHeld := by
  unfold State.discardByte; repeat' split
  all_goals rfl
@[simp] theorem State.discardByte_timeStamp (e : Option Nat) (v : Byte) (f : Bool) : (s.discardByte e v f).timeStamp = s.timeStamp := by
  unfold State.discardByte; repeat' split
  all_goals rfl
@[simp] theorem State.discardByte_lanes (e : Option Nat) (v : Byte) (f : Bool) : (s.discardByte e v f).lanes = s.lanes := by
  unfold State.discardByte; repeat' split
  all_goals rfl
@[simp] theorem State.discardByte_tables (e : Option Nat) (v : Byte) (f : Bool) : (s.discardByte e v f).tables = s.tables := by
  unfold State.discardByte; repeat' split
  all_goals rfl
@[simp] theorem State.discardByte_plans (e : Option Nat) (v : Byte) (f : Bool) : (s.discardByte e v f).plans = s.plans := by
  unfold State.discardByte; repeat' split
  all_goals rfl
@[simp] theorem State.discardByte_windows (e : Option Nat) (v : Byte) (f : Bool) : (s.discardByte e v f).windows = s.windows := by
  unfold State.discardByte; repeat' split
  all_goals rfl
@[simp] theorem State.discardByte_scan (e : Option Nat) (v : Byte) (f : Bool) : (s.discardByte e v f).scan = s.scan := by
  unfold State.discardByte; repeat' split
  all_goals rfl
@[simp] theorem State.discardByte_lastGranted (e : Option Nat) (v : Byte) (f : Bool) : (s.discardByte e v f).lastGranted = s.lastGranted := by
  unfold State.discardByte; repeat' split
  all_goals rfl
@[simp] theorem State.discardByte_taken (e : Option Nat) (v : Byte) (f : Bool) : (s.discardByte e v f).taken = s.taken := by
  unfold State.discardByte; repeat' split
  all_goals rfl
@[simp] theorem State.discardByte_store (e : Option Nat) (v : Byte) (f : Bool) : (s.discardByte e v f).store = s.store := by
  unfold State.discardByte; repeat' split
  all_goals rfl
@[simp] theorem State.discardByte_engine (e : Option Nat) (v : Byte) (f : Bool) : (s.discardByte e v f).engine = s.engine := by
  unfold State.discardByte; repeat' split
  all_goals rfl
@[simp] theorem State.discardByte_notices (e : Option Nat) (v : Byte) (f : Bool) : (s.discardByte e v f).notices = s.notices := by
  unfold State.discardByte; repeat' split
  all_goals rfl
@[simp] theorem State.discardByte_overflow (e : Option Nat) (v : Byte) (f : Bool) : (s.discardByte e v f).overflow = s.overflow := by
  unfold State.discardByte; repeat' split
  all_goals rfl

/-! ### takeRequest -/

@[simp] theorem State.takeRequest_pending (b : List Byte) : (s.takeRequest b).pending = s.pending := by
  unfold State.takeRequest; repeat' split
  all_goals rfl
@[simp] theorem State.takeRequest_porHeld (b : List Byte) : (s.takeRequest b).porHeld = s.porHeld := by
  unfold State.takeRequest; repeat' split
  all_goals rfl
@[simp] theorem State.takeRequest_timeStamp (b : List Byte) : (s.takeRequest b).timeStamp = s.timeStamp := by
  unfold State.takeRequest; repeat' split
  all_goals rfl
@[simp] theorem State.takeRequest_lanes (b : List Byte) : (s.takeRequest b).lanes = s.lanes := by
  unfold State.takeRequest; repeat' split
  all_goals rfl
@[simp] theorem State.takeRequest_tables (b : List Byte) : (s.takeRequest b).tables = s.tables := by
  unfold State.takeRequest; repeat' split
  all_goals rfl
@[simp] theorem State.takeRequest_plans (b : List Byte) : (s.takeRequest b).plans = s.plans := by
  unfold State.takeRequest; repeat' split
  all_goals rfl
@[simp] theorem State.takeRequest_windows (b : List Byte) : (s.takeRequest b).windows = s.windows := by
  unfold State.takeRequest; repeat' split
  all_goals rfl
@[simp] theorem State.takeRequest_scan (b : List Byte) : (s.takeRequest b).scan = s.scan := by
  unfold State.takeRequest; repeat' split
  all_goals rfl
@[simp] theorem State.takeRequest_lastGranted (b : List Byte) : (s.takeRequest b).lastGranted = s.lastGranted := by
  unfold State.takeRequest; repeat' split
  all_goals rfl
@[simp] theorem State.takeRequest_taken (b : List Byte) : (s.takeRequest b).taken = s.taken := by
  unfold State.takeRequest; repeat' split
  all_goals rfl
@[simp] theorem State.takeRequest_store (b : List Byte) : (s.takeRequest b).store = s.store := by
  unfold State.takeRequest; repeat' split
  all_goals rfl
@[simp] theorem State.takeRequest_engine (b : List Byte) : (s.takeRequest b).engine = s.engine := by
  unfold State.takeRequest; repeat' split
  all_goals rfl
@[simp] theorem State.takeRequest_notices (b : List Byte) : (s.takeRequest b).notices = s.notices := by
  unfold State.takeRequest; repeat' split
  all_goals rfl
@[simp] theorem State.takeRequest_overflow (b : List Byte) : (s.takeRequest b).overflow = s.overflow := by
  unfold State.takeRequest; repeat' split
  all_goals rfl

/-! ### frameComplete -/

@[simp] theorem State.frameComplete_pending (len : Byte) (rest : List Byte) : (s.frameComplete len rest).pending = s.pending := by
  unfold State.frameComplete; simp only; split <;> simp
@[simp] theorem State.frameComplete_porHeld (len : Byte) (rest : List Byte) : (s.frameComplete len rest).porHeld = s.porHeld := by
  unfold State.frameComplete; simp only; split <;> simp
@[simp] theorem State.frameComplete_timeStamp (len : Byte) (rest : List Byte) : (s.frameComplete len rest).timeStamp = s.timeStamp := by
  unfold State.frameComplete; simp only; split <;> simp
@[simp] theorem State.frameComplete_lanes (len : Byte) (rest : List Byte) : (s.frameComplete len rest).lanes = s.lanes := by
  unfold State.frameComplete; simp only; split <;> simp
@[simp] theorem State.frameComplete_tables (len : Byte) (rest : List Byte) : (s.frameComplete len rest).tables = s.tables := by
  unfold State.frameComplete; simp only; split <;> simp
@[simp] theorem State.frameComplete_plans (len : Byte) (rest : List Byte) : (s.frameComplete len rest).plans = s.plans := by
  unfold State.frameComplete; simp only; split <;> simp
@[simp] theorem State.frameComplete_windows (len : Byte) (rest : List Byte) : (s.frameComplete len rest).windows = s.windows := by
  unfold State.frameComplete; simp only; split <;> simp
@[simp] theorem State.frameComplete_scan (len : Byte) (rest : List Byte) : (s.frameComplete len rest).scan = s.scan := by
  unfold State.frameComplete; simp only; split <;> simp
@[simp] theorem State.frameComplete_lastGranted (len : Byte) (rest : List Byte) : (s.frameComplete len rest).lastGranted = s.lastGranted := by
  unfold State.frameComplete; simp only; split <;> simp
@[simp] theorem State.frameComplete_taken (len : Byte) (rest : List Byte) : (s.frameComplete len rest).taken = s.taken := by
  unfold State.frameComplete; simp only; split <;> simp
@[simp] theorem State.frameComplete_store (len : Byte) (rest : List Byte) : (s.frameComplete len rest).store = s.store := by
  unfold State.frameComplete; simp only; split <;> simp
@[simp] theorem State.frameComplete_engine (len : Byte) (rest : List Byte) : (s.frameComplete len rest).engine = s.engine := by
  unfold State.frameComplete; simp only; split <;> simp
@[simp] theorem State.frameComplete_notices (len : Byte) (rest : List Byte) : (s.frameComplete len rest).notices = s.notices := by
  unfold State.frameComplete; simp only; split <;> simp
@[simp] theorem State.frameComplete_overflow (len : Byte) (rest : List Byte) : (s.frameComplete len rest).overflow = s.overflow := by
  unfold State.frameComplete; simp only; split <;> simp

/-! ### receiveByte -/

@[simp] theorem State.receiveByte_pending (len : Option Byte) (rest : List Byte) (v : Byte) (f : Bool) : (s.receiveByte len rest v f).pending = s.pending := by
  unfold State.receiveByte; repeat' split
  all_goals simp
@[simp] theorem State.receiveByte_porHeld (len : Option Byte) (rest : List Byte) (v : Byte) (f : Bool) : (s.receiveByte len rest v f).porHeld = s.porHeld := by
  unfold State.receiveByte; repeat' split
  all_goals simp
@[simp] theorem State.receiveByte_timeStamp (len : Option Byte) (rest : List Byte) (v : Byte) (f : Bool) : (s.receiveByte len rest v f).timeStamp = s.timeStamp := by
  unfold State.receiveByte; repeat' split
  all_goals simp
@[simp] theorem State.receiveByte_lanes (len : Option Byte) (rest : List Byte) (v : Byte) (f : Bool) : (s.receiveByte len rest v f).lanes = s.lanes := by
  unfold State.receiveByte; repeat' split
  all_goals simp
@[simp] theorem State.receiveByte_tables (len : Option Byte) (rest : List Byte) (v : Byte) (f : Bool) : (s.receiveByte len rest v f).tables = s.tables := by
  unfold State.receiveByte; repeat' split
  all_goals simp
@[simp] theorem State.receiveByte_plans (len : Option Byte) (rest : List Byte) (v : Byte) (f : Bool) : (s.receiveByte len rest v f).plans = s.plans := by
  unfold State.receiveByte; repeat' split
  all_goals simp
@[simp] theorem State.receiveByte_windows (len : Option Byte) (rest : List Byte) (v : Byte) (f : Bool) : (s.receiveByte len rest v f).windows = s.windows := by
  unfold State.receiveByte; repeat' split
  all_goals simp
@[simp] theorem State.receiveByte_scan (len : Option Byte) (rest : List Byte) (v : Byte) (f : Bool) : (s.receiveByte len rest v f).scan = s.scan := by
  unfold State.receiveByte; repeat' split
  all_goals simp
@[simp] theorem State.receiveByte_lastGranted (len : Option Byte) (rest : List Byte) (v : Byte) (f : Bool) : (s.receiveByte len rest v f).lastGranted = s.lastGranted := by
  unfold State.receiveByte; repeat' split
  all_goals simp
@[simp] theorem State.receiveByte_taken (len : Option Byte) (rest : List Byte) (v : Byte) (f : Bool) : (s.receiveByte len rest v f).taken = s.taken := by
  unfold State.receiveByte; repeat' split
  all_goals simp
@[simp] theorem State.receiveByte_store (len : Option Byte) (rest : List Byte) (v : Byte) (f : Bool) : (s.receiveByte len rest v f).store = s.store := by
  unfold State.receiveByte; repeat' split
  all_goals simp
@[simp] theorem State.receiveByte_engine (len : Option Byte) (rest : List Byte) (v : Byte) (f : Bool) : (s.receiveByte len rest v f).engine = s.engine := by
  unfold State.receiveByte; repeat' split
  all_goals simp
@[simp] theorem State.receiveByte_notices (len : Option Byte) (rest : List Byte) (v : Byte) (f : Bool) : (s.receiveByte len rest v f).notices = s.notices := by
  unfold State.receiveByte; repeat' split
  all_goals simp
@[simp] theorem State.receiveByte_overflow (len : Option Byte) (rest : List Byte) (v : Byte) (f : Bool) : (s.receiveByte len rest v f).overflow = s.overflow := by
  unfold State.receiveByte; repeat' split
  all_goals simp

/-! ### takeByte -/

@[simp] theorem State.takeByte_pending (v : Byte) (f : Bool) : (s.takeByte v f).pending = s.pending := by
  unfold State.takeByte; repeat' split
  all_goals simp
@[simp] theorem State.takeByte_porHeld (v : Byte) (f : Bool) : (s.takeByte v f).porHeld = s.porHeld := by
  unfold State.takeByte; repeat' split
  all_goals simp
@[simp] theorem State.takeByte_timeStamp (v : Byte) (f : Bool) : (s.takeByte v f).timeStamp = s.timeStamp := by
  unfold State.takeByte; repeat' split
  all_goals simp
@[simp] theorem State.takeByte_lanes (v : Byte) (f : Bool) : (s.takeByte v f).lanes = s.lanes := by
  unfold State.takeByte; repeat' split
  all_goals simp
@[simp] theorem State.takeByte_tables (v : Byte) (f : Bool) : (s.takeByte v f).tables = s.tables := by
  unfold State.takeByte; repeat' split
  all_goals simp
@[simp] theorem State.takeByte_plans (v : Byte) (f : Bool) : (s.takeByte v f).plans = s.plans := by
  unfold State.takeByte; repeat' split
  all_goals simp
@[simp] theorem State.takeByte_windows (v : Byte) (f : Bool) : (s.takeByte v f).windows = s.windows := by
  unfold State.takeByte; repeat' split
  all_goals simp
@[simp] theorem State.takeByte_scan (v : Byte) (f : Bool) : (s.takeByte v f).scan = s.scan := by
  unfold State.takeByte; repeat' split
  all_goals simp
@[simp] theorem State.takeByte_lastGranted (v : Byte) (f : Bool) : (s.takeByte v f).lastGranted = s.lastGranted := by
  unfold State.takeByte; repeat' split
  all_goals simp
@[simp] theorem State.takeByte_taken (v : Byte) (f : Bool) : (s.takeByte v f).taken = s.taken := by
  unfold State.takeByte; repeat' split
  all_goals simp
@[simp] theorem State.takeByte_store (v : Byte) (f : Bool) : (s.takeByte v f).store = s.store := by
  unfold State.takeByte; repeat' split
  all_goals simp
@[simp] theorem State.takeByte_engine (v : Byte) (f : Bool) : (s.takeByte v f).engine = s.engine := by
  unfold State.takeByte; repeat' split
  all_goals simp
@[simp] theorem State.takeByte_notices (v : Byte) (f : Bool) : (s.takeByte v f).notices = s.notices := by
  unfold State.takeByte; repeat' split
  all_goals simp
@[simp] theorem State.takeByte_overflow (v : Byte) (f : Bool) : (s.takeByte v f).overflow = s.overflow := by
  unfold State.takeByte; repeat' split
  all_goals simp

/-! ### linkByte -/

@[simp] theorem State.linkByte_pending (v : Byte) (f sp : Bool) : (s.linkByte v f sp).pending = s.pending := by
  unfold State.linkByte; repeat' split
  all_goals simp
@[simp] theorem State.linkByte_porHeld (v : Byte) (f sp : Bool) : (s.linkByte v f sp).porHeld = s.porHeld := by
  unfold State.linkByte; repeat' split
  all_goals simp
@[simp] theorem State.linkByte_timeStamp (v : Byte) (f sp : Bool) : (s.linkByte v f sp).timeStamp = s.timeStamp := by
  unfold State.linkByte; repeat' split
  all_goals simp
@[simp] theorem State.linkByte_lanes (v : Byte) (f sp : Bool) : (s.linkByte v f sp).lanes = s.lanes := by
  unfold State.linkByte; repeat' split
  all_goals simp
@[simp] theorem State.linkByte_tables (v : Byte) (f sp : Bool) : (s.linkByte v f sp).tables = s.tables := by
  unfold State.linkByte; repeat' split
  all_goals simp
@[simp] theorem State.linkByte_plans (v : Byte) (f sp : Bool) : (s.linkByte v f sp).plans = s.plans := by
  unfold State.linkByte; repeat' split
  all_goals simp
@[simp] theorem State.linkByte_windows (v : Byte) (f sp : Bool) : (s.linkByte v f sp).windows = s.windows := by
  unfold State.linkByte; repeat' split
  all_goals simp
@[simp] theorem State.linkByte_scan (v : Byte) (f sp : Bool) : (s.linkByte v f sp).scan = s.scan := by
  unfold State.linkByte; repeat' split
  all_goals simp
@[simp] theorem State.linkByte_lastGranted (v : Byte) (f sp : Bool) : (s.linkByte v f sp).lastGranted = s.lastGranted := by
  unfold State.linkByte; repeat' split
  all_goals simp
@[simp] theorem State.linkByte_taken (v : Byte) (f sp : Bool) : (s.linkByte v f sp).taken = s.taken := by
  unfold State.linkByte; repeat' split
  all_goals simp
@[simp] theorem State.linkByte_store (v : Byte) (f sp : Bool) : (s.linkByte v f sp).store = s.store := by
  unfold State.linkByte; repeat' split
  all_goals simp
@[simp] theorem State.linkByte_engine (v : Byte) (f sp : Bool) : (s.linkByte v f sp).engine = s.engine := by
  unfold State.linkByte; repeat' split
  all_goals simp
@[simp] theorem State.linkByte_notices (v : Byte) (f sp : Bool) : (s.linkByte v f sp).notices = s.notices := by
  unfold State.linkByte; repeat' split
  all_goals simp
@[simp] theorem State.linkByte_overflow (v : Byte) (f sp : Bool) : (s.linkByte v f sp).overflow = s.overflow := by
  unfold State.linkByte; repeat' split
  all_goals simp

/-! ### discardContext -/

@[simp] theorem State.discardContext_pending (n : Fin 4) : (s.discardContext n).pending = s.pending := rfl
@[simp] theorem State.discardContext_porHeld (n : Fin 4) : (s.discardContext n).porHeld = s.porHeld := rfl
@[simp] theorem State.discardContext_timeStamp (n : Fin 4) : (s.discardContext n).timeStamp = s.timeStamp := rfl
@[simp] theorem State.discardContext_tables (n : Fin 4) : (s.discardContext n).tables = s.tables := rfl
@[simp] theorem State.discardContext_plans (n : Fin 4) : (s.discardContext n).plans = s.plans := rfl
@[simp] theorem State.discardContext_windows (n : Fin 4) : (s.discardContext n).windows = s.windows := rfl
@[simp] theorem State.discardContext_scan (n : Fin 4) : (s.discardContext n).scan = s.scan := rfl
@[simp] theorem State.discardContext_lastGranted (n : Fin 4) : (s.discardContext n).lastGranted = s.lastGranted := rfl
@[simp] theorem State.discardContext_taken (n : Fin 4) : (s.discardContext n).taken = s.taken := rfl
@[simp] theorem State.discardContext_store (n : Fin 4) : (s.discardContext n).store = s.store := rfl
@[simp] theorem State.discardContext_engine (n : Fin 4) : (s.discardContext n).engine = s.engine := rfl
@[simp] theorem State.discardContext_notices (n : Fin 4) : (s.discardContext n).notices = s.notices := rfl
@[simp] theorem State.discardContext_overflow (n : Fin 4) : (s.discardContext n).overflow = s.overflow := rfl
@[simp] theorem State.discardContext_link (n : Fin 4) : (s.discardContext n).link = s.link := rfl

end Sys2Proof.Machine
end

