-- ==== Sys2Proof/Laws/Store.lean ====
section
/-! SUPPORT. The store controller: what settling and a row write can do, and the places of R111. -/

namespace Sys2Proof.Machine

variable (st : Store)

/-! ### What a store operation leaves in each field -/

@[simp] theorem Store.write_queue (g : Nat) (r : StoredRecord) : (st.write g r).queue = st.queue := rfl
@[simp] theorem Store.write_banks (g : Nat) (r : StoredRecord) : (st.write g r).banks = st.banks := rfl
@[simp] theorem Store.write_debt (g : Nat) (r : StoredRecord) : (st.write g r).debt = st.debt := rfl
@[simp] theorem Store.write_refresh (g : Nat) (r : StoredRecord) : (st.write g r).refresh = st.refresh := rfl
@[simp] theorem Store.write_state (g : Nat) (r : StoredRecord) : (st.write g r).state = st.state := rfl
@[simp] theorem Store.write_clean (g : Nat) (r : StoredRecord) : (st.write g r).clean = st.clean := rfl
@[simp] theorem Store.write_rowsDone (g : Nat) (r : StoredRecord) : (st.write g r).rowsDone = st.rowsDone := rfl

theorem Store.writeResult_eq (g : Nat) (w : Option StoredRecord) :
    st.writeResult g w = { st with cells := (st.writeResult g w).cells } := by
  cases w <;> rfl

@[simp] theorem Store.putBank_cells (b : Fin 8) (k : Bank) : (st.putBank b k).cells = st.cells := rfl
@[simp] theorem Store.putBank_clean (b : Fin 8) (k : Bank) : (st.putBank b k).clean = st.clean := rfl
@[simp] theorem Store.putBank_epoch (b : Fin 8) (k : Bank) : (st.putBank b k).epoch = st.epoch := rfl
@[simp] theorem Store.putBank_queue (b : Fin 8) (k : Bank) : (st.putBank b k).queue = st.queue := rfl
@[simp] theorem Store.putBank_state (b : Fin 8) (k : Bank) : (st.putBank b k).state = st.state := rfl
@[simp] theorem Store.putBank_debt (b : Fin 8) (k : Bank) : (st.putBank b k).debt = st.debt := rfl
@[simp] theorem Store.putBank_refresh (b : Fin 8) (k : Bank) : (st.putBank b k).refresh = st.refresh := rfl
@[simp] theorem Store.putBank_sumMode (b : Fin 8) (k : Bank) : (st.putBank b k).sumMode = st.sumMode := rfl
@[simp] theorem Store.putBank_rowPolicy (b : Fin 8) (k : Bank) : (st.putBank b k).rowPolicy = st.rowPolicy := rfl
@[simp] theorem Store.putBank_rowsDone (b : Fin 8) (k : Bank) : (st.putBank b k).rowsDone = st.rowsDone := rfl
@[simp] theorem Store.putBank_catchingUp (b : Fin 8) (k : Bank) :
    (st.putBank b k).catchingUp = st.catchingUp := rfl

theorem Store.bank_putBank (b c : Fin 8) (k : Bank) :
    (st.putBank b k).bank c = if b = c then k else st.bank c := by
  unfold Store.bank Store.putBank
  simp only [Fin.getElem_fin, Vector.getElem_set]
  by_cases h : b = c
  · subst h; simp
  · have : b.val ≠ c.val := fun hv => h (Fin.ext hv)
    simp [h, this]

/-! ### Settling (R119, R129, R134) -/

/-- Starting work changes the banks alone. -/
theorem Store.startWork_eq : st.startWork = { st with banks := st.startWork.banks } := by
  unfold Store.startWork
  split
  · rfl
  · split
    · rfl
    · split
      · rfl
      · unfold Store.startClearRow
        split <;> rfl
    · rfl
    · rfl

/-- Preparing a refresh changes the banks, the refresh under way and the debt alone. -/
theorem Store.prepareRefresh_eq :
    st.prepareRefresh =
      { st with
        banks := st.prepareRefresh.banks
        refresh := st.prepareRefresh.refresh
        debt := st.prepareRefresh.debt } := by
  unfold Store.prepareRefresh Store.runRefresh Store.closeBanks
  repeat' split
  all_goals rfl

/-- Settling changes the banks, the refresh under way and the debt alone. -/
theorem Store.settle_eq :
    st.settle =
      { st with banks := st.settle.banks, refresh := st.settle.refresh, debt := st.settle.debt } := by
  unfold Store.settle
  simp only
  rw [Store.startWork_eq, Store.prepareRefresh_eq]
  split <;> rfl

@[simp] theorem Store.settle_state : st.settle.state = st.state := by rw [st.settle_eq]
@[simp] theorem Store.settle_sumMode : st.settle.sumMode = st.sumMode := by rw [st.settle_eq]
@[simp] theorem Store.settle_rowPolicy : st.settle.rowPolicy = st.rowPolicy := by rw [st.settle_eq]
@[simp] theorem Store.settle_queue : st.settle.queue = st.queue := by rw [st.settle_eq]
@[simp] theorem Store.settle_catchingUp : st.settle.catchingUp = st.catchingUp := by rw [st.settle_eq]
@[simp] theorem Store.settle_rowsDone : st.settle.rowsDone = st.rowsDone := by rw [st.settle_eq]
@[simp] theorem Store.settle_cells : st.settle.cells = st.cells := by rw [st.settle_eq]
@[simp] theorem Store.settle_clean : st.settle.clean = st.clean := by rw [st.settle_eq]
@[simp] theorem Store.settle_epoch : st.settle.epoch = st.epoch := by rw [st.settle_eq]

/-- The record of a group is a matter of `cells`, `clean` and `epoch` alone. -/
theorem Store.record_congr {a b : Store} (hc : a.cells = b.cells) (hk : a.clean = b.clean) (he : a.epoch = b.epoch)
    (g : Nat) : a.record g = b.record g := by
  simp only [Store.record, Store.blank, hc, hk, he]

@[simp] theorem Store.settle_record (g : Nat) : st.settle.record g = st.record g :=
  Store.record_congr (by simp) (by simp) (by simp) g

theorem Store.cellsWf_congr {a b : Store} (hc : a.cells = b.cells) (hk : a.clean = b.clean) :
    a.cellsWf = b.cellsWf := by
  have : a.blank = b.blank := by funext g; simp [Store.blank, hk]
  simp only [Store.cellsWf, hc, this]

@[simp] theorem Store.settle_cellsWf : st.settle.cellsWf = st.cellsWf :=
  Store.cellsWf_congr (by simp) (by simp)

theorem Store.prepareRefresh_debt_le : st.prepareRefresh.debt ≤ st.debt := by
  unfold Store.prepareRefresh Store.runRefresh Store.closeBanks
  repeat' split
  all_goals simp

/-- Settling never raises the debt. -/
theorem Store.settle_debt_le : st.settle.debt ≤ st.debt := by
  unfold Store.settle
  simp only
  rw [Store.startWork_eq]
  refine Nat.le_trans (Store.prepareRefresh_debt_le _) ?_
  split <;> exact Nat.le_refl _

/-- Every bank is CLOSED. -/
def Store.allClosed : Prop := ∀ b : Fin 8, st.bank b = .closed

theorem Store.allClosed_of_all (h : st.banks.all (fun k => k = .closed) = true) : st.allClosed := by
  intro b
  have h := Vector.all_eq_true.1 h b.val b.isLt
  simpa [Store.bank] using h

/-- While no refresh was running before, or every bank was CLOSED, a refresh that runs after settling finds every bank
CLOSED. -/
theorem Store.settle_running (h : st.refresh = .running → st.allClosed) (hr : st.settle.refresh = .running) :
    st.settle.allClosed := by
  have key : ∀ a : Store, (a.refresh = .running → a.allClosed) → a.prepareRefresh.refresh = .running →
      a.prepareRefresh.allClosed := by
    intro a ha
    unfold Store.prepareRefresh
    split
    · rename_i hp
      have hq : a.closeBanks.refresh = .preparing := by
        unfold Store.closeBanks
        split <;> exact hp
      unfold Store.runRefresh
      split
      · rename_i hall
        exact fun _ => Store.allClosed_of_all _ hall
      · intro hrun
        rw [hq] at hrun
        cases hrun
    · exact ha
  unfold Store.settle at hr ⊢
  simp only at hr ⊢
  generalize hst : (if st.refreshWanted = true then { st with refresh := RefreshPhase.preparing } else st) = a at hr ⊢
  have ha : a.refresh = .running → a.allClosed := by
    subst hst
    split
    · intro hx; cases hx
    · exact h
  rw [Store.startWork_eq] at hr
  have hrun : a.prepareRefresh.refresh = .running := hr
  have hc := key a ha hrun
  unfold Store.startWork
  rw [if_pos (by rw [hrun]; decide)]
  exact hc

/-! ### Row writes of a clear (R134) -/

/-- The 8 records of the row read empty after its write, and no other record changes. -/
theorem Store.record_writeRowEmpty (row : Fin 1024) (b : Fin 8) (g : Nat) :
    (st.writeRowEmpty row b).record g =
      if rowWriteOf g = 8 * row.val + b.val then StoredRecord.empty else st.record g := by
  have hf : ∀ j, cellAt (st.cells.filter (fun c => rowWriteOf c.1 ≠ 8 * row.val + b.val)) j =
      if rowWriteOf j = 8 * row.val + b.val then none else cellAt st.cells j := by
    intro j
    have := cellAt_filter st.cells (fun k => decide (rowWriteOf k ≠ 8 * row.val + b.val)) j
    rw [this]
    by_cases hj : rowWriteOf j = 8 * row.val + b.val <;> simp [hj]
  unfold Store.writeRowEmpty
  simp only
  split
  · rename_i hlt
    unfold Store.record Store.blank
    simp only [hf]
    by_cases hg : rowWriteOf g = 8 * row.val + b.val
    · simp [hg, hlt]
    · simp [hg]
  · split
    · rename_i hlt heq
      unfold Store.record Store.blank
      simp only [hf]
      by_cases hg : rowWriteOf g = 8 * row.val + b.val
      · simp [hg, ← heq]
      · have : (rowWriteOf g < st.clean + 1) ↔ (rowWriteOf g < st.clean) := by omega
        simp [hg, this]
    · simp only [List.foldl_cons, List.foldl_nil, Store.record_write]
      by_cases hg : rowWriteOf g = 8 * row.val + b.val
      · rw [if_pos hg]
        have hb := b.isLt
        have hgr : g / 64 = row.val ∧ g % 8 = b.val := by
          simp only [rowWriteOf, groupRow, groupBank] at hg; omega
        have hplace : groupAt row (groupPlace g) b = g := by
          simp only [groupAt, groupPlace]; omega
        have hp : groupPlace g < 8 := Nat.mod_lt _ (by decide)
        generalize groupPlace g = p at hplace hp
        subst hplace
        have : p = 0 ∨ p = 1 ∨ p = 2 ∨ p = 3 ∨ p = 4 ∨ p = 5 ∨ p = 6 ∨ p = 7 := by omega
        rcases this with rfl | rfl | rfl | rfl | rfl | rfl | rfl | rfl <;>
          simp [groupAt]
      · rw [if_neg hg]
        have hne : ∀ p, p < 8 → groupAt row p b ≠ g := by
          rintro p hp rfl
          apply hg
          have hb := b.isLt
          simp only [rowWriteOf, groupRow, groupBank, groupAt]
          omega
        rw [if_neg (hne 7 (by decide)), if_neg (hne 6 (by decide)), if_neg (hne 5 (by decide)),
          if_neg (hne 4 (by decide)), if_neg (hne 3 (by decide)), if_neg (hne 2 (by decide)),
          if_neg (hne 1 (by decide)), if_neg (hne 0 (by decide))]
        unfold Store.record Store.blank
        simp only [hf, if_neg hg]

/-- A row write keeps the store's memory canonical. -/
theorem Store.cellsWf_writeRowEmpty (row : Fin 1024) (b : Fin 8) (h : st.cellsWf = true) :
    (st.writeRowEmpty row b).cellsWf = true := by
  have hf : Machine.cellsWf 65536 st.blank (st.cells.filter (fun c => rowWriteOf c.1 ≠ 8 * row.val + b.val)) = true :=
    cellsWf_filter _ h
  unfold Store.writeRowEmpty
  simp only
  split
  · exact hf
  · split
    · rename_i hlt heq
      have hf' := (cellsWf_iff _ _ _).1 hf
      refine (cellsWf_iff _ _ _).2 ⟨hf'.1, fun c hc => ⟨(hf'.2 c hc).1, ?_⟩⟩
      have hne : rowWriteOf c.1 ≠ 8 * row.val + b.val := by simpa using (List.mem_filter.1 hc).2
      have hold := (hf'.2 c hc).2
      simp only [Store.blank] at hold ⊢
      have : (rowWriteOf c.1 < st.clean + 1) ↔ (rowWriteOf c.1 < st.clean) := by omega
      simpa [this] using hold
    · have hb := b.isLt
      have hr := row.isLt
      have step : ∀ (a : Store) (p : Nat), p < 8 → a.cellsWf = true →
          (a.write (groupAt row p b) StoredRecord.empty).cellsWf = true := by
        intro a p hp ha
        exact a.cellsWf_write _ (by simp only [groupAt]; omega) ha
      simp only [List.foldl_cons, List.foldl_nil]
      exact step _ 7 (by decide) (step _ 6 (by decide) (step _ 5 (by decide) (step _ 4 (by decide)
        (step _ 3 (by decide) (step _ 2 (by decide) (step _ 1 (by decide) (step _ 0 (by decide) hf)))))))

/-- A row write changes the cells and the clean rows alone. -/
theorem Store.writeRowEmpty_eq (row : Fin 1024) (b : Fin 8) :
    st.writeRowEmpty row b =
      { st with cells := (st.writeRowEmpty row b).cells, clean := (st.writeRowEmpty row b).clean } := by
  have fold : ∀ (l : List Nat) (a : Store),
      l.foldl (fun st place => st.write (groupAt row place b) StoredRecord.empty) a =
        { a with cells := (l.foldl (fun st place => st.write (groupAt row place b) StoredRecord.empty) a).cells } := by
    intro l
    induction l with
    | nil => intro a; rfl
    | cons p l ih => intro a; rw [List.foldl_cons, ih]; rfl
  unfold Store.writeRowEmpty
  simp only
  split
  · rfl
  · split
    · rfl
    · rw [fold]

/-! ### The places of R111 -/

/-- The record at place p of row r in bank b is the record of group 64r + 8p + b, and no other place holds it. -/
theorem groupAt_iff (row place bank g : Nat) (hp : place < 8) (hb : bank < 8) :
    groupAt row place bank = g ↔ groupRow g = row ∧ groupPlace g = place ∧ groupBank g = bank := by
  simp only [groupAt, groupRow, groupPlace, groupBank]
  omega

end Sys2Proof.Machine
end

