-- ==== Sys2Proof/Laws/Banks.lean ====
section
/-! SUPPORT. What settling does to a bank, what a soft reset keeps of the tally queue, and that every bank works on its head. -/

namespace Sys2Proof.Machine

variable (st : Store) (b : Fin 8)

/-- The bank is opening a row, working, or closing: settling leaves it alone. -/
def Bank.busy : Bank → Bool
  | .closed => false
  | .opened _ => false
  | .opening _ _ => true
  | .working _ _ => true
  | .closing _ => true

theorem Store.bank_putBank_self (k : Bank) : (st.putBank b k).bank b = k := by
  rw [Store.bank_putBank, if_pos rfl]

theorem Store.record_putBank (k : Bank) (g : Nat) : (st.putBank b k).record g = st.record g := rfl

theorem Store.bank_eachBank (f : Fin 8 → Bank) : ({ st with banks := eachBank f } : Store).bank b = f b := by
  match b with
  | 0 | 1 | 2 | 3 | 4 | 5 | 6 | 7 => rfl

theorem Store.startOn_busy (row : Fin 1024) (w : Work) (h : (st.bank b).busy = true) :
    st.startOn b row w = st.bank b := by
  unfold Store.startOn
  cases hb : st.bank b <;> rw [hb] at h <;> first | rfl | cases h

theorem Store.startHead_busy (h : (st.bank b).busy = true) : st.startHead b = st.bank b := by
  unfold Store.startHead
  split
  · exact st.startOn_busy b _ _ h
  · rfl

theorem Store.startOn_closed (row : Fin 1024) (w : Work) (h : st.bank b = .closed) :
    st.startOn b row w = .opening row (some w) := by
  unfold Store.startOn
  rw [h]

theorem Store.startWork_busy (h : (st.bank b).busy = true) : st.startWork.bank b = st.bank b := by
  unfold Store.startWork
  split
  · rfl
  · split
    · rfl
    · split
      · rfl
      · unfold Store.startClearRow
        split
        · rw [Store.bank_putBank]
          split
          · rename_i e
            subst e
            exact st.startOn_busy _ _ _ h
          · rfl
        · rfl
    · rw [Store.bank_eachBank]
      exact st.startHead_busy b h
    · rw [Store.bank_eachBank]
      exact st.startHead_busy b h

/-- A CLOSED bank stays CLOSED or begins to open a row for work (R119, R134). -/
theorem Store.startWork_closed (h : st.bank b = .closed) :
    st.startWork.bank b = .closed ∨ ∃ row w, st.startWork.bank b = .opening row (some w) := by
  have head : st.startHead b = .closed ∨ ∃ row w, st.startHead b = .opening row (some w) := by
    unfold Store.startHead
    split
    · exact .inr ⟨_, _, st.startOn_closed b _ _ h⟩
    · exact .inl h
  unfold Store.startWork
  split
  · exact .inl h
  · split
    · exact .inl h
    · split
      · exact .inl h
      · unfold Store.startClearRow
        split
        · rw [Store.bank_putBank]
          split
          · rename_i e
            subst e
            exact .inr ⟨_, _, st.startOn_closed _ _ _ h⟩
          · exact .inl h
        · exact .inl h
    · rw [Store.bank_eachBank]
      exact head
    · rw [Store.bank_eachBank]
      exact head

theorem closeIdle_busy (k : Bank) (h : k.busy = true) : closeIdle k = k := by
  cases k <;> first | rfl | cases h

/-- Preparing a refresh leaves a bank as it is, or closes it if it is idle (R129). -/
theorem Store.prepareRefresh_bank :
    st.prepareRefresh.bank b = st.bank b ∨ st.prepareRefresh.bank b = closeIdle (st.bank b) := by
  have close : st.closeBanks.bank b = st.bank b ∨ st.closeBanks.bank b = closeIdle (st.bank b) := by
    unfold Store.closeBanks
    split
    · exact .inl rfl
    · right
      simp [Store.bank]
  unfold Store.prepareRefresh Store.runRefresh
  split
  · split
    · exact close
    · exact close
  · exact .inl rfl

/-- Settling leaves a busy bank alone. -/
theorem Store.settle_busy (h : (st.bank b).busy = true) : st.settle.bank b = st.bank b := by
  unfold Store.settle
  simp only
  generalize hst : (if st.refreshWanted = true then { st with refresh := RefreshPhase.preparing } else st) = a
  have ha : a.bank b = st.bank b := by
    subst hst
    split <;> rfl
  have hp : a.prepareRefresh.bank b = a.bank b := by
    rcases a.prepareRefresh_bank b with h1 | h1
    · exact h1
    · rw [h1, closeIdle_busy]
      rw [ha]
      exact h
  rw [Store.startWork_busy, hp, ha]
  rw [hp, ha]
  exact h

/-- Settling leaves a CLOSED bank CLOSED or lets it begin to open a row for work. -/
theorem Store.settle_closed (h : st.bank b = .closed) :
    st.settle.bank b = .closed ∨ ∃ row w, st.settle.bank b = .opening row (some w) := by
  unfold Store.settle
  simp only
  generalize hst : (if st.refreshWanted = true then { st with refresh := RefreshPhase.preparing } else st) = a
  have ha : a.bank b = .closed := by
    subst hst
    split <;> exact h
  have hp : a.prepareRefresh.bank b = .closed := by
    rcases a.prepareRefresh_bank b with h1 | h1 <;> rw [h1, ha]
    rfl
  exact Store.startWork_closed _ _ hp

/-- Settling leaves the debt as it is, or begins the refresh and repays 1 of it. -/
theorem Store.settle_debt_cases : st.settle.debt = st.debt ∨
    (st.settle.refresh = .running ∧ st.refresh ≠ .running ∧ st.settle.debt = st.debt - 1) := by
  unfold Store.settle
  simp only
  generalize hst : (if st.refreshWanted = true then { st with refresh := RefreshPhase.preparing } else st) = a
  have ha : a.debt = st.debt := by
    subst hst
    split <;> rfl
  have hr : a.refresh = .preparing → st.refresh ≠ .running := by
    subst hst
    split
    · rename_i hw
      intro _ hx
      simp [Store.refreshWanted, hx] at hw
    · intro hx hy
      rw [hx] at hy
      cases hy
  rw [Store.startWork_eq]
  simp only
  unfold Store.prepareRefresh
  split
  · rename_i hp
    have hc : a.closeBanks.debt = a.debt := by
      unfold Store.closeBanks
      split <;> rfl
    unfold Store.runRefresh
    split
    · right
      exact ⟨rfl, hr hp, by simp only [hc, ha]⟩
    · left
      rw [hc, ha]
  · left
    exact ha

/-! ### Settling, case by case (R118, R119, R129, R130, R134) -/

/-- When a refresh is begun (R129, R130). -/
theorem Store.refreshWanted_iff : st.refreshWanted = true ↔ st.refresh = .none ∧ 0 < st.debt ∧
    (st.queue = [] ∨ st.debt = 8 ∨ st.state = .catchUp ∨ (st.state = .clearing ∧ st.catchingUp = true)) := by
  simp [Store.refreshWanted, Store.backToBack, and_assoc, or_assoc]

/-- Nothing is begun while a refresh runs. -/
theorem Store.settle_whileRunning (h : st.refresh = .running) : st.settle = st := by
  have hw : st.refreshWanted = false := by simp [Store.refreshWanted, h]
  simp [Store.settle, hw, Store.prepareRefresh, Store.startWork, h]

/-- A refresh prepared or begun has its preparation carried on, and no bank starts work. -/
theorem Store.settle_prepare (h : st.refresh = .preparing ∨ st.refreshWanted = true) :
    st.settle = ({ st with refresh := .preparing } : Store).closeBanks.runRefresh := by
  have hst : (if st.refreshWanted = true then { st with refresh := RefreshPhase.preparing } else st)
      = { st with refresh := .preparing } := by
    split
    · rfl
    · rename_i hw
      rcases h with h | h
      · cases st
        simp only at h
        subst h
        rfl
      · exact absurd h hw
  have hr : ({ st with refresh := .preparing } : Store).closeBanks.runRefresh.refresh ≠ .none := by
    unfold Store.runRefresh
    split
    · intro hc
      cases hc
    · unfold Store.closeBanks
      split <;> (intro hc; cases hc)
  unfold Store.settle
  simp only [hst, Store.prepareRefresh, if_true]
  unfold Store.startWork
  rw [if_pos hr]

/-- With no refresh prepared, begun or running the banks start work. -/
theorem Store.settle_work (h : st.refresh = .none) (hw : st.refreshWanted = false) : st.settle = st.startWork := by
  simp [Store.settle, hw, Store.prepareRefresh, h]

/-- Some bank has a sequence in flight (R117). -/
theorem Store.any_inFlight : st.banks.any Bank.inFlight = true ↔
    ∃ b : Fin 8, (∃ row work, st.bank b = .opening row work) ∨ (∃ row op, st.bank b = .working row op) ∨
      ∃ work, st.bank b = .closing (some work) := by
  have each : ∀ k : Bank, k.inFlight = true ↔ (∃ row work, k = .opening row work) ∨ (∃ row op, k = .working row op) ∨
      ∃ work, k = .closing (some work) := by
    intro k
    cases k with
    | closed => simp [Bank.inFlight]
    | opening r w => simp [Bank.inFlight]
    | opened r => simp [Bank.inFlight]
    | working r op => simp [Bank.inFlight]
    | closing w => cases w <;> simp [Bank.inFlight]
  rw [Vector.any_eq_true]
  constructor
  · rintro ⟨i, hi, h⟩
    exact ⟨⟨i, hi⟩, (each _).mp h⟩
  · rintro ⟨b, h⟩
    exact ⟨b.val, b.isLt, (each _).mpr h⟩

/-- Some bank is at the row write of a clear (R134). -/
theorem Store.any_atClearRow : st.banks.any Bank.atClearRow = true ↔
    ∃ b : Fin 8, (∃ row, st.bank b = .opening row (some .clearRow)) ∨ st.bank b = .closing (some .clearRow) ∨
      ∃ row, st.bank b = .working row (.rowWrite false) := by
  have each : ∀ k : Bank, k.atClearRow = true ↔ (∃ row, k = .opening row (some .clearRow)) ∨
      k = .closing (some .clearRow) ∨ ∃ row, k = .working row (.rowWrite false) := by
    intro k
    cases k with
    | closed => simp [Bank.atClearRow]
    | opening r w => rcases w with _ | _ | _ <;> simp [Bank.atClearRow]
    | opened r => simp [Bank.atClearRow]
    | working r op => rcases op with _ | _ | _ <;> simp [Bank.atClearRow]
    | closing w => rcases w with _ | _ | _ <;> simp [Bank.atClearRow]
  rw [Vector.any_eq_true]
  constructor
  · rintro ⟨i, hi, h⟩
    exact ⟨⟨i, hi⟩, (each _).mp h⟩
  · rintro ⟨b, h⟩
    exact ⟨b.val, b.isLt, (each _).mpr h⟩

/-- Every bank is CLOSED. -/
theorem Store.all_closed : st.banks.all (fun k => k = .closed) = true ↔ ∀ b : Fin 8, st.bank b = .closed := by
  rw [Vector.all_eq_true]
  simp only [decide_eq_true_eq]
  exact ⟨fun h b => h b.val b.isLt, fun h i hi => h ⟨i, hi⟩⟩

/-- The preparation closes the idle banks once no sequence is in flight (R129, step 2). -/
theorem Store.bank_closeBanks : st.closeBanks.bank b =
    if st.banks.any Bank.inFlight = true then st.bank b else closeIdle (st.bank b) := by
  unfold Store.closeBanks
  split
  · rfl
  · simp [Store.bank]

theorem Store.closeBanks_eq : st.closeBanks = { st with banks := st.closeBanks.banks } := by
  unfold Store.closeBanks
  split <;> rfl

/-- The preparation closes no bank at once, and none that is CLOSED leaves it. -/
theorem Store.closeBanks_closed : (∀ b : Fin 8, st.closeBanks.bank b = .closed) ↔ ∀ b : Fin 8, st.bank b = .closed := by
  have idle : ∀ k : Bank, closeIdle k = .closed ↔ k = .closed := by
    intro k
    cases k <;> simp [closeIdle]
  constructor
  · intro h b
    have hb := h b
    rw [Store.bank_closeBanks] at hb
    split at hb
    · exact hb
    · exact (idle _).mp hb
  · intro h b
    rw [Store.bank_closeBanks, h b]
    split <;> rfl

/-- The refresh once its preparation has been carried on: it runs when every bank is CLOSED (R129, step 3), and repays 1 of
the debt; else it stays prepared. -/
theorem Store.settle_prepare_refresh (h : st.refresh = .preparing ∨ st.refreshWanted = true) :
    ((∀ b : Fin 8, st.bank b = .closed) → st.settle.refresh = .running ∧ st.settle.debt = st.debt - 1) ∧
    (¬(∀ b : Fin 8, st.bank b = .closed) → st.settle.refresh = .preparing ∧ st.settle.debt = st.debt) ∧
    ∀ b : Fin 8, st.settle.bank b = if st.banks.any Bank.inFlight = true then st.bank b else closeIdle (st.bank b) := by
  rw [st.settle_prepare h]
  have hc := Store.closeBanks_closed { st with refresh := .preparing }
  have hb := Store.bank_closeBanks { st with refresh := .preparing }
  rw [← Store.all_closed] at hc
  have he := Store.closeBanks_eq { st with refresh := .preparing }
  generalize ({ st with refresh := .preparing } : Store).closeBanks = d at hc hb he
  have hd : d.refresh = .preparing := by rw [he]
  have hd' : d.debt = st.debt := by rw [he]
  unfold Store.runRefresh
  refine ⟨fun ha => ?_, fun ha => ?_, fun b => ?_⟩
  · rw [if_pos (hc.mpr ha)]
    exact ⟨rfl, by simp only [hd']⟩
  · rw [if_neg (fun hx => ha (hc.mp hx))]
    exact ⟨hd, hd'⟩
  · split
    · exact hb b
    · exact hb b

/-- What a bank does at once outside a clear and outside CATCH-UP, with no refresh in the way: it starts work on its head
(R118, R119, R120). -/
theorem Store.settle_head (h : st.refresh = .none) (hw : st.refreshWanted = false)
    (hs : st.state = .ready ∨ st.state = .uninitialised) : st.settle.bank b = st.startHead b := by
  rw [st.settle_work h hw]
  unfold Store.startWork
  rw [if_neg (fun hn => hn h)]
  rcases hs with hs | hs <;> rw [hs] <;> exact st.bank_eachBank b st.startHead

/-- While refreshes are caught up no bank starts work (R130). -/
theorem Store.settle_catchUp (h : st.refresh = .none) (hw : st.refreshWanted = false)
    (hs : st.state = .catchUp ∨ (st.state = .clearing ∧ st.catchingUp = true)) : st.settle = st := by
  rw [st.settle_work h hw]
  unfold Store.startWork
  rw [if_neg (fun hn => hn h)]
  rcases hs with hs | ⟨hs, hc⟩
  · simp only [hs]
  · simp only [hs, hc, if_true]

/-- During a clear its next row write is begun, one at a time (R134). -/
theorem Store.settle_clear (h : st.refresh = .none) (hw : st.refreshWanted = false) (hs : st.state = .clearing)
    (hc : st.catchingUp = false) : st.settle = st.startClearRow := by
  rw [st.settle_work h hw]
  unfold Store.startWork
  rw [if_neg (fun hn => hn h)]
  simp only [hs, hc, Bool.false_eq_true, if_false]

/-! ### The soft reset (R136) -/

/-- The entries a soft reset keeps stand in their order (R136). -/
theorem keepInFlight_sublist (banks : List Nat) (q : List QueueEntry) : (keepInFlight banks q).Sublist q := by
  induction q generalizing banks with
  | nil => exact List.Sublist.refl _
  | cons e q ih =>
    unfold keepInFlight
    split
    · exact (ih _).cons_cons _
    · exact (ih _).cons _

/-- Each entry a soft reset keeps lies in one of the operating banks (R136). -/
theorem keepInFlight_bank (banks : List Nat) (q : List QueueEntry) :
    ∀ e ∈ keepInFlight banks q, e.bank ∈ banks := by
  induction q generalizing banks with
  | nil =>
    intro e h
    cases h
  | cons e q ih =>
    intro f hf
    unfold keepInFlight at hf
    split at hf
    · rename_i hm
      rcases List.mem_cons.mp hf with rfl | hf
      · exact hm
      · exact (List.mem_filter.mp (ih _ f hf)).1
    · exact ih _ f hf

/-- Of an operating bank a soft reset keeps the head alone, and of any other bank nothing (R136, step 2). -/
theorem keepInFlight_filter (n : Nat) (banks : List Nat) (q : List QueueEntry) :
    (keepInFlight banks q).filter (fun e => e.bank = n) =
      if n ∈ banks then (q.filter (fun e => e.bank = n)).take 1 else [] := by
  induction q generalizing banks with
  | nil => simp [keepInFlight]
  | cons e q ih =>
    unfold keepInFlight
    by_cases he : e.bank = n
    · by_cases hm : n ∈ banks
      · simp [he, hm, ih]
      · simp [he, hm, ih]
    · by_cases hm : e.bank ∈ banks
      · have hk : (n ∈ banks.filter (fun b => b ≠ e.bank)) ↔ n ∈ banks := by
          simp [Ne.symm he]
        simp only [if_pos hm, List.filter_cons, he, decide_false, Bool.false_eq_true, if_false, ih, hk]
      · simp only [if_neg hm, List.filter_cons, he, decide_false, Bool.false_eq_true, if_false, ih]

/-- The banks that are operating hold a record operation. -/
theorem Store.mem_operatingBanks (n : Nat) : n ∈ st.operatingBanks ↔
    ∃ b : Fin 8, n = b.val ∧ ∃ row e m x r, st.bank b = .working row (.record e m x r) := by
  have oper : ∀ k : Bank, k.operating = true ↔ ∃ row e m x r, k = .working row (.record e m x r) := by
    intro k
    constructor
    · intro h
      cases k with
      | working row op =>
        cases op with
        | record e m x r => exact ⟨row, e, m, x, r, rfl⟩
        | rowWrite r => cases h
      | closed => cases h
      | opening _ _ => cases h
      | opened _ => cases h
      | closing _ => cases h
    · rintro ⟨row, e, m, x, r, rfl⟩
      rfl
  unfold Store.operatingBanks
  rw [List.mem_filterMap]
  constructor
  · rintro ⟨b, -, hb⟩
    split at hb
    · rename_i ho
      exact ⟨b, (Option.some.inj hb).symm, (oper _).mp ho⟩
    · cases hb
  · rintro ⟨b, rfl, hb⟩
    have mem : ∀ b : Fin 8, b ∈ ([0, 1, 2, 3, 4, 5, 6, 7] : List (Fin 8)) := by decide
    refine ⟨b, mem b, ?_⟩
    rw [if_pos ((oper _).mpr hb)]

/-- The queue without a bank's head stands in its order. -/
theorem dropHead_sublist (bank : Nat) (q : List QueueEntry) : (dropHead bank q).Sublist q := by
  induction q with
  | nil => exact List.Sublist.refl _
  | cons e q ih =>
    unfold dropHead
    split
    · exact List.sublist_cons_self _ _
    · exact ih.cons_cons _

/-! ### Heads (R118) and the banks that work on them (R119) -/

/-- An entry that joins the queue leaves every head that was there. -/
theorem headOf_append {n : Nat} {q more : List QueueEntry} {e : QueueEntry} (h : headOf n q = some e) :
    headOf n (q ++ more) = some e := by
  unfold headOf at h ⊢
  rw [List.find?_append, h]
  rfl

/-- A head that leaves the queue leaves the heads of the other banks. -/
theorem headOf_dropHead {n m : Nat} (h : n ≠ m) (q : List QueueEntry) : headOf n (dropHead m q) = headOf n q := by
  induction q with
  | nil => rfl
  | cons e q ih =>
    unfold headOf at ih ⊢
    unfold dropHead
    split
    · rename_i hm
      rw [List.find?_cons, hm, decide_eq_false h.symm]
    · rw [List.find?_cons, List.find?_cons, ih]

/-- A soft reset keeps the head of every operating bank (R136, step 2). -/
theorem headOf_keepInFlight {n : Nat} {banks : List Nat} (h : n ∈ banks) (q : List QueueEntry) :
    headOf n (keepInFlight banks q) = headOf n q := by
  have hf := keepInFlight_filter n banks q
  rw [if_pos h] at hf
  unfold headOf
  rw [← List.head?_filter, ← List.head?_filter, hf]
  cases q.filter (fun e => decide (e.bank = n)) <;> rfl

/-- What a bank does when it begins work on its head: it takes the head itself. -/
theorem Store.beginWork_record {st : Store} {b : Fin 8} {row row' : Fin 1024} {w : Work} {e : QueueEntry} {m : SumMode}
    {x : StoredRecord} {r : Bool} (h : st.beginWork b row w = .working row' (.record e m x r)) :
    headOf b st.queue = some e := by
  unfold Store.beginWork at h
  split at h
  · cases h
  · split at h
    · rename_i hh
      cases h
      exact hh
    · cases h

/-- A bank that starts work and then works on a record works on its head, or worked on that record before. -/
theorem Store.startOn_record {st : Store} {b : Fin 8} {row row' : Fin 1024} {w : Work} {e : QueueEntry} {m : SumMode}
    {x : StoredRecord} {r : Bool} (h : st.startOn b row w = .working row' (.record e m x r)) :
    headOf b st.queue = some e ∨ st.bank b = .working row' (.record e m x r) := by
  unfold Store.startOn at h
  split at h
  · cases h
  · split at h
    · exact .inl (Store.beginWork_record h)
    · cases h
  · cases h
  · rename_i hb
    exact .inr (hb.trans h)
  · cases h

theorem Store.startWork_record {st : Store} {b : Fin 8} {row : Fin 1024} {e : QueueEntry} {m : SumMode} {x : StoredRecord}
    {r : Bool} (h : st.startWork.bank b = .working row (.record e m x r)) :
    headOf b st.queue = some e ∨ st.bank b = .working row (.record e m x r) := by
  have head : st.startHead b = .working row (.record e m x r) →
      headOf b st.queue = some e ∨ st.bank b = .working row (.record e m x r) := by
    intro h
    unfold Store.startHead at h
    split at h
    · exact Store.startOn_record h
    · exact .inr h
  unfold Store.startWork at h
  split at h
  · exact .inr h
  · split at h
    · exact .inr h
    · split at h
      · exact .inr h
      · unfold Store.startClearRow at h
        split at h
        · rw [Store.bank_putBank] at h
          split at h
          · rename_i hb
            rw [← hb]
            exact Store.startOn_record h
          · exact .inr h
        · exact .inr h
    · rw [Store.bank_eachBank] at h
      exact head h
    · rw [Store.bank_eachBank] at h
      exact head h

/-- Settling keeps every bank that works on a record working on its head. -/
theorem Store.HeadsWorking.settle {st : Store} (h : st.HeadsWorking) : st.settle.HeadsWorking := by
  intro b row e m x r hb
  rw [Store.settle_queue]
  by_cases hr : st.refresh = .running
  · rw [st.settle_whileRunning hr] at hb
    exact h _ _ _ _ _ _ hb
  by_cases hp : st.refresh = .preparing ∨ st.refreshWanted = true
  · rw [(st.settle_prepare_refresh hp).2.2 b] at hb
    split at hb
    · exact h _ _ _ _ _ _ hb
    · refine h b row e m x r ?_
      revert hb
      cases st.bank b <;> simp [closeIdle]
  · have hn : st.refresh = .none := by
      cases hs : st.refresh
      · rfl
      · exact absurd (.inl hs) hp
      · exact absurd hs hr
    have hw : st.refreshWanted = false := Bool.eq_false_iff.mpr (fun hx => hp (.inr hx))
    rw [st.settle_work hn hw] at hb
    rcases Store.startWork_record hb with hh | hh
    · exact hh
    · exact h _ _ _ _ _ _ hh

/-- A bank may go to any state that works on no record. -/
theorem Store.HeadsWorking.putBank {st : Store} (h : st.HeadsWorking) (b : Fin 8) {k : Bank}
    (hk : ∀ row e m x r, k = .working row (.record e m x r) → headOf b st.queue = some e) :
    (st.putBank b k).HeadsWorking := by
  intro c row e m x r hc
  rw [Store.bank_putBank] at hc
  split at hc
  · rename_i hbc
    subst hbc
    exact hk _ _ _ _ _ hc
  · exact h _ _ _ _ _ _ hc

/-- Entries may join the queue. -/
theorem Store.HeadsWorking.join {st : Store} (h : st.HeadsWorking) (more : List QueueEntry) :
    ({ st with queue := st.queue ++ more } : Store).HeadsWorking :=
  fun _ _ _ _ _ _ hb => headOf_append (h _ _ _ _ _ _ hb)

/-- A bank's head may leave the queue once the bank works on no record (R121). -/
theorem Store.HeadsWorking.drop {st : Store} (h : st.HeadsWorking) (b : Fin 8) {k : Bank}
    (hk : ∀ row e m x r, k ≠ .working row (.record e m x r)) :
    (({ st with queue := dropHead b st.queue } : Store).putBank b k).HeadsWorking := by
  intro c row e m x r hc
  rw [Store.bank_putBank] at hc
  split at hc
  · exact absurd hc (hk _ _ _ _ _)
  · rename_i hbc
    rw [Store.putBank_queue, headOf_dropHead (fun hv => hbc (Fin.ext hv.symm))]
    exact h _ _ _ _ _ _ hc

/-- A soft reset keeps every bank that works on a record working on its head (R136). -/
theorem Store.HeadsWorking.softReset {st : Store} (h : st.HeadsWorking) : st.softReset.HeadsWorking := by
  let st' : Store :=
    { st with
      state := st.state.softReset
      queue := keepInFlight st.operatingBanks st.queue
      banks := st.banks.map Bank.softReset
      catchingUp := false }
  have h' : st'.HeadsWorking := by
    intro b row e m x r hb
    have hb' : (st.bank b).softReset = .working row (.record e m x r) := by
      rw [← hb]
      simp [st', Store.bank]
    obtain ⟨q, hq⟩ : ∃ q, st.bank b = .working row (.record e m x q) := by
      cases hk : st.bank b with
      | working row' op =>
        rw [hk] at hb'
        cases op with
        | record e' m' x' q =>
          cases hb'
          exact ⟨q, rfl⟩
        | rowWrite q => cases hb'
      | closed =>
        rw [hk] at hb'
        cases hb'
      | opening _ _ =>
        rw [hk] at hb'
        cases hb'
      | opened _ =>
        rw [hk] at hb'
        cases hb'
      | closing _ =>
        rw [hk] at hb'
        cases hb'
    show headOf b (keepInFlight st.operatingBanks st.queue) = some e
    rw [headOf_keepInFlight ((st.mem_operatingBanks b.val).mpr ⟨b, rfl, row, e, m, x, q, hq⟩)]
    exact h _ _ _ _ _ _ hq
  have hc : st'.enterCatchUp.HeadsWorking := by
    unfold Store.enterCatchUp
    split
    · split <;> exact h'
    · exact h'
  unfold Store.softReset
  simp only
  split
  · exact hc.settle
  · exact h'.settle

end Sys2Proof.Machine
end

