-- ==== Sys2Proof/Laws/Formats.lean ====
section
/-! SUPPORT. What reading a code gives: each reader of a byte accepts exactly the bytes its writer writes, and refuses
exactly the bytes out of range (chapter 10). -/

namespace Sys2Proof.Machine

/-! ### Numbers and codes -/

theorem finOfByte_eq_some {k : Nat} {b : Byte} {n : Fin k} : finOfByte k b = some n ↔ n.val = b.toNat := by
  unfold finOfByte
  split
  · simp only [Option.some.injEq, Fin.ext_iff]
    exact eq_comm
  · rename_i h
    simp only [reduceCtorEq, false_iff]
    intro e
    have := n.isLt
    omega

theorem finOfByte_eq_none {k : Nat} {b : Byte} : finOfByte k b = none ↔ k ≤ b.toNat := by
  simp [finOfByte]

theorem laneOfByte_eq_some {b : Byte} {n : Fin 4} : laneOfByte b = some n ↔ n.val = b.toNat := finOfByte_eq_some

theorem laneOfByte_eq_none {b : Byte} : laneOfByte b = none ↔ 4 ≤ b.toNat := finOfByte_eq_none

theorem boolOfByte_eq_some {b : Byte} {x : Bool} : boolOfByte b = some x ↔ b = boolByte x := by
  revert b x; decide

theorem boolOfByte_eq_none {b : Byte} : boolOfByte b = none ↔ 1 < b.toNat := by
  revert b; decide

theorem Source.ofByte_eq_some {b : Byte} {x : Source} : Source.ofByte b = some x ↔ b = x.byte := by
  cases x <;> revert b <;> decide

theorem Source.ofByte_eq_none {b : Byte} : Source.ofByte b = none ↔ 1 < b.toNat := by
  revert b; decide

theorem LineRate.ofByte_eq_some {b : Byte} {x : LineRate} : LineRate.ofByte b = some x ↔ b = x.byte := by
  cases x <;> revert b <;> decide

theorem LineRate.ofByte_eq_none {b : Byte} : LineRate.ofByte b = none ↔ 7 < b.toNat := by
  revert b; decide

theorem Parity.ofByte_eq_some {b : Byte} {x : Parity} : Parity.ofByte b = some x ↔ b = x.byte := by
  cases x <;> revert b <;> decide

theorem Parity.ofByte_eq_none {b : Byte} : Parity.ofByte b = Option.none ↔ 2 < b.toNat := by
  revert b; decide

theorem ByteClass.ofByte_eq_some {b : Byte} {x : ByteClass} : ByteClass.ofByte b = some x ↔ b = x.byte := by
  cases x <;> revert b <;> decide

theorem ByteClass.ofByte_eq_none {b : Byte} : ByteClass.ofByte b = none ↔ 5 < b.toNat := by
  revert b; decide

theorem Conversion.ofByte_eq_some {b : Byte} {x : Conversion} : Conversion.ofByte b = some x ↔ b = x.byte := by
  cases x <;> revert b <;> decide

theorem OnMiss.ofByte_eq_some {b : Byte} {x : OnMiss} : OnMiss.ofByte b = some x ↔ b = x.byte := by
  cases x <;> revert b <;> decide

theorem TailPolicy.ofByte_eq_some {b : Byte} {x : TailPolicy} : TailPolicy.ofByte b = some x ↔ b = x.byte := by
  cases x <;> revert b <;> decide

theorem TailPolicy.ofByte_eq_none {b : Byte} : TailPolicy.ofByte b = none ↔ 1 < b.toNat := by
  revert b; decide

theorem SumMode.ofByte_eq_none {b : Byte} : SumMode.ofByte b = none ↔ 1 < b.toNat := by
  revert b; decide

theorem RowPolicy.ofByte_eq_none {b : Byte} : RowPolicy.ofByte b = none ↔ 1 < b.toNat := by
  revert b; decide

theorem ReadWidth.ofByte_eq_none {b : Byte} : ReadWidth.ofByte b = none ↔ b ≠ 32 ∧ b ≠ 48 := by
  revert b; decide

/-! ### Numbers of several bytes (R164) -/

theorem bytes16_inj {a b : BitVec 16} : bytes16 a = bytes16 b ↔ a = b := by
  constructor
  · intro h
    simp only [bytes16, List.cons.injEq, and_true] at h
    obtain ⟨h1, h2⟩ := h
    apply BitVec.eq_of_toNat_eq
    have h1 := congrArg BitVec.toNat h1
    have h2 := congrArg BitVec.toNat h2
    simp only [BitVec.extractLsb'_toNat, Nat.shiftRight_eq_div_pow] at h1 h2
    omega
  · rintro rfl
    rfl

theorem bytes32_inj {a b : BitVec 32} : bytes32 a = bytes32 b ↔ a = b := by
  constructor
  · intro h
    simp only [bytes32, List.cons.injEq, and_true] at h
    obtain ⟨h1, h2, h3, h4⟩ := h
    apply BitVec.eq_of_toNat_eq
    have h1 := congrArg BitVec.toNat h1
    have h2 := congrArg BitVec.toNat h2
    have h3 := congrArg BitVec.toNat h3
    have h4 := congrArg BitVec.toNat h4
    simp only [BitVec.extractLsb'_toNat, Nat.shiftRight_eq_div_pow] at h1 h2 h3 h4
    omega
  · rintro rfl
    rfl

theorem natByte_fin {k : Nat} (n : Fin k) (hk : k ≤ 256) {b : Byte} : b = natByte n ↔ n.val = b.toNat := by
  have hn := n.isLt
  constructor
  · rintro rfl
    simp only [natByte, BitVec.toNat_ofNat]
    omega
  · intro h
    apply BitVec.eq_of_toNat_eq
    simp only [natByte, BitVec.toNat_ofNat]
    omega

/-- A padded list has the length it is padded to, when it is not longer already. -/
theorem length_padTo (n : Nat) (l : List Byte) (h : l.length ≤ n) : (padTo n l).length = n := by
  simp only [padTo, List.length_append, List.length_replicate]
  omega

/-- The bits of a lane set are its members, and no others are set. -/
theorem laneSetByte_spec (p : Fin 4 → Bool) :
    (laneSetByte p).toNat < 16 ∧ ∀ n : Fin 4, (laneSetByte p).getLsbD n.val = p n := by
  have key : ∀ a b c d : Bool, (flagsByte [a, b, c, d]).toNat < 16 ∧ (flagsByte [a, b, c, d]).getLsbD 0 = a ∧
      (flagsByte [a, b, c, d]).getLsbD 1 = b ∧ (flagsByte [a, b, c, d]).getLsbD 2 = c ∧
      (flagsByte [a, b, c, d]).getLsbD 3 = d := by decide
  obtain ⟨h, h0, h1, h2, h3⟩ := key (p 0) (p 1) (p 2) (p 3)
  refine ⟨h, fun n => ?_⟩
  match n with
  | 0 => exact h0
  | 1 => exact h1
  | 2 => exact h2
  | 3 => exact h3

/-! ### Settings and table entries -/

/-- Settings as carried are read as the settings they spell (section 10.6.7). -/
theorem Settings.ofRaw_of_codes {r : RawSettings} {x : Settings} (h1 : r.enabled = boolByte x.enabled)
    (h2 : r.source = x.source.byte) (h3 : r.rate = x.rate.byte) (h4 : r.parity = x.parity.byte)
    (h5 : x.table.val = r.table.toNat) (h6 : x.plan.val = r.plan.toNat) (h7 : r.idle = x.idle)
    (h8 : r.limit = x.limit) (h9 : r.faultNotices = boolByte x.faultNotices) : Settings.ofRaw r = some x := by
  unfold Settings.ofRaw
  rw [boolOfByte_eq_some.mpr h1, Source.ofByte_eq_some.mpr h2, LineRate.ofByte_eq_some.mpr h3,
    Parity.ofByte_eq_some.mpr h4, finOfByte_eq_some.mpr h5, finOfByte_eq_some.mpr h6, boolOfByte_eq_some.mpr h9, h7, h8]
  rfl

/-- Settings are refused exactly when some code is out of range (R11, check 2). -/
theorem Settings.ofRaw_eq_none {r : RawSettings} : Settings.ofRaw r = none ↔
    ¬(r.enabled.toNat ≤ 1 ∧ r.source.toNat ≤ 1 ∧ r.rate.toNat ≤ 7 ∧ r.parity.toNat ≤ 2 ∧ r.table.toNat ≤ 7 ∧
      r.plan.toNat ≤ 7 ∧ r.faultNotices.toNat ≤ 1) := by
  have e1 := @boolOfByte_eq_none r.enabled
  have e2 := @Source.ofByte_eq_none r.source
  have e3 := @LineRate.ofByte_eq_none r.rate
  have e4 := @Parity.ofByte_eq_none r.parity
  have e5 := @finOfByte_eq_none 8 r.table
  have e6 := @finOfByte_eq_none 8 r.plan
  have e7 := @boolOfByte_eq_none r.faultNotices
  unfold Settings.ofRaw
  cases h1 : boolOfByte r.enabled <;> cases h2 : Source.ofByte r.source <;> cases h3 : LineRate.ofByte r.rate <;>
    cases h4 : Parity.ofByte r.parity <;> cases h5 : finOfByte 8 r.table <;> cases h6 : finOfByte 8 r.plan <;>
    cases h7 : boolOfByte r.faultNotices <;>
    simp only [h1, h2, h3, h4, h5, h6, h7, true_iff, false_iff, reduceCtorEq, Option.bind_eq_bind, Option.bind_some,
      Option.bind_none, Option.pure_def] at * <;> omega

/-- A load's entries are refused exactly when some class code is undefined (R26). -/
theorem tableEntriesOfRaw_eq_none (es : List RawTableEntry) :
    tableEntriesOfRaw es = none ↔ ∃ e ∈ es, 5 < e.classCode.toNat := by
  induction es with
  | nil => simp [tableEntriesOfRaw]
  | cons e es ih =>
    have hc := @ByteClass.ofByte_eq_none e.classCode
    simp only [tableEntriesOfRaw, TableEntry.ofRaw]
    cases h : ByteClass.ofByte e.classCode with
    | none =>
      simp only [h, true_iff] at hc
      simp only [Option.bind_eq_bind, Option.bind_none, true_iff]
      exact ⟨e, List.mem_cons_self .., hc⟩
    | some c =>
      simp only [h, reduceCtorEq, false_iff] at hc
      simp only [Option.bind_eq_bind, Option.bind_some, Option.pure_def]
      cases h2 : tableEntriesOfRaw es with
      | none =>
        rw [h2] at ih
        obtain ⟨f, hf, h5⟩ := ih.mp rfl
        simp only [true_iff]
        exact ⟨f, List.mem_cons_of_mem _ hf, h5⟩
      | some x =>
        rw [h2] at ih
        simp only [reduceCtorEq, false_iff] at ih ⊢
        rintro ⟨f, hf, h5⟩
        rcases List.mem_cons.mp hf with rfl | hf
        · exact hc h5
        · exact ih ⟨f, hf, h5⟩

/-- A load's entries are read one by one, each with its translation and class (R24). -/
theorem tableEntriesOfRaw_eq_some (es : List RawTableEntry) :
    ∀ x : List TableEntry, tableEntriesOfRaw es = some x → x.length = es.length ∧
      ∀ (i : Nat) (e : RawTableEntry), es[i]? = some e → ∃ y : TableEntry, x[i]? = some y ∧ y.translation = e.translation ∧ y.cls.byte = e.classCode := by
  induction es with
  | nil =>
    intro x h
    simp only [tableEntriesOfRaw, Option.some.injEq] at h
    subst h
    simp
  | cons e es ih =>
    intro x
    simp only [tableEntriesOfRaw, TableEntry.ofRaw]
    cases h : ByteClass.ofByte e.classCode with
    | none => simp
    | some c =>
      cases h2 : tableEntriesOfRaw es with
      | none => simp
      | some y =>
        simp only [Option.bind_eq_bind, Option.bind_some, Option.pure_def, Option.some.injEq]
        rintro rfl
        refine ⟨by simp [(ih y h2).1], fun i f hi => ?_⟩
        cases i with
        | zero =>
          simp only [List.getElem?_cons_zero, Option.some.injEq] at hi
          subst hi
          exact ⟨_, rfl, rfl, (ByteClass.ofByte_eq_some.mp h).symm⟩
        | succ i =>
          simp only [List.getElem?_cons_succ] at hi ⊢
          exact (ih y h2).2 i f hi

/-! ### Groups of a request -/

/-- Consecutive groups are the first and those after it (R101, R107). -/
theorem groupsFrom_eq (n first : Nat) : groupsFrom first n = (List.range n).map (fun k => first + k) := by
  induction n generalizing first with
  | zero => rfl
  | succ n ih =>
    rw [groupsFrom, ih, List.range_succ_eq_map, List.map_cons, List.map_map]
    simp only [Nat.add_zero, List.cons.injEq, true_and]
    apply List.map_congr_left
    intro k _
    simp only [Function.comp, Nat.succ_eq_add_one]
    omega

/-- The entries of a table from an index on are those at the indices after it (R32). -/
theorem readEntries_eq (t : List (Nat × TableEntry)) (n first : Nat) :
    readEntries t first n = (List.range n).map (fun j => tableEntry t (first + j)) := by
  induction n generalizing first with
  | zero => rfl
  | succ n ih =>
    rw [readEntries, ih, List.range_succ_eq_map, List.map_cons, List.map_map]
    simp only [Nat.add_zero, List.cons.injEq, true_and]
    apply List.map_congr_left
    intro k _
    simp only [Function.comp, Nat.succ_eq_add_one]
    congr 1
    omega

end Sys2Proof.Machine
end

