-- ==== Sys2Proof/Laws/Plans.lean ====
section
/-! SUPPORT. Parse plans: the depth before each step, where a group ends, which fault the walk of LOAD-PLAN names, and
that the plans it passes are the valid ones. -/

namespace Sys2Proof.Machine

/-! ### Depths -/

/-- What a step adds to the depth. -/
def PlanStep.delta (x : PlanStep) : Int := (if x.opens then 1 else 0) - (if x = .again then 1 else 0)

theorem Plan.depthAt_zero (p : Plan) : p.depthAt 0 = 0 := rfl

theorem Plan.depthAt_succ {p : Plan} {i : Nat} {x : PlanStep} (h : p.steps[i]? = some x) :
    p.depthAt (i + 1) = p.depthAt i + x.delta := by
  have ht : p.steps.take (i + 1) = p.steps.take i ++ [x] := by
    rw [List.take_add_one, h]
    rfl
  simp only [Plan.depthAt, ht, List.countP_append, List.countP_singleton, PlanStep.delta, decide_eq_true_eq]
  split <;> split <;> simp <;> omega

theorem Plan.depthAt_beyond {p : Plan} {i : Nat} (h : p.steps.length ≤ i) : p.depthAt i = p.depthAt p.steps.length := by
  simp only [Plan.depthAt, List.take_of_length_le h, List.take_length]

theorem PlanStep.delta_again : PlanStep.delta .again = -1 := rfl

theorem PlanStep.delta_repeat (n : Byte) : PlanStep.delta (.repeatGroup n) = 1 := rfl

theorem PlanStep.delta_field {x : PlanStep} (h : x.isField = true) : x.delta = 0 := by
  cases x <;> first | rfl | cases h

theorem PlanStep.delta_post (slot : Fin 4) (offset : Fin 8) (a r : Bool) :
    PlanStep.delta (.post slot offset a r) = 0 := rfl

/-- A step that lowers the depth is an AGAIN, and lowers it by 1. -/
theorem PlanStep.delta_neg {x : PlanStep} (h : x.delta < 0) : x = .again := by
  cases x <;> first | rfl | (simp [PlanStep.delta, PlanStep.opens] at h)

/-- Where some number meets a condition, a least one does. -/
theorem exists_least {P : Nat → Prop} (h : ∃ n, P n) : ∃ n, P n ∧ ∀ m, m < n → ¬P m := by
  obtain ⟨n, hn⟩ := h
  induction n using Nat.strongRecOn with
  | ind n ih =>
    by_cases hm : ∃ m, m < n ∧ P m
    · obtain ⟨m, hlt, hp⟩ := hm
      exact ih m hlt hp
    · exact ⟨n, hn, fun m hlt hp => hm ⟨m, hlt, hp⟩⟩

/-- The AGAIN at `j` closes the group that is innermost before step `i`. -/
def Plan.Closes (p : Plan) (i j : Nat) : Prop :=
  i ≤ j ∧ p.steps[j]? = some .again ∧ p.depthAt (j + 1) = p.depthAt i - 1 ∧
    ∀ k : Nat, i ≤ k → k ≤ j → p.depthAt i ≤ p.depthAt k

/-- The search for the end of the group `d` levels out from step `i`. -/
theorem afterAgain_eq (p : Plan) (j : Nat) (hj : p.steps[j]? = some .again) :
    ∀ (m i d : Nat), j = i + m → p.depthAt (j + 1) = p.depthAt i - d - 1 →
      (∀ k : Nat, i ≤ k → k ≤ j → p.depthAt i - d ≤ p.depthAt k) → afterAgain i d (p.steps.drop i) = j + 1 := by
  intro m
  induction m with
  | zero =>
    intro i d hm hd hk
    have hij : j = i := by omega
    subst hij
    have hlt : j < p.steps.length := (List.getElem?_eq_some_iff.mp hj).1
    rw [List.drop_eq_getElem_cons hlt, (List.getElem?_eq_some_iff.mp hj).2]
    have := Plan.depthAt_succ hj
    rw [PlanStep.delta_again] at this
    have hd0 : d = 0 := by omega
    subst hd0
    rfl
  | succ m ih =>
    intro i d hm hd hk
    have hjl : j < p.steps.length := (List.getElem?_eq_some_iff.mp hj).1
    have hlt : i < p.steps.length := by omega
    have hx : p.steps[i]? = some p.steps[i] := List.getElem?_eq_getElem hlt
    rw [List.drop_eq_getElem_cons hlt]
    have hs := Plan.depthAt_succ hx
    have h1 := hk (i + 1) (by omega) (by omega)
    generalize p.steps[i] = x at hs hx
    have go : ∀ d' : Nat, p.depthAt (i + 1) - d' = p.depthAt i - d → afterAgain (i + 1) d' (p.steps.drop (i + 1)) = j + 1 := by
      intro d' hd'
      refine ih (i + 1) d' (by omega) (by omega) (fun k hk1 hk2 => ?_)
      have := hk k (by omega) hk2
      omega
    cases x with
    | again =>
      rw [PlanStep.delta_again] at hs
      match d with
      | 0 => omega
      | d + 1 => exact go d (by omega)
    | repeatGroup n =>
      rw [PlanStep.delta_repeat] at hs
      exact go (d + 1) (by omega)
    | key c => exact go d (by rw [hs]; simp [PlanStep.delta, PlanStep.opens])
    | value c sl f => exact go d (by rw [hs]; simp [PlanStep.delta, PlanStep.opens])
    | skipField => exact go d (by rw [hs]; simp [PlanStep.delta, PlanStep.opens])
    | matchLiteral l o => exact go d (by rw [hs]; simp [PlanStep.delta, PlanStep.opens])
    | post sl o a r => exact go d (by rw [hs]; simp [PlanStep.delta, PlanStep.opens])
    | finish => exact go d (by rw [hs]; simp [PlanStep.delta, PlanStep.opens])

/-- A LEAVE goes to the step after the AGAIN that closes the innermost group (R39, R66). -/
theorem Plan.afterGroup_eq {p : Plan} {i j : Nat} (h : p.Closes i j) : p.afterGroup i = j + 1 := by
  obtain ⟨h1, h2, h3, h4⟩ := h
  refine afterAgain_eq p j h2 (j - i) i 0 (by omega) (by omega) (fun k h5 h6 => ?_)
  have := h4 k h5 h6
  omega

/-- A group open before a step of a valid plan is closed by some AGAIN from there on. -/
theorem Plan.exists_closes {p : Plan} (hp : p.Valid) {i : Nat} (h : 0 < p.depthAt i) : ∃ j : Nat, p.Closes i j := by
  have hi : i < p.steps.length := by
    refine Nat.lt_of_not_le (fun hc => ?_)
    rw [Plan.depthAt_beyond hc, hp.balanced] at h
    omega
  have hex : ∃ j : Nat, i ≤ j ∧ p.depthAt (j + 1) < p.depthAt i := by
    refine ⟨p.steps.length, by omega, ?_⟩
    rw [Plan.depthAt_beyond (by omega), hp.balanced]
    exact h
  obtain ⟨j, ⟨h1, h2⟩, hleast⟩ := exists_least hex
  have hmin : ∀ k, k < j → i ≤ k → p.depthAt i ≤ p.depthAt (k + 1) :=
    fun k hk hik => Int.not_lt.mp (fun hc => hleast k hk ⟨hik, hc⟩)
  have hge : ∀ k, i ≤ k → k ≤ j → p.depthAt i ≤ p.depthAt k := by
    intro k hik hkj
    rcases Nat.eq_or_lt_of_le hik with rfl | hlt
    · exact Int.le_refl _
    · have := hmin (k - 1) (by omega) (by omega)
      rwa [Nat.sub_add_cancel (by omega)] at this
  have hjj := hge j h1 (Nat.le_refl _)
  have hjl : j < p.steps.length := by
    refine Nat.lt_of_not_le (fun hc => ?_)
    rw [Plan.depthAt_beyond (i := j + 1) (by omega), ← Plan.depthAt_beyond (i := j) (by omega)] at h2
    omega
  have hs := Plan.depthAt_succ (List.getElem?_eq_getElem hjl)
  have hneg : p.steps[j] = .again := PlanStep.delta_neg (by omega)
  refine ⟨j, h1, ?_, ?_, hge⟩
  · rw [List.getElem?_eq_getElem hjl, hneg]
  · rw [hneg, PlanStep.delta_again] at hs
    omega

/-- A step of a valid plan that is not FINISH has a step after it. -/
theorem Plan.Valid.next_lt {p : Plan} (hp : p.Valid) {i : Nat} {x : PlanStep} (h : p.steps[i]? = some x)
    (hx : x ≠ .finish) : i + 1 < p.steps.length := by
  have hl : i < p.steps.length := (List.getElem?_eq_some_iff.mp h).1
  refine Nat.lt_of_not_le (fun hc => ?_)
  have := (hp.finishLast i).mpr (by omega)
  rw [h] at this
  exact hx (Option.some.inj this)

/-- Where a LEAVE goes in a valid plan: a step one level further out. -/
theorem Plan.Valid.afterGroup_lt {p : Plan} (hp : p.Valid) {i : Nat} (h : 0 < p.depthAt i) :
    p.afterGroup i < p.steps.length ∧ p.depthAt (p.afterGroup i) = p.depthAt i - 1 := by
  obtain ⟨j, hj⟩ := p.exists_closes hp h
  rw [Plan.afterGroup_eq hj]
  exact ⟨hp.next_lt hj.2.1 (by simp), hj.2.2.1⟩

/-! ### Steps as carried -/

/-- The kind code of a step (R36). -/
def PlanStep.kindCode : PlanStep → Byte
  | .key _ => 1
  | .value _ _ _ => 2
  | .skipField => 3
  | .matchLiteral _ _ => 4
  | .repeatGroup _ => 5
  | .again => 6
  | .post _ _ _ _ => 7
  | .finish => 8

/-- What reading a step as carried tells of its bytes, and of its parameters. -/
theorem PlanStep.ofRaw_spec {r : RawStep} {x : PlanStep} (h : PlanStep.ofRaw r = some x) :
    r.kind = x.kindCode ∧ x.InRange ∧ (∀ n, x = .repeatGroup n → r.b1 = n) ∧
    (∀ l o, x = .matchLiteral l o → r.b1 = o.byte) := by
  unfold PlanStep.ofRaw at h
  split at h
  · rename_i hk
    cases hc : Conversion.ofByte r.b1 with
    | none => simp [hc] at h
    | some c =>
      simp only [hc, Option.bind_eq_bind, Option.bind_some, Option.pure_def, Option.some.injEq] at h
      subst h
      exact ⟨hk, trivial, fun _ h => (by cases h), fun _ _ h => (by cases h)⟩
  split at h
  · rename_i hk
    cases hc : Conversion.ofByte r.b1 with
    | none => simp [hc] at h
    | some c =>
      cases hs : finOfByte 4 r.b2 with
      | none => simp [hc, hs] at h
      | some slot =>
        simp only [hc, hs, Option.bind_eq_bind, Option.bind_some, Option.pure_def] at h
        split at h
        · rename_i hf
          simp only [Option.some.injEq] at h
          subst h
          refine ⟨hk, ?_, fun _ h => (by cases h), fun _ _ h => (by cases h)⟩
          rcases hf with ⟨rfl, hf⟩ | hf
          · exact ⟨hf, fun h => absurd rfl h⟩
          · rw [hf]
            exact ⟨by decide, fun _ => rfl⟩
        · cases h
  split at h
  · rename_i hk
    cases h
    exact ⟨hk, trivial, fun _ h => (by cases h), fun _ _ h => (by cases h)⟩
  split at h
  · rename_i hk
    cases hm : OnMiss.ofByte r.b1 with
    | none => simp [hm] at h
    | some m =>
      simp only [hm, Option.bind_eq_bind, Option.bind_some, Option.pure_def] at h
      split at h
      · rename_i hl
        simp only [Option.some.injEq] at h
        subst h
        refine ⟨hk, ?_, fun _ h => (by cases h), ?_⟩
        · simp only [PlanStep.InRange, List.length_take, List.length_cons, List.length_nil]
          omega
        · intro l o h
          injection h with _ h
          subst h
          exact (OnMiss.ofByte_eq_some.mp hm)
      · cases h
  split at h
  · rename_i hk
    cases h
    exact ⟨hk, trivial, fun n h => (by cases h; rfl), fun _ _ h => (by cases h)⟩
  split at h
  · rename_i hk
    cases h
    exact ⟨hk, trivial, fun _ h => (by cases h), fun _ _ h => (by cases h)⟩
  split at h
  · rename_i hk
    cases h1 : finOfByte 4 r.b1 <;> cases h2 : finOfByte 8 r.b2 <;> cases h3 : boolOfByte r.b3 <;>
      cases h4 : boolOfByte r.b4 <;>
      simp only [h1, h2, h3, h4, Option.bind_eq_bind, Option.bind_some, Option.bind_none, Option.pure_def, reduceCtorEq,
        Option.some.injEq] at h
    subst h
    exact ⟨hk, trivial, fun _ h => (by cases h), fun _ _ h => (by cases h)⟩
  split at h
  · rename_i hk
    cases h
    exact ⟨hk, trivial, fun _ h => (by cases h), fun _ _ h => (by cases h)⟩
  · cases h

/-! ### The walk (R48) -/

theorem walkDepth_succ {steps : List RawStep} {i : Nat} {r : RawStep} (h : steps[i]? = some r) :
    walkDepth steps (i + 1) = walkDepth steps i + ((if r.kind = 5 then 1 else 0) - (if r.kind = 6 then 1 else 0)) := by
  have ht : steps.take (i + 1) = steps.take i ++ [r] := by
    rw [List.take_add_one, h]
    rfl
  simp only [walkDepth, ht, List.countP_append, List.countP_singleton, decide_eq_true_eq]
  split <;> split <;> simp <;> omega

theorem kindAt_eq {steps : List RawStep} {i : Nat} {r : RawStep} (h : steps[i]? = some r) : kindAt steps i = r.kind := by
  unfold kindAt
  rw [h]

theorem opensGroupOf_iff {steps : List RawStep} {k i : Nat} : opensGroupOf steps k i = true ↔
    kindAt steps k = 5 ∧ walkDepth steps k + 1 = walkDepth steps i ∧
      ∀ m : Nat, k < m → m ≤ i → walkDepth steps i ≤ walkDepth steps m := by
  simp only [opensGroupOf, Bool.and_eq_true, beq_iff_eq, decide_eq_true_eq, List.all_eq_true, List.mem_range,
    Bool.or_eq_true, and_assoc]
  refine and_congr_right (fun _ => and_congr_right (fun _ => ?_))
  constructor
  · intro h m h1 h2
    rcases h m (by omega) with h3 | h3
    · omega
    · exact h3
  · intro h m h1
    by_cases h2 : m ≤ k
    · exact .inl h2
    · exact .inr (h m (by omega) (by omega))

/-- One REPEAT alone opened the innermost group. -/
theorem opensGroupOf_unique {steps : List RawStep} {k k' i : Nat} (hk : k < i) (hk' : k' < i)
    (h : opensGroupOf steps k i = true) (h' : opensGroupOf steps k' i = true) : k = k' := by
  obtain ⟨-, h1, h2⟩ := opensGroupOf_iff.mp h
  obtain ⟨-, h1', h2'⟩ := opensGroupOf_iff.mp h'
  rcases Nat.lt_trichotomy k k' with hlt | heq | hlt
  · have := h2 k' hlt (by omega)
    omega
  · exact heq
  · have := h2' k hlt (by omega)
    omega

/-- A field step by its kind code. -/
def fieldKind (b : Byte) : Prop := 1 ≤ b.toNat ∧ b.toNat ≤ 4

/-- What the walk knows of a group that stands open before step `i`, with `d` groups open outside it and itself. -/
structure OpenGroup.Knows (g : OpenGroup) (steps : List RawStep) (i : Nat) (d : Int) (k : Nat) : Prop where
  before : k < i
  opens : kindAt steps k = 5
  depth : walkDepth steps k + 1 = d
  inside : ∀ m : Nat, k < m → m ≤ i → d ≤ walkDepth steps m
  endless : g.endless = true ↔ steps[k]?.map RawStep.b1 = some 0
  fieldMet : g.fieldMet = true ↔ ∃ m : Nat, k < m ∧ m < i ∧ fieldKind (kindAt steps m)

/-- The open groups before step `i`, innermost first, are those the steps before it left open. -/
def GroupsKnown (steps : List RawStep) (i : Nat) : List OpenGroup → Prop
  | [] => True
  | g :: outer => (∃ k, g.Knows steps i (outer.length + 1) k) ∧ GroupsKnown steps i outer

theorem GroupsKnown.head {steps : List RawStep} {i : Nat} {g : OpenGroup} {outer : List OpenGroup}
    (h : GroupsKnown steps i (g :: outer)) (hd : walkDepth steps i = ((g :: outer).length : Int)) :
    inEndless steps i = g.endless ∧ fieldInGroup steps i = g.fieldMet := by
  obtain ⟨⟨k, hk⟩, -⟩ := h
  have hd' : walkDepth steps i = (outer.length : Int) + 1 := by
    rw [hd]
    simp
  have ho : opensGroupOf steps k i = true :=
    opensGroupOf_iff.mpr ⟨hk.opens, by rw [hk.depth, hd'], fun m h1 h2 => by rw [hd']; exact hk.inside m h1 h2⟩
  constructor
  · rw [Bool.eq_iff_iff, hk.endless]
    simp only [inEndless, List.any_eq_true, List.mem_range, Bool.and_eq_true, decide_eq_true_eq]
    constructor
    · rintro ⟨k', h1, h2, h3⟩
      rwa [opensGroupOf_unique hk.before h1 ho h2]
    · exact fun h => ⟨k, hk.before, ho, h⟩
  · rw [Bool.eq_iff_iff, hk.fieldMet]
    simp only [fieldInGroup, List.any_eq_true, List.mem_range, Bool.and_eq_true, decide_eq_true_eq]
    constructor
    · rintro ⟨k', h1, h2, m, h3, h4, h5⟩
      rw [opensGroupOf_unique hk.before h1 ho h2]
      exact ⟨m, h4, h3, h5⟩
    · rintro ⟨m, h1, h2, h3⟩
      exact ⟨k, hk.before, ho, m, h2, h1, h3⟩

/-- A step that is no field step leaves what is known of the open groups, as long as the depth does not fall below them. -/
theorem GroupsKnown.pass {steps : List RawStep} {i : Nat} (hf : ¬fieldKind (kindAt steps i)) :
    ∀ groups : List OpenGroup, (groups.length : Int) ≤ walkDepth steps (i + 1) → GroupsKnown steps i groups →
      GroupsKnown steps (i + 1) groups := by
  intro groups
  induction groups with
  | nil => exact fun _ _ => trivial
  | cons g outer ih =>
    intro hd h
    simp only [List.length_cons] at hd
    obtain ⟨⟨k, hk⟩, ho⟩ := h
    refine ⟨⟨k, ⟨by have := hk.before; omega, hk.opens, hk.depth, ?_, hk.endless, ?_⟩⟩, ih (by omega) ho⟩
    · intro m h1 h2
      rcases Nat.eq_or_lt_of_le h2 with rfl | h3
      · push_cast at hd ⊢
        exact hd
      · exact hk.inside m h1 (by omega)
    · rw [hk.fieldMet]
      constructor
      · rintro ⟨m, h1, h2, h3⟩
        exact ⟨m, h1, by omega, h3⟩
      · rintro ⟨m, h1, h2, h3⟩
        refine ⟨m, h1, ?_, h3⟩
        rcases Nat.lt_succ_iff_lt_or_eq.mp h2 with h4 | rfl
        · exact h4
        · exact absurd h3 hf

/-- A field step is noted by every open group. -/
theorem GroupsKnown.note {steps : List RawStep} {i : Nat} (hf : fieldKind (kindAt steps i)) :
    ∀ groups : List OpenGroup, (groups.length : Int) ≤ walkDepth steps (i + 1) → GroupsKnown steps i groups →
      GroupsKnown steps (i + 1) (noteField groups) := by
  intro groups
  induction groups with
  | nil => exact fun _ _ => trivial
  | cons g outer ih =>
    intro hd h
    simp only [List.length_cons] at hd
    obtain ⟨⟨k, hk⟩, ho⟩ := h
    refine ⟨⟨k, ⟨by have := hk.before; omega, hk.opens, ?_, ?_, hk.endless, ?_⟩⟩, ih (by omega) ho⟩
    · rw [hk.depth]
      simp
    · intro m h1 h2
      rcases Nat.eq_or_lt_of_le h2 with rfl | h3
      · simp only [List.length_map]
        push_cast at hd
        exact hd
      · simp only [List.length_map]
        exact hk.inside m h1 (by omega)
    · exact ⟨fun _ => ⟨i, hk.before, by omega, hf⟩, fun _ => rfl⟩

/-- What the walk knows before step `i`. -/
def WalkKnows (steps : List RawStep) (i : Nat) (groups : List OpenGroup) : Prop :=
  walkDepth steps i = (groups.length : Int) ∧ GroupsKnown steps i groups

theorem kindAt_next {steps rest : List RawStep} {i : Nat} {r next : RawStep} (h : steps.drop i = r :: next :: rest) :
    kindAt steps (i + 1) = next.kind := by
  have : steps[i + 1]? = some next := by
    rw [← List.getElem?_drop (xs := steps) (i := i) (j := 1), h]
    rfl
  exact kindAt_eq this

theorem length_of_drop {steps rest : List RawStep} {i : Nat} {r : RawStep} (h : steps.drop i = r :: rest) :
    steps.length = i + 1 + rest.length := by
  have := congrArg List.length h
  simp only [List.length_drop, List.length_cons] at this
  omega

theorem getElem?_of_drop {steps rest : List RawStep} {i : Nat} {r : RawStep} (h : steps.drop i = r :: rest) :
    steps[i]? = some r := by
  have := congrArg (fun l => l[0]?) h
  simpa only [List.getElem?_drop, Nat.add_zero, List.getElem?_cons_zero] using this

theorem last_of_drop {steps rest : List RawStep} {i : Nat} {r : RawStep} (h : steps.drop i = r :: rest) :
    decide (i + 1 = steps.length) = rest.isEmpty := by
  have hlen := length_of_drop h
  cases rest with
  | nil => simp only [hlen, List.length_nil, Nat.add_zero, decide_true, List.isEmpty_nil]
  | cons a l =>
    simp only [hlen, List.length_cons, List.isEmpty_cons, decide_eq_false_iff_not]
    omega

/-- Checks 3 and 4 of a step (R48), against the fault named at that step. -/
theorem walkKind_spec {steps rest : List RawStep} {i : Nat} {r : RawStep} {groups : List OpenGroup} {x : PlanStep}
    (h : steps.drop i = r :: rest) (hw : WalkKnows steps i groups) (hx : PlanStep.ofRaw r = some x) :
    match walkKind groups rest x with
    | .error f => planFaultAt steps i = some f
    | .ok groups' => WalkKnows steps (i + 1) groups' ∧
      planFaultAt steps i = if rest.isEmpty = true ∧ x ≠ .finish then some .noFinish else none := by
  obtain ⟨hd, hg⟩ := hw
  have hr := getElem?_of_drop h
  have hs := walkDepth_succ hr
  have hk := kindAt_eq hr
  have hfault := Eq.refl (planFaultAt steps i)
  conv at hfault =>
    rhs
    unfold planFaultAt
    rw [hr]
  simp only [last_of_drop h] at hfault
  obtain ⟨hkind, -, hrep, hmat⟩ := PlanStep.ofRaw_spec hx
  have pass : ∀ gs : List OpenGroup, ¬fieldKind r.kind → walkDepth steps (i + 1) = gs.length →
      GroupsKnown steps i gs → WalkKnows steps (i + 1) gs := fun gs hf hl hgs =>
    ⟨hl, GroupsKnown.pass (by rwa [hk]) gs (by omega) hgs⟩
  have note : fieldKind r.kind → walkDepth steps (i + 1) = groups.length →
      WalkKnows steps (i + 1) (noteField groups) := fun hf hl =>
    ⟨by simpa [noteField] using hl, GroupsKnown.note (by rwa [hk]) groups (by omega) hg⟩
  have hkd : 1 ≤ r.kind.toNat ∧ r.kind.toNat ≤ 8 := by
    rw [hkind]
    cases x <;> simp [PlanStep.kindCode]
  rw [if_neg (not_not_intro hkd), if_neg (by rw [hx]; simp)] at hfault
  cases x with
  | key c =>
    simp only [PlanStep.kindCode] at hkind
    simp only [hkind] at hfault hs
    simp only [walkKind]
    exact ⟨note (by rw [hkind]; simp [fieldKind]) (by simpa [hd] using hs), by simpa using hfault⟩
  | value c sl f =>
    simp only [PlanStep.kindCode] at hkind
    simp only [hkind] at hfault hs
    simp only [walkKind]
    exact ⟨note (by rw [hkind]; simp [fieldKind]) (by simpa [hd] using hs), by simpa using hfault⟩
  | skipField =>
    simp only [PlanStep.kindCode] at hkind
    simp only [hkind] at hfault hs
    simp only [walkKind]
    exact ⟨note (by rw [hkind]; simp [fieldKind]) (by simpa [hd] using hs), by simpa using hfault⟩
  | post sl o a b =>
    simp only [PlanStep.kindCode] at hkind
    simp only [hkind] at hfault hs
    simp only [walkKind]
    exact ⟨pass groups (by rw [hkind]; simp [fieldKind]) (by simpa [hd] using hs) hg, by simpa using hfault⟩
  | matchLiteral l o =>
    simp only [PlanStep.kindCode] at hkind
    have hb := hmat l o rfl
    simp only [hkind, hb] at hfault hs
    cases o with
    | fault =>
      simp only [walkKind]
      exact ⟨note (by rw [hkind]; simp [fieldKind]) (by simpa [hd] using hs), by simpa [OnMiss.byte] using hfault⟩
    | leave =>
      simp only [walkKind]
      cases groups with
      | nil => simpa [OnMiss.byte, hd] using hfault
      | cons g outer =>
        refine ⟨note (by rw [hkind]; simp [fieldKind]) (by simpa [hd] using hs), ?_⟩
        have hne : ¬((outer.length : Int) + 1 = 0) := by omega
        simpa [OnMiss.byte, hd, hne] using hfault
  | repeatGroup n =>
    simp only [PlanStep.kindCode] at hkind
    have hb := hrep n rfl
    simp only [hkind, hb, hd] at hfault hs
    simp only [walkKind]
    by_cases h4 : 4 ≤ groups.length
    · have : (4 : Int) ≤ groups.length := by omega
      simpa [h4, this] using hfault
    · have h4' : ¬((4 : Int) ≤ groups.length) := by omega
      by_cases hn : n = 0 ∧ groups.length ≠ 0
      · have hne : ¬groups = [] := fun hc => hn.2 (by rw [hc]; rfl)
        simp only [h4, if_false, if_pos hn]
        simpa [h4', hn.1, hne] using hfault
      · have hn' : ¬(n = 0#8 ∧ ¬groups = []) := fun hc => hn ⟨hc.1, fun h0 => hc.2 (List.eq_nil_of_length_eq_zero h0)⟩
        simp only [h4, if_false, if_neg hn]
        refine ⟨⟨by simpa [hd] using hs, ?_, ?_⟩, ?_⟩
        · refine ⟨i, ⟨by omega, by rw [hk, hkind], by rw [hd], ?_, ?_, ?_⟩⟩
          · intro m h1 h2
            have : m = i + 1 := by omega
            subst this
            rw [hs]
            simp
          · rw [hr]
            simp [hb]
          · simp only [Bool.false_eq_true, false_iff]
            rintro ⟨m, h1, h2, -⟩
            omega
        · exact GroupsKnown.pass (by rw [hk, hkind]; simp [fieldKind]) groups (by simp at hs; omega) hg
        · simpa [h4', hn'] using hfault
  | again =>
    simp only [PlanStep.kindCode] at hkind
    simp only [hkind] at hfault hs
    cases groups with
    | nil =>
      simp only [walkKind]
      simpa [hd] using hfault
    | cons g outer =>
      obtain ⟨he, hf⟩ := hg.head hd
      rw [he, hf] at hfault
      have hne : ¬((outer.length : Int) + 1 = 0) := by omega
      have hout : WalkKnows steps (i + 1) outer :=
        pass outer (by rw [hkind]; simp [fieldKind]) (by simp [hd] at hs; omega) hg.2
      simp only [walkKind]
      cases hge : g.endless with
      | false =>
        simp only [Bool.false_eq_true, if_false]
        exact ⟨hout, by simpa [hd, hne, hge] using hfault⟩
      | true =>
        simp only [if_true]
        cases rest with
        | nil =>
          cases hgf : g.fieldMet with
          | false => simpa [hd, hne, hge, hgf] using hfault
          | true =>
            simp only [if_true]
            exact ⟨hout, by simpa [hd, hne, hge, hgf] using hfault⟩
        | cons next more =>
          have hnx := kindAt_next h
          rw [hnx] at hfault
          by_cases h8 : next.kind = 8
          · cases hgf : g.fieldMet with
            | false => simpa [hd, hne, hge, hgf, h8] using hfault
            | true =>
              simp only [h8, ne_eq, not_true_eq_false, if_false, if_true]
              exact ⟨hout, by simpa [hd, hne, hge, hgf, h8] using hfault⟩
          · simp only [ne_eq, h8, not_false_eq_true, if_true]
            have h8' : ¬next.kind = 8#8 := h8
            simpa [hd, hne, hge, h8'] using hfault
  | finish =>
    simp only [PlanStep.kindCode] at hkind
    simp only [hkind] at hfault hs
    simp only [walkKind]
    cases rest with
    | cons next more => simpa using hfault
    | nil =>
      cases groups with
      | nil =>
        exact ⟨pass [] (by rw [hkind]; simp [fieldKind]) (by simpa [hd] using hs) trivial, by simpa [hd] using hfault⟩
      | cons g outer =>
        have hne : ¬((outer.length : Int) + 1 = 0) := by omega
        simpa [hd, hne] using hfault

/-- One step of the walk: it stops at the fault of the step, or goes on with what it then knows. -/
theorem walkSteps_step {steps rest : List RawStep} {i : Nat} {r : RawStep} {groups : List OpenGroup}
    (h : steps.drop i = r :: rest) (hw : WalkKnows steps i groups) :
    (∀ f, planFaultAt steps i = some f → walkSteps i groups (r :: rest) = .error (f, i)) ∧
    (planFaultAt steps i = none → ∃ x groups', PlanStep.ofRaw r = some x ∧ WalkKnows steps (i + 1) groups' ∧
      walkSteps i groups (r :: rest) = match walkSteps (i + 1) groups' rest with
        | .error e => .error e
        | .ok xs => .ok (x :: xs)) := by
  have hr := getElem?_of_drop h
  have hfault := Eq.refl (planFaultAt steps i)
  conv at hfault =>
    rhs
    unfold planFaultAt
    rw [hr]
  by_cases hkd : 1 ≤ r.kind.toNat ∧ r.kind.toNat ≤ 8
  · have hkd' : r.kindDefined = true := decide_eq_true hkd
    cases hx : PlanStep.ofRaw r with
    | none =>
      simp only [if_neg (not_not_intro hkd), hx, if_true] at hfault
      rw [hfault]
      refine ⟨fun f hf => ?_, fun hf => by cases hf⟩
      cases hf
      simp only [walkSteps, hkd', hx, Bool.not_true, Bool.false_eq_true, if_false]
    | some x =>
      have hspec := walkKind_spec h hw hx
      rw [walkSteps]
      simp only [hkd', hx, Bool.not_true, Bool.false_eq_true, if_false]
      cases hwk : walkKind groups rest x with
      | error f =>
        rw [hwk] at hspec
        simp only at hspec
        rw [hspec]
        refine ⟨fun f' hf => ?_, fun hf => by cases hf⟩
        cases hf
        rfl
      | ok groups' =>
        rw [hwk] at hspec
        simp only at hspec
        obtain ⟨h1, h2⟩ := hspec
        rw [h2]
        by_cases hnf : rest.isEmpty = true ∧ x ≠ .finish
        · rw [if_pos hnf]
          refine ⟨fun f' hf => ?_, fun hf => by cases hf⟩
          cases hf
          simp [hnf]
        · rw [if_neg hnf]
          refine ⟨fun f' hf => (by cases hf), fun _ => ⟨x, groups', rfl, h1, ?_⟩⟩
          have : (rest.isEmpty && decide (x ≠ .finish)) = false := by
            rw [Bool.eq_false_iff]
            intro hc
            rw [Bool.and_eq_true, decide_eq_true_eq] at hc
            exact hnf hc
          cases hws : walkSteps (i + 1) groups' rest <;> simp only [this, hws, Bool.false_eq_true, if_false]
  · have hkd' : r.kindDefined = false := decide_eq_false hkd
    simp only [if_pos hkd] at hfault
    rw [hfault]
    refine ⟨fun f hf => ?_, fun hf => by cases hf⟩
    cases hf
    simp only [walkSteps, hkd', Bool.not_false, if_true]

theorem planFaultAt_beyond {steps : List RawStep} {i : Nat} (h : steps.length ≤ i) : planFaultAt steps i = none := by
  unfold planFaultAt
  rw [List.getElem?_eq_none h]

/-- The walk from step `i` on: the first fault, or the steps read where there is none. -/
theorem walkSteps_spec (steps : List RawStep) : ∀ (rest : List RawStep) (i : Nat) (groups : List OpenGroup),
    steps.drop i = rest → WalkKnows steps i groups →
    (∀ f k, walkSteps i groups rest = .error (f, k) ↔
      i ≤ k ∧ planFaultAt steps k = some f ∧ ∀ j, i ≤ j → j < k → planFaultAt steps j = none) ∧
    (∀ xs, walkSteps i groups rest = .ok xs ↔
      (∀ j, i ≤ j → planFaultAt steps j = none) ∧ rest.map PlanStep.ofRaw = xs.map some) := by
  intro rest
  induction rest with
  | nil =>
    intro i groups h _
    have hi : steps.length ≤ i := List.drop_eq_nil_iff.mp h
    simp only [walkSteps, reduceCtorEq, false_iff, Except.ok.injEq, List.map_nil]
    refine ⟨fun f k => ?_, fun xs => ?_⟩
    · rintro ⟨hk, hf, -⟩
      rw [planFaultAt_beyond (Nat.le_trans hi hk)] at hf
      cases hf
    · constructor
      · rintro rfl
        exact ⟨fun j hj => planFaultAt_beyond (Nat.le_trans hi hj), rfl⟩
      · rintro ⟨-, hx⟩
        exact (List.map_eq_nil_iff.mp hx.symm).symm
  | cons r rest ih =>
    intro i groups h hw
    obtain ⟨hfault, hgo⟩ := walkSteps_step h hw
    cases hf : planFaultAt steps i with
    | some f0 =>
      rw [hfault f0 hf]
      simp only [Except.error.injEq, Prod.mk.injEq, reduceCtorEq, false_iff]
      refine ⟨fun f k => ?_, fun xs => ?_⟩
      · constructor
        · rintro ⟨rfl, rfl⟩
          exact ⟨Nat.le_refl _, hf, fun j h1 h2 => by omega⟩
        · rintro ⟨h1, h2, h3⟩
          rcases Nat.eq_or_lt_of_le h1 with rfl | hlt
          · rw [hf] at h2
            exact ⟨Option.some.inj h2, rfl⟩
          · have := h3 i (Nat.le_refl _) hlt
            rw [hf] at this
            cases this
      · rintro ⟨h1, -⟩
        have := h1 i (Nat.le_refl _)
        rw [hf] at this
        cases this
    | none =>
      obtain ⟨x, groups', hx, hw', heq⟩ := hgo hf
      rw [heq]
      have hdrop : steps.drop (i + 1) = rest := by
        rw [← List.drop_drop, h, List.drop_one, List.tail_cons]
      obtain ⟨ih1, ih2⟩ := ih (i + 1) groups' hdrop hw'
      have lift : ∀ P : Nat → Prop, P i → ((∀ j, i ≤ j → P j) ↔ ∀ j, i + 1 ≤ j → P j) := by
        intro P h0
        refine ⟨fun hp j hj => hp j (by omega), fun hp j hj => ?_⟩
        rcases Nat.eq_or_lt_of_le hj with rfl | hlt
        · exact h0
        · exact hp j hlt
      refine ⟨fun f k => ?_, fun xs => ?_⟩
      · have h1 := ih1 f k
        constructor
        · intro hk
          cases hws : walkSteps (i + 1) groups' rest with
          | ok ys => rw [hws] at hk; cases hk
          | error e =>
            rw [hws] at hk h1
            obtain ⟨h2, h3, h4⟩ := h1.mp hk
            exact ⟨by omega, h3, fun j hj hjk => by
              rcases Nat.eq_or_lt_of_le hj with rfl | hlt
              · exact hf
              · exact h4 j hlt hjk⟩
        · rintro ⟨h2, h3, h4⟩
          have hik : i + 1 ≤ k := by
            rcases Nat.eq_or_lt_of_le h2 with rfl | hlt
            · rw [hf] at h3
              cases h3
            · exact hlt
          have := h1.mpr ⟨hik, h3, fun j h5 h6 => h4 j (by omega) h6⟩
          rw [this]
      · rw [lift (fun j => planFaultAt steps j = none) hf]
        cases hws : walkSteps (i + 1) groups' rest with
        | error e =>
          simp only [reduceCtorEq, false_iff]
          rintro ⟨h2, h3⟩
          cases xs with
          | nil => simp at h3
          | cons y ys =>
            simp only [List.map_cons, List.cons.injEq] at h3
            have := (ih2 ys).mpr ⟨h2, h3.2⟩
            rw [hws] at this
            cases this
        | ok ys =>
          simp only [Except.ok.injEq]
          have h1 := (ih2 ys).mp hws
          constructor
          · rintro rfl
            exact ⟨h1.1, by rw [List.map_cons, List.map_cons, hx, h1.2]⟩
          · rintro ⟨h2, h3⟩
            cases xs with
            | nil => simp at h3
            | cons y zs =>
              simp only [List.map_cons, List.cons.injEq, hx, Option.some.injEq] at h3
              have := (ih2 zs).mpr ⟨h2, h3.2⟩
              rw [hws] at this
              rw [h3.1, Except.ok.inj this]

/-! ### The plans that pass (R47) -/

theorem PlanStep.kind_iff {r : RawStep} {x : PlanStep} (h : PlanStep.ofRaw r = some x) :
    (r.kind = 5 ↔ x.opens = true) ∧ (r.kind = 6 ↔ x = .again) ∧ (r.kind = 8 ↔ x = .finish) ∧
    (fieldKind r.kind ↔ x.isField = true) := by
  rw [(PlanStep.ofRaw_spec h).1]
  cases x <;> simp [PlanStep.kindCode, PlanStep.opens, PlanStep.isField, fieldKind]

theorem countP_of_map {P : RawStep → Bool} {Q : PlanStep → Bool}
    (hPQ : ∀ r x, PlanStep.ofRaw r = some x → P r = Q x) :
    ∀ (l : List RawStep) (xs : List PlanStep), l.map PlanStep.ofRaw = xs.map some → l.countP P = xs.countP Q := by
  intro l
  induction l with
  | nil =>
    intro xs h
    rw [List.map_nil] at h
    rw [List.map_eq_nil_iff.mp h.symm]
    rfl
  | cons r l ih =>
    intro xs h
    cases xs with
    | nil => simp at h
    | cons x xs =>
      simp only [List.map_cons, List.cons.injEq] at h
      rw [List.countP_cons, List.countP_cons, ih xs h.2, hPQ r x h.1]

/-- The depth of the walk is the depth in the plan read. -/
theorem walkDepth_eq {steps : List RawStep} {p : Plan} (h : steps.map PlanStep.ofRaw = p.steps.map some) (i : Nat) :
    walkDepth steps i = p.depthAt i := by
  have ht : (steps.take i).map PlanStep.ofRaw = (p.steps.take i).map some := by
    rw [List.map_take, List.map_take, h]
  unfold walkDepth Plan.depthAt
  rw [countP_of_map (Q := PlanStep.opens) (fun r x hx => ?_) _ _ ht,
    countP_of_map (Q := fun x => decide (x = .again)) (fun r x hx => ?_) _ _ ht]
  · rw [decide_eq_decide]
    exact (PlanStep.kind_iff hx).2.1
  · rw [Bool.eq_iff_iff, decide_eq_true_eq]
    exact (PlanStep.kind_iff hx).1

/-- A step as carried and the step read stand at the same index. -/
theorem step_of_map {steps : List RawStep} {p : Plan} (h : steps.map PlanStep.ofRaw = p.steps.map some) (i : Nat) :
    (∀ x, p.steps[i]? = some x → ∃ r, steps[i]? = some r ∧ PlanStep.ofRaw r = some x) ∧
    (∀ r, steps[i]? = some r → ∃ x, p.steps[i]? = some x ∧ PlanStep.ofRaw r = some x) := by
  have hi := congrArg (fun l => l[i]?) h
  simp only [List.getElem?_map] at hi
  refine ⟨fun x hx => ?_, fun r hr => ?_⟩
  · rw [hx] at hi
    cases hr : steps[i]? with
    | none => simp [hr] at hi
    | some r => exact ⟨r, rfl, by simpa [hr] using hi⟩
  · rw [hr] at hi
    cases hx : p.steps[i]? with
    | none => simp [hx] at hi
    | some x => exact ⟨x, rfl, by simpa [hx] using hi⟩

/-- What a step, read as `x`, passes when it has no fault, at the depth before it (R48). -/
def StepPasses (steps : List RawStep) (i : Nat) (depth : Int) (x : PlanStep) : Prop :=
  (x = .finish → i + 1 = steps.length ∧ depth = 0) ∧
  (x.opens = true → depth < 4) ∧ (x = .repeatGroup 0 → depth = 0) ∧
  (x = .again → depth ≠ 0 ∧
    (inEndless steps i = true → (i + 1 < steps.length → kindAt steps (i + 1) = 8) ∧ fieldInGroup steps i = true)) ∧
  (∀ l, x = .matchLiteral l .leave → depth ≠ 0) ∧
  (i + 1 = steps.length → x = .finish)

theorem planFaultAt_none {steps : List RawStep} {i : Nat} {r : RawStep} {x : PlanStep} (hr : steps[i]? = some r)
    (hx : PlanStep.ofRaw r = some x) : planFaultAt steps i = none ↔ StepPasses steps i (walkDepth steps i) x := by
  have hl : i < steps.length := (List.getElem?_eq_some_iff.mp hr).1
  obtain ⟨hkind, -, hrep, hmat⟩ := PlanStep.ofRaw_spec hx
  have hkd : 1 ≤ r.kind.toNat ∧ r.kind.toNat ≤ 8 := by
    rw [hkind]
    cases x <;> simp [PlanStep.kindCode]
  have ite : ∀ (c : Prop) [Decidable c] (f : PlanFault) (e : Option PlanFault),
      (if c then some f else e) = none ↔ ¬c ∧ e = none := by
    intro c _ f e
    split
    · rename_i h
      simp [h]
    · rename_i h
      simp [h]
  unfold planFaultAt StepPasses
  rw [hr]
  simp only [if_neg (not_not_intro hkd), hx, reduceCtorEq, if_false]
  by_cases hlast : i + 1 = steps.length
  · have hlt : ¬i + 1 < steps.length := by omega
    cases x with
    | finish => simp [hkind, PlanStep.kindCode, hlast, PlanStep.opens]
    | key c => simp [hkind, PlanStep.kindCode, hlast, PlanStep.opens]
    | value c s f => simp [hkind, PlanStep.kindCode, hlast, PlanStep.opens]
    | skipField => simp [hkind, PlanStep.kindCode, hlast, PlanStep.opens]
    | post s o a b => simp [hkind, PlanStep.kindCode, hlast, PlanStep.opens]
    | again => simp [hkind, PlanStep.kindCode, hlast, PlanStep.opens, ite]
    | repeatGroup n => simp [hkind, PlanStep.kindCode, hlast, PlanStep.opens, ite]
    | matchLiteral l o => simp [hkind, PlanStep.kindCode, hlast, PlanStep.opens, ite]
  · have hlt : i + 1 < steps.length := by omega
    cases x with
    | finish => simp [hkind, PlanStep.kindCode, hlast, PlanStep.opens]
    | key c => simp [hkind, PlanStep.kindCode, hlast, PlanStep.opens]
    | value c s f => simp [hkind, PlanStep.kindCode, hlast, PlanStep.opens]
    | skipField => simp [hkind, PlanStep.kindCode, hlast, PlanStep.opens]
    | post s o a b => simp [hkind, PlanStep.kindCode, hlast, PlanStep.opens]
    | again =>
      simp [hkind, PlanStep.kindCode, hlast, hlt, PlanStep.opens, ite]
      exact fun _ => ⟨fun h e => ⟨h.1 e, h.2 e⟩, fun h => ⟨fun e => (h e).1, fun e => (h e).2⟩⟩
    | repeatGroup n =>
      simp [hkind, hrep n rfl, PlanStep.kindCode, hlast, PlanStep.opens, ite]
    | matchLiteral l o =>
      have hb := hmat l o rfl
      cases o <;> simp [hkind, hb, OnMiss.byte, PlanStep.kindCode, hlast, PlanStep.opens, ite]

/-- The plan read from steps in which no step fails its checks is valid (R47, R48). -/
theorem valid_of_noFault {steps : List RawStep} {p : Plan} (h : steps.map PlanStep.ofRaw = p.steps.map some)
    (hsize : 1 ≤ steps.length ∧ steps.length ≤ 18) (hf : ∀ i, planFaultAt steps i = none) : p.Valid := by
  have hlen : steps.length = p.steps.length := by simpa using congrArg List.length h
  have hdep := walkDepth_eq h
  have checks : ∀ {i : Nat} {x : PlanStep}, p.steps[i]? = some x → StepPasses steps i (p.depthAt i) x := by
    intro i x hx
    obtain ⟨r, hr, hrx⟩ := (step_of_map h i).1 x hx
    have := (planFaultAt_none hr hrx).mp (hf i)
    rwa [hdep] at this
  have succ : ∀ {i : Nat} {x : PlanStep}, p.steps[i]? = some x → p.depthAt (i + 1) = p.depthAt i + x.delta :=
    fun hx => Plan.depthAt_succ hx
  have nonneg : ∀ i, 0 ≤ p.depthAt i := by
    intro i
    induction i with
    | zero => exact Int.le_refl _
    | succ i ih =>
      cases hx : p.steps[i]? with
      | none =>
        have := List.getElem?_eq_none_iff.mp hx
        rw [Plan.depthAt_beyond (by omega), ← Plan.depthAt_beyond this]
        exact ih
      | some x =>
        rw [succ hx]
        by_cases hd : x.delta < 0
        · have hxa := PlanStep.delta_neg hd
          have := ((checks hx).2.2.2.1 hxa).1
          rw [hxa, PlanStep.delta_again]
          omega
        · omega
  have delta_le : ∀ x : PlanStep, x.delta ≤ 1 ∧ (x.opens = false → x.delta ≤ 0) := by
    intro x
    cases x <;> simp [PlanStep.delta, PlanStep.opens]
  have bounded : ∀ i, p.depthAt i ≤ 4 := by
    intro i
    induction i with
    | zero => exact (by decide : (0 : Int) ≤ 4)
    | succ i ih =>
      cases hx : p.steps[i]? with
      | none =>
        have := List.getElem?_eq_none_iff.mp hx
        rw [Plan.depthAt_beyond (by omega), ← Plan.depthAt_beyond this]
        exact ih
      | some x =>
        rw [succ hx]
        have := delta_le x
        cases ho : x.opens with
        | true =>
          have := (checks hx).2.1 ho
          omega
        | false =>
          have := this.2 ho
          omega
  have lastStep : ∀ i, i + 1 = p.steps.length → p.steps[i]? = some .finish ∧ p.depthAt i = 0 := by
    intro i hi
    have hlt : i < p.steps.length := by omega
    have hx := List.getElem?_eq_getElem hlt
    have hxf := (checks hx).2.2.2.2.2 (by omega)
    rw [hxf] at hx
    exact ⟨hx, ((checks hx).1 rfl).2⟩
  have balanced : p.depthAt p.steps.length = 0 := by
    have hl : (p.steps.length - 1) + 1 = p.steps.length := by omega
    obtain ⟨h1, h2⟩ := lastStep _ hl
    have := succ h1
    rw [hl, h2] at this
    simpa [PlanStep.delta, PlanStep.opens] using this
  have inRange : ∀ x ∈ p.steps, x.InRange := by
    intro x hx
    obtain ⟨i, hi⟩ := List.getElem?_of_mem hx
    obtain ⟨r, -, hrx⟩ := (step_of_map h i).1 x hi
    exact (PlanStep.ofRaw_spec hrx).2.1
  refine ⟨by omega, inRange, fun i => ⟨fun hx => hlen ▸ ((checks hx).1 rfl).1, fun hi => (lastStep i hi).1⟩, nonneg, bounded,
    balanced, fun i l hx => ?_, fun i hx => ?_⟩
  · have := (checks hx).2.2.2.2.1 l rfl
    have := nonneg i
    omega
  · have h0 : p.depthAt i = 0 := (checks hx).2.2.1 rfl
    have h1 : p.depthAt (i + 1) = 1 := by
      rw [succ hx, h0]
      rfl
    obtain ⟨j, hj⟩ := exists_least (P := fun j => i + 1 ≤ j ∧ p.depthAt (j + 1) < 1) ⟨p.steps.length, by
      have := (List.getElem?_eq_some_iff.mp hx).1
      refine ⟨by omega, ?_⟩
      rw [Plan.depthAt_beyond (by omega), balanced]
      exact Int.one_pos⟩
    obtain ⟨⟨hij, hj1⟩, hleast⟩ := hj
    have inside : ∀ k, i + 1 ≤ k → k ≤ j → 1 ≤ p.depthAt k := by
      intro k hk hkj
      rcases Nat.eq_or_lt_of_le hk with rfl | hlt
      · omega
      · refine Int.not_lt.mp (fun hc => hleast (k - 1) (by omega) ⟨by omega, ?_⟩)
        rwa [Nat.sub_add_cancel (by omega)]
    have hjd := inside j hij (Nat.le_refl _)
    have hjl : j < p.steps.length := by
      refine Nat.lt_of_not_le (fun hc => ?_)
      rw [Plan.depthAt_beyond hc, balanced] at hjd
      omega
    have hjx := List.getElem?_eq_getElem hjl
    have hjs := succ hjx
    have hja : p.steps[j] = .again := PlanStep.delta_neg (by omega)
    rw [hja] at hjx hjs
    rw [PlanStep.delta_again] at hjs
    obtain ⟨r, hr, hrx⟩ := (step_of_map h i).1 _ hx
    have hopen : opensGroupOf steps i j = true := by
      refine opensGroupOf_iff.mpr ⟨?_, ?_, fun m h2 h3 => ?_⟩
      · rw [kindAt_eq hr]
        exact (PlanStep.ofRaw_spec hrx).1
      · rw [hdep, hdep]
        omega
      · rw [hdep, hdep]
        have := inside m (by omega) h3
        omega
    have hend : inEndless steps j = true := by
      simp only [inEndless, List.any_eq_true, List.mem_range, Bool.and_eq_true, decide_eq_true_eq]
      refine ⟨i, by omega, hopen, ?_⟩
      rw [hr, Option.map_some, (PlanStep.ofRaw_spec hrx).2.2.1 0 rfl]
    obtain ⟨hnext, hfield⟩ := ((checks hjx).2.2.2.1 rfl).2 hend
    have hj2 : j + 2 = p.steps.length := by
      have hne : j + 1 ≠ p.steps.length := fun hc => by
        have := (lastStep j hc).1
        rw [hjx] at this
        cases this
      have h8 := hnext (by omega)
      have hy := List.getElem?_eq_getElem (l := p.steps) (i := j + 1) (by omega)
      obtain ⟨r', hr', hrx'⟩ := (step_of_map h (j + 1)).1 _ hy
      rw [kindAt_eq hr'] at h8
      have := (PlanStep.kind_iff hrx').2.2.1.mp h8
      rw [this] at hy
      have := ((checks hy).1 rfl).1
      omega
    refine ⟨h0, ?_, fun k h2 h3 => ?_, ?_⟩
    · rw [← hj2]
      exact hjx
    · have := inside k (by omega) (by omega)
      omega
    · simp only [fieldInGroup, List.any_eq_true, List.mem_range, Bool.and_eq_true, decide_eq_true_eq] at hfield
      obtain ⟨k, hk, hko, m, hm, hkm, hmf⟩ := hfield
      rw [opensGroupOf_unique hk (by omega) hko hopen] at hkm
      have hml : m < p.steps.length := by omega
      have hmx := List.getElem?_eq_getElem hml
      obtain ⟨r', hr', hrx'⟩ := (step_of_map h m).1 _ hmx
      rw [kindAt_eq hr'] at hmf
      exact ⟨m, p.steps[m], hkm, by omega, hmx, (PlanStep.kind_iff hrx').2.2.2.mp hmf⟩

/-- No step of a load that spells a valid plan fails its checks (R47, R48). -/
theorem noFault_of_valid {steps : List RawStep} {p : Plan} (h : steps.map PlanStep.ofRaw = p.steps.map some)
    (hp : p.Valid) (i : Nat) : planFaultAt steps i = none := by
  have hlen : steps.length = p.steps.length := by simpa using congrArg List.length h
  have hdep := walkDepth_eq h
  cases hr : steps[i]? with
  | none => exact planFaultAt_beyond (List.getElem?_eq_none_iff.mp hr)
  | some r =>
    obtain ⟨x, hx, hrx⟩ := (step_of_map h i).2 r hr
    have hs := Plan.depthAt_succ hx
    have hil : i < p.steps.length := (List.getElem?_eq_some_iff.mp hx).1
    refine (planFaultAt_none hr hrx).mpr ⟨?_, ?_, ?_, ?_, ?_, ?_⟩
    · rintro rfl
      have hlast := (hp.finishLast i).mp hx
      refine ⟨by omega, ?_⟩
      rw [hdep]
      have := hp.balanced
      rw [← hlast, hs] at this
      simpa [PlanStep.delta, PlanStep.opens] using this
    · intro ho
      rw [hdep]
      have := hp.depthBounded (i + 1)
      have hd : x.delta = 1 := by
        cases x <;> first | rfl | cases ho
      omega
    · rintro rfl
      rw [hdep]
      exact (hp.endless i hx).1
    · rintro rfl
      rw [PlanStep.delta_again] at hs
      have hn := hp.depthNonneg (i + 1)
      rw [hdep]
      refine ⟨by omega, fun he => ?_⟩
      simp only [inEndless, List.any_eq_true, List.mem_range, Bool.and_eq_true, decide_eq_true_eq] at he
      obtain ⟨k, hk, hko, hb⟩ := he
      obtain ⟨h5, hkd, hki⟩ := opensGroupOf_iff.mp hko
      cases hrk : steps[k]? with
      | none => simp [hrk] at hb
      | some rk =>
        obtain ⟨y, hy, hry⟩ := (step_of_map h k).2 rk hrk
        have hyo : y.opens = true := (PlanStep.kind_iff hry).1.mp (by rwa [kindAt_eq hrk] at h5)
        have hy0 : y = .repeatGroup 0 := by
          cases y with
          | repeatGroup n =>
            have := (PlanStep.ofRaw_spec hry).2.2.1 n rfl
            rw [hrk, Option.map_some, this, Option.some.injEq] at hb
            rw [hb]
          | key _ => cases hyo
          | value _ _ _ => cases hyo
          | skipField => cases hyo
          | matchLiteral _ _ => cases hyo
          | again => cases hyo
          | post _ _ _ _ => cases hyo
          | finish => cases hyo
        rw [hy0] at hy
        obtain ⟨e1, e2, e3, m, z, e4, e5, e6, e7⟩ := hp.endless k hy
        rw [hdep, hdep, e1] at hkd
        have hnx := hp.next_lt hx (by simp)
        have hi2 : i = p.steps.length - 2 := by
          have : ¬(i + 1 < p.steps.length - 1) := fun hc => by
            have := e3 (i + 1) (by omega) hc
            omega
          omega
        constructor
        · intro _
          have hfin := (hp.finishLast (i + 1)).mpr (by omega)
          obtain ⟨r', hr', hrx'⟩ := (step_of_map h (i + 1)).1 _ hfin
          rw [kindAt_eq hr']
          exact (PlanStep.ofRaw_spec hrx').1
        · simp only [fieldInGroup, List.any_eq_true, List.mem_range, Bool.and_eq_true, decide_eq_true_eq]
          obtain ⟨r', hr', hrx'⟩ := (step_of_map h m).1 _ e6
          refine ⟨k, hk, hko, m, by omega, e4, ?_⟩
          rw [kindAt_eq hr']
          exact (PlanStep.kind_iff hrx').2.2.2.mpr e7
    · rintro l rfl
      rw [hdep]
      have := hp.leaveInside i l hx
      omega
    · intro hi
      have := (hp.finishLast i).mpr (by omega)
      rw [hx] at this
      exact Option.some.inj this

theorem walkKnows_start (steps : List RawStep) : WalkKnows steps 0 [] := ⟨rfl, trivial⟩

end Sys2Proof.Machine
end

