-- ==== Sys2Proof/Laws/Scan.lean ====
section
/-! SUPPORT. The scan engine: what a run of the cursor, the end of a field and the beginning of a record can do. -/

namespace Sys2Proof.Machine

/-! ### A run of the cursor (R67) -/

/-- What one POST step changes: the pending posts alone, by one (R69, R70). -/
theorem Context.post_ok {env : ScanEnv} {c c' : Context} {slot : Fin 4} {offset : Fin 8} {a r : Bool}
    (h : c.post env slot offset a r = .ok c') : c.posts.length < 16 ∧ ∃ p, c' = { c with posts := c.posts ++ [p] } := by
  have pend : ∀ {p : Pending} {d : Context}, c.pend p = .ok d →
      c.posts.length < 16 ∧ ∃ p, d = { c with posts := c.posts ++ [p] } := by
    intro p d h
    unfold Context.pend at h
    split at h
    · cases h
    · rename_i hl
      injection h with h
      exact ⟨by omega, p, h.symm⟩
  unfold Context.post at h
  split at h
  · split at h
    · exact pend h
    · split at h
      · cases h
      · exact pend h
  · cases h

/-- How a POST step can end its record (R69, R70). -/
theorem Context.post_error {env : ScanEnv} {c : Context} {slot : Fin 4} {offset : Fin 8} {a r : Bool} {o : RecordOutcome}
    (h : c.post env slot offset a r = .error o) :
    o = .short ∨ (c.key ≠ none ∧ (o = .postLimit ∨ o = .unrouted)) := by
  have pend : ∀ {p : Pending}, c.pend p = .error o → o = .postLimit := by
    intro p h
    unfold Context.pend at h
    split at h
    · injection h with h
      exact h.symm
    · cases h
  unfold Context.post at h
  split at h
  · rename_i k v hk hv
    refine .inr ⟨by simp only [hk, ne_eq, reduceCtorEq, not_false_eq_true], ?_⟩
    split at h
    · exact .inl (pend h)
    · split at h
      · injection h with h
        exact .inr h.symm
      · exact .inl (pend h)
  · injection h with h
    exact .inl h.symm

/-- An AGAIN step changes the cursor, the stack and the boundary alone (R68). -/
theorem Context.again_eq (c : Context) :
    c.again = { c with cursor := c.again.cursor, stack := c.again.stack, boundary := c.again.boundary } := by
  unfold Context.again
  split
  · rfl
  · simp only
    split
    · rfl
    · split <;> rfl

/-- A run keeps the state, the field, the length, the key and the slots, and keeps at most 16 pending entries. -/
theorem runCursor_keeps (env : ScanEnv) (fuel : Nat) (c : Context) :
    (runCursor env fuel c).1.state = c.state ∧ (runCursor env fuel c).1.field = c.field ∧
    (runCursor env fuel c).1.length = c.length ∧ (runCursor env fuel c).1.key = c.key ∧
    (runCursor env fuel c).1.slots = c.slots ∧
    (c.posts.length ≤ 16 → (runCursor env fuel c).1.posts.length ≤ 16) := by
  induction fuel generalizing c with
  | zero => exact ⟨rfl, rfl, rfl, rfl, rfl, id⟩
  | succ n ih =>
    unfold runCursor
    split
    · exact ⟨rfl, rfl, rfl, rfl, rfl, id⟩
    · exact ⟨rfl, rfl, rfl, rfl, rfl, id⟩
    · exact ⟨rfl, rfl, rfl, rfl, rfl, id⟩
    · exact ⟨rfl, rfl, rfl, rfl, rfl, id⟩
    · exact ⟨rfl, rfl, rfl, rfl, rfl, id⟩
    · exact ⟨rfl, rfl, rfl, rfl, rfl, id⟩
    · exact ih _
    · have h := ih c.again
      rw [Context.again_eq] at h ⊢
      exact h
    · split
      · exact ⟨rfl, rfl, rfl, rfl, rfl, id⟩
      · rename_i c' hc
        obtain ⟨hl, p, rfl⟩ := Context.post_ok hc
        obtain ⟨h1, h2, h3, h4, h5, h6⟩ := ih { c with posts := c.posts ++ [p], cursor := c.cursor + 1 }
        refine ⟨h1, h2, h3, h4, h5, fun _ => h6 ?_⟩
        simp only [List.length_append, List.length_cons, List.length_nil]
        omega

/-- How a run can end its record: as SHORT, or, where a key is held, as POST-LIMIT or UNROUTED. -/
theorem runCursor_outcome (env : ScanEnv) (fuel : Nat) (c : Context) (o : RecordOutcome)
    (h : (runCursor env fuel c).2 = some o) : o = .short ∨ (c.key ≠ none ∧ (o = .postLimit ∨ o = .unrouted)) := by
  induction fuel generalizing c with
  | zero => cases h
  | succ n ih =>
    unfold runCursor at h
    split at h
    · cases h
    · cases h
    · cases h
    · cases h
    · cases h
    · cases h
    · have hk := ih _ h
      exact hk
    · have hk := ih _ h
      rw [Context.again_eq] at hk
      exact hk
    · split at h
      · rename_i o' ho
        injection h with h
        subst h
        exact Context.post_error ho
      · rename_i c' hc
        obtain ⟨-, p, rfl⟩ := Context.post_ok hc
        have hk := ih _ h
        exact hk

/-! ### The end of a field (R66) -/

/-- How a field step can end its record (R37 to R39). -/
theorem Context.consume_error {env : ScanEnv} {c : Context} {o : RecordOutcome} (h : c.consume env = .error o) :
    o = .convert ∨ o = .mismatch := by
  unfold Context.consume at h
  split at h
  · split at h
    · cases h
    · injection h with h
      exact .inl h.symm
  · split at h
    · cases h
    · injection h with h
      exact .inl h.symm
  · cases h
  · split at h
    · cases h
    · split at h
      · injection h with h
        exact .inr h.symm
      · cases h
  · cases h
  · cases h
  · cases h
  · cases h
  · cases h

/-- What a field step keeps: the state, the length and the pending posts. -/
theorem Context.consume_ok {env : ScanEnv} {c c' : Context} (h : c.consume env = .ok c') :
    c'.state = c.state ∧ c'.length = c.length ∧ c'.posts = c.posts := by
  unfold Context.consume at h
  split at h
  · split at h
    · injection h with h
      subst h
      exact ⟨rfl, rfl, rfl⟩
    · cases h
  · split at h
    · injection h with h
      subst h
      exact ⟨rfl, rfl, rfl⟩
    · cases h
  · injection h with h
    subst h
    exact ⟨rfl, rfl, rfl⟩
  · split at h
    · injection h with h
      subst h
      exact ⟨rfl, rfl, rfl⟩
    · split at h
      · cases h
      · injection h with h
        subst h
        exact ⟨rfl, rfl, rfl⟩
  · injection h with h
    subst h
    exact ⟨rfl, rfl, rfl⟩
  · injection h with h
    subst h
    exact ⟨rfl, rfl, rfl⟩
  · injection h with h
    subst h
    exact ⟨rfl, rfl, rfl⟩
  · injection h with h
    subst h
    exact ⟨rfl, rfl, rfl⟩
  · injection h with h
    subst h
    exact ⟨rfl, rfl, rfl⟩

/-- The end of a field leaves the field empty, the state and the length as they were, and at most 16 pending entries. -/
theorem Context.endField_keeps (env : ScanEnv) (c : Context) :
    (c.endField env).1.field = [] ∧ (c.endField env).1.state = c.state ∧ (c.endField env).1.length = c.length ∧
    (c.posts.length ≤ 16 → (c.endField env).1.posts.length ≤ 16) := by
  unfold Context.endField
  split
  · exact ⟨rfl, rfl, rfl, id⟩
  · split
    · exact ⟨rfl, rfl, rfl, id⟩
    · rename_i c' hc
      obtain ⟨h1, h2, h3⟩ := Context.consume_ok hc
      obtain ⟨k1, k2, k3, -, -, k6⟩ := runCursor_keeps env runFuel { c' with field := [], boundary := false }
      refine ⟨k2, k1.trans h1, k3.trans h2, fun hp => k6 ?_⟩
      rw [h3]
      exact hp

/-- How the end of a field can end its record: as SHORT, or with an outcome that leaves the context in RESYNC (R73). -/
theorem Context.endField_outcome {env : ScanEnv} {c : Context} {o : RecordOutcome} (h : (c.endField env).2 = some o) :
    o = .short ∨ o.stateAfter = .resync := by
  unfold Context.endField at h
  split at h
  · simp only at h
    split at h
    · injection h with h
      subst h
      exact .inr rfl
    · cases h
  · split at h
    · rename_i o' ho
      injection h with h
      subst h
      rcases Context.consume_error ho with rfl | rfl <;> exact .inr rfl
    · rcases runCursor_outcome _ _ _ _ h with rfl | ⟨-, rfl | rfl⟩
      · exact .inl rfl
      · exact .inr rfl
      · exact .inr rfl

/-! ### The beginning of a record (R60) -/

/-- A record that ends while it begins ends as the only one; at a START byte it ends as SHORT (R75). -/
theorem beginRecord_units (env : ScanEnv) (e : TableEntry) :
    (beginRecord env e).2.length ≤ 1 ∧ (e.cls = .start → ∀ u ∈ (beginRecord env e).2, u.outcome = .short) := by
  unfold beginRecord
  split
  · rename_i c o hr
    refine ⟨Nat.le_refl _, fun _ u hu => ?_⟩
    simp only [Context.finish, List.mem_singleton] at hu
    subst hu
    rcases runCursor_outcome _ _ _ _ (show (runCursor env runFuel Context.begun).2 = some o by
      rw [show runCursor env runFuel Context.begun = _ from hr]) with h | ⟨h, -⟩
    · exact h
    · exact absurd rfl h
  · cases hc : e.cls
    · exact ⟨Nat.zero_le _, fun h => by cases h⟩
    · exact ⟨Nat.zero_le _, fun h => by cases h⟩
    · refine ⟨?_, fun h => by cases h⟩
      simp only [settleRecord]
      split
      · exact Nat.zero_le _
      · exact Nat.le_refl _
    · exact ⟨Nat.zero_le _, fun h => by cases h⟩
    · exact ⟨Nat.zero_le _, fun _ u hu => by cases hu⟩
    · exact ⟨Nat.zero_le _, fun h => by cases h⟩

/-- A context left by a record's end keeps its bounds. -/
theorem Context.leave_bounded {c : Context} (st : CtxState) (h : c.field.length ≤ 32) : (c.leave st).Bounded :=
  ⟨Nat.zero_le _, h⟩

/-- The context after a record has begun is within its bounds. -/
theorem beginRecord_bounded (env : ScanEnv) (e : TableEntry) : (beginRecord env e).1.Bounded := by
  have hk := runCursor_keeps env runFuel Context.begun
  obtain ⟨-, h2, -, -, -, h6⟩ := hk
  have h6 := h6 (Nat.zero_le _)
  have h2 : (Context.run env Context.begun).1.field = [] := h2
  have h6 : (Context.run env Context.begun).1.posts.length ≤ 16 := h6
  unfold beginRecord
  generalize Context.run env Context.begun = x at h2 h6
  obtain ⟨c, o⟩ := x
  simp only at h2 h6
  have hf : c.field.length ≤ 32 := by
    rw [h2]
    exact Nat.zero_le _
  split
  · rename_i heq
    injection heq with h1 _
    subst h1
    exact Context.leave_bounded _ hf
  · rename_i heq
    injection heq with h1 _
    subst h1
    split
    · refine ⟨h6, ?_⟩
      simp only [h2, List.nil_append, List.length_cons, List.length_nil]
      omega
    · obtain ⟨k1, -, -, k4⟩ := Context.endField_keeps env c
      have k4 := k4 h6
      have k1' : (c.endField env).1.field.length ≤ 32 := by
        rw [k1]
        exact Nat.zero_le _
      simp only [settleRecord]
      split
      · exact ⟨k4, k1'⟩
      · exact Context.leave_bounded _ k1'
    · exact ⟨h6, hf⟩
    · exact ⟨h6, hf⟩
    · exact ⟨h6, hf⟩
    · exact ⟨h6, hf⟩

/-! ### Entries in RESYNC and AWAIT (R61, R74) -/

theorem inResync_bounded (env : ScanEnv) (c : Context) (e : FifoEntry) (h : c.Bounded) : (inResync env c e).1.Bounded := by
  unfold inResync
  split
  · exact h
  · exact h
  · split
    · exact h
    · exact beginRecord_bounded _ _
    · exact h
    · exact h
    · exact h
    · exact h

/-- In RESYNC at most one record ends, as SHORT. -/
theorem inResync_units (env : ScanEnv) (c : Context) (e : FifoEntry) :
    (inResync env c e).2.length ≤ 1 ∧ ∀ u ∈ (inResync env c e).2, u.outcome = .short := by
  have none : ([] : List FinishedUnit).length ≤ 1 ∧ ∀ u ∈ ([] : List FinishedUnit), u.outcome = .short :=
    ⟨Nat.zero_le _, fun u hu => by cases hu⟩
  unfold inResync
  split
  · exact none
  · exact none
  · split
    · exact none
    · rename_i hc
      exact ⟨(beginRecord_units _ _).1, (beginRecord_units _ _).2 hc⟩
    · exact none
    · exact none
    · exact none
    · exact none

theorem inAwait_bounded (env : ScanEnv) (c : Context) (e : FifoEntry) (h : c.Bounded) : (inAwait env c e).1.Bounded := by
  unfold inAwait
  split
  · exact h
  · exact h
  · split
    · exact beginRecord_bounded _ _
    · split
      · exact h
      · exact beginRecord_bounded _ _
    · split
      · exact h
      · exact beginRecord_bounded _ _
    · exact h
    · exact h
    · exact h

/-- A record's end with an outcome ends at most one record more, as SHORT (R73, R75). -/
theorem faultRecord_units (env : ScanEnv) (c : Context) (o : RecordOutcome) (e : FifoEntry) :
    ∃ us, (faultRecord env c o e).2 = c.unit o :: us ∧ us.length ≤ 1 ∧ ∀ u ∈ us, u.outcome = .short := by
  unfold faultRecord
  cases hs : o.stateAfter
  · exact ⟨[], rfl, Nat.zero_le _, fun u hu => by cases hu⟩
  · exact ⟨[], rfl, Nat.zero_le _, fun u hu => by cases hu⟩
  · exact ⟨_, rfl, (inResync_units _ _ _).1, (inResync_units _ _ _).2⟩

theorem faultRecord_bounded (env : ScanEnv) (c : Context) (o : RecordOutcome) (e : FifoEntry)
    (h : c.field.length ≤ 32) : (faultRecord env c o e).1.Bounded := by
  unfold faultRecord
  cases hs : o.stateAfter
  · exact Context.leave_bounded _ h
  · exact Context.leave_bounded _ h
  · exact inResync_bounded _ _ _ (Context.leave_bounded _ h)

/-! ### An entry (section 4.3) -/

/-- An entry processed leaves the context within its bounds (R59, R64, R70). -/
theorem processEntry_bounded (env : ScanEnv) (c : Context) (e : FifoEntry) (h : c.Bounded) :
    (processEntry env c e).1.Bounded := by
  obtain ⟨hp, hf⟩ := h
  have field : ∀ c' : Context, c'.posts.length ≤ 16 → (c'.endField env).1.Bounded := by
    intro c' hp
    obtain ⟨k1, -, -, k4⟩ := Context.endField_keeps env c'
    refine ⟨k4 hp, ?_⟩
    rw [k1]
    exact Nat.zero_le _
  have ended : ∀ c' : Context, c'.posts.length ≤ 16 → ∀ r, (endFieldBy env c' e).2 = some r → r.1.Bounded := by
    intro c' hp r hr
    have hb := (field c' hp).2
    unfold endFieldBy at hr
    generalize c'.endField env = x at hr hb
    obtain ⟨d, _ | o⟩ := x
    · cases hr
    · injection hr with hr
      subst hr
      exact faultRecord_bounded _ _ _ _ hb
  have goesOn : ∀ c' : Context, c'.posts.length ≤ 16 → (endFieldBy env c' e).1.Bounded := by
    intro c' hp
    have hb := field c' hp
    unfold endFieldBy
    generalize c'.endField env = x at hb ⊢
    obtain ⟨d, _ | o⟩ := x <;> exact hb
  have classed : ∀ (c' : Context) (t : TableEntry), c'.posts.length ≤ 16 → c'.field.length ≤ 32 →
      (byClass env c' t e).1.Bounded := by
    intro c' t hp hf
    unfold byClass
    split
    · split
      · exact faultRecord_bounded _ _ _ _ hf
      · refine ⟨hp, ?_⟩
        simp only [List.length_append, List.length_cons, List.length_nil]
        omega
    · exact ⟨hp, hf⟩
    · have h1 := ended c' hp
      have h2 := goesOn c' hp
      generalize endFieldBy env c' e = x at h1 h2 ⊢
      obtain ⟨d, _ | r⟩ := x
      · exact h2
      · exact h1 r rfl
    · have h1 := ended c' hp
      have h2 := goesOn c' hp
      generalize endFieldBy env c' e = x at h1 h2 ⊢
      obtain ⟨d, _ | r⟩ := x
      · have hd : d.field.length ≤ 32 := h2.2
        simp only [endAtEnd]
        split
        · exact Context.leave_bounded _ hd
        · split
          · split
            · exact Context.leave_bounded _ hd
            · exact Context.leave_bounded _ hd
          · exact Context.leave_bounded _ hd
      · exact h1 r rfl
    · exact beginRecord_bounded _ _
    · exact faultRecord_bounded _ _ _ _ hf
  unfold processEntry
  split
  · exact inAwait_bounded _ _ _ ⟨hp, hf⟩
  · unfold inRecord
    split
    · exact faultRecord_bounded _ _ _ _ hf
    · exact faultRecord_bounded _ _ _ _ hf
    · exact Context.leave_bounded _ hf
    · unfold countByte
      split
      · exact faultRecord_bounded _ _ _ _ hf
      · simp only
        split
        · exact faultRecord_bounded _ _ _ _ hf
        · exact classed _ _ hp hf
  · exact inResync_bounded _ _ _ ⟨hp, hf⟩

end Sys2Proof.Machine
end

