-- ==== Sys2Proof/Laws/Contexts.lean ====
section
/-! SUPPORT. A scan context in a record stands at a step of its lane's plan with one stack entry for each group open there:
kept by every entry processed (R47, R59, R67, R68). -/

namespace Sys2Proof.Machine

variable {env : ScanEnv} {c : Context} {p : Plan}

/-- A context in range that follows a plan. -/
structure Context.Fits (c : Context) (p : Plan) : Prop where
  ranges : c.InRanges
  follows : c.Follows p

/-- What a context must be after an entry: in range, within the length limit, and following its plan while in a record. -/
structure Context.Kept (c : Context) (p : Plan) (limit : Nat) : Prop where
  ranges : c.InRanges
  length : c.length ≤ limit
  follows : c.state = .inRecord → c.Follows p

/-- Only the cursor and the stack matter. -/
theorem Context.Fits.congr {d : Context} (h : c.Fits p) (hc : d.cursor = c.cursor) (hs : d.stack = c.stack) : d.Fits p := by
  obtain ⟨⟨h1, h2, h3⟩, h4, h5, h6⟩ := h
  refine ⟨⟨by rw [hc]; exact h1, by rw [hs]; exact h2, by rw [hs]; exact h3⟩, by rw [hc]; exact h4, ?_, ?_⟩
  · rw [hs, hc]
    exact h5
  · rw [hs]
    exact h6

/-- The cursor moves to a step of the plan at which the same groups are open. -/
theorem Context.Fits.move (hp : p.Valid) (h : c.Fits p) {i : Nat} (hi : i < p.steps.length)
    (hd : p.depthAt i = p.depthAt c.cursor) : ({ c with cursor := i } : Context).Fits p := by
  obtain ⟨⟨-, h2, h3⟩, -, h5, h6⟩ := h
  have := hp.size.2
  exact ⟨⟨by simp only; omega, h2, h3⟩, hi, by simp only [hd]; exact h5, h6⟩

/-- The cursor leaves the innermost group for a step one group further out. -/
theorem Context.Fits.leave (hp : p.Valid) {e : RepEntry} {outer : List RepEntry} (h : c.Fits p) (hs : c.stack = e :: outer)
    {i : Nat} (hi : i < p.steps.length) (hd : p.depthAt i = p.depthAt c.cursor - 1) :
    ({ c with cursor := i, stack := outer } : Context).Fits p := by
  obtain ⟨⟨-, h2, h3⟩, -, h5, h6⟩ := h
  rw [hs] at h2 h3 h5 h6
  simp only [List.length_cons] at h2 h5 h6
  have := hp.size.2
  refine ⟨⟨by simp only; omega, by simp only; omega, fun x hx => h3 x (List.mem_cons_of_mem _ hx)⟩, hi, ?_, ?_⟩
  · simp only [hd]
    omega
  · intro k x hx
    obtain ⟨k1, k2⟩ := h6 (k + 1) x (by simpa using hx)
    exact ⟨k1, by simp only; omega⟩

/-- The cursor returns to the first step of the innermost group, whose entry keeps its first step. -/
theorem Context.Fits.back (hp : p.Valid) {e e' : RepEntry} {outer : List RepEntry} (h : c.Fits p)
    (hs : c.stack = e :: outer) (he : e'.first = e.first) (hr : e'.remaining ≤ 255) (hc : e'.completed ≤ 255) :
    ({ c with cursor := e.first, stack := e' :: outer } : Context).Fits p := by
  obtain ⟨⟨-, h2, h3⟩, -, h5, h6⟩ := h
  rw [hs] at h2 h3 h5 h6
  obtain ⟨k1, k2⟩ := h6 0 e rfl
  have := hp.size.2
  refine ⟨⟨by simp only; omega, h2, ?_⟩, k1, ?_, ?_⟩
  · intro x hx
    rcases List.mem_cons.mp hx with rfl | hx
    · exact ⟨by omega, hr, hc⟩
    · exact h3 x (List.mem_cons_of_mem _ hx)
  · simp only [k2, List.length_cons]
    omega
  · intro k x hx
    cases k with
    | zero =>
      simp only [List.getElem?_cons_zero, Option.some.injEq] at hx
      subst hx
      rw [he]
      exact ⟨k1, k2⟩
    | succ k => exact h6 (k + 1) x (by simpa using hx)

/-- A group is entered (R67). -/
theorem Context.Fits.enter (hp : p.Valid) (h : c.Fits p) {n : Byte} (hs : p.steps[c.cursor]? = some (.repeatGroup n)) :
    (c.repeatGroup n).Fits p := by
  obtain ⟨⟨-, h2, h3⟩, -, h5, h6⟩ := h
  have hlt := hp.next_lt hs (by simp)
  have hd := Plan.depthAt_succ hs
  rw [PlanStep.delta_repeat] at hd
  have := hp.size.2
  have hb := hp.depthBounded (c.cursor + 1)
  have hn := n.isLt
  refine ⟨⟨by simp only [Context.repeatGroup]; omega, ?_, ?_⟩, hlt, ?_, ?_⟩
  · simp only [Context.repeatGroup, List.length_cons]
    omega
  · intro x hx
    rcases List.mem_cons.mp hx with rfl | hx
    · exact ⟨by simp only; omega, by simp only; omega, Nat.zero_le _⟩
    · exact h3 x hx
  · simp only [Context.repeatGroup, List.length_cons]
    omega
  · intro k x hx
    simp only [Context.repeatGroup, List.length_cons] at hx ⊢
    cases k with
    | zero =>
      simp only [List.getElem?_cons_zero, Option.some.injEq] at hx
      subst hx
      exact ⟨hlt, by simp only; omega⟩
    | succ k =>
      obtain ⟨k1, k2⟩ := h6 k x (by simpa using hx)
      exact ⟨k1, by omega⟩

/-- An AGAIN step (R68). -/
theorem Context.Fits.again (hp : p.Valid) (h : c.Fits p) (hs : p.steps[c.cursor]? = some .again) : c.again.Fits p := by
  have hlt := hp.next_lt hs (by simp)
  have hd := Plan.depthAt_succ hs
  rw [PlanStep.delta_again] at hd
  have hn := hp.depthNonneg (c.cursor + 1)
  cases hst : c.stack with
  | nil =>
    have := h.follows.2.1
    rw [hst, List.length_nil] at this
    omega
  | cons e outer =>
    have hr := h.ranges.2.2 e (by rw [hst]; exact List.mem_cons_self ..)
    unfold Context.again
    simp only [hst]
    have hc : (if 255 ≤ e.completed then e.completed else e.completed + 1) ≤ 255 := by split <;> omega
    split
    · exact (h.back hp hst (e' := { e with completed := if 255 ≤ e.completed then e.completed else e.completed + 1 })
        rfl hr.2.1 hc).congr rfl rfl
    · split
      · exact h.leave hp hst hlt (by omega)
      · exact h.back hp hst (e' := { e with
          completed := if 255 ≤ e.completed then e.completed else e.completed + 1, remaining := e.remaining - 1 })
          rfl (by simp only; omega) hc

/-- A run of the cursor (R67). -/
theorem runCursor_fits (hp : env.plan.Valid) (fuel : Nat) (h : c.Fits env.plan) : (runCursor env fuel c).1.Fits env.plan := by
  induction fuel generalizing c with
  | zero => exact h
  | succ n ih =>
    unfold runCursor
    split
    · exact h
    · exact h
    · exact h
    · exact h
    · exact h
    · exact h.congr rfl rfl
    · rename_i hs
      exact ih (h.enter hp hs)
    · rename_i hs
      exact ih (h.again hp hs)
    · rename_i hs
      split
      · exact h
      · rename_i c' hc
        obtain ⟨-, q, rfl⟩ := Context.post_ok hc
        have hd := Plan.depthAt_succ hs
        rw [PlanStep.delta_post] at hd
        exact ih ((h.move hp (hp.next_lt hs (by simp)) (by omega)).congr rfl rfl)

/-- A field step (R37 to R39). -/
theorem Context.consume_fits {c' : Context} (hp : env.plan.Valid) (h : c.Fits env.plan) (hc : c.consume env = .ok c') :
    c'.Fits env.plan := by
  have next : ∀ {x : PlanStep}, env.plan.steps[c.cursor]? = some x → x.isField = true →
      ({ c with cursor := c.cursor + 1 } : Context).Fits env.plan := by
    intro x hs hx
    have hd := Plan.depthAt_succ hs
    rw [PlanStep.delta_field hx] at hd
    exact h.move hp (hp.next_lt hs (by rintro rfl; cases hx)) (by omega)
  unfold Context.consume at hc
  split at hc
  · rename_i hs
    split at hc
    · injection hc with hc
      subst hc
      exact (next hs rfl).congr rfl rfl
    · cases hc
  · rename_i hs
    split at hc
    · injection hc with hc
      subst hc
      exact (next hs rfl).congr rfl rfl
    · cases hc
  · rename_i hs
    injection hc with hc
    subst hc
    exact next hs rfl
  · rename_i hs
    split at hc
    · injection hc with hc
      subst hc
      exact next hs rfl
    · split at hc
      · cases hc
      · injection hc with hc
        subst hc
        have hd := hp.leaveInside _ _ hs
        obtain ⟨h1, h2⟩ := hp.afterGroup_lt hd
        cases hst : c.stack with
        | nil =>
          have := h.follows.2.1
          rw [hst, List.length_nil] at this
          omega
        | cons e outer => exact h.leave hp hst h1 h2
  all_goals
    injection hc with hc
    subst hc
    exact h

/-- The end of a field (R66). -/
theorem Context.endField_fits (hp : env.plan.Valid) (h : c.Fits env.plan) : (c.endField env).1.Fits env.plan := by
  unfold Context.endField
  split
  · exact h.congr rfl rfl
  · split
    · exact h.congr rfl rfl
    · rename_i hc
      exact runCursor_fits hp _ ((Context.consume_fits hp h hc).congr rfl rfl)

/-- The record begins at step 0 with no group open (R60). -/
theorem Context.begun_fits (hp : p.Valid) : Context.begun.Fits p := by
  have := hp.size.1
  refine ⟨⟨Nat.zero_le _, Nat.zero_le _, fun e he => by cases he⟩, this, rfl, fun i e he => ?_⟩
  simp [Context.begun, Context.cleared] at he

/-- A context that fits, left in any state, is kept. -/
theorem Context.Fits.kept {limit : Nat} (h : c.Fits p) (hl : c.length ≤ limit) : c.Kept p limit :=
  ⟨h.ranges, hl, fun _ => h.follows⟩

/-- A context left by the end of its record, outside every record, needs to be in range only. -/
theorem Context.InRanges.keptOutside {limit : Nat} {d : Context} (h : d.InRanges) (hl : d.length ≤ limit)
    (hs : d.state ≠ .inRecord) : d.Kept p limit := ⟨h, hl, fun hx => absurd hx hs⟩

/-- A record that ends leaves its context kept. -/
theorem Context.finish_kept {limit : Nat} (h : c.Fits p) (hl : c.length ≤ limit) (o : RecordOutcome) :
    (c.finish o).1.Kept p limit := Context.Fits.kept (h.congr rfl rfl) hl

theorem beginRecord_kept {limit : Nat} (hp : env.plan.Valid) (hl : 1 ≤ limit) (e : TableEntry) :
    (beginRecord env e).1.Kept env.plan limit := by
  have hf := runCursor_fits hp runFuel (Context.begun_fits hp)
  have hlen := (runCursor_keeps env runFuel Context.begun).2.2.1
  unfold beginRecord Context.run
  generalize runCursor env runFuel Context.begun = x at hf hlen
  obtain ⟨d, o⟩ := x
  have hd : d.length ≤ limit := by
    have : d.length = 1 := hlen
    omega
  cases o with
  | some o => exact Context.finish_kept hf hd o
  | none =>
    simp only
    split
    · exact Context.Fits.kept (c := { d with field := d.field ++ [e.translation] }) (hf.congr rfl rfl) hd
    · have hf' := Context.endField_fits hp hf
      have hk := (Context.endField_keeps env d).2.2.1
      unfold settleRecord
      split
      · exact hf'.kept (by rw [hk]; exact hd)
      · exact Context.finish_kept hf' (by rw [hk]; exact hd) _
    · exact hf.kept hd
    · exact hf.kept hd
    · exact hf.kept hd
    · exact hf.kept hd

theorem inResync_kept {limit : Nat} (hp : env.plan.Valid) (hl : 1 ≤ limit) (h : c.Kept env.plan limit) (e : FifoEntry) :
    (inResync env c e).1.Kept env.plan limit := by
  have awaits : ({ c with state := .await } : Context).Kept env.plan limit :=
    Context.InRanges.keptOutside h.ranges h.length (by simp)
  unfold inResync
  split
  · exact awaits
  · exact h
  · split
    · exact awaits
    · exact beginRecord_kept hp hl _
    · exact h
    · exact h
    · exact h
    · exact h

theorem inAwait_kept {limit : Nat} (hp : env.plan.Valid) (hl : 1 ≤ limit) (h : c.Kept env.plan limit) (e : FifoEntry) :
    (inAwait env c e).1.Kept env.plan limit := by
  unfold inAwait
  split
  · exact h
  · exact h
  · split
    · exact beginRecord_kept hp hl _
    · split
      · exact h
      · exact beginRecord_kept hp hl _
    · split
      · exact h
      · exact beginRecord_kept hp hl _
    · exact h
    · exact h
    · exact h

theorem faultRecord_kept {limit : Nat} (hp : env.plan.Valid) (hl : 1 ≤ limit) (h : c.Fits env.plan) (hc : c.length ≤ limit)
    (o : RecordOutcome) (e : FifoEntry) : (faultRecord env c o e).1.Kept env.plan limit := by
  unfold faultRecord
  split
  · exact inResync_kept hp hl (Context.finish_kept h hc o) e
  · exact Context.finish_kept h hc o
  · exact Context.finish_kept h hc o

/-- A record ended at END (R71). -/
theorem endAtEnd_kept {limit : Nat} (hp : env.plan.Valid) (h : c.Fits env.plan) (hc : c.length ≤ limit) :
    (endAtEnd env c).1.Kept env.plan limit := by
  unfold endAtEnd
  split
  · exact Context.finish_kept h hc _
  · split
    · split
      · rename_i e outer hd
        have hsuf : (e :: outer).Sublist c.stack := by
          rw [← hd]
          exact List.dropWhile_sublist _
        obtain ⟨k, hk⟩ := List.getElem?_of_mem (hsuf.subset (List.mem_cons_self ..))
        obtain ⟨h1, h2⟩ := h.follows.2.2 k e hk
        have hkl := (List.getElem?_eq_some_iff.mp hk).1
        have ha := (hp.afterGroup_lt (i := e.first) (by omega)).1
        have := hp.size.2
        have hol := hsuf.length_le
        rw [List.length_cons] at hol
        have h4 := h.ranges.2.1
        refine Context.InRanges.keptOutside ⟨?_, ?_, ?_⟩ hc (by simp [Context.finish, Context.leave, RecordOutcome.stateAfter])
        · simp only [Context.finish, Context.leave]
          omega
        · simp only [Context.finish, Context.leave]
          omega
        · intro x hx
          exact h.ranges.2.2 x (hsuf.subset (List.mem_cons_of_mem _ hx))
      · exact Context.finish_kept (c := { c with complete := true }) (h.congr rfl rfl) hc _
    · exact Context.finish_kept h hc _

/-- An entry processed keeps its context in range, within the length limit, and following its plan (R47, R59, R63). -/
theorem processEntry_kept (hp : env.plan.Valid) (hl : 1 ≤ env.limit) (h : c.Kept env.plan env.limit) (e : FifoEntry) :
    (processEntry env c e).1.Kept env.plan env.limit := by
  unfold processEntry
  split
  · exact inAwait_kept hp hl h e
  · rename_i hst
    have hf : c.Fits env.plan := ⟨h.ranges, h.follows hst⟩
    have field : ∀ d : Context, d.Fits env.plan → d.length ≤ env.limit →
        (∀ r, (endFieldBy env d e).2 = some r → r.1.Kept env.plan env.limit) ∧
        ((endFieldBy env d e).1.Fits env.plan ∧ (endFieldBy env d e).1.length ≤ env.limit) := by
      intro d hd hdl
      have hf' := Context.endField_fits hp hd
      have hk := (Context.endField_keeps env d).2.2.1
      rw [← hk] at hdl
      unfold endFieldBy
      generalize d.endField env = x at hf' hdl
      obtain ⟨x, _ | o⟩ := x
      · exact ⟨fun r hr => (by cases hr), hf', hdl⟩
      · refine ⟨fun r hr => ?_, hf', hdl⟩
        injection hr with hr
        subst hr
        exact faultRecord_kept hp hl hf' hdl _ _
    have classed : ∀ (d : Context) (t : TableEntry), d.Fits env.plan → d.length ≤ env.limit →
        (byClass env d t e).1.Kept env.plan env.limit := by
      intro d t hd hdl
      unfold byClass
      split
      · split
        · exact faultRecord_kept hp hl hd hdl _ _
        · exact Context.Fits.kept (c := { d with field := d.field ++ [t.translation] }) (hd.congr rfl rfl) hdl
      · exact hd.kept hdl
      · obtain ⟨k1, k2, k3⟩ := field d hd hdl
        generalize endFieldBy env d e = x at k1 k2 k3 ⊢
        obtain ⟨x, _ | r⟩ := x
        · exact k2.kept k3
        · exact k1 r rfl
      · obtain ⟨k1, k2, k3⟩ := field d hd hdl
        generalize endFieldBy env d e = x at k1 k2 k3 ⊢
        obtain ⟨x, _ | r⟩ := x
        · exact endAtEnd_kept hp k2 k3
        · exact k1 r rfl
      · exact beginRecord_kept hp hl _
      · exact faultRecord_kept hp hl hd hdl _ _
    unfold inRecord
    split
    · exact faultRecord_kept hp hl hf h.length _ _
    · exact faultRecord_kept hp hl hf h.length _ _
    · exact Context.finish_kept hf h.length _
    · unfold countByte
      split
      · exact faultRecord_kept hp hl hf h.length _ _
      · rename_i hlim
        have hc' : ({ c with length := c.length + 1 } : Context).Fits env.plan := hf.congr rfl rfl
        have hl' : ({ c with length := c.length + 1 } : Context).length ≤ env.limit := by simp only; omega
        simp only
        split
        · exact faultRecord_kept hp hl hc' hl' _ _
        · exact classed _ _ hc' hl'
  · exact inResync_kept hp hl h e

end Sys2Proof.Machine
end

