-- ==== Sys2Proof/Laws/Convert.lean ====
section
/-! SUPPORT. The conversions (section 3.3): which fields DECIMAL, HEX and RAW accept and what number they give. -/

namespace Sys2Proof.Machine

/-! ### DECIMAL (R44) -/

theorem decimalDigit_eq_some {b : Byte} {d : Nat} :
    decimalDigit b = some d ↔ (0x30 ≤ b.toNat ∧ b.toNat ≤ 0x39) ∧ d = b.toNat - 0x30 := by
  unfold decimalDigit
  split
  · rename_i h
    simp only [Option.some.injEq, h, and_self, true_and]
    exact eq_comm
  · rename_i h
    simp only [reduceCtorEq, h, false_and]

theorem decimalDigit_eq_none {b : Byte} : decimalDigit b = none ↔ ¬(0x30 ≤ b.toNat ∧ b.toNat ≤ 0x39) := by
  unfold decimalDigit
  split <;> simp_all

theorem decimalDigit_point : decimalDigit 0x2E = none := rfl

/-- The numbers of decimal digits. -/
def decimalDigits (l : List Byte) : List Nat := l.map (fun d => d.toNat - 0x30)

/-- Every translation is a decimal digit. -/
def AllDecimal (l : List Byte) : Prop := ∀ d ∈ l, 0x30 ≤ d.toNat ∧ d.toNat ≤ 0x39

theorem digitsNumber_append (base : Nat) (a b : List Nat) :
    digitsNumber base (a ++ b) = b.foldl (fun n d => n * base + d) (digitsNumber base a) := by
  unfold digitsNumber
  rw [List.foldl_append]

/-- A run of digits is read into the number. -/
theorem readDecimal_digits (l rest : List Byte) (h : AllDecimal l) (r : DecimalRead) :
    readDecimal r (l ++ rest) = readDecimal
      { number := (decimalDigits l).foldl (fun n d => n * 10 + d) r.number, digits := r.digits + l.length
        fraction := r.fraction.map (· + l.length) } rest := by
  induction l generalizing r with
  | nil =>
    obtain ⟨n, k, _ | f⟩ := r <;> rfl
  | cons b l ih =>
    have hb := h b (List.mem_cons_self ..)
    have hd : decimalDigit b = some (b.toNat - 0x30) := decimalDigit_eq_some.mpr ⟨hb, rfl⟩
    rw [List.cons_append, readDecimal, hd]
    simp only
    rw [ih (fun d hd => h d (List.mem_cons_of_mem _ hd))]
    obtain ⟨n, k, _ | f⟩ := r
    · simp only [decimalDigits, List.map_cons, List.foldl_cons, List.length_cons, Option.map_none, Nat.add_assoc,
        Nat.add_comm 1]
    · simp only [decimalDigits, List.map_cons, List.foldl_cons, List.length_cons, Option.map_some, Nat.add_assoc,
        Nat.add_comm 1]

/-- After the point only digits are read. -/
theorem readDecimal_after (l : List Byte) (r r' : DecimalRead) (k : Nat) (hr : r.fraction = some k)
    (h : readDecimal r l = some r') : AllDecimal l := by
  induction l generalizing r k with
  | nil => exact fun d hd => by cases hd
  | cons b l ih =>
    rw [readDecimal] at h
    cases hd : decimalDigit b with
    | none =>
      rw [hd, hr] at h
      simp at h
    | some d =>
      rw [hd] at h
      simp only at h
      intro c hc
      rcases List.mem_cons.mp hc with rfl | hc
      · exact (decimalDigit_eq_some.mp hd).1
      · exact ih _ (k + 1) (by rw [hr]; rfl) h c hc

/-- What is read is digits, with at most one point. -/
theorem readDecimal_form (l : List Byte) (r r' : DecimalRead) (hr : r.fraction = none) (h : readDecimal r l = some r') :
    ∃ whole fraction, AllDecimal (whole ++ fraction) ∧
      (l = whole ++ 0x2E :: fraction ∨ (fraction = [] ∧ l = whole)) := by
  induction l generalizing r with
  | nil => exact ⟨[], [], fun d hd => (by cases hd), .inr ⟨rfl, rfl⟩⟩
  | cons b l ih =>
    rw [readDecimal] at h
    cases hd : decimalDigit b with
    | none =>
      rw [hd, hr] at h
      simp only at h
      by_cases hp : b = 0x2E
      · rw [if_pos hp] at h
        have := readDecimal_after l _ r' 0 rfl h
        exact ⟨[], l, by simpa using this, .inl (by rw [hp, List.nil_append])⟩
      · rw [if_neg hp] at h
        cases h
    | some d =>
      rw [hd] at h
      simp only at h
      obtain ⟨whole, fraction, h1, h2⟩ := ih _ (by rw [hr]; rfl) h
      refine ⟨b :: whole, fraction, ?_, ?_⟩
      · intro c hc
        rcases List.mem_cons.mp hc with rfl | hc
        · exact (decimalDigit_eq_some.mp hd).1
        · exact h1 c hc
      · rcases h2 with rfl | ⟨rfl, rfl⟩
        · exact .inl rfl
        · exact .inr ⟨rfl, rfl⟩

/-- A field of the form of R44, without a sign, is read as the number it writes. -/
theorem readDecimal_of_form {whole fraction field : List Byte} (hd : AllDecimal (whole ++ fraction))
    (hf : field = whole ++ 0x2E :: fraction ∨ (fraction = [] ∧ field = whole)) :
    ∃ k, readDecimal { number := 0, digits := 0, fraction := none } field = some
        { number := digitsNumber 10 (decimalDigits (whole ++ fraction)), digits := (whole ++ fraction).length, fraction := k } ∧
      k.getD 0 = fraction.length := by
  have hw : AllDecimal whole := fun d h => hd d (List.mem_append_left _ h)
  have hfr : AllDecimal fraction := fun d h => hd d (List.mem_append_right _ h)
  rcases hf with rfl | ⟨rfl, rfl⟩
  · refine ⟨some fraction.length, ?_, rfl⟩
    rw [readDecimal_digits whole _ hw, readDecimal, decimalDigit_point]
    simp only [if_true, Option.map_none]
    have := readDecimal_digits fraction [] hfr
      { number := (decimalDigits whole).foldl (fun n d => n * 10 + d) 0, digits := 0 + whole.length, fraction := some 0 }
    rw [List.append_nil] at this
    rw [this, readDecimal]
    simp only [decimalDigits, List.map_append, digitsNumber_append, List.length_append, Option.map_some, Nat.zero_add]
    rfl
  · refine ⟨none, ?_, rfl⟩
    have := readDecimal_digits field [] hw { number := 0, digits := 0, fraction := none }
    rw [List.append_nil] at this
    rw [this, readDecimal]
    simp only [List.append_nil, Option.map_none, Nat.zero_add]
    rfl

/-- What DECIMAL reads of a field without its sign (R44). -/
theorem decimalMagnitude_eq_some {f n : Nat} {field : List Byte} : decimalMagnitude f field = some n ↔
    ∃ whole fraction, DecimalForm f [] whole fraction field ∧
      n = digitsNumber 10 (decimalDigits (whole ++ fraction)) * 10 ^ (f - fraction.length) := by
  constructor
  · intro h
    unfold decimalMagnitude at h
    cases hr : readDecimal { number := 0, digits := 0, fraction := none } field with
    | none => simp [hr] at h
    | some r =>
      obtain ⟨whole, fraction, h1, h2⟩ := readDecimal_form field _ r rfl hr
      obtain ⟨k, h3, h4⟩ := readDecimal_of_form h1 h2
      rw [h3] at h
      simp only [h4] at h
      split at h
      · cases h
      · rename_i hc
        simp only [Option.some.injEq] at h
        refine ⟨whole, fraction, ⟨.inl rfl, h1, ?_, by omega, h2⟩, h.symm⟩
        intro hnil
        rw [hnil] at hc
        simp at hc
  · rintro ⟨whole, fraction, ⟨-, h1, h2, h3, h4⟩, rfl⟩
    obtain ⟨k, h5, h6⟩ := readDecimal_of_form h1 h4
    unfold decimalMagnitude
    rw [h5]
    simp only [h6]
    rw [if_neg]
    intro hc
    rcases hc with hc | hc
    · exact h2 (List.eq_nil_of_length_eq_zero hc)
    · omega

/-- The form with a sign is the form without it after the sign. -/
theorem DecimalForm.unsigned {f : Nat} {sign whole fraction field : List Byte} (h : DecimalForm f sign whole fraction field) :
    ∃ body, field = sign ++ body ∧ DecimalForm f [] whole fraction body := by
  obtain ⟨-, h1, h2, h3, h4 | ⟨h4, h5⟩⟩ := h
  · exact ⟨whole ++ 0x2E :: fraction, by rw [h4, List.append_assoc], .inl rfl, h1, h2, h3, .inl rfl⟩
  · exact ⟨whole, h5, .inl rfl, h1, h2, h3, .inr ⟨h4, rfl⟩⟩

/-- A field without a sign does not begin with one. -/
theorem DecimalForm.head {f : Nat} {whole fraction body : List Byte} (h : DecimalForm f [] whole fraction body) :
    ∃ b bs, body = b :: bs ∧ b ≠ 0x2D ∧ b ≠ 0x2B := by
  obtain ⟨-, h1, h2, -, h4⟩ := h
  have digit : ∀ b : Byte, 0x30 ≤ b.toNat → b ≠ 0x2D ∧ b ≠ 0x2B := by decide
  cases whole with
  | nil =>
    rcases h4 with rfl | ⟨rfl, rfl⟩
    · exact ⟨0x2E, fraction, rfl, by decide, by decide⟩
    · exact absurd rfl h2
  | cons b l =>
    have hb := digit b (h1 b (List.mem_append_left _ (List.mem_cons_self ..))).1
    rcases h4 with rfl | ⟨rfl, rfl⟩
    · exact ⟨b, l ++ 0x2E :: fraction, rfl, hb⟩
    · exact ⟨b, l, rfl, hb⟩

/-- The number DECIMAL reads (R44). -/
theorem decimalNumber_eq_some {f : Nat} {n : Int} {field : List Byte} : decimalNumber f field = some n ↔
    ∃ sign whole fraction, DecimalForm f sign whole fraction field ∧ n = (if sign = [0x2D] then -1 else 1) *
      ((digitsNumber 10 (decimalDigits (whole ++ fraction)) * 10 ^ (f - fraction.length) : Nat) : Int) := by
  have signed : ∀ {sign whole fraction body : List Byte}, sign = [] ∨ sign = [0x2D] ∨ sign = [0x2B] →
      DecimalForm f [] whole fraction body → DecimalForm f sign whole fraction (sign ++ body) := by
    rintro sign whole fraction body hs ⟨-, h1, h2, h3, h4⟩
    refine ⟨hs, h1, h2, h3, ?_⟩
    rcases h4 with rfl | ⟨rfl, rfl⟩
    · exact .inl (by rw [List.nil_append, List.append_assoc])
    · exact .inr ⟨rfl, rfl⟩
  constructor
  · intro h
    unfold decimalNumber at h
    cases field with
    | nil => cases h
    | cons b bs =>
      simp only at h
      split at h
      · rename_i hb
        cases hm : decimalMagnitude f bs with
        | none => simp [hm] at h
        | some m =>
          obtain ⟨whole, fraction, hf, rfl⟩ := decimalMagnitude_eq_some.mp hm
          refine ⟨[0x2D], whole, fraction, ?_, ?_⟩
          · rw [hb]
            exact signed (.inr (.inl rfl)) hf
          · rw [hm] at h
            simpa using h.symm
      · split at h
        · rename_i hb
          cases hm : decimalMagnitude f bs with
          | none => simp [hm] at h
          | some m =>
            obtain ⟨whole, fraction, hf, rfl⟩ := decimalMagnitude_eq_some.mp hm
            refine ⟨[0x2B], whole, fraction, ?_, ?_⟩
            · rw [hb]
              exact signed (.inr (.inr rfl)) hf
            · rw [hm] at h
              simpa using h.symm
        · cases hm : decimalMagnitude f (b :: bs) with
          | none => simp [hm] at h
          | some m =>
            obtain ⟨whole, fraction, hf, rfl⟩ := decimalMagnitude_eq_some.mp hm
            refine ⟨[], whole, fraction, hf, ?_⟩
            rw [hm] at h
            simpa using h.symm
  · rintro ⟨sign, whole, fraction, hf, rfl⟩
    obtain ⟨body, rfl, hb⟩ := hf.unsigned
    have hm := decimalMagnitude_eq_some.mpr ⟨whole, fraction, hb, rfl⟩
    obtain ⟨b, bs, rfl, h1, h2⟩ := hb.head
    rcases hf.1 with rfl | rfl | rfl
    · simp only [List.nil_append, decimalNumber, if_neg h1, if_neg h2, hm]
      simp
    · simp only [List.cons_append, List.nil_append, decimalNumber, if_true, hm]
      simp
    · simp only [List.cons_append, List.nil_append, decimalNumber, hm]
      simp

/-! ### HEX and RAW (R45, R46) -/

theorem hexDigit_eq_some {b : Byte} {d : Nat} : hexDigit b = some d ↔ IsHexDigit b ∧ d = hexValue b := by
  unfold hexDigit IsHexDigit hexValue
  split
  · rename_i h
    simp only [Option.some.injEq, h, and_self, true_or, true_and, if_true]
    exact eq_comm
  · split
    · rename_i h1 h2
      rw [if_neg (by omega), if_pos h2.2]
      simp only [Option.some.injEq, h2, and_self, true_or, or_true, true_and]
      exact eq_comm
    · split
      · rename_i h1 h2 h3
        rw [if_neg (by omega), if_neg (by omega)]
        simp only [Option.some.injEq, h3, and_self, or_true, true_and]
        exact eq_comm
      · rename_i h1 h2 h3
        simp only [reduceCtorEq, h1, h2, h3, or_self, false_and]

theorem hexNumber_eq (field : List Byte) : ∀ n : Nat,
    ((∀ b ∈ field, IsHexDigit b) →
      hexNumber n field = some ((field.map hexValue).foldl (fun n d => n * 16 + d) n)) ∧
    (¬(∀ b ∈ field, IsHexDigit b) → hexNumber n field = none) := by
  induction field with
  | nil => exact fun n => ⟨fun _ => rfl, fun h => absurd (fun b hb => by cases hb) h⟩
  | cons b l ih =>
    intro n
    simp only [List.forall_mem_cons, hexNumber]
    cases hd : hexDigit b with
    | none =>
      have hb : ¬IsHexDigit b := fun hc => by
        have := hexDigit_eq_some.mpr ⟨hc, rfl⟩
        rw [hd] at this
        cases this
      exact ⟨fun h => absurd h.1 hb, fun _ => rfl⟩
    | some d =>
      obtain ⟨hb, rfl⟩ := hexDigit_eq_some.mp hd
      simp only [hb, true_and, List.map_cons, List.foldl_cons]
      exact ih _

/-- Digits below the base give a number below its power. -/
theorem digitsNumber_lt {base : Nat} (l : List Nat) (h : ∀ d ∈ l, d < base) :
    digitsNumber base l < base ^ l.length := by
  have go : ∀ (l : List Nat) (n : Nat), (∀ d ∈ l, d < base) →
      l.foldl (fun n d => n * base + d) n < (n + 1) * base ^ l.length := by
    intro l
    induction l with
    | nil =>
      intro n _
      simp
    | cons d l ih =>
      intro n h
      have hd := h d (List.mem_cons_self ..)
      have := ih (n * base + d) (fun x hx => h x (List.mem_cons_of_mem _ hx))
      rw [List.foldl_cons, List.length_cons, Nat.pow_succ, Nat.mul_comm (base ^ l.length), ← Nat.mul_assoc]
      refine Nat.lt_of_lt_of_le this (Nat.mul_le_mul_right _ ?_)
      rw [Nat.add_mul]
      omega
  have := go l 0 h
  rwa [Nat.zero_add, Nat.one_mul] at this

theorem hexValue_lt {b : Byte} (h : IsHexDigit b) : hexValue b < 16 := by
  unfold IsHexDigit at h
  unfold hexValue
  split
  · omega
  · split <;> omega

theorem rawNumber_eq (field : List Byte) : rawNumber field = digitsNumber 256 (field.map BitVec.toNat) := by
  unfold rawNumber digitsNumber
  rw [List.foldl_map]

theorem fieldFits_iff {most : Nat} {field : List Byte} :
    fieldFits most field = true ↔ 1 ≤ field.length ∧ field.length ≤ most := by
  simp [fieldFits]

/-! ### The ranges (R43) -/

/-- A key is the number read, where it lies in the key range. -/
theorem convertKey_of_number {c : Conversion} {field : List Byte} {n : Nat} (h : keyNumber c field = some n) :
    (n ≤ 4294967295 → ∃ k : Key, convertKey c field = some k ∧ k.toNat = n) ∧
    (4294967295 < n → convertKey c field = none) := by
  have he : convertKey c field = if n ≤ 4294967295 then some (BitVec.ofNat 32 n) else none := by
    simp only [convertKey, h]
  refine ⟨fun hn => ⟨BitVec.ofNat 32 n, he.trans (if_pos hn), ?_⟩, fun hn => he.trans (if_neg (by omega))⟩
  rw [BitVec.toNat_ofNat]
  omega

theorem convertKey_of_none {c : Conversion} {field : List Byte} (h : keyNumber c field = none) :
    convertKey c field = none := by
  simp only [convertKey, h]

/-- A value is the number read, where it lies in the value range. -/
theorem convertValue_of_number {c : Conversion} {f : Nat} {field : List Byte} {n : Int}
    (h : valueNumber c f field = some n) :
    (-140737488355328 ≤ n ∧ n ≤ 140737488355327 → ∃ v : Value, convertValue c f field = some v ∧ v.toInt = n) ∧
    (n < -140737488355328 ∨ 140737488355327 < n → convertValue c f field = none) := by
  have he : convertValue c f field =
      if -140737488355328 ≤ n ∧ n ≤ 140737488355327 then some (BitVec.ofInt 48 n) else none := by
    simp only [convertValue, h]
  refine ⟨fun hn => ⟨BitVec.ofInt 48 n, he.trans (if_pos hn), ?_⟩, fun hn => he.trans (if_neg (by omega))⟩
  rw [BitVec.toInt_ofInt, Int.bmod_eq_of_le (by omega) (by omega)]

theorem convertValue_of_none {c : Conversion} {f : Nat} {field : List Byte} (h : valueNumber c f field = none) :
    convertValue c f field = none := by
  simp only [convertValue, h]

end Sys2Proof.Machine
end

