-- ==== Sys2Proof/Laws/Lanes.lean ====
section
/-! SUPPORT. Lanes: reading a lane after a change, and the contexts a load discards. -/

namespace Sys2Proof.Machine

/-- A lane replaced is the one read there, and the others are as before. -/
theorem State.lane_putLane (s : State) (n m : Fin 4) (l : Lane) :
    (s.putLane n l).lane m = if n = m then l else s.lane m := by
  simp only [State.lane, State.putLane, Fin.getElem_fin, Vector.getElem_set, Fin.ext_iff]

theorem State.putLane_putLane (s : State) (n : Fin 4) (l k : Lane) :
    (s.putLane n l).putLane n k = s.putLane n k := by
  simp only [State.putLane]
  congr 1
  ext i hi
  simp only [Vector.getElem_set]
  split <;> rfl

/-- Some enabled lane meets a condition. -/
theorem State.someEnabled_iff (s : State) (p : Lane → Bool) :
    s.someEnabled p = true ↔ ∃ n : Fin 4, (s.lane n).settings.enabled = true ∧ p (s.lane n) = true := by
  simp only [State.someEnabled, List.any_eq_true, Bool.and_eq_true]
  constructor
  · rintro ⟨n, -, h⟩
    exact ⟨n, h⟩
  · rintro ⟨n, h⟩
    have mem : ∀ n : Fin 4, n ∈ [0, 1, 2, 3] := by decide
    exact ⟨n, mem n, h⟩

/-- A discard clears the contexts of its set and leaves the rest of every lane (R29, R52). -/
theorem State.lane_discardContexts (s : State) (p : Fin 4 → Bool) (n : Fin 4) :
    (s.discardContexts p).lane n = if p n then { s.lane n with ctx := Context.cleared } else s.lane n := by
  have one : ∀ (t : State) (m : Fin 4), (if p m then t.discardContext m else t).lane n =
      if m = n ∧ p m = true then { t.lane n with ctx := Context.cleared } else t.lane n := by
    intro t m
    by_cases h : p m = true
    · simp only [h, if_true, State.discardContext, State.lane_putLane, and_true]
      by_cases h2 : m = n
      · subst h2
        rfl
      · simp only [h2, if_false]
    · rw [if_neg h, if_neg (fun x => h x.2)]
  simp only [State.discardContexts, List.foldl_cons, List.foldl_nil, one]
  match n with
  | 0 => simp
  | 1 => simp
  | 2 => simp
  | 3 => simp

/-- A discard changes the lanes alone. -/
theorem State.discardContexts_eq (s : State) (p : Fin 4 → Bool) :
    s.discardContexts p = { s with lanes := (s.discardContexts p).lanes } := by
  have one : ∀ (t : State) (m : Fin 4), t = { s with lanes := t.lanes } →
      (if p m then t.discardContext m else t)
        = { s with lanes := (if p m then t.discardContext m else t).lanes } := by
    intro t m h
    split
    · rw [h]
      rfl
    · exact h
  exact one _ 3 (one _ 2 (one _ 1 (one _ 0 rfl)))

/-- The halt-done test changes the engine state, the notices and the overflow flag alone. -/
theorem State.testHaltDone_eq (s : State) :
    s.testHaltDone = { s with
      engine := s.testHaltDone.engine, notices := s.testHaltDone.notices, overflow := s.testHaltDone.overflow } := by
  unfold State.testHaltDone State.notify
  split
  · split <;> rfl
  · rfl

/-- A notice produced changes the notices and the overflow flag alone. -/
theorem State.notify_eq (s : State) (k : NoticeKind) :
    s.notify k = { s with notices := (s.notify k).notices, overflow := (s.notify k).overflow } := by
  unfold State.notify
  split <;> rfl

/-- A notice produced leaves at most 32 notices where there were at most 32 (R148). -/
theorem State.notify_bounded (s : State) (k : NoticeKind) (h : s.notices.length ≤ 32) :
    (s.notify k).notices.length ≤ 32 := by
  unfold State.notify
  split
  · simp only [List.length_append, List.length_cons, List.length_nil]
    omega
  · exact h

end Sys2Proof.Machine
end

