-- ==== Sys2Proof/Laws/Link.lean ====
section
/-! SUPPORT. What the control link does with the bytes of whole frames, and with a request command: the cases of
requestStep, and that a delivery changes the link alone. -/

namespace Sys2Proof.Machine

/-! ### Codes -/

theorem RequestCode.ofByte_byte (c : RequestCode) : RequestCode.ofByte c.byte = some c := by
  cases c <;> decide

/-! ### Bytes change the link alone -/

theorem State.linkByte_link_only (s : State) (v : Byte) (f sp : Bool) :
    s.linkByte v f sp = { s with link := (s.linkByte v f sp).link } := by
  have key : ∀ t : State, t.pending = s.pending → t.porHeld = s.porHeld → t.timeStamp = s.timeStamp →
      t.lanes = s.lanes → t.tables = s.tables → t.plans = s.plans → t.windows = s.windows → t.scan = s.scan →
      t.lastGranted = s.lastGranted → t.taken = s.taken → t.store = s.store → t.engine = s.engine →
      t.notices = s.notices → t.overflow = s.overflow → t = { s with link := t.link } := by
    intro t h1 h2 h3 h4 h5 h6 h7 h8 h9 h10 h11 h12 h13 h14
    cases t
    cases s
    simp_all
  exact key _ (by simp) (by simp) (by simp) (by simp) (by simp) (by simp) (by simp) (by simp) (by simp) (by simp)
    (by simp) (by simp) (by simp) (by simp)

theorem State.linkBytes_link_only (bs : List Byte) (s : State) :
    bs.foldl (fun s b => s.linkByte b false false) s
      = { s with link := (bs.foldl (fun s b => s.linkByte b false false) s).link } := by
  induction bs generalizing s with
  | nil => rfl
  | cons b bs ih =>
    rw [List.foldl_cons, ih]
    generalize (bs.foldl (fun s b => s.linkByte b false false) (s.linkByte b false false)).link = l
    rw [State.linkByte_link_only]

/-- A delivery changes the link alone. -/
theorem State.deliver_link_only (s : State) (r : Request) : s.deliver r = { s with link := (s.deliver r).link } := by
  unfold State.deliver
  split
  · rfl
  · exact State.linkBytes_link_only _ _

/-! ### A frame received in IDLE -/

/-- The link with a byte just taken, gone to a state. -/
def State.linkNow (s : State) (l : LinkState) : State :=
  { s with link := { s.link with state := l, lastByteAt := s.timeStamp } }

variable {s : State}

theorem State.linkByte_idle (ho : s.linkOpen) (hi : s.link.state = .idle) :
    s.linkByte 0xA5 false false = s.linkNow (.receiving none []) := by
  obtain ⟨h1, h2, h3, h4⟩ := ho
  simp [State.linkByte, State.noteBreak, State.takeByte, h1, h2, h3, h4, hi, State.linkTo, State.linkNow]

theorem State.linkOpen_linkNow (ho : s.linkOpen) (l : LinkState) : (s.linkNow l).linkOpen := ho

theorem State.linkByte_receiving (ho : s.linkOpen) (len : Option Byte) (rest : List Byte) (v : Byte) :
    (s.linkNow (.receiving len rest)).linkByte v false false
      = (s.linkNow (.receiving len rest)).receiveByte len rest v false := by
  obtain ⟨h1, h2, h3, h4⟩ := ho
  simp [State.linkByte, State.noteBreak, State.takeByte, State.linkNow, h1, h2, h3, h4]

theorem State.linkByte_length (ho : s.linkOpen) (v : Byte) (hv : lengthByteOk v = true) :
    (s.linkNow (.receiving none [])).linkByte v false false = s.linkNow (.receiving (some v) []) := by
  rw [State.linkByte_receiving ho]
  simp [State.receiveByte, hv, State.linkTo, State.linkNow]

theorem State.linkByte_body (ho : s.linkOpen) (l : Byte) (rest : List Byte) (v : Byte)
    (h : rest.length + 1 ≠ l.toNat + 2) :
    (s.linkNow (.receiving (some l) rest)).linkByte v false false
      = s.linkNow (.receiving (some l) (rest ++ [v])) := by
  rw [State.linkByte_receiving ho]
  simp only [State.receiveByte, List.length_append, List.length_cons, List.length_nil]
  rw [if_neg (by simp), if_neg (by omega)]
  rfl

theorem State.linkByte_last (ho : s.linkOpen) (l : Byte) (rest : List Byte) (v : Byte)
    (h : rest.length + 1 = l.toNat + 2) :
    (s.linkNow (.receiving (some l) rest)).linkByte v false false
      = (s.linkNow (.receiving (some l) rest)).frameComplete l (rest ++ [v]) := by
  rw [State.linkByte_receiving ho]
  simp only [State.receiveByte, List.length_append, List.length_cons, List.length_nil]
  rw [if_neg (by simp), if_pos (by omega)]

/-- The bytes after the length byte, all but the last. -/
theorem State.linkBytes_body (ho : s.linkOpen) (l : Byte) (bs rest : List Byte)
    (h : rest.length + bs.length < l.toNat + 2) :
    bs.foldl (fun s b => s.linkByte b false false) (s.linkNow (.receiving (some l) rest))
      = s.linkNow (.receiving (some l) (rest ++ bs)) := by
  induction bs generalizing rest with
  | nil => simp
  | cons b bs ih =>
    simp only [List.length_cons] at h
    rw [List.foldl_cons, State.linkByte_body ho _ _ _ (by omega), ih _ (by simp; omega)]
    simp

/-- A whole frame received in IDLE is checked (R156). -/
theorem State.linkBytes_frame (ho : s.linkOpen) (hi : s.link.state = .idle) (l : Byte) (hl : lengthByteOk l = true)
    (bs : List Byte) (v : Byte) (h : bs.length + 1 = l.toNat + 2) :
    (0xA5 :: l :: (bs ++ [v])).foldl (fun s b => s.linkByte b false false) s
      = (s.linkNow (.receiving (some l) bs)).frameComplete l (bs ++ [v]) := by
  rw [List.foldl_cons, State.linkByte_idle ho hi, List.foldl_cons, State.linkByte_length ho _ hl, List.foldl_append,
    State.linkBytes_body ho l bs [] (by simp; omega)]
  simp only [List.nil_append, List.foldl_cons, List.foldl_nil]
  exact State.linkByte_last ho l bs v h

theorem Request.length_toNat (r : Request) (hp : r.payload.length ≤ 240) :
    (natByte (r.payload.length + 2)).toNat = r.payload.length + 2 := by
  simp [natByte]
  omega

/-- The frame of a request with at most 240 bytes of payload, received in IDLE, is taken as a request (R157). -/
theorem State.linkBytes_request (ho : s.linkOpen) (hi : s.link.state = .idle) (r : Request)
    (hp : r.payload.length ≤ 240) :
    r.frame.foldl (fun s b => s.linkByte b false false) s
      = if r.code.lengthMatches r.payload.length then s.linkNow (.held r .owner)
        else (s.linkNow .idle).formReply .lengthError r.tag [] false := by
  have hn := Request.length_toNat r hp
  have hl : lengthByteOk (natByte (r.payload.length + 2)) = true := by
    simp [lengthByteOk, hn]
    omega
  generalize hcrc : bytes16 (crc16 (natByte (r.payload.length + 2) :: r.code.byte :: r.tag :: r.payload)) = crc
  have hlen : crc.length = 2 := by
    rw [← hcrc]
    rfl
  obtain ⟨c1, c2, rfl⟩ : ∃ c1 c2, crc = [c1, c2] := by
    match crc, hlen with
    | [a, b], _ => exact ⟨a, b, rfl⟩
  have hf : r.frame = 0xA5 :: natByte (r.payload.length + 2)
      :: ((r.code.byte :: r.tag :: r.payload ++ [c1]) ++ [c2]) := by
    simp only [Request.frame, hcrc]
    simp
  rw [hf, State.linkBytes_frame ho hi _ hl _ _ (by simp [hn])]
  have ht : (r.code.byte :: r.tag :: r.payload ++ [c1] ++ [c2]).take (r.payload.length + 2)
      = r.code.byte :: r.tag :: r.payload := by simp
  have hd : (r.code.byte :: r.tag :: r.payload ++ [c1] ++ [c2]).drop (r.payload.length + 2) = [c1, c2] := by simp
  simp only [State.frameComplete, hn, ht, hd, hcrc, if_true, State.takeRequest, RequestCode.ofByte_byte]
  split
  · simp [State.linkTo, State.linkNow]
  · simp [State.formReply, State.linkNow, State.attnLow]

/-! ### Request commands -/

/-- The link holds the request for its owner: the owner acts. -/
theorem requestStep_held (r : Request) (owner : State → State) (h : s.link.state = .held r .owner) :
    requestStep r owner s = .next (owner s) := by
  simp [requestStep, State.deliver, State.awaitsOwner, h]

/-- The link is IDLE and open: the request is taken, and its owner acts. -/
theorem requestStep_idle (r : Request) (owner : State → State) (ho : s.linkOpen) (hi : s.link.state = .idle)
    (hp : r.payload.length ≤ 240) (hm : r.code.lengthMatches r.payload.length = true) :
    requestStep r owner s = .next (owner (s.linkNow (.held r .owner))) := by
  have hd : s.deliver r = s.linkNow (.held r .owner) := by
    simp only [State.deliver, State.awaitsOwner, hi]
    rw [if_neg (by simp), State.linkBytes_request ho hi r hp, if_pos hm]
  simp [requestStep, hd, State.awaitsOwner, State.linkNow]

/-- The link is IDLE and open, and the payload's length does not match the layout: LENGTH-ERROR (R157). -/
theorem requestStep_lengthError (r : Request) (owner : State → State) (ho : s.linkOpen) (hi : s.link.state = .idle)
    (hp : r.payload.length ≤ 240) (hm : r.code.lengthMatches r.payload.length = false) :
    requestStep r owner s = .next ((s.linkNow .idle).formReply .lengthError r.tag [] false) := by
  have hd : s.deliver r = (s.linkNow .idle).formReply .lengthError r.tag [] false := by
    simp only [State.deliver, State.awaitsOwner, hi]
    rw [if_neg (by simp), State.linkBytes_request ho hi r hp, if_neg (by simp [hm])]
  simp [requestStep, hd, State.awaitsOwner, State.formReply]

/-- Whatever a request command does, it is a delivery, followed by the owner's act or by nothing. -/
theorem requestStep_cases (r : Request) (owner : State → State) (s : State) :
    requestStep r owner s = .next (s.deliver r) ∨
      (s.deliver r).link.state = .held r .owner ∧ requestStep r owner s = .next (owner (s.deliver r)) := by
  unfold requestStep
  simp only [State.awaitsOwner, decide_eq_true_eq]
  split
  · exact .inr ⟨by assumption, rfl⟩
  · exact .inl rfl

/-! ### A frame that reaches a busy link (R160) -/

/-- The discarder takes the bytes of a discarded frame. -/
theorem State.linkBytes_discard (h1 : s.porHeld = false) (h2 : s.link.inBreak = false)
    (h3 : s.link.startupWait = false) (bs : List Byte) (n : Nat) (hn : n = bs.length) (hpos : bs ≠ [])
    (hd : s.link.discarder = .discarding (some n)) :
    bs.foldl (fun s b => s.linkByte b false false) s
      = { s with link := { s.link with discarder := .waiting, lastByteAt := s.timeStamp } } := by
  induction bs generalizing s n with
  | nil => exact absurd rfl hpos
  | cons b bs ih =>
    subst hn
    rw [List.foldl_cons]
    have hb : s.linkByte b false false = { s with link := { s.link with
        discarder := if bs = [] then .waiting else .discarding (some bs.length), lastByteAt := s.timeStamp } } := by
      simp only [State.linkByte, h1, h2, h3, State.noteBreak, State.takeByte, hd, State.discardByte, Bool.or_self,
        Bool.false_eq_true, if_false, Bool.and_self]
      cases bs <;> simp [State.discarderTo]
    rw [hb]
    cases bs with
    | nil => simp
    | cons c cs =>
      refine (ih (s := { s with link := { s.link with
        discarder := .discarding (some (c :: cs).length), lastByteAt := s.timeStamp } }) h1 h2 h3 (c :: cs).length rfl
        (by simp) rfl).trans ?_
      rfl

/-- A whole frame that reaches a link HELD or REPLYING, the discarder waiting, is discarded to its end (R160): the
discarded flag becomes yes, and nothing else but the time of the last byte changes. -/
theorem State.linkBytes_busy (ho : s.linkOpen)
    (hb : (∃ r w, s.link.state = .held r w) ∨ ∃ r, s.link.state = .replying r) (r : Request)
    (hp : r.payload.length ≤ 240) :
    r.frame.foldl (fun s b => s.linkByte b false false) s
      = { s with link := { s.link with discarded := true, lastByteAt := s.timeStamp } } := by
  obtain ⟨h1, h2, h3, h4⟩ := ho
  have hn := Request.length_toNat r hp
  have hl : lengthByteOk (natByte (r.payload.length + 2)) = true := by
    simp [lengthByteOk, hn]
    omega
  have e1 : s.linkByte 0xA5 false false = { s with link :=
      { s.link with discarder := .discarding none, discarded := true, lastByteAt := s.timeStamp } } := by
    rcases hb with ⟨q, w, hb⟩ | ⟨q, hb⟩ <;>
      simp [State.linkByte, h1, h2, h3, State.noteBreak, State.takeByte, h4, hb, State.beginDiscard]
  simp only [Request.frame, List.cons_append, List.foldl_cons]
  rw [e1]
  have e2 : ({ s with link := { s.link with
      discarder := .discarding none, discarded := true, lastByteAt := s.timeStamp } } : State).linkByte
        (natByte (r.payload.length + 2)) false false
      = { s with link := { s.link with
          discarder := .discarding (some (r.payload.length + 4)), discarded := true, lastByteAt := s.timeStamp } } := by
    simp [State.linkByte, h1, h2, h3, State.noteBreak, State.takeByte, State.discardByte, hl, State.discarderTo, hn]
  rw [e2]
  have e3 := State.linkBytes_discard (s := { s with link := { s.link with
      discarder := .discarding (some (r.payload.length + 4)), discarded := true, lastByteAt := s.timeStamp } })
    h1 h2 h3 (r.code.byte :: r.tag :: (r.payload
      ++ bytes16 (crc16 (natByte (r.payload.length + 2) :: r.code.byte :: r.tag :: r.payload))))
    (r.payload.length + 4) (by simp [bytes16]) (by simp) rfl
  simp only [List.foldl_cons] at e3
  rw [e3]
  simp [h4]

/-- A request command that reaches a busy link is discarded (R160). -/
theorem requestStep_busy (r : Request) (owner : State → State) (ho : s.linkOpen)
    (hb : (∃ q w, s.link.state = .held q w) ∨ ∃ q, s.link.state = .replying q)
    (hne : s.link.state ≠ .held r .owner) (hp : r.payload.length ≤ 240) :
    requestStep r owner s
      = .next { s with link := { s.link with discarded := true, lastByteAt := s.timeStamp } } := by
  have hd : s.deliver r = { s with link := { s.link with discarded := true, lastByteAt := s.timeStamp } } := by
    rw [State.deliver, if_neg (by simpa [State.awaitsOwner] using hne), State.linkBytes_busy ho hb r hp]
  simp [requestStep, hd, State.awaitsOwner, hne]

end Sys2Proof.Machine
end

