-- ==== Sys2Proof/Laws/PerInstr.lean ====
section
/-! SUPPORT. The family WfFrame, one lemma for each command: a well-formed request command sends a request whose payload
has at most 240 bytes and matches the request's layout (section 10.5), so that the link takes it whole. -/

namespace Sys2Proof.Laws.WfFrame

open Machine

/-- The request a well-formed command sends fits a frame and matches its layout. -/
def Statement (i : Instr) : Prop :=
  i.wellFormed = true → ∀ r, requestOf i = some r →
    r.payload.length ≤ 240 ∧ r.code.lengthMatches r.payload.length = true

theorem entries_length (es : List RawTableEntry) : (es.map RawTableEntry.bytes).flatten.length = 2 * es.length := by
  induction es with
  | nil => rfl
  | cons e es ih =>
    simp only [List.map_cons, List.flatten_cons, List.length_append, ih, List.length_cons, RawTableEntry.bytes,
      List.length_nil]
    omega

theorem steps_length (xs : List RawStep) : (xs.map RawStep.bytes).flatten.length = 12 * xs.length := by
  induction xs with
  | nil => rfl
  | cons x xs ih =>
    simp only [List.map_cons, List.flatten_cons, List.length_append, ih, List.length_cons, RawStep.bytes,
      List.length_nil]
    omega

theorem identify (tag : Byte) : Statement (.identify tag) := by
  intro _ r h
  obtain rfl := Option.some.inj h
  exact ⟨Nat.le_of_ble_eq_true rfl, rfl⟩

theorem status (tag : Byte) : Statement (.status tag) := by
  intro _ r h
  obtain rfl := Option.some.inj h
  exact ⟨Nat.le_of_ble_eq_true rfl, rfl⟩

theorem start (tag : Byte) : Statement (.start tag) := by
  intro _ r h
  obtain rfl := Option.some.inj h
  exact ⟨Nat.le_of_ble_eq_true rfl, rfl⟩

theorem halt (tag : Byte) : Statement (.halt tag) := by
  intro _ r h
  obtain rfl := Option.some.inj h
  exact ⟨Nat.le_of_ble_eq_true rfl, rfl⟩

theorem reset (tag : Byte) : Statement (.reset tag) := by
  intro _ r h
  obtain rfl := Option.some.inj h
  exact ⟨Nat.le_of_ble_eq_true rfl, rfl⟩

theorem fetchNotices (tag maximum : Byte) : Statement (.fetchNotices tag maximum) := by
  intro _ r h
  obtain rfl := Option.some.inj h
  exact ⟨Nat.le_of_ble_eq_true rfl, rfl⟩

theorem setLane (tag lane : Byte) (settings : RawSettings) : Statement (.setLane tag lane settings) := by
  intro _ r h
  obtain rfl := Option.some.inj h
  exact ⟨Nat.le_of_ble_eq_true rfl, rfl⟩

theorem readLane (tag lane : Byte) : Statement (.readLane tag lane) := by
  intro _ r h
  obtain rfl := Option.some.inj h
  exact ⟨Nat.le_of_ble_eq_true rfl, rfl⟩

theorem feed (tag lane : Byte) (data : List Byte) : Statement (.feed tag lane data) := by
  intro hw r h
  simp only [Instr.wellFormed, decide_eq_true_eq] at hw
  obtain rfl := Option.some.inj h
  simp only [RequestCode.lengthMatches, List.length_cons, decide_eq_true_eq]
  omega

theorem flushLane (tag lane : Byte) : Statement (.flushLane tag lane) := by
  intro _ r h
  obtain rfl := Option.some.inj h
  exact ⟨Nat.le_of_ble_eq_true rfl, rfl⟩

theorem flushTaken : Statement (.flushTaken) := by
  intro _ r h
  cases h

theorem loadTable (tag table first : Byte) (entries : List RawTableEntry) : Statement (.loadTable tag table first entries) := by
  intro hw r h
  simp only [Instr.wellFormed, decide_eq_true_eq] at hw
  obtain rfl := Option.some.inj h
  simp only [RequestCode.lengthMatches, List.length_cons, entries_length, decide_eq_true_eq]
  omega

theorem readTable (tag table first count : Byte) : Statement (.readTable tag table first count) := by
  intro _ r h
  obtain rfl := Option.some.inj h
  exact ⟨Nat.le_of_ble_eq_true rfl, rfl⟩

theorem loadPlan (tag plan startRequired tailPolicy : Byte) (steps : List RawStep) : Statement (.loadPlan tag plan startRequired tailPolicy steps) := by
  intro hw r h
  simp only [Instr.wellFormed, decide_eq_true_eq] at hw
  obtain rfl := Option.some.inj h
  simp only [RequestCode.lengthMatches, List.length_cons, steps_length, decide_eq_true_eq]
  omega

theorem readPlan (tag plan : Byte) : Statement (.readPlan tag plan) := by
  intro _ r h
  obtain rfl := Option.some.inj h
  exact ⟨Nat.le_of_ble_eq_true rfl, rfl⟩

theorem setWindow (tag : Byte) (window : RawWindow) : Statement (.setWindow tag window) := by
  intro _ r h
  obtain rfl := Option.some.inj h
  exact ⟨Nat.le_of_ble_eq_true rfl, rfl⟩

theorem clearWindow (tag index : Byte) : Statement (.clearWindow tag index) := by
  intro _ r h
  obtain rfl := Option.some.inj h
  exact ⟨Nat.le_of_ble_eq_true rfl, rfl⟩

theorem readWindow (tag index : Byte) : Statement (.readWindow tag index) := by
  intro _ r h
  obtain rfl := Option.some.inj h
  exact ⟨Nat.le_of_ble_eq_true rfl, rfl⟩

theorem lookup (tag : Byte) (key : Key) : Statement (.lookup tag key) := by
  intro _ r h
  obtain rfl := Option.some.inj h
  exact ⟨Nat.le_of_ble_eq_true rfl, rfl⟩

theorem configureStore (tag sumMode rowPolicy : Byte) : Statement (.configureStore tag sumMode rowPolicy) := by
  intro _ r h
  obtain rfl := Option.some.inj h
  exact ⟨Nat.le_of_ble_eq_true rfl, rfl⟩

theorem clearStore (tag : Byte) : Statement (.clearStore tag) := by
  intro _ r h
  obtain rfl := Option.some.inj h
  exact ⟨Nat.le_of_ble_eq_true rfl, rfl⟩

theorem readTally (tag : Byte) (first : Group) (count width shift clearAfter : Byte) : Statement (.readTally tag first count width shift clearAfter) := by
  intro _ r h
  obtain rfl := Option.some.inj h
  exact ⟨Nat.le_of_ble_eq_true rfl, rfl⟩

theorem clearTally (tag : Byte) (first : Group) (count : Byte) : Statement (.clearTally tag first count) := by
  intro _ r h
  obtain rfl := Option.some.inj h
  exact ⟨Nat.le_of_ble_eq_true rfl, rfl⟩

theorem clearFlags (tag : Byte) (group : Group) : Statement (.clearFlags tag group) := by
  intro _ r h
  obtain rfl := Option.some.inj h
  exact ⟨Nat.le_of_ble_eq_true rfl, rfl⟩

theorem linkByteReceived (value : Byte) (framingError staysSpace : Bool) : Statement (.linkByteReceived value framingError staysSpace) := by
  intro _ r h
  cases h

theorem frameTimeout : Statement (.frameTimeout) := by
  intro _ r h
  cases h

theorem discardTimeout : Statement (.discardTimeout) := by
  intro _ r h
  cases h

theorem replySent : Statement (.replySent) := by
  intro _ r h
  cases h

theorem powerOnReset : Statement (.powerOnReset) := by
  intro _ r h
  cases h

theorem powerOnResetEnd (spdHigh : Bool) : Statement (.powerOnResetEnd spdHigh) := by
  intro _ r h
  cases h

theorem linkStartupWaitEnd : Statement (.linkStartupWaitEnd) := by
  intro _ r h
  cases h

theorem timeStampTick : Statement (.timeStampTick) := by
  intro _ r h
  cases h

theorem pinCharacterReceived (lane : Fin 4) (value : Byte) (parityBit stopMark staysSpace : Bool) : Statement (.pinCharacterReceived lane value parityBit stopMark staysSpace) := by
  intro _ r h
  cases h

theorem receiverRestEnd (lane : Fin 4) : Statement (.receiverRestEnd lane) := by
  intro _ r h
  cases h

theorem idleTimerExpiry (lane : Fin 4) : Statement (.idleTimerExpiry lane) := by
  intro _ r h
  cases h

theorem arbiterGrant : Statement (.arbiterGrant) := by
  intro _ r h
  cases h

theorem scanEntry : Statement (.scanEntry) := by
  intro _ r h
  cases h

theorem unitAdmitted : Statement (.unitAdmitted) := by
  intro _ r h
  cases h

theorem activationComplete (bank : Fin 8) : Statement (.activationComplete bank) := by
  intro _ r h
  cases h

theorem prechargeComplete (bank : Fin 8) : Statement (.prechargeComplete bank) := by
  intro _ r h
  cases h

theorem recordOperationComplete (bank : Fin 8) : Statement (.recordOperationComplete bank) := by
  intro _ r h
  cases h

theorem recordDamage (group : Group) (contents : RecordContents) (difference : BitVec 16) : Statement (.recordDamage group contents difference) := by
  intro _ r h
  cases h

theorem refreshDue : Statement (.refreshDue) := by
  intro _ r h
  cases h

theorem refreshComplete : Statement (.refreshComplete) := by
  intro _ r h
  cases h

theorem rowWriteComplete (bank : Fin 8) : Statement (.rowWriteComplete bank) := by
  intro _ r h
  cases h

theorem startBit (lane : Fin 4) : Statement (.startBit lane) := by
  intro _ r h
  cases h

theorem linkBreakEnd : Statement (.linkBreakEnd) := by
  intro _ r h
  cases h

end Sys2Proof.Laws.WfFrame
end

