-- ==== Sys2Proof/Tests/Slice0.lean ====
section
/-! SUPPORT. Small tests: an ill-formed term for each check of WellFormed, worked examples of the manual, and for every
statement with hypotheses a state and operands that meet them. -/

namespace Sys2Proof.Tests

-- One theorem at a time: their tasks wait on the same declarations, and each waiting task holds a thread's stack.
set_option Elab.async false

open Sys2Proof.Machine

/-! ### Helpers -/

/-- The part out of its power-on reset, the link open and IDLE. -/
def up : State := { State.reset with porHeld := false }

/-- The link in a given state. -/
def linkAt (l : LinkState) : State := { up with link := { up.link with state := l } }

/-- The link holding a request with tag 7. -/
def held (code : RequestCode) (payload : List Byte) (w : HeldFor := .owner) : State :=
  linkAt (.held { code, tag := 7, payload } w)

/-- A reply without payload. -/
def okReply : Reply :=
  { status := .ok, tag := 7, discarded := false, noticesWaiting := false, payload := [], thenReset := false }

/-- Lane 0 with given settings and entries. -/
def laneUp (source : Source) (idle : Byte) (fifo : List FifoEntry) (s : State := up) : State :=
  s.putLane 0 { Lane.powerOn 0 with
    settings := { Settings.powerOn 0 with enabled := true, source, idle }, fifo }

/-- A store with one bank in a given state and a queue. -/
def storeUp (k : Bank) (queue : List QueueEntry) : Store :=
  { (Store.powerOn 0).putBank 5 k with state := .ready, queue }

/-- A post of 3 to group 13, which stands in bank 5, row 0. -/
def post13 : QueueEntry := { group := 13, kind := .post 3, origin := .engine }

/-- A read of group 13. -/
def read13 : QueueEntry := { group := 13, kind := .read .w48 0 false, origin := .link }

/-- A key, a value and a post of it. -/
def smallPlan : Plan :=
  { startRequired := false, tailPolicy := .strict
    steps := [.key .decimal, .repeatGroup 0, .value .decimal 0 2, .post 0 0 true false, .again, .finish] }

/-- The answer is the state given. -/
def runsTo (a : Answer) (p : State → Bool) : Bool :=
  match a with
  | .next t => p t
  | .fault _ => false
  | .refused _ => false

/-- The reply being sent, if any. -/
def replyOf (s : State) : Option (Status × List Byte) :=
  match s.link.state with
  | .replying r => some (r.status, r.payload)
  | .idle => none
  | .receiving _ _ => none
  | .held _ _ => none

/-- The bytes of a field. -/
def ascii (s : String) : List Byte := s.toList.map (fun c => BitVec.ofNat 8 c.toNat)

/-- A raw step with a kind and four parameters. -/
def rawStep (kind b1 b2 b3 b4 : Byte) : RawStep := ⟨kind, b1, b2, b3, b4, 0, 0, 0, 0, 0, 0, 0⟩

/-! ### WellFormed refuses -/

theorem test_wf_feed_empty : (Instr.feed 0 0 []).wellFormed = false := by decide
theorem test_wf_feed_long : (Instr.feed 0 0 (List.replicate 240 0)).wellFormed = false := by decide +kernel
theorem test_wf_feed_longest : (Instr.feed 0 0 (List.replicate 239 0)).wellFormed = true := by decide +kernel
theorem test_wf_loadTable_empty : (Instr.loadTable 0 0 0 []).wellFormed = false := by decide
theorem test_wf_loadTable_long : (Instr.loadTable 0 0 0 (List.replicate 113 ⟨0, 0⟩)).wellFormed = false := by decide +kernel
theorem test_wf_loadPlan_empty : (Instr.loadPlan 0 0 0 0 []).wellFormed = false := by decide
theorem test_wf_loadPlan_long :
    (Instr.loadPlan 0 0 0 0 (List.replicate 19 (rawStep 8 0 0 0 0))).wellFormed = false := by decide
theorem test_wf_linkByte_space : (Instr.linkByteReceived 0 false true).wellFormed = false := by decide
theorem test_wf_pinCharacter_space : (Instr.pinCharacterReceived 0 0 false true true).wellFormed = false := by decide
theorem test_wf_damage_none : (Instr.recordDamage 0 RecordContents.empty 0).wellFormed = false := by decide

/-! ### Worked examples of the manual -/

theorem test_decimal_examples :
    (([("00123.45", 2), ("-7.5", 2), ("+.05", 2), ("12.", 2), ("3.141", 2), ("1.2.3", 2), ("-", 2)] :
      List (String × Nat)).map (fun p => (convertValue .decimal p.2 (ascii p.1)).map BitVec.toInt))
    = [some 12345, some (-750), some 5, some 1200, none, none, none] := by decide

theorem test_key_examples :
    (["4471093", "4294967296", "+12"].map (fun t => (convertKey .decimal (ascii t)).map BitVec.toNat))
    = [some 4471093, none, none] := by decide

theorem test_hex_examples :
    (["1a2B", "7FFFFFFFFFFF", "800000000000"].map (fun t => (convertValue .hex 0 (ascii t)).map BitVec.toInt))
    = [some 6699, some 140737488355327, none] := by decide

theorem test_readout_examples :
    [convertFigure .w48 0 5000000003, convertFigure .w32 0 5000000003, convertFigure .w32 2 5000000003,
      convertFigure .w32 1 (-3000000000)]
    = [(5000000003, false), (2147483647, true), (1250000001, false), (-1500000000, false)] := by decide

theorem test_walk_accepts :
    (walkPlan 0 1 [rawStep 1 0 0 0 0, rawStep 5 0 0 0 0, rawStep 2 0 0 2 0, rawStep 7 0 0 1 0, rawStep 6 0 0 0 0,
      rawStep 8 0 0 0 0]).toOption = some smallPlan := by decide

theorem test_walk_openEmpty :
    (match walkPlan 0 0 [rawStep 5 0 0 0 0, rawStep 6 0 0 0 0, rawStep 8 0 0 0 0] with
      | .error e => some e
      | .ok _ => none) = some (.openEmpty, some 1) := by decide

theorem test_status_frame_checked :
    replyOf (up.deliver { code := .feed, tag := 9, payload := [] }) = some (.lengthError, []) := by decide +kernel

theorem test_request_delivered :
    (up.deliver { code := .status, tag := 9, payload := [] }).link.state
      = .held { code := .status, tag := 9, payload := [] } .owner := by decide +kernel

theorem test_start_without_store : runsTo (exec (.start 7) (held .start [])) (fun t =>
    decide (replyOf t = some (.storeNotReady, []))) = true := by decide +kernel

theorem test_entry_begins_record :
    (processEntry { table := [], plan := smallPlan, limit := 256, windows := up.windows } Context.cleared
      (.byte 0x31 false true)).1.field = [0x31] := by decide +kernel

/-! ### Hypotheses that are met -/

theorem test_witness_StepRunsFrontCommand :
    ({ up with pending := [.status 7] } : State).pending = .status 7 :: [] ∧ State.reset.pending = [] := ⟨rfl, rfl⟩

theorem test_witness_CommandsKeepQueueAndComplete :
    exec .linkBreakEnd up = .next up ∧
    exec .scanEntry { laneUp .link 0 [.idleEnd false] with scan := .scanning 0 } = .fault .scanWithoutPlan := ⟨rfl, rfl⟩

theorem test_witness_StaticStateChangesOnlyByItsRequests :
    exec .linkBreakEnd up = .next up ∧ Instr.linkBreakEnd ≠ .powerOnReset ∧ Instr.linkBreakEnd ≠ .timeStampTick ∧
    ∀ spd, Instr.linkBreakEnd ≠ .powerOnResetEnd spd := by
  exact ⟨rfl, by decide, by decide, fun spd => by cases spd <;> decide⟩

theorem test_witness_RecordsChangeOnlyByStoreEvents :
    (storeUp (.working 0 (.record post13 .wrap StoredRecord.empty false)) [post13]).bank 5
      = .working 0 (.record post13 .wrap StoredRecord.empty false) ∧ post13.group.toNat ≠ 5 ∧
    (storeUp (.working 0 (.rowWrite false)) []).bank 5 = .working 0 (.rowWrite false) ∧ ¬(64 % 8 = 5 ∧ 64 / 64 = 0) ∧
    (13 : Group).toNat ≠ 5 ∧ (Instr.recordOperationComplete 5) ≠ .powerOnReset := by decide

theorem test_witness_RecordsChangeOnlyByStoreEvents_next :
    ∃ t, exec .refreshDue { up with store := storeUp .closed [] } = .next t ∧ t.store.refresh = .running := by
  exact ⟨_, rfl, by decide +kernel⟩

theorem test_witness_ResetAnsweredThenTakesEffect :
    (held .reset []).link.state = .held { code := .reset, tag := 7, payload := [] } .owner ∧
    (linkAt (.replying { okReply with thenReset := true })).link.state
      = .replying { okReply with thenReset := true } := ⟨rfl, rfl⟩

theorem test_witness_ResetAnsweredThenTakesEffect_runOn :
    ({ linkAt (.replying { okReply with thenReset := true }) with
        store := storeUp (.working 0 (.record post13 .wrap StoredRecord.empty false)) [post13, read13] } : State).store.bank 5
      = .working 0 (.record post13 .wrap StoredRecord.empty false) ∧
    (storeUp (.working 0 (.record post13 .wrap StoredRecord.empty false)) [post13, read13]).softReset.queue
      = [post13] := by decide

/-- A link being reset, with a store. -/
def resetting (st : Store) : State := { linkAt (.replying { okReply with thenReset := true }) with store := st }

theorem test_witness_ResetAnsweredThenTakesEffect_refresh :
    (resetting { storeUp .closed [] with refresh := .running, debt := 8 }).store.refresh = .running ∧
    ({ storeUp .closed [post13] with debt := 8 } : Store).softReset.refresh = .running ∧
    ({ storeUp .closed [post13] with debt := 8 } : Store).softReset.debt = 7 ∧
    ({ storeUp (.opened 0) [post13] with debt := 1 } : Store).softReset.refresh = .preparing ∧
    ({ storeUp (.opened 0) [post13] with debt := 1 } : Store).softReset.bank 5 = .closing none ∧
    (storeUp (.opened 0) [post13]).softReset.refresh = .none := by decide +kernel

theorem test_witness_PowerOnEndsAndTimeRuns :
    State.reset.porHeld = true ∧ up.porHeld = false ∧
    runsTo (exec .linkStartupWaitEnd { up with link := { up.link with startupWait := true }, timeStamp := 1 }) (fun t =>
      t.link.startupWait) = true ∧
    runsTo (exec .linkStartupWaitEnd { up with link := { up.link with startupWait := true }, timeStamp := 2 }) (fun t =>
      !t.link.startupWait) = true := by decide +kernel

theorem test_witness_LinkClosedAndTimeouts :
    State.reset.porHeld = true ∧ ({ up.link with inBreak := true } : Link).inBreak = true ∧
    (up.porHeld = false ∧ up.link.inBreak = false ∧
      ({ up with link := { up.link with startupWait := true } } : State).link.startupWait = true) ∧
    (linkAt (.receiving none [])).link.state = .receiving none [] ∧
    (∀ len rest, up.link.state ≠ .receiving len rest) ∧
    ({ up with link := { up.link with discarder := .discarding none } } : State).link.discarder = .discarding none ∧
    up.link.discarder = .waiting := by
  exact ⟨rfl, rfl, ⟨rfl, rfl, rfl⟩, rfl, fun _ _ h => LinkState.noConfusion h, rfl, rfl⟩

theorem test_witness_LinkBytesIdleBusyAndDiscarded :
    up.porHeld = false ∧ up.link.inBreak = false ∧ up.link.startupWait = false ∧ up.link.discarder = .waiting ∧
    up.link.state = .idle ∧
    (held .status []).link.state = .held { code := .status, tag := 7, payload := [] } .owner ∧
    (linkAt (.replying okReply)).link.state = .replying okReply := ⟨rfl, rfl, rfl, rfl, rfl, rfl, rfl⟩

theorem test_witness_LinkBytesReceiving :
    (linkAt (.receiving none [])).linkOpen ∧ (linkAt (.receiving (some 2) [0x02])).linkOpen ∧
    ([0x02] : List Byte).length + 1 < (2 : Byte).toNat + 2 ∧
    (2 : Byte).toNat = ([] : List Byte).length + 2 ∧
    (242 : Byte).toNat = (List.replicate 240 (0 : Byte)).length + 2 ∧
    (linkAt (.receiving (some 2) [0x02, 0x07, 0x9C])).link.state
      = .receiving (some 2) ((0x02 : Byte) :: 0x07 :: [] ++ [0x9C]) := by
  refine ⟨⟨rfl, rfl, rfl, rfl⟩, ⟨rfl, rfl, rfl, rfl⟩, by decide, by decide, by decide +kernel, rfl⟩

theorem test_witness_RepliesAreFormedAndSent :
    okReply.payload.length ≤ 239 ∧ ({ okReply with payload := List.replicate 239 0 } : Reply).payload.length ≤ 239 ∧
    (linkAt (.replying okReply)).link.state = .replying okReply ∧ okReply.thenReset = false ∧
    (∀ r, up.link.state ≠ .replying r) := by
  exact ⟨by decide, by decide +kernel, rfl, rfl, fun _ h => LinkState.noConfusion h⟩

theorem test_witness_RequestReachesItsOwner :
    (Instr.status 7).wellFormed = true ∧
    requestOf (.status 7) = some { code := .status, tag := 7, payload := [] } ∧ up.linkOpen ∧ up.link.state = .idle :=
  ⟨rfl, rfl, ⟨rfl, rfl, rfl, rfl⟩, rfl⟩

theorem test_witness_RequestsDiscardedOrLengthError :
    requestOf (.status 7) = some { code := .status, tag := 7, payload := [] } ∧
    (held .halt []).linkOpen ∧ (held .halt []).link.state = .held { code := .halt, tag := 7, payload := [] } .owner ∧
    (held .halt []).link.state ≠ .held { code := .status, tag := 7, payload := [] } .owner ∧
    requestOf (.feed 7 0 []) = some { code := .feed, tag := 7, payload := [0] } ∧
    RequestCode.lengthMatches .feed 1 = false := by
  exact ⟨rfl, ⟨rfl, rfl, rfl, rfl⟩, rfl, by decide, rfl, rfl⟩

theorem test_witness_RepliesFitInvariant :
    State.reset.RepliesFit ∧ step State.reset = .next State.reset := by
  refine ⟨⟨?_, trivial⟩, rfl⟩
  intro k p h
  simp [State.reset, State.powerOn] at h

theorem test_witness_IdentifyReportsFixedItems :
    (held .identify []).link.state = .held { code := .identify, tag := 7, payload := [] } .owner := rfl

theorem test_witness_StatusReportsTheBlocks :
    (held .status []).link.state = .held { code := .status, tag := 7, payload := [] } .owner := rfl

theorem test_witness_StartChecksAndRuns :
    ∃ s : State, s.link.state = .held { code := .start, tag := 7, payload := [] } .owner ∧ s.engine = .stopped ∧
      s.store.state = .ready ∧ (s.lane 0).settings.enabled = true ∧
      s.plans[(s.lane 0).settings.plan] = some smallPlan :=
  ⟨{ laneUp .link 0 [] (held .start []) with
      store := storeUp .closed [], plans := (Vector.replicate 8 none).set 0 (some smallPlan) },
    rfl, rfl, rfl, rfl, rfl⟩

theorem test_witness_HaltAndHaltDone :
    (held .halt []).link.state = .held { code := .halt, tag := 7, payload := [] } .owner ∧
    ({ held .halt [] with engine := .running } : State).scan = .free := ⟨rfl, rfl⟩

theorem test_witness_NoticesEnterAndAreFetched :
    (held .fetchNotices [8]).link.state = .held { code := .fetchNotices, tag := 7, payload := [8] } .owner ∧
    1 ≤ (8 : Byte).toNat ∧ (8 : Byte).toNat ≤ 8 ∧ (List.replicate 31 (0 : Nat)).length < 32 := by decide

/-- Settings at the ends of their ranges. -/
def rawTop : RawSettings := ⟨1, 1, 7, 2, 7, 7, 255, 1024, 1⟩

theorem test_witness_SetLaneWritesTheLane :
    (held .setLane (3 :: rawTop.bytes)).link.state
      = .held { code := .setLane, tag := 7, payload := 3 :: rawTop.bytes } .owner ∧
    (3 : Byte).toNat ≤ 3 ∧ 16 ≤ rawTop.limit.toNat ∧ rawTop.limit.toNat ≤ 1024 ∧ up.engine = .stopped ∧
    runsTo (exec (.setLane 7 3 rawTop) (held .setLane (3 :: rawTop.bytes))) (fun t =>
      decide (replyOf t = some (.ok, []) ∧ (t.lane 3).settings.limit = 1024)) = true ∧
    runsTo (exec (.setLane 7 3 { rawTop with limit := 15 }) (held .setLane (3 :: RawSettings.bytes { rawTop with limit := 15 })))
      (fun t => decide (replyOf t = some (.badArgument, []))) = true := by decide +kernel

theorem test_witness_ReadsReportAndChangeNothing :
    (held .readLane [3]).link.state = .held { code := .readLane, tag := 7, payload := [3] } .owner ∧
    (3 : Fin 4).val = (3 : Byte).toNat ∧ 3 < (4 : Byte).toNat ∧
    (held .readTable [7, 144, 112]).link.state = .held { code := .readTable, tag := 7, payload := [7, 144, 112] } .owner ∧
    (7 : Fin 8).val = (7 : Byte).toNat ∧ (112 : Byte).toNat ≤ 112 ∧ (144 : Byte).toNat + (112 : Byte).toNat ≤ 256 ∧
    256 < (145 : Byte).toNat + (112 : Byte).toNat ∧
    (held .readPlan [7]).link.state = .held { code := .readPlan, tag := 7, payload := [7] } .owner ∧
    7 < (8 : Byte).toNat := by decide

theorem test_witness_FeedEntersOrRefusesWhole :
    (held .feed [0, 0x41]).link.state = .held { code := .feed, tag := 7, payload := [0, 0x41] } .owner ∧
    3 < (4 : Byte).toNat ∧ (0 : Fin 4).val = (0 : Byte).toNat ∧
    runsTo (exec (.feed 7 0 [0x41]) (laneUp .link 1 (List.replicate 511 (.idleEnd false)) (held .feed [0, 0x41])))
      (fun t => decide (replyOf t = some (.ok, [0, 0]))) = true ∧
    runsTo (exec (.feed 7 0 [0x41]) (laneUp .link 1 (List.replicate 512 (.idleEnd false)) (held .feed [0, 0x41])))
      (fun t => decide (replyOf t = some (.fifoFull, [0, 0]))) = true := by decide +kernel

theorem test_witness_FlushIsTakenOrWaits :
    (held .flushLane [0]).link.state = .held { code := .flushLane, tag := 7, payload := [0] } .owner ∧
    3 < (4 : Byte).toNat ∧ (0 : Fin 4).val = (0 : Byte).toNat ∧ up.scanHolds 0 = false ∧
    ({ up with scan := .scanning 0, taken := 1 } : State).scanHolds 0 = true ∧
    ({ up with scan := .releasing 0 [] } : State).scan = .releasing 0 [] ∧
    (held .flushLane [0] (.flush 0)).link.state = .held { code := .flushLane, tag := 7, payload := [0] } (.flush 0) := by
  decide

theorem test_witness_FlushIsTakenOrWaits_none : ∀ r n, up.link.state ≠ .held r (.flush n) :=
  fun _ _ h => LinkState.noConfusion h

theorem test_witness_PinReceiver :
    ∀ rx : RxState, ∃ s : State, (s.lane 0).settings.enabled = true ∧ (s.lane 0).settings.source = .pin ∧
      (s.lane 0).rx = rx ∧ (s.lane 0).fifo.length = 511 :=
  fun rx => ⟨up.putLane 0 { Lane.powerOn 0 with
    settings := { Settings.powerOn 0 with enabled := true }, rx, fifo := List.replicate 511 (.idleEnd false) },
    rfl, rfl, rfl, List.length_replicate ..⟩

theorem test_witness_PinReceiver_off : (up.lane 0).settings.enabled = false := rfl

theorem test_witness_IdleTimerExpires :
    ∃ s : State, (s.lane 0).timer = some 5 ∧ (s.lane 0).settings.idle.toNat = 3 ∧
      (s.lane 0).settings.idle.toNat ≤ (s.timeStamp - 5).toNat ∧
      (({ s with timeStamp := 7 } : State).timeStamp - 5).toNat < (s.lane 0).settings.idle.toNat ∧
      (s.lane 1).timer = none :=
  ⟨{ (laneUp .link 3 []).putLane 0 ({ (laneUp .link 3 []).lane 0 with timer := some 5 } : Lane) with timeStamp := 8 },
    rfl, rfl, by decide, by decide, rfl⟩

theorem test_witness_LoadTableWritesWholeOrNothing :
    (held .loadTable [7, 255, 1, 5]).link.state
      = .held { code := .loadTable, tag := 7
                payload := 7 :: 255 :: (([⟨1, 5⟩] : List RawTableEntry).map RawTableEntry.bytes).flatten } .owner ∧
    7 < (8 : Byte).toNat ∧ (7 : Fin 8).val = (7 : Byte).toNat ∧ (255 : Byte).toNat + 1 ≤ 256 ∧ (5 : Byte).toNat ≤ 5 ∧
    runsTo (exec (.loadTable 7 7 255 [⟨1, 5⟩]) (held .loadTable [7, 255, 1, 5])) (fun t =>
      decide (replyOf t = some (.ok, [0]) ∧ tableEntry t.tables[(7 : Fin 8)] 255 = ⟨1, .fault⟩)) = true ∧
    runsTo (exec (.loadTable 7 7 255 [⟨1, 6⟩]) (held .loadTable [7, 255, 1, 6])) (fun t =>
      decide (replyOf t = some (.badArgument, []))) = true := by decide +kernel

theorem test_witness_LoadTableWritesWholeOrNothing_inUse :
    ({ laneUp .link 0 [] with engine := .running } : State).engine ≠ .stopped ∧
    ((laneUp .link 0 []).lane 0).settings.enabled = true ∧ ((laneUp .link 0 []).lane 0).settings.table = 0 := by decide

theorem test_witness_LoadPlanStoresOrRefuses :
    (held .loadPlan (7 :: 0 :: 1 :: ([rawStep 3 0 0 0 0, rawStep 8 0 0 0 0].map RawStep.bytes).flatten)).link.state
      = .held { code := .loadPlan, tag := 7
                payload := 7 :: 0 :: 1 :: ([rawStep 3 0 0 0 0, rawStep 8 0 0 0 0].map RawStep.bytes).flatten } .owner ∧
    (7 : Fin 8).val = (7 : Byte).toNat ∧ 7 < (8 : Byte).toNat ∧
    (walkPlan 0 1 [rawStep 3 0 0 0 0, rawStep 8 0 0 0 0]).toOption
      = some { startRequired := false, tailPolicy := .strict, steps := [.skipField, .finish] } := by decide

theorem test_witness_LoadPlanStoresOrRefuses_refused :
    walkPlan 0 1 [rawStep 3 0 0 0 0] = .error (.noFinish, some 0) ∧
    ({ laneUp .link 0 [] with engine := .running } : State).engine ≠ .stopped ∧
    ((laneUp .link 0 []).lane 0).settings.plan = 0 := ⟨rfl, by decide, rfl⟩

theorem test_witness_OnlyValidPlansAreStored :
    walkPlan 0 1 [rawStep 8 0 0 0 0] = .ok { startRequired := false, tailPolicy := .strict, steps := [.finish] } ∧
    1 < (2 : Byte).toNat ∧ State.reset.PlansValid ∧ step State.reset = .next State.reset := by
  refine ⟨rfl, by decide, ?_, rfl⟩
  intro k p h
  simp [State.reset, State.powerOn] at h

/-- The steps of `smallPlan` as they are sent. -/
def smallSteps : List RawStep :=
  [rawStep 1 0 0 0 0, rawStep 5 0 0 0 0, rawStep 2 0 0 2 0, rawStep 7 0 0 1 0, rawStep 6 0 0 0 0, rawStep 8 0 0 0 0]

theorem test_smallPlan_valid : smallPlan.Valid := by
  refine valid_of_noFault (steps := smallSteps) (by decide) (by decide) (fun i => ?_)
  by_cases h : i < 6
  · exact (by decide : ∀ i : Fin 6, planFaultAt smallSteps i.val = none) ⟨i, h⟩
  · exact planFaultAt_beyond (by simp only [smallSteps, List.length_cons, List.length_nil]; omega)

/-- Plan 0 is `smallPlan`, every other absent. -/
def withPlan (s : State) : State := { s with plans := (Vector.replicate 8 none).set 0 (some smallPlan) }

theorem test_withPlan_valid (s : State) : (withPlan s).PlansValid := by
  intro k p h
  by_cases hk : k.val = 0
  · simp [withPlan, Fin.getElem_fin, hk] at h
    rw [← h]
    exact test_smallPlan_valid
  · have : ¬0 = k.val := fun hc => hk hc.symm
    simp [withPlan, Fin.getElem_fin, this] at h

theorem test_witness_OnlyValidPlansAreStored_step :
    1 ≤ smallSteps.length ∧ smallSteps.length ≤ 18 ∧ (withPlan up).PlansValid ∧ (withPlan up).RepliesFit ∧
    step (withPlan up) = .next (withPlan up) := by
  refine ⟨by decide, by decide, test_withPlan_valid _, ⟨fun k p h => ?_, trivial⟩, rfl⟩
  have hv := test_withPlan_valid _ k p h
  exact ⟨hv.size.2, hv.inRange⟩

theorem test_witness_LoadPlanStoresOrRefuses_header :
    walkPlan 2 0 smallSteps = .error (.badHeader, none) ∧ 1 < (2 : Byte).toNat := ⟨rfl, by decide⟩

theorem test_witness_LoadPlanStoresOrRefuses_faults :
    planFaultAt [rawStep 5 0 0 0 0, rawStep 6 0 0 0 0, rawStep 8 0 0 0 0] 0 = none ∧
    planFaultAt [rawStep 5 0 0 0 0, rawStep 6 0 0 0 0, rawStep 8 0 0 0 0] 1 = some .openEmpty ∧
    ([rawStep 9 0 0 0 0, rawStep 1 3 0 0 0, rawStep 8 0 0 0 0].map (fun r => planFaultAt [r, rawStep 8 0 0 0 0] 0))
      = [some .badKind, some .badParameter, some .finishEarly] ∧
    planFaultAt [rawStep 6 0 0 0 0] 0 = some .strayAgain ∧
    planFaultAt [rawStep 4 1 1 0x41 0, rawStep 8 0 0 0 0] 0 = some .leaveOutside ∧
    planFaultAt [rawStep 5 1 0 0 0, rawStep 8 0 0 0 0] 1 = some .unclosed ∧
    planFaultAt [rawStep 5 1 0 0 0, rawStep 5 0 0 0 0] 1 = some .openNested ∧
    planFaultAt (List.replicate 5 (rawStep 5 1 0 0 0)) 4 = some .tooDeep ∧
    planFaultAt [rawStep 5 0 0 0 0, rawStep 3 0 0 0 0, rawStep 6 0 0 0 0, rawStep 3 0 0 0 0, rawStep 8 0 0 0 0] 2
      = some .openNotLast := by decide +kernel

/-- A window that takes every key at level 0. -/
def wholeWindow : Window := { level := 0, base := 0, limit := 0xFFFFFFFF, kind := .descend 1 true }

theorem test_witness_LayoutsReadBack :
    rawTop.bytes = ({ enabled := true, source := .link, rate := .b115200, parity := .odd, table := 7, plan := 7
                      idle := 255, limit := 1024, faultNotices := true } : Settings).bytes ∧
    RawTableEntry.bytes ⟨1, 5⟩ = TableEntry.bytes ⟨1, .fault⟩ ∧
    PlanStep.InRange (.value .decimal 3 6) ∧ (rawStep 2 0 3 6 0).bytes = PlanStep.bytes (.value .decimal 3 6) ∧
    PlanStep.InRange (.matchLiteral [0x41] .leave) ∧
    (rawStep 4 1 1 0x41 0).bytes = PlanStep.bytes (.matchLiteral [0x41] .leave) ∧
    wholeWindow.Sound ∧
    RawWindow.bytes ⟨127, 1, 0, 2, 0, 0xFFFFFFFF, 1, 1⟩ = windowBytes 127 (some wholeWindow) := by
  refine ⟨by decide, by decide, ⟨by decide, by decide⟩, by decide, ⟨by decide, by decide⟩, by decide,
    ⟨by decide, (by decide : (0 : Fin 4) < 1)⟩, by decide⟩

/-- A window of groups 65,484 to 65,487 for keys 10 to 13. -/
def rawWindow : RawWindow := ⟨127, 0, 3, 1, 10, 13, 0xFF, 0xCC⟩

theorem test_witness_SetWindowChecksAndWrites :
    (held .setWindow rawWindow.bytes).link.state = .held { code := .setWindow, tag := 7, payload := rawWindow.bytes } .owner ∧
    256 * rawWindow.p12.toNat + rawWindow.p13.toNat + (rawWindow.limit.toNat - rawWindow.base.toNat) = 65487 ∧
    rawWindow.index.toNat ≤ 127 ∧ rawWindow.level.toNat ≤ 3 ∧
    (∀ j : Fin 128, up.windows[j] = none) ∧
    runsTo (exec (.setWindow 7 rawWindow) (held .setWindow rawWindow.bytes)) (fun t =>
      decide (replyOf t = some (.ok, [127, 0]))) = true ∧
    runsTo (exec (.setWindow 7 { rawWindow with p13 := 0xCD })
      (held .setWindow (RawWindow.bytes { rawWindow with p13 := 0xCD }))) (fun t =>
      decide (replyOf t = some (.badArgument, []))) = true := by decide +kernel

theorem test_witness_SetWindowChecksAndWrites_overlap :
    runsTo (exec (.setWindow 7 { rawWindow with level := 0 })
      { held .setWindow (RawWindow.bytes { rawWindow with level := 0 }) with
        windows := (Vector.replicate 128 none).set 3 (some wholeWindow) }) (fun t =>
      decide (replyOf t = some (.overlap, [3]))) = true := by decide +kernel

theorem test_witness_WindowsClearedReadAndLookedUp :
    (held .clearWindow [127]).link.state = .held { code := .clearWindow, tag := 7, payload := [127] } .owner ∧
    (held .readWindow [127]).link.state = .held { code := .readWindow, tag := 7, payload := [127] } .owner ∧
    (127 : Fin 128).val = (127 : Byte).toNat ∧ 127 < (128 : Byte).toNat ∧ up.windows[(127 : Fin 128)] = none ∧
    ((Vector.replicate 128 none).set 127 (some wholeWindow))[(127 : Fin 128)] = some wholeWindow ∧
    (held .lookup (bytes32 5)).link.state = .held { code := .lookup, tag := 7, payload := bytes32 5 } .owner ∧
    lookupKey up.windows 5 = (.miss 0, []) ∧
    lookupKey ((Vector.replicate 128 none).set 0 (some { wholeWindow with kind := .single 9 })) 5 = (.routed 9, [0]) := by
  decide +kernel

theorem test_witness_LookupFollowsTheMap :
    WindowsSound up.windows ∧
    ∀ (i : Fin 128) (w : Window), up.windows[i] = some w → w.level = 0 → ¬(w.base.toNat ≤ 5 ∧ 5 ≤ w.limit.toNat) := by
  refine ⟨⟨?_, ?_⟩, ?_⟩
  · intro i w h
    simp [up, State.reset, State.powerOn] at h
  · intro i j w v _ h
    simp [up, State.reset, State.powerOn] at h
  · intro i w h
    simp [up, State.reset, State.powerOn] at h

theorem test_witness_LookupFollowsTheMap_found :
    ((Vector.replicate 128 none).set 127 (some wholeWindow))[(127 : Fin 128)] = some wholeWindow ∧
    wholeWindow.level = 0 ∧ wholeWindow.base.toNat ≤ 4294967295 ∧ 4294967295 ≤ wholeWindow.limit.toNat := by
  decide +kernel

theorem test_witness_RouteMapStaysSound : step State.reset = .next State.reset := rfl

theorem test_witness_ArbiterGrantsRoundRobin :
    ({ laneUp .link 0 [.idleEnd false] with engine := .running } : State).scan = .free ∧
    (∀ r n, up.link.state ≠ .held r (.flush n)) ∧ up.engine ≠ .running ∧
    runsTo (exec .arbiterGrant { laneUp .link 0 [.idleEnd false] with engine := .running }) (fun t =>
      decide (t.scan = .scanning 0 ∧ t.lastGranted = 0)) = true :=
  ⟨rfl, fun _ _ h => LinkState.noConfusion h, by decide, by decide⟩

theorem test_witness_ScanEntryTakesOldestEntry :
    ∃ s : State, s.scan = .scanning 0 ∧ (s.lane 0).fifo = .idleEnd false :: [] ∧
      s.plans[(s.lane 0).settings.plan] = some smallPlan :=
  ⟨{ laneUp .link 0 [.idleEnd false] with
      scan := .scanning 0, plans := (Vector.replicate 8 none).set 0 (some smallPlan) }, rfl, rfl, rfl⟩

/-- A table in which `*` is END, `;` SEP, `#` START, `!` FAULT, space SKIP. -/
def smallTable : List (Nat × TableEntry) :=
  [(0x20, ⟨0x20, .skip⟩), (0x21, ⟨0x21, .fault⟩), (0x23, ⟨0x23, .start⟩), (0x2A, ⟨0x2A, .fin⟩), (0x3B, ⟨0x3B, .sep⟩)]

/-- The scan engine's reading with that table. -/
def smallEnv : ScanEnv := { table := smallTable, plan := smallPlan, limit := 16, windows := up.windows }

/-- A context in a record, at the value step, with one translation in the field. -/
def inside : Context :=
  { Context.cleared with
    state := .inRecord, cursor := 2, stack := [{ first := 2, remaining := 0, completed := 0 }], field := [0x31]
    length := 15, key := some 5 }

theorem test_witness_EntriesOutsideARecord :
    Context.cleared.state = .await ∧ ({ Context.cleared with state := .resync } : Context).state = .resync ∧
    ([0x20, 0x21, 0x23, 0x2A, 0x3B, 0x31].map (fun i => (tableEntry smallTable i).cls))
      = [.skip, .fault, .start, .fin, .sep, .data] ∧
    smallPlan.startRequired = false ∧ ({ smallPlan with startRequired := true } : Plan).startRequired = true := by decide

theorem test_witness_EntriesOutsideARecord_begins :
    (Context.run smallEnv Context.begun).2 = none ∧
    ((Context.run smallEnv Context.begun).1.endField smallEnv).2 = some .convert ∧
    (Context.run { smallEnv with plan := { smallPlan with steps := [.skipField, .finish] } } Context.begun).2 = none ∧
    ((Context.run { smallEnv with plan := { smallPlan with steps := [.skipField, .finish] } } Context.begun).1.endField
      { smallEnv with plan := { smallPlan with steps := [.skipField, .finish] } }).2 = none ∧
    (Context.run { smallEnv with plan := { smallPlan with steps := [.post 0 0 true false, .finish] } } Context.begun).2
      = some .short := by decide +kernel

theorem test_witness_EntriesInsideARecord :
    inside.state = .inRecord ∧ inside.length + 1 ≤ smallEnv.limit ∧
    smallEnv.limit < ({ inside with length := 16 } : Context).length + 1 ∧
    inside.field.length < 32 ∧ 32 ≤ ({ inside with field := List.replicate 32 0 } : Context).field.length ∧
    (inside.endField smallEnv).2 = none ∧
    (({ inside with field := [0x41] } : Context).endField smallEnv).2 = some .convert := by decide +kernel

theorem test_witness_RecordEndsAtEnd :
    inside.state = .inRecord ∧ inside.length + 1 ≤ smallEnv.limit ∧ (tableEntry smallEnv.table 0x2A).cls = .fin ∧
    (({ inside with length := inside.length + 1 } : Context).endField smallEnv).2 = none ∧
    (processEntry smallEnv inside (.byte 0x2A false false)).2
      = [{ outcome := .accepted, length := 16, posts := [.unrouted 100] }] := by decide +kernel

/-- One step of each field kind, with literals that the field of `inside` meets and misses. -/
def fieldPlan : Plan :=
  { smallPlan with steps := [.key .decimal, .skipField, .value .decimal 0 2, .matchLiteral [0x31] .fault,
      .matchLiteral [0x41] .fault, .matchLiteral [0x41] .leave] }

theorem test_witness_FieldsAreConsumed :
    ({ inside with complete := true } : Context).complete = true ∧ inside.complete = false ∧
    inside.field = [0x31] ∧ inside.field ≠ [0x41] ∧
    fieldPlan.steps[({ inside with cursor := 0 } : Context).cursor]? = some (.key .decimal) ∧
    fieldPlan.steps[({ inside with cursor := 1 } : Context).cursor]? = some .skipField ∧
    fieldPlan.steps[({ inside with cursor := 2 } : Context).cursor]? = some (.value .decimal 0 2) ∧
    fieldPlan.steps[({ inside with cursor := 3 } : Context).cursor]? = some (.matchLiteral [0x31] .fault) ∧
    fieldPlan.steps[({ inside with cursor := 4 } : Context).cursor]? = some (.matchLiteral [0x41] .fault) ∧
    fieldPlan.steps[({ inside with cursor := 5 } : Context).cursor]? = some (.matchLiteral [0x41] .leave) := by decide

theorem test_witness_FieldsAreConsumed_decimal :
    DecimalForm 2 [0x2D] (ascii "7") (ascii "5") (ascii "-7.5") ∧ DecimalForm 2 [0x2B] [] (ascii "05") (ascii "+.05") ∧
    DecimalForm 0 [] (ascii "140737488355327") [] (ascii "140737488355327.") ∧
    digitsNumber 10 ((ascii "140737488355327").map (fun d => d.toNat - 0x30)) = 140737488355327 ∧
    DecimalForm 0 [] (ascii "140737488355328") [] (ascii "140737488355328") ∧
    digitsNumber 10 ((ascii "140737488355328").map (fun d => d.toNat - 0x30)) = 140737488355328 ∧
    DecimalForm 0 [] (ascii "4294967295") [] (ascii "4294967295") ∧
    DecimalForm 0 [] (ascii "4294967296") [] (ascii "4294967296") := by
  refine ⟨?_, ?_, ?_, by decide, ?_, by decide, ?_, ?_⟩ <;>
    refine ⟨by decide, by decide, by decide, by decide, by decide⟩

theorem test_witness_FieldsAreConsumed_noDecimal :
    (∀ sign whole fraction : List Byte, ¬DecimalForm 6 sign whole fraction []) ∧
    ∀ whole : List Byte, ¬DecimalForm 0 [] whole [] [] := by
  have none : ∀ (f : Nat) (sign whole fraction : List Byte), ¬DecimalForm f sign whole fraction [] := by
    rintro f sign whole fraction ⟨-, -, h1, -, h2 | ⟨rfl, h2⟩⟩
    · exact absurd h2.symm (by simp)
    · have := (List.append_eq_nil_iff.mp h2.symm).2
      exact h1 (by rw [this]; rfl)
  exact ⟨none 6, fun whole => none 0 [] whole []⟩

theorem test_witness_FieldsAreConsumed_hexAndRaw :
    (∀ b ∈ ascii "7FFFfff00a9F", IsHexDigit b) ∧ (ascii "7FFFfff00a9F").length = 12 ∧
    ¬(∀ b ∈ ascii "7g", IsHexDigit b) ∧
    digitsNumber 16 ((ascii "7FFFFFFFFFFF").map hexValue) = 140737488355327 ∧
    digitsNumber 16 ((ascii "800000000000").map hexValue) = 140737488355328 ∧ (ascii "FFFFFFFF").length = 8 ∧
    digitsNumber 256 ([0x7F, 0xFF, 0xFF, 0xFF, 0xFF, 0xFF].map (fun b : Byte => b.toNat)) = 140737488355327 ∧
    digitsNumber 256 ([0x80, 0, 0, 0, 0, 0].map (fun b : Byte => b.toNat)) = 140737488355328 := by
  unfold IsHexDigit
  decide

theorem test_witness_FieldsAreConsumed_group : smallPlan.Closes 2 4 ∧ smallPlan.Valid ∧ 0 < smallPlan.depthAt 2 := by
  refine ⟨⟨by decide, by decide, by decide, fun k h1 h2 => ?_⟩, test_smallPlan_valid, by decide⟩
  exact (by decide : ∀ k : Fin 5, 2 ≤ k.val → smallPlan.depthAt 2 ≤ smallPlan.depthAt k.val) ⟨k, by omega⟩ h1

theorem test_witness_CursorRunsThroughSteps :
    (smallPlan.steps.map PlanStep.isField) = [true, false, true, false, false, false] ∧
    smallPlan.steps[1]? = some (.repeatGroup 0) ∧ smallPlan.steps[3]? = some (.post 0 0 true false) ∧
    smallPlan.steps[4]? = some .again ∧ smallPlan.steps[5]? = some .finish ∧
    inside.stack = { first := 2, remaining := 0, completed := 0 } :: [] ∧ inside.key = some 5 ∧
    ({ inside with slots := #v[some 3, none, none, none] } : Context).slots[(0 : Fin 4)] = some 3 ∧
    inside.slots[(0 : Fin 4)] = none ∧
    (lookupKey ((Vector.replicate 128 none).set 0 (some { wholeWindow with kind := .single 65487 })) 5).1
      = .routed 65487 := by decide +kernel

theorem test_witness_AtMostTwoRecordsPerEntry :
    ∃ u v, (processEntry { smallEnv with plan := { smallPlan with steps := [.post 0 0 false false, .finish] } } inside
      (.byte 0x23 false false)).2 = [u, v] := ⟨_, _, rfl⟩

/-- An ACCEPTED unit with one post. -/
def unit1 : FinishedUnit := { outcome := .accepted, length := 9, posts := [.post 13 3] }

theorem test_witness_UnitsAreAdmittedWhole :
    ({ up with scan := .releasing 3 [unit1] } : State).scan = .releasing 3 (unit1 :: []) ∧
    (List.replicate 26 post13).length + (unitEntries 3 unit1).length ≤ 28 ∧
    28 < (List.replicate 27 post13).length + (unitEntries 3 unit1).length := by decide

theorem test_witness_ScanStateStaysSound :
    State.reset.ScanSound ∧ step State.reset = .next State.reset := by
  refine ⟨⟨fun _ => rfl, fun h => absurd rfl h, ?_⟩, rfl⟩
  intro n h
  cases h

theorem test_witness_BuffersStayBounded :
    step State.reset = .next State.reset ∧ State.reset.NoticesBounded ∧ State.reset.FifosBounded ∧
    State.reset.QueueBounded := by
  refine ⟨rfl, Nat.zero_le _, fun n => ?_, Nat.zero_le _, ?_⟩
  · revert n; decide
  intro i e h
  simp [State.reset, State.powerOn, Store.powerOn] at h

/-- Lane 0 in a record of `smallPlan`, the engine STOPPED. -/
def reading : State :=
  withPlan (up.putLane 0 { Lane.powerOn 0 with settings := { Settings.powerOn 0 with enabled := true }, ctx := inside })

theorem test_reading_follows : inside.Follows smallPlan := by
  refine ⟨by decide, by decide, fun i e h => ?_⟩
  cases i with
  | zero =>
    simp only [inside, List.getElem?_cons_zero, Option.some.injEq] at h
    subst h
    decide
  | succ i => simp [inside] at h

theorem test_witness_BuffersStayBounded_contexts :
    reading.PlansValid ∧ reading.ScanSound ∧ reading.ContextsBounded ∧ step reading = .next reading ∧
    (reading.lane 0).ctx.state = .inRecord := by
  refine ⟨test_withPlan_valid _, ⟨fun _ => rfl, fun h => absurd rfl h, fun n h => by cases h⟩, fun n => ?_, rfl, rfl⟩
  have bounds : ∀ n : Fin 4, ((reading.lane n).ctx.posts.length ≤ 16 ∧ (reading.lane n).ctx.field.length ≤ 32) ∧
      ((reading.lane n).ctx.cursor ≤ 17 ∧ (reading.lane n).ctx.stack.length ≤ 4 ∧
        ∀ e ∈ (reading.lane n).ctx.stack, e.first ≤ 17 ∧ e.remaining ≤ 255 ∧ e.completed ≤ 255) ∧
      1 ≤ (reading.lane n).settings.limit.toNat ∧
      (reading.lane n).ctx.length ≤ (reading.lane n).settings.limit.toNat ∧
      (reading.lane n).settings.limit.toNat ≤ 1024 ∧ ((reading.lane n).ctx.state = .inRecord → n = 0) := by
    decide +kernel
  obtain ⟨h1, h2, h3, h4, h5, h6⟩ := bounds n
  refine ⟨h1, h2, h3, h4, h5, fun h => ?_⟩
  rw [h6 h]
  exact ⟨rfl, smallPlan, rfl, test_reading_follows⟩

theorem test_witness_TallyRequestsAdmittedWhole :
    (held .clearFlags [0, 13]).link.state = .held { code := .clearFlags, tag := 7, payload := bytes16 13 } .owner ∧
    up.store.state = .uninitialised ∧ (storeUp .closed []).state = .ready ∧
    (List.replicate 16 read13).length ≤ 16 ∧ (List.replicate 31 post13).length + [read13].length ≤ 32 ∧
    32 < (List.replicate 32 post13).length + [read13].length ∧
    (held .readTally (bytes16 0xFFFF ++ [1, 48, 16, 1])).link.state
      = .held { code := .readTally, tag := 7, payload := bytes16 0xFFFF ++ [1, 48, 16, 1] } .owner ∧
    (0xFFFF : Group).toNat + (1 : Byte).toNat ≤ 65536 ∧
    (held .clearTally (bytes16 0xFFF0 ++ [16])).link.state
      = .held { code := .clearTally, tag := 7, payload := bytes16 0xFFF0 ++ [16] } .owner ∧
    (0xFFF0 : Group).toNat + (16 : Byte).toNat ≤ 65536 := by decide

theorem test_witness_StoreRequests :
    (held .configureStore [1, 1]).link.state = .held { code := .configureStore, tag := 7, payload := [1, 1] } .owner ∧
    (held .clearStore []).link.state = .held { code := .clearStore, tag := 7, payload := [] } .owner ∧
    up.engine = .stopped ∧ up.store.state ≠ .clearing := by decide

theorem test_witness_BanksOpenAndClose :
    (storeUp (.opening 0 (some .head)) [post13]).bank 5 = .opening 0 (some .head) ∧
    headOf 5 [post13] = some post13 ∧
    (storeUp (.opening 0 (some .clearRow)) []).bank 5 = .opening 0 (some .clearRow) ∧
    (storeUp (.closing (some .head)) [post13]).bank 5 = .closing (some .head) ∧
    (storeUp (.closing (some .clearRow)) []).bank 5 = .closing (some .clearRow) ∧
    (1023 : Fin 1024).val = ({ storeUp .closed [] with rowsDone := 8191 } : Store).rowsDone / 8 % 1024 ∧
    (storeUp (.closing none) []).bank 5 = .closing none ∧ (storeUp (.opening 0 none) []).bank 5 = .opening 0 none ∧
    (storeUp .closed []).bank 5 = .closed := by decide

theorem test_witness_RecordOperationCompletes :
    (storeUp (.working 0 (.record read13 .wrap StoredRecord.empty false)) [read13]).bank 5
      = .working 0 (.record read13 .wrap StoredRecord.empty false) ∧
    post13.origin = .engine ∧ read13.origin = .link ∧ (recordOperation read13 .wrap StoredRecord.empty).poisons = false ∧
    up.engine ≠ .halting ∧
    (held .readTally [0, 13, 1, 48, 0] (.tally 1 [])).link.state
      = .held { code := .readTally, tag := 7, payload := [0, 13, 1, 48, 0] } (.tally 1 []) := by decide

theorem test_witness_RecordOperationCompletes_linkPoisons :
    runsTo (exec (.recordOperationComplete 5)
      { held .readTally [0, 13, 1, 48, 0] (.tally 1 []) with
        engine := .halting
        store := storeUp (.working 0 (.record read13 .wrap { StoredRecord.empty with difference := 1 } false)) [read13] })
      (fun t => decide (t.engine = .stopped ∧ t.notices.map Notice.kind = [.storePoison 13, .haltDone] ∧
        t.store.bank 5 = .opened 0 ∧ (replyOf t).isSome = true)) = true ∧
    runsTo (exec (.recordOperationComplete 5)
      { held .readTally [0, 13, 1, 48, 0] (.tally 2 []) with
        store := { storeUp (.working 0 (.record read13 .wrap StoredRecord.empty false)) [read13] with
          rowPolicy := .closeAfter } })
      (fun t => decide (t.store.bank 5 = .closing none ∧ replyOf t = none)) = true := by decide +kernel

theorem test_witness_RecordOperationsByCondition :
    post13.kind = .post 3 ∧ read13.kind = .read .w48 0 false ∧
    StoredRecord.empty.difference = 0 ∧ StoredRecord.empty.contents.poisoned = false ∧
    ({ StoredRecord.empty with difference := 1 } : StoredRecord).difference ≠ 0 ∧
    (StoredRecord.fresh StoredRecord.empty.contents.poison).contents.poisoned = true ∧
    ({ post13 with kind := .clear } : QueueEntry).kind = .clear ∧
    ({ post13 with kind := .clearFlags } : QueueEntry).kind = .clearFlags := by decide

theorem test_witness_PostArithmetic :
    StoredRecord.Ordered StoredRecord.empty ∧
    (recordOperation post13 .wrap StoredRecord.empty).write
      = some { contents := { RecordContents.empty with count := 1, sum := 3, minimum := 3, maximum := 3 }
               difference := 0 } := by
  exact ⟨fun _ h => absurd rfl h, by decide⟩

theorem test_witness_FiguresAreConverted : (16 : Nat) ≤ 16 ∧ (1 : Nat) ≤ 16 ∧ (-3 : Int) ≤ 4 := by decide

theorem test_witness_RowWritesClearTheStore :
    (storeUp (.working 1023 (.rowWrite false)) []).bank 5 = .working 1023 (.rowWrite false) ∧
    (storeUp (.working 1023 (.rowWrite true)) []).bank 5 = .working 1023 (.rowWrite true) ∧
    ({ storeUp .closed [] with rowsDone := 8191 } : Store).rowsDone + 1 = 8192 := by decide

theorem test_witness_RefreshesFallDueAndComplete :
    State.reset.porHeld = true ∧ up.porHeld = false ∧ up.store.debt < 8 ∧
    8 ≤ ({ storeUp .closed [] with debt := 8 } : Store).debt ∧ up.store.refresh ≠ .running ∧
    ({ storeUp .closed [] with refresh := .running } : Store).refresh = .running := by decide

theorem test_witness_RefreshesFallDueAndComplete_settle :
    (storeUp .closed [post13]).settle.bank 5 = .opening 0 (some .head) ∧
    (storeUp (.opened 1) [post13]).settle.bank 5 = .closing (some .head) ∧
    ({ storeUp .closed [post13] with debt := 8 } : Store).settle.refresh = .running ∧
    ({ storeUp (.opened 0) [post13] with debt := 8 } : Store).settle.bank 5 = .closing none ∧
    ({ storeUp (.opened 0) [post13] with debt := 7 } : Store).settle.refresh = .none ∧
    ({ storeUp .closed [post13] with state := .catchUp } : Store).settle.bank 5 = .closed ∧
    ({ storeUp .closed [] with state := .clearing, rowsDone := 5 } : Store).settle.bank 5 = .opening 0 (some .clearRow) ∧
    ({ storeUp .closed [] with state := .clearing, rowsDone := 8192 } : Store).settle.bank 5 = .closed ∧
    ({ storeUp .closed [] with state := .clearing, catchingUp := true } : Store).settle.bank 0 = .closed := by
  decide +kernel

theorem test_witness_RefreshesFallDueAndComplete_head :
    ∃ r, (storeUp (.opened 0) [post13]).settle.bank 5 = .working 0 (.record post13 .saturate r false) := ⟨_, rfl⟩

theorem test_witness_RefreshesFallDueAndComplete_again :
    runsTo (exec .refreshComplete { up with
      store := { storeUp .closed [post13] with refresh := .running, debt := 7, state := .catchUp } }) (fun t =>
      decide (t.store.refresh = .running ∧ t.store.debt = 6 ∧ t.store.state = .catchUp)) = true ∧
    runsTo (exec .refreshComplete { up with
      store := { storeUp .closed [] with refresh := .running, debt := 0, state := .catchUp } }) (fun t =>
      decide (t.store.refresh = .none ∧ t.store.state = .ready)) = true := by decide +kernel

theorem test_witness_DamageReachesOneRecord : (1 : BitVec 16) ≠ 0 := by decide

theorem test_witness_GroupPlaces :
    65535 < 65536 ∧ groupBank 65535 = 7 ∧ groupRow 65535 = 1023 ∧ groupPlace 65535 = 7 ∧ groupAt 1023 7 7 = 65535 := by
  decide

theorem test_witness_RefreshStaysSafe :
    State.reset.RefreshSafe ∧ State.reset.MemoriesCanonical ∧ step State.reset = .next State.reset := by
  refine ⟨⟨by decide, fun h => nomatch h⟩, ⟨?_, by decide⟩, rfl⟩
  intro t
  simp [State.reset, State.powerOn, cellsWf, rising]

/-- Bank 5 working on its head, another entry of the bank behind it. -/
def working : State :=
  { up with store := storeUp (.working 0 (.record post13 .wrap StoredRecord.empty false)) [post13, read13] }

theorem test_witness_RefreshStaysSafe_heads :
    working.HeadsWorking ∧ step working = .next working ∧
    working.store.bank 5 = .working 0 (.record post13 .wrap StoredRecord.empty false) := by
  refine ⟨fun b row e m x r h => ?_, rfl, by decide⟩
  have closed : ∀ b : Fin 8, b ≠ 5 → working.store.bank b = .closed := by decide
  by_cases hb : b = 5
  · subst hb
    have hw : working.store.bank 5 = .working 0 (.record post13 .wrap StoredRecord.empty false) := by decide
    rw [hw] at h
    cases h
    decide
  · rw [closed b hb] at h
    cases h

end Sys2Proof.Tests
end

section
/-! PROOFS. SET-LANE (R11, R12) and FEED (R14, R15): the owner's act case by case, and the statements about them. -/

namespace Sys2Proof.Machine

/-! ### Lanes as a request names them -/

theorem exists_laneOfByte {b : Byte} (h : b.toNat ≤ 3) : ∃ n : Fin 4, laneOfByte b = some n :=
  ⟨⟨b.toNat, by omega⟩, laneOfByte_eq_some.mpr rfl⟩

/-! ### SET-LANE -/

/-- Settings read from a frame are reported in the bytes that carried them (section 10.6.7). -/
theorem Settings.bytes_of_ofRaw {r : RawSettings} {x : Settings} (h : Settings.ofRaw r = some x) :
    x.bytes = r.bytes := by
  simp only [Settings.ofRaw, Option.bind_eq_bind, Option.bind_eq_some_iff, Option.pure_def, Option.some.injEq] at h
  obtain ⟨enabled, henabled, source, hsource, rate, hrate, parity, hparity, table, htable, plan, hplan,
    notices, hnotices, rfl⟩ := h
  have table_byte : r.table = natByte table := (natByte_fin table (by decide)).mpr (finOfByte_eq_some.mp htable)
  have plan_byte : r.plan = natByte plan := (natByte_fin plan (by decide)).mpr (finOfByte_eq_some.mp hplan)
  simp only [Settings.bytes, RawSettings.bytes, boolOfByte_eq_some.mp henabled, Source.ofByte_eq_some.mp hsource,
    LineRate.ofByte_eq_some.mp hrate, Parity.ofByte_eq_some.mp hparity, table_byte, plan_byte,
    boolOfByte_eq_some.mp hnotices]

/-- The receiver of a lane just set waits for rest exactly on an enabled PIN lane (R5, R12). -/
theorem Settings.restartedRx_eq (c : Settings) :
    c.restartedRx = if c.enabled = true ∧ c.source = .pin then .waitingForRest else .off := by
  simp only [Settings.restartedRx, Bool.and_eq_true, decide_eq_true_eq]

/-- A SET-LANE whose checks 1 to 3 do not all pass is refused, whatever the engine state (R11). -/
theorem ownSetLane_badArgument (s : State) (tag : Byte) {lane : Byte} {raw : RawSettings}
    (h : laneOfByte lane = none ∨ Settings.ofRaw raw = none ∨ ¬(16 ≤ raw.limit.toNat ∧ raw.limit.toNat ≤ 1024)) :
    ownSetLane tag lane raw s = s.answer tag .badArgument [] := by
  unfold ownSetLane
  split
  · next n settings hlane hsettings =>
    obtain hnone | hnone | hlimit := h
    · rw [hlane] at hnone
      cases hnone
    · rw [hsettings] at hnone
      cases hnone
    · exact if_pos hlimit
  · rfl

/-- A SET-LANE whose arguments are good turns on the engine state alone (R11, R12). -/
theorem ownSetLane_of_defined (s : State) (tag : Byte) {lane : Byte} {raw : RawSettings} {n : Fin 4} {settings : Settings}
    (hlane : laneOfByte lane = some n) (hsettings : Settings.ofRaw raw = some settings)
    (hlimit : 16 ≤ raw.limit.toNat ∧ raw.limit.toNat ≤ 1024) :
    ownSetLane tag lane raw s =
      if s.engine ≠ .stopped then s.answer tag .inUse []
      else (s.putLane n (Lane.set settings)).answer tag .ok [] := by
  simp only [ownSetLane, hlane, hsettings, if_neg (not_not_intro hlimit)]

theorem exec_setLane_held {s : State} {tag lane : Byte} {raw : RawSettings}
    (h : s.link.state = .held { code := .setLane, tag, payload := lane :: raw.bytes } .owner) :
    exec (.setLane tag lane raw) s = .next (ownSetLane tag lane raw s) :=
  requestStep_held _ _ h

/-- Settles O21: each reader of a code refuses exactly the bytes out of range, and the settings read spell the bytes
carried. -/
theorem setLaneWritesTheLane : Obligations.SetLaneWritesTheLane := by
  unfold Obligations.SetLaneWritesTheLane
  intro s tag lane raw held argumentsGood
  rw [exec_setLane_held held]
  have defined (good : argumentsGood) : ∃ n settings, laneOfByte lane = some n ∧ Settings.ofRaw raw = some settings ∧
      16 ≤ raw.limit.toNat ∧ raw.limit.toNat ≤ 1024 := by
    obtain ⟨hlane, henabled, hsource, hrate, hparity, htable, hplan, hnotices, hlimit⟩ := good
    obtain ⟨n, hn⟩ := exists_laneOfByte hlane
    have codes : Settings.ofRaw raw ≠ none := fun hnone =>
      Settings.ofRaw_eq_none.mp hnone ⟨henabled, hsource, hrate, hparity, htable, hplan, hnotices⟩
    obtain ⟨settings, hsettings⟩ := Option.ne_none_iff_exists'.mp codes
    exact ⟨n, settings, hn, hsettings, hlimit⟩
  refine ⟨fun bad => ?badArgument, fun good running => ?inUse, fun good stopped => ?ok⟩
  case badArgument =>
    refine congrArg _ (ownSetLane_badArgument s tag ?_)
    rw [laneOfByte_eq_none, Settings.ofRaw_eq_none]
    simp only [argumentsGood] at bad
    omega
  case inUse =>
    obtain ⟨n, settings, hlane, hsettings, hlimit⟩ := defined good
    rw [ownSetLane_of_defined s tag hlane hsettings hlimit, if_pos running]
  case ok =>
    obtain ⟨n, settings, hlane, hsettings, hlimit⟩ := defined good
    refine ⟨n, settings, laneOfByte_eq_some.mp hlane, Settings.bytes_of_ofRaw hsettings, ?_⟩
    rw [ownSetLane_of_defined s tag hlane hsettings hlimit, if_neg (not_not_intro stopped), Lane.set,
      Settings.restartedRx_eq]

/-! ### FEED -/

theorem length_feedEntries (gap : Bool) (data : List Byte) : (feedEntries gap data).length = data.length := by
  cases data with
  | nil => rfl
  | cons b bs => simp only [feedEntries, List.length_cons, List.length_map]

/-- Arming the idle timer changes the timer alone (R8). -/
theorem Lane.rearm_eq (l : Lane) (now : Stamp) :
    l.rearm now = { l with timer := if l.settings.idle = 0 then l.timer else some now } := by
  unfold Lane.rearm
  split <;> rfl

/-- A FEED enters its bytes in order, the first with the gap-before mark, and arms the idle timer (R15). -/
theorem Lane.feed_cons (l : Lane) (b : Byte) (bs : List Byte) (now : Stamp) :
    l.feed (b :: bs) now = { l with
      fifo := l.fifo ++ .byte b false l.gapPending :: bs.map (fun x => .byte x false false)
      gapPending := false
      markerLast := false
      timer := if l.settings.idle = 0 then l.timer else some now } := by
  rw [Lane.feed, Lane.rearm_eq]
  rfl

/-- A FEED takes as many places as it has bytes. -/
theorem Lane.freePlaces_feed (l : Lane) (data : List Byte) (now : Stamp) :
    (l.feed data now).freePlaces = 512 - (l.fifo.length + data.length) := by
  rw [Lane.feed, Lane.rearm_eq, Lane.freePlaces, List.length_append, length_feedEntries]

theorem ownFeed_badArgument (s : State) (tag : Byte) {lane : Byte} (data : List Byte) (h : laneOfByte lane = none) :
    ownFeed tag lane data s = s.answer tag .badArgument [0, 0] := by
  simp only [ownFeed, h]
  rfl

/-- The checks of a FEED to a lane of the part, in their order (R14). -/
theorem ownFeed_of_lane (s : State) (tag : Byte) {lane : Byte} (data : List Byte) {n : Fin 4}
    (h : laneOfByte lane = some n) :
    ownFeed tag lane data s =
      if (s.lane n).settings.enabled = false then s.answer tag .laneOff (natBytes16 (s.lane n).freePlaces)
      else if (s.lane n).settings.source ≠ .link then s.answer tag .wrongSource (natBytes16 (s.lane n).freePlaces)
      else if (s.lane n).freePlaces < data.length then s.answer tag .fifoFull (natBytes16 (s.lane n).freePlaces)
      else (s.putLane n ((s.lane n).feed data s.timeStamp)).answer tag .ok
        (natBytes16 (512 - ((s.lane n).fifo.length + data.length))) := by
  simp only [ownFeed, h, Bool.not_eq_true', Lane.freePlaces_feed]

theorem exec_feed_held {s : State} {tag lane : Byte} {data : List Byte}
    (h : s.link.state = .held { code := .feed, tag, payload := lane :: data } .owner) :
    exec (.feed tag lane data) s = .next (ownFeed tag lane data s) :=
  requestStep_held _ _ h

theorem lengthMatches_feed (n : Nat) : RequestCode.lengthMatches .feed n = true ↔ 2 ≤ n ∧ n ≤ 240 := by
  rw [RequestCode.lengthMatches, decide_eq_true_iff]

/-- Settles O23: the checks stand in the order of R14, and a lane that has taken a FEED is given by its parts. -/
theorem feedEntersOrRefusesWhole : Obligations.FeedEntersOrRefusesWhole := by
  unfold Obligations.FeedEntersOrRefusesWhole
  refine ⟨fun s tag lane b bs held => ⟨fun beyond => ?noLane, fun n named => ?lane⟩, lengthMatches_feed⟩
  case noLane =>
    rw [exec_feed_held held, ownFeed_badArgument s tag _ (laneOfByte_eq_none.mpr beyond)]
  case lane =>
    rw [exec_feed_held held, ownFeed_of_lane s tag _ (laneOfByte_eq_some.mpr named), Lane.feed_cons, Lane.freePlaces,
      List.length_cons]

end Sys2Proof.Machine
end

section
/-! PROOFS. READ-LANE (R13), READ-TABLE (R31, R32) and READ-PLAN (R53): the owner's act case by case, and the statement
that they report what is held. -/

namespace Sys2Proof.Machine

/-! ### READ-LANE -/

/-- The READ-LANE reply, byte by byte (section 10.6.7). -/
theorem readLaneBytes_eq (lane : Byte) (l : Lane) :
    readLaneBytes lane l =
      [lane, boolByte l.settings.enabled, l.settings.source.byte, l.settings.rate.byte, l.settings.parity.byte,
          natByte l.settings.table, natByte l.settings.plan, l.settings.idle]
        ++ bytes16 l.settings.limit ++ [boolByte l.settings.faultNotices] ++ natBytes16 l.fifo.length
        ++ [boolByte l.gapPending, boolByte l.timer.isSome] := by
  simp only [readLaneBytes, Settings.bytes, List.cons_append]

theorem ownReadLane_badArgument (s : State) (tag : Byte) {lane : Byte} (h : laneOfByte lane = none) :
    ownReadLane tag lane s = s.answer tag .badArgument [] := by
  simp only [ownReadLane, h]

theorem ownReadLane_of_lane (s : State) (tag : Byte) {lane : Byte} {n : Fin 4} (h : laneOfByte lane = some n) :
    ownReadLane tag lane s = s.answer tag .ok (readLaneBytes lane (s.lane n)) := by
  simp only [ownReadLane, h]

theorem exec_readLane_held {s : State} {tag lane : Byte}
    (h : s.link.state = .held { code := .readLane, tag, payload := [lane] } .owner) :
    exec (.readLane tag lane) s = .next (ownReadLane tag lane s) :=
  requestStep_held _ _ h

/-! ### READ-TABLE -/

/-- A READ-TABLE is refused when any of the checks of R31 fails. -/
theorem ownReadTable_badArgument (s : State) (tag : Byte) {table first count : Byte}
    (h : finOfByte 8 table = none ∨ ¬(1 ≤ count.toNat ∧ count.toNat ≤ 112) ∨ 255 < first.toNat + count.toNat - 1) :
    ownReadTable tag table first count s = s.answer tag .badArgument [] := by
  cases htable : finOfByte 8 table with
  | none => simp only [ownReadTable, htable]
  | some k =>
    simp only [ownReadTable, htable]
    by_cases hcount : 1 ≤ count.toNat ∧ count.toNat ≤ 112
    · have past : 255 < first.toNat + count.toNat - 1 := by simpa [htable, hcount] using h
      rw [if_neg (not_not_intro hcount), if_pos past]
    · rw [if_pos hcount]

/-- The reply to a READ-TABLE that passes the checks of R31: the entries held, in index order (R32). -/
theorem ownReadTable_of_range (s : State) (tag : Byte) {table first count : Byte} {k : Fin 8}
    (htable : finOfByte 8 table = some k) (hcount : 1 ≤ count.toNat ∧ count.toNat ≤ 112)
    (hlast : ¬255 < first.toNat + count.toNat - 1) :
    ownReadTable tag table first count s = s.answer tag .ok
      ([table, first, count] ++ (List.range count.toNat).flatMap (fun j =>
        (tableEntry s.tables[k] (first.toNat + j)).bytes)) := by
  simp only [ownReadTable, htable, if_neg (not_not_intro hcount), if_neg hlast]
  rw [readEntries_eq, List.map_map, List.flatMap_def, Function.comp_def]

theorem exec_readTable_held {s : State} {tag table first count : Byte}
    (h : s.link.state = .held { code := .readTable, tag, payload := [table, first, count] } .owner) :
    exec (.readTable tag table first count) s = .next (ownReadTable tag table first count s) :=
  requestStep_held _ _ h

/-! ### READ-PLAN -/

theorem ownReadPlan_badArgument (s : State) (tag : Byte) {plan : Byte} (h : finOfByte 8 plan = none) :
    ownReadPlan tag plan s = s.answer tag .badArgument [] := by
  simp only [ownReadPlan, h]

theorem ownReadPlan_of_plan (s : State) (tag : Byte) {plan : Byte} {k : Fin 8} (h : finOfByte 8 plan = some k) :
    ownReadPlan tag plan s = s.answer tag .ok (readPlanBytes plan s.plans[k]) := by
  simp only [ownReadPlan, h]

theorem exec_readPlan_held {s : State} {tag plan : Byte}
    (h : s.link.state = .held { code := .readPlan, tag, payload := [plan] } .owner) :
    exec (.readPlan tag plan) s = .next (ownReadPlan tag plan s) :=
  requestStep_held _ _ h

/-! ### The three reads -/

/-- The payload lengths of the three reads (section 10.5). -/
theorem lengthMatches_reads (n : Nat) :
    (RequestCode.lengthMatches .readLane n = true ↔ n = 1) ∧
      (RequestCode.lengthMatches .readTable n = true ↔ n = 3) ∧
      (RequestCode.lengthMatches .readPlan n = true ↔ n = 1) := by
  simp only [RequestCode.lengthMatches, beq_iff_eq, and_self]

/-- Settles O22: each read answers from the lane, table or plan its byte names, and its only effect is the answer. -/
theorem readsReportAndChangeNothing : Obligations.ReadsReportAndChangeNothing := by
  unfold Obligations.ReadsReportAndChangeNothing
  refine ⟨⟨fun s tag lane held => ⟨fun beyond => ?noLane, fun n named => ?lane⟩,
    fun s tag table first count held => ⟨fun bad => ?noRange, fun k named low high within => ?range⟩,
    fun s tag plan held => ⟨fun beyond => ?noPlan, fun k named => ?plan⟩⟩, lengthMatches_reads⟩
  case noLane =>
    rw [exec_readLane_held held, ownReadLane_badArgument s tag (laneOfByte_eq_none.mpr beyond)]
  case lane =>
    rw [exec_readLane_held held, ownReadLane_of_lane s tag (laneOfByte_eq_some.mpr named), readLaneBytes_eq]
  case noRange =>
    rw [exec_readTable_held held]
    refine congrArg _ (ownReadTable_badArgument s tag ?_)
    rw [finOfByte_eq_none]
    omega
  case range =>
    rw [exec_readTable_held held, ownReadTable_of_range s tag (finOfByte_eq_some.mpr named) ⟨low, high⟩ (by omega)]
    rfl
  case noPlan =>
    rw [exec_readPlan_held held, ownReadPlan_badArgument s tag (finOfByte_eq_none.mpr beyond)]
  case plan =>
    rw [exec_readPlan_held held, ownReadPlan_of_plan s tag (finOfByte_eq_some.mpr named)]
    cases s.plans[k] with
    | none => rfl
    | some p => simp only [readPlanBytes, List.flatMap_def]

end Sys2Proof.Machine
end

section
/-! PROOFS. LOAD-TABLE (R25 to R30): which lanes a load finds in use or discards, what the table written reads, the
owner's act case by case, and the statement about it. -/

namespace Sys2Proof.Machine

/-! ### The lanes a load bears on (R27, R29, R51, R52) -/

/-- A load is barred exactly when the engine is not STOPPED and an enabled lane names what is loaded. -/
theorem State.barredByUse_iff (s : State) (names : Lane → Bool) :
    s.barredByUse names = true ↔
      s.engine ≠ .stopped ∧ ∃ n : Fin 4, (s.lane n).settings.enabled = true ∧ names (s.lane n) = true := by
  rw [State.barredByUse, Bool.and_eq_true, decide_eq_true_iff, State.someEnabled_iff]

/-- The set a load reports holds, while STOPPED, the lanes that name what is loaded and are part way. -/
theorem State.getLsbD_discardedBy (s : State) (names : Lane → Bool) (n : Fin 4) :
    (laneSetByte (s.discardedBy names)).getLsbD n.val =
      decide (s.engine = .stopped ∧ names (s.lane n) = true ∧ (s.lane n).ctx.state ≠ .await) := by
  rw [(laneSetByte_spec _).2 n]
  simp only [State.discardedBy, Lane.partWay, Bool.decide_and, Bool.decide_eq_true, Bool.and_assoc]

/-- The lanes of the set a reply reports are the lanes whose contexts were discarded. -/
theorem State.lane_discardContexts_reported (s : State) (inSet : Fin 4 → Bool) (n : Fin 4) :
    (s.discardContexts inSet).lane n =
      if (laneSetByte inSet).getLsbD n.val = true then { s.lane n with ctx := Context.cleared } else s.lane n := by
  rw [State.lane_discardContexts, (laneSetByte_spec inSet).2 n]

/-! ### The table written (R28) -/

/-- Indices outside the run keep their entries. -/
theorem tableEntry_writeEntries_outside (t : List (Nat × TableEntry)) {first i : Nat} {es : List TableEntry}
    (h : i < first ∨ first + es.length ≤ i) : tableEntry (writeEntries t first es) i = tableEntry t i := by
  rw [tableEntry_writeEntries]
  split
  · next hfirst =>
    have past : es.length ≤ i - first := by omega
    rw [List.getElem?_eq_none past, Option.getD_none]
  · rfl

/-- Indices of the run have the entries carried. -/
theorem tableEntry_writeEntries_inside (t : List (Nat × TableEntry)) (first : Nat) {i : Nat} {es : List TableEntry}
    {e : TableEntry} (h : es[i]? = some e) : tableEntry (writeEntries t first es) (first + i) = e := by
  rw [tableEntry_writeEntries, if_pos (Nat.le_add_right first i), Nat.add_sub_cancel_left, h, Option.getD_some]

/-! ### LOAD-TABLE -/

/-- A lane's settings name code table `k`. -/
def Lane.namesTable (k : Fin 8) (l : Lane) : Bool := decide (l.settings.table = k)

theorem Lane.namesTable_iff {k : Fin 8} {l : Lane} : l.namesTable k = true ↔ l.settings.table = k :=
  decide_eq_true_iff

/-- The state with the entries of a load in code table `k` (R28). -/
def State.writeTable (s : State) (k : Fin 8) (first : Nat) (es : List TableEntry) : State :=
  { s with tables := s.tables.set k (writeEntries s.tables[k] first es) }

theorem State.tables_writeTable_same (s : State) (k : Fin 8) (first : Nat) (es : List TableEntry) :
    (s.writeTable k first es).tables[k] = writeEntries s.tables[k] first es :=
  Vector.getElem_set_self k.isLt

theorem State.tables_writeTable_other (s : State) {j k : Fin 8} (first : Nat) (es : List TableEntry) (h : j ≠ k) :
    (s.writeTable k first es).tables[j] = s.tables[j] :=
  Vector.getElem_set_ne k.isLt j.isLt (fun same => h (Fin.ext same.symm))

/-- A LOAD-TABLE is refused when any of the checks of R25 fails, whatever else holds (R26). -/
theorem ownLoadTable_badArgument (s : State) (tag : Byte) {table first : Byte} {entries : List RawTableEntry}
    (h : finOfByte 8 table = none ∨ 255 < first.toNat + entries.length - 1 ∨ tableEntriesOfRaw entries = none) :
    ownLoadTable tag table first entries s = s.answer tag .badArgument [] := by
  unfold ownLoadTable
  split
  · rfl
  · next k htable =>
    split
    · rfl
    · next hlast =>
      have undefined : tableEntriesOfRaw entries = none := by simpa [htable, hlast] using h
      rw [undefined]

/-- A LOAD-TABLE that passes the checks of R25 is barred by use (R27), or is written with its discards (R28 to R30). -/
theorem ownLoadTable_of_defined (s : State) (tag : Byte) {table first : Byte} {entries : List RawTableEntry}
    {k : Fin 8} {es : List TableEntry} (htable : finOfByte 8 table = some k)
    (hlast : ¬255 < first.toNat + entries.length - 1) (hentries : tableEntriesOfRaw entries = some es) :
    ownLoadTable tag table first entries s =
      if s.barredByUse (Lane.namesTable k) then s.answer tag .inUse []
      else ((s.writeTable k first.toNat es).discardContexts (s.discardedBy (Lane.namesTable k))).answer tag .ok
        [laneSetByte (s.discardedBy (Lane.namesTable k))] := by
  simp only [ownLoadTable, htable, if_neg hlast, hentries]
  rfl

theorem exec_loadTable_held {s : State} {tag table first : Byte} {entries : List RawTableEntry}
    (h : s.link.state = .held
      { code := .loadTable, tag, payload := table :: first :: (entries.map RawTableEntry.bytes).flatten } .owner) :
    exec (.loadTable tag table first entries) s = .next (ownLoadTable tag table first entries s) :=
  requestStep_held _ _ h

/-- Settles O27: a load that passes its checks writes the table, reports the lanes part way by it, and discards the
contexts of those lanes. -/
theorem loadTableWritesWholeOrNothing : Obligations.LoadTableWritesWholeOrNothing := by
  unfold Obligations.LoadTableWritesWholeOrNothing
  intro s tag table first entries held nonempty
  have some_entry : 0 < entries.length := List.length_pos_iff.mpr nonempty
  rw [exec_loadTable_held held]
  refine ⟨fun bad => ?badArgument, fun k named within classes => ?defined⟩
  case badArgument =>
    refine congrArg _ (ownLoadTable_badArgument s tag ?_)
    rw [finOfByte_eq_none, tableEntriesOfRaw_eq_none]
    exact bad.imp_right (Or.imp_left fun past => by omega)
  case defined =>
    have all_defined : tableEntriesOfRaw entries ≠ none := fun hnone => by
      obtain ⟨e, he, hclass⟩ := (tableEntriesOfRaw_eq_none entries).mp hnone
      exact absurd hclass (Nat.not_lt.mpr (classes e he))
    obtain ⟨es, hes⟩ := Option.ne_none_iff_exists'.mp all_defined
    obtain ⟨hlength, hread⟩ := tableEntriesOfRaw_eq_some entries es hes
    rw [ownLoadTable_of_defined s tag (finOfByte_eq_some.mpr named) (by omega) hes]
    have barred := s.barredByUse_iff (Lane.namesTable k)
    simp only [Lane.namesTable_iff] at barred
    refine ⟨fun inUse => ?inUse, fun free => ?written⟩
    case inUse => rw [if_pos (barred.mpr inUse)]
    case written =>
      rw [if_neg (mt barred.mp free), State.discardContexts_eq]
      refine ⟨_, _, _, rfl, fun j other => s.tables_writeTable_other _ _ other, fun i outside => ?outside,
        fun i e carried => ?inside, (laneSetByte_spec _).1, fun n => ⟨?reported, ?discarded⟩⟩
      case outside =>
        rw [State.tables_writeTable_same, tableEntry_writeEntries_outside _ (hlength ▸ outside)]
      case inside =>
        obtain ⟨y, hy, htranslation, hclass⟩ := hread i e carried
        rw [State.tables_writeTable_same, tableEntry_writeEntries_inside _ first.toNat hy]
        exact ⟨htranslation, hclass⟩
      case reported => simp only [State.getLsbD_discardedBy, Lane.namesTable_iff]
      case discarded => exact State.lane_discardContexts_reported _ _ n

end Sys2Proof.Machine
end

section
/-! PROOFS. The end of a field (R66): the numbers the conversions read (R44 to R46) and their ranges (R43), the field step
at the cursor, and the statement about them. -/

namespace Sys2Proof.Machine

/-! ### The numbers read (R44 to R46) -/

theorem DecimalForm.fraction_eq_nil {sign whole fraction field : List Byte}
    (h : DecimalForm 0 sign whole fraction field) : fraction = [] := by
  obtain ⟨-, -, -, atMostZero, -⟩ := h
  exact List.eq_nil_of_length_eq_zero (Nat.le_zero.mp atMostZero)

/-- A key has no fraction digits and no sign (R44). -/
theorem keyNumber_decimal_eq_some {field : List Byte} {n : Nat} : keyNumber .decimal field = some n ↔
    ∃ whole, DecimalForm 0 [] whole [] field ∧ n = digitsNumber 10 (decimalDigits whole) := by
  refine decimalMagnitude_eq_some.trans ⟨?_, ?_⟩
  · rintro ⟨whole, fraction, form, hn⟩
    obtain rfl := form.fraction_eq_nil
    exact ⟨whole, form, by simpa using hn⟩
  · rintro ⟨whole, form, rfl⟩
    exact ⟨whole, [], form, by simp⟩

/-- HEX reads a field of 1 to `most` hexadecimal digits and no other (R45). -/
theorem hexNumber_of_fits_eq_some {most : Nat} {field : List Byte} {n : Nat} :
    (if fieldFits most field then hexNumber 0 field else none) = some n ↔
      ((∀ b ∈ field, IsHexDigit b) ∧ 1 ≤ field.length ∧ field.length ≤ most) ∧
        n = digitsNumber 16 (field.map hexValue) := by
  rw [Option.ite_none_right_eq_some, fieldFits_iff]
  by_cases digits : ∀ b ∈ field, IsHexDigit b
  · have read : hexNumber 0 field = some (digitsNumber 16 (field.map hexValue)) := (hexNumber_eq field 0).1 digits
    rw [read, Option.some_inj]
    exact ⟨fun ⟨fits, h⟩ => ⟨⟨digits, fits⟩, h.symm⟩, fun ⟨⟨_, fits⟩, h⟩ => ⟨fits, h.symm⟩⟩
  · rw [(hexNumber_eq field 0).2 digits]
    exact ⟨fun ⟨_, h⟩ => (Option.some_ne_none _ h.symm).elim, fun ⟨⟨h, _⟩, _⟩ => absurd h digits⟩

theorem keyNumber_hex_eq_some {field : List Byte} {n : Nat} : keyNumber .hex field = some n ↔
    ((∀ b ∈ field, IsHexDigit b) ∧ 1 ≤ field.length ∧ field.length ≤ 8) ∧ n = digitsNumber 16 (field.map hexValue) :=
  hexNumber_of_fits_eq_some

theorem valueNumber_hex_eq_some {f : Nat} {field : List Byte} {n : Int} : valueNumber .hex f field = some n ↔
    ((∀ b ∈ field, IsHexDigit b) ∧ 1 ≤ field.length ∧ field.length ≤ 12) ∧
      n = (digitsNumber 16 (field.map hexValue) : Nat) := by
  have mapped : valueNumber .hex f field =
      (if fieldFits 12 field then hexNumber 0 field else none).map Int.ofNat := by
    simp only [valueNumber, apply_ite (Option.map Int.ofNat), Option.map_none]
  simp only [mapped, Option.map_eq_some_iff, hexNumber_of_fits_eq_some, Int.ofNat_eq_natCast]
  exact ⟨fun ⟨m, ⟨form, hm⟩, hn⟩ => ⟨form, by rw [← hn, hm]⟩, fun ⟨form, hn⟩ => ⟨_, ⟨form, rfl⟩, hn.symm⟩⟩

theorem keyNumber_raw_eq_some {field : List Byte} {n : Nat} : keyNumber .raw field = some n ↔
    (1 ≤ field.length ∧ field.length ≤ 4) ∧ n = digitsNumber 256 (field.map BitVec.toNat) := by
  rw [keyNumber, Option.ite_none_right_eq_some, fieldFits_iff, rawNumber_eq, Option.some_inj, eq_comm (a := n)]

theorem valueNumber_raw_eq_some {f : Nat} {field : List Byte} {n : Int} : valueNumber .raw f field = some n ↔
    (1 ≤ field.length ∧ field.length ≤ 6) ∧ n = (digitsNumber 256 (field.map BitVec.toNat) : Nat) := by
  rw [valueNumber, Option.ite_none_right_eq_some, fieldFits_iff, rawNumber_eq, Option.some_inj, eq_comm (a := n),
    Int.ofNat_eq_natCast]

/-! ### The numbers in range (R43) -/

theorem digitsNumber_hexValue_lt {field : List Byte} (h : ∀ b ∈ field, IsHexDigit b) :
    digitsNumber 16 (field.map hexValue) < 16 ^ field.length := by
  have below : ∀ d ∈ field.map hexValue, d < 16 := by
    simpa only [List.forall_mem_map] using fun b hb => hexValue_lt (h b hb)
  simpa only [List.length_map] using digitsNumber_lt _ below

theorem digitsNumber_toNat_lt (field : List Byte) :
    digitsNumber 256 (field.map BitVec.toNat) < 256 ^ field.length := by
  have below : ∀ d ∈ field.map BitVec.toNat, d < 256 := by
    simpa only [List.forall_mem_map] using fun b _ => b.isLt
  simpa only [List.length_map] using digitsNumber_lt _ below

theorem convertKey_eq_none {c : Conversion} {field : List Byte} (h : ∀ n, keyNumber c field ≠ some n) :
    convertKey c field = none :=
  convertKey_of_none (Option.eq_none_iff_forall_ne_some.mpr h)

theorem convertValue_eq_none {c : Conversion} {f : Nat} {field : List Byte} (h : ∀ n, valueNumber c f field ≠ some n) :
    convertValue c f field = none :=
  convertValue_of_none (Option.eq_none_iff_forall_ne_some.mpr h)

/-- A conversion that accepts one form, whose numbers are all in the key range, gives a key on that form alone. -/
theorem convertKey_of_accepts {c : Conversion} {field : List Byte} {Form : Prop} {n : Nat}
    (read : ∀ {m : Nat}, keyNumber c field = some m ↔ Form ∧ m = n) (inRange : Form → n ≤ 4294967295) :
    (Form → ∃ k : Key, convertKey c field = some k ∧ k.toNat = n) ∧ (¬Form → convertKey c field = none) :=
  ⟨fun form => (convertKey_of_number (read.mpr ⟨form, rfl⟩)).1 (inRange form),
    fun other => convertKey_eq_none fun _ h => other (read.mp h).1⟩

/-- A conversion that accepts one form, without a sign, gives a value on that form where the number is in the value range,
and there alone. -/
theorem convertValue_of_accepts {c : Conversion} {f : Nat} {field : List Byte} {Form : Prop} {n : Nat}
    (read : ∀ {m : Int}, valueNumber c f field = some m ↔ Form ∧ m = n) :
    (Form ∧ n ≤ 140737488355327 → ∃ v : Value, convertValue c f field = some v ∧ v.toInt = n) ∧
    (¬(Form ∧ n ≤ 140737488355327) → convertValue c f field = none) := by
  refine ⟨fun ⟨form, inRange⟩ => ?_, fun refused => ?_⟩
  · exact (convertValue_of_number (read.mpr ⟨form, rfl⟩)).1 (by omega)
  · by_cases form : Form
    · have beyond : 140737488355327 < n := Nat.lt_of_not_le fun inRange => refused ⟨form, inRange⟩
      exact (convertValue_of_number (read.mpr ⟨form, rfl⟩)).2 (by omega)
    · exact convertValue_eq_none fun _ h => form (read.mp h).1

theorem convertKey_hex (field : List Byte) :
    let form := (∀ b ∈ field, IsHexDigit b) ∧ 1 ≤ field.length ∧ field.length ≤ 8
    (form → ∃ k : Key, convertKey .hex field = some k ∧ k.toNat = digitsNumber 16 (field.map hexValue)) ∧
    (¬form → convertKey .hex field = none) := by
  refine convertKey_of_accepts keyNumber_hex_eq_some fun ⟨digits, _, short⟩ => ?_
  have := digitsNumber_hexValue_lt digits
  have : 16 ^ field.length ≤ 16 ^ 8 := Nat.pow_le_pow_right (by omega) short
  omega

theorem convertKey_raw (field : List Byte) :
    let form := 1 ≤ field.length ∧ field.length ≤ 4
    (form → ∃ k : Key, convertKey .raw field = some k ∧ k.toNat = digitsNumber 256 (field.map BitVec.toNat)) ∧
    (¬form → convertKey .raw field = none) := by
  refine convertKey_of_accepts keyNumber_raw_eq_some fun ⟨_, short⟩ => ?_
  have := digitsNumber_toNat_lt field
  have : 256 ^ field.length ≤ 256 ^ 4 := Nat.pow_le_pow_right (by omega) short
  omega

/-! ### The end of a field (R66) -/

section
variable {env : ScanEnv} {c c' : Context} {o : RecordOutcome}

/-- Once the plan is complete the tail policy alone deals with the field (R35). -/
theorem Context.endField_of_complete (h : c.complete = true) : c.endField env = ({ c with field := [] },
    if env.plan.tailPolicy = .strict ∧ c.field ≠ [] then some .overlong else none) :=
  if_pos h

theorem Context.endField_of_consumed (h : c.complete = false) (hc : c.consume env = .ok c') :
    c.endField env = Context.run env { c' with field := [], boundary := false } := by
  simp only [Context.endField, h, Bool.false_eq_true, if_false, hc]

theorem Context.endField_of_refused (h : c.complete = false) (hc : c.consume env = .error o) :
    c.endField env = ({ c with field := [] }, some o) := by
  simp only [Context.endField, h, Bool.false_eq_true, if_false, hc]

theorem Context.consume_key_of_some {conversion : Conversion} {k : Key}
    (hs : env.plan.steps[c.cursor]? = some (.key conversion)) (hk : convertKey conversion c.field = some k) :
    c.consume env = .ok { c with key := some k, cursor := c.cursor + 1 } := by
  simp only [Context.consume, hs, hk]

theorem Context.consume_key_of_none {conversion : Conversion}
    (hs : env.plan.steps[c.cursor]? = some (.key conversion)) (hk : convertKey conversion c.field = none) :
    c.consume env = .error .convert := by
  simp only [Context.consume, hs, hk]

theorem Context.consume_value_of_some {conversion : Conversion} {slot : Fin 4} {f : Nat} {v : Value}
    (hs : env.plan.steps[c.cursor]? = some (.value conversion slot f)) (hv : convertValue conversion f c.field = some v) :
    c.consume env = .ok { c with slots := c.slots.set slot (some v), cursor := c.cursor + 1 } := by
  simp only [Context.consume, hs, hv]

theorem Context.consume_value_of_none {conversion : Conversion} {slot : Fin 4} {f : Nat}
    (hs : env.plan.steps[c.cursor]? = some (.value conversion slot f)) (hv : convertValue conversion f c.field = none) :
    c.consume env = .error .convert := by
  simp only [Context.consume, hs, hv]

theorem Context.consume_skipField (hs : env.plan.steps[c.cursor]? = some .skipField) :
    c.consume env = .ok { c with cursor := c.cursor + 1 } := by
  simp only [Context.consume, hs]

theorem Context.consume_match_of_eq {literal : List Byte} {onMiss : OnMiss}
    (hs : env.plan.steps[c.cursor]? = some (.matchLiteral literal onMiss)) (hl : c.field = literal) :
    c.consume env = .ok { c with cursor := c.cursor + 1 } := by
  simp only [Context.consume, hs, if_pos hl]

theorem Context.consume_match_fault {literal : List Byte}
    (hs : env.plan.steps[c.cursor]? = some (.matchLiteral literal .fault)) (hl : c.field ≠ literal) :
    c.consume env = .error .mismatch := by
  simp only [Context.consume, hs, if_neg hl]

theorem Context.consume_match_leave {literal : List Byte}
    (hs : env.plan.steps[c.cursor]? = some (.matchLiteral literal .leave)) (hl : c.field ≠ literal) :
    c.consume env = .ok { c with stack := c.stack.tail, cursor := env.plan.afterGroup c.cursor } := by
  simp only [Context.consume, hs, if_neg hl]

end

/-- Settles O40: each conversion gives a result exactly on the numbers it reads that lie in range, LEAVE goes past the
AGAIN that closes its group, and the end of a field follows the step at the cursor. -/
theorem fieldsAreConsumed : Obligations.FieldsAreConsumed := by
  unfold Obligations.FieldsAreConsumed
  refine ⟨fun f field => ⟨?decimalValue, ?noDecimalValue, ?decimalKey, ?noDecimalKey, ?hex, ?raw⟩,
    fun p i => ⟨fun j => Plan.afterGroup_eq, fun valid inGroup => p.exists_closes valid inGroup⟩,
    fun env c => ⟨Context.endField_of_complete, fun going => ⟨?key, ?value, ?skipField, ?literal, ?fault, ?leave⟩⟩⟩
  case decimalValue =>
    intro sign whole fraction form
    exact convertValue_of_number (c := .decimal) (decimalNumber_eq_some.mpr ⟨sign, whole, fraction, form, rfl⟩)
  case noDecimalValue =>
    intro noForm
    refine convertValue_eq_none fun n read => ?_
    obtain ⟨sign, whole, fraction, form, -⟩ := decimalNumber_eq_some.mp read
    exact noForm sign whole fraction form
  case decimalKey =>
    intro whole form
    exact convertKey_of_number (keyNumber_decimal_eq_some.mpr ⟨whole, form, rfl⟩)
  case noDecimalKey =>
    intro noForm
    refine convertKey_eq_none fun n read => ?_
    obtain ⟨whole, form, -⟩ := keyNumber_decimal_eq_some.mp read
    exact noForm whole form
  case hex =>
    have value := convertValue_of_accepts (valueNumber_hex_eq_some (f := f) (field := field))
    simp only [and_assoc] at value
    exact ⟨(convertKey_hex field).1, (convertKey_hex field).2, value.1, value.2⟩
  case raw =>
    have value := convertValue_of_accepts (valueNumber_raw_eq_some (f := f) (field := field))
    simp only [and_assoc] at value
    exact ⟨(convertKey_raw field).1, (convertKey_raw field).2, value.1, value.2⟩
  case key =>
    intro conversion step
    split
    · next hnone => exact Context.endField_of_refused going (Context.consume_key_of_none step hnone)
    · next k hk => exact Context.endField_of_consumed going (Context.consume_key_of_some step hk)
  case value =>
    intro conversion slot digits step
    split
    · next hnone => exact Context.endField_of_refused going (Context.consume_value_of_none step hnone)
    · next v hv => exact Context.endField_of_consumed going (Context.consume_value_of_some step hv)
  case skipField =>
    intro step
    exact Context.endField_of_consumed going (Context.consume_skipField step)
  case literal =>
    intro literal onMiss step met
    exact Context.endField_of_consumed going (Context.consume_match_of_eq step met)
  case fault =>
    intro literal step missed
    exact Context.endField_of_refused going (Context.consume_match_fault step missed)
  case leave =>
    intro literal step missed
    exact Context.endField_of_consumed going (Context.consume_match_leave step missed)

end Sys2Proof.Machine
end

section
/-! PROOFS. Entries taken in AWAIT and in RESYNC (R61, R74), how a record begins (R60), and the statement about them. -/

namespace Sys2Proof.Machine

section
variable {env : ScanEnv} {c : Context} {value : Byte} {gap : Bool}

/-! ### Entries in AWAIT (R61) -/

theorem processEntry_of_await (h : c.state = .await) (entry : FifoEntry) :
    processEntry env c entry = inAwait env c entry := by
  simp only [processEntry, h]

theorem inAwait_start (h : (env.look value).cls = .start) :
    inAwait env c (.byte value false gap) = beginRecord env (env.look value) := by
  simp only [inAwait, h]

/-- A DATA or SEP byte begins a record exactly when the plan does not require a START byte. -/
theorem inAwait_data_sep (h : (env.look value).cls = .data ∨ (env.look value).cls = .sep) :
    inAwait env c (.byte value false gap) =
      if env.plan.startRequired then (c, []) else beginRecord env (env.look value) := by
  obtain data | sep := h
  · simp only [inAwait, data]
  · simp only [inAwait, sep]

theorem inAwait_dropped
    (h : (env.look value).cls = .skip ∨ (env.look value).cls = .fin ∨ (env.look value).cls = .fault) :
    inAwait env c (.byte value false gap) = (c, []) := by
  obtain skip | fin | fault := h
  · simp only [inAwait, skip]
  · simp only [inAwait, fin]
  · simp only [inAwait, fault]

/-! ### Entries in RESYNC (R74) -/

theorem processEntry_of_resync (h : c.state = .resync) (entry : FifoEntry) :
    processEntry env c entry = inResync env c entry := by
  simp only [processEntry, h]

theorem inResync_start (h : (env.look value).cls = .start) :
    inResync env c (.byte value false gap) = beginRecord env (env.look value) := by
  simp only [inResync, h]

theorem inResync_fin (h : (env.look value).cls = .fin) :
    inResync env c (.byte value false gap) = ({ c with state := .await }, []) := by
  simp only [inResync, h]

theorem inResync_dropped (notStart : (env.look value).cls ≠ .start) (notFin : (env.look value).cls ≠ .fin) :
    inResync env c (.byte value false gap) = (c, []) := by
  cases h : (env.look value).cls with
  | start => exact absurd h notStart
  | fin => exact absurd h notFin
  | data => simp only [inResync, h]
  | sep => simp only [inResync, h]
  | skip => simp only [inResync, h]
  | fault => simp only [inResync, h]

end

/-! ### The beginning of a record (R60) -/

section
variable {env : ScanEnv} {c : Context} {e : TableEntry} {o : RecordOutcome}

/-- A record that ends while its first byte is dealt with: one unit of length 1 without posts, the context in AWAIT after
SHORT and in RESYNC after any other outcome (R72, R73). -/
def Context.endedAtFirstByte (c : Context) (o : RecordOutcome) : Context × List FinishedUnit :=
  ({ c with state := if o = .short then .await else .resync, posts := [] }, [{ outcome := o, length := 1, posts := [] }])

theorem Context.finish_eq_endedAtFirstByte (hlength : c.length = 1) (ho : o = .short ∨ o.stateAfter = .resync) :
    c.finish o = c.endedAtFirstByte o := by
  obtain rfl | resync := ho
  · simp only [Context.finish, Context.leave, Context.unit, Context.endedAtFirstByte, RecordOutcome.stateAfter, hlength,
      if_true, reduceCtorEq, if_false]
  · have notShort : o ≠ .short := by
      rintro rfl
      cases resync
    have notAccepted : o ≠ .accepted := by
      rintro rfl
      cases resync
    simp only [Context.finish, Context.leave, Context.unit, Context.endedAtFirstByte, resync, hlength, if_neg notShort,
      if_neg notAccepted]

/-- The run from step 0 keeps the first byte counted and the field empty. -/
theorem run_begun_keeps (env : ScanEnv) :
    (Context.run env Context.begun).1.length = 1 ∧ (Context.run env Context.begun).1.field = [] := by
  obtain ⟨-, hfield, hlength, -⟩ := runCursor_keeps env runFuel Context.begun
  exact ⟨hlength, hfield⟩

/-- No key is held at step 0, so a POST there ends the record as SHORT (R69). -/
theorem run_begun_outcome (h : (Context.run env Context.begun).2 = some o) : o = .short := by
  obtain short | ⟨keyHeld, -⟩ := runCursor_outcome env runFuel Context.begun o h
  · exact short
  · exact absurd rfl keyHeld

theorem beginRecord_of_ended (e : TableEntry) (hrun : Context.run env Context.begun = (c, some o)) :
    beginRecord env e = c.endedAtFirstByte o := by
  have hlength : c.length = 1 := by simpa only [hrun] using (run_begun_keeps env).1
  have short : o = .short := run_begun_outcome (congrArg Prod.snd hrun)
  simp only [beginRecord, hrun, Context.finish_eq_endedAtFirstByte hlength (.inl short)]

theorem beginRecord_start (hrun : Context.run env Context.begun = (c, none)) (he : e.cls = .start) :
    beginRecord env e = (c, []) := by
  simp only [beginRecord, hrun, he]

theorem beginRecord_data (hrun : Context.run env Context.begun = (c, none)) (he : e.cls = .data) :
    beginRecord env e = ({ c with field := [e.translation] }, []) := by
  have hfield : c.field = [] := by simpa only [hrun] using (run_begun_keeps env).2
  simp only [beginRecord, hrun, he, hfield, List.nil_append]

theorem beginRecord_sep (hrun : Context.run env Context.begun = (c, none)) (he : e.cls = .sep) :
    beginRecord env e = settleRecord (c.endField env) := by
  simp only [beginRecord, hrun, he]

/-- An empty field that ends the record at the SEP byte that began it. -/
theorem beginRecord_sep_of_ended (hrun : Context.run env Context.begun = (c, none)) (he : e.cls = .sep)
    (ho : (c.endField env).2 = some o) : beginRecord env e = (c.endField env).1.endedAtFirstByte o := by
  have hlength : (c.endField env).1.length = 1 := by
    obtain ⟨-, -, kept, -⟩ := Context.endField_keeps env c
    simpa only [kept, hrun] using (run_begun_keeps env).1
  simp only [beginRecord_sep hrun he, settleRecord, ho,
    Context.finish_eq_endedAtFirstByte hlength (Context.endField_outcome ho)]

end

/-- Settles O37: the state the entry finds and its class decide between dropping it, beginning a record and the return to
AWAIT; the run from step 0 and then the first byte decide how a record begins. -/
theorem entriesOutsideARecord : Obligations.EntriesOutsideARecord := by
  unfold Obligations.EntriesOutsideARecord
  intro env c value gap byte look
  refine ⟨fun await => ?await, fun resync => ?resync, ?begins⟩
  case await =>
    simp only [processEntry_of_await await]
    refine ⟨rfl, rfl, fun start => inAwait_start start, fun byteClass notRequired => ?_, fun byteClass required => ?_,
      fun dropped => inAwait_dropped dropped⟩
    · exact (inAwait_data_sep byteClass).trans (if_neg (Bool.eq_false_iff.mp notRequired))
    · exact (inAwait_data_sep byteClass).trans (if_pos required)
  case resync =>
    simp only [processEntry_of_resync resync]
    exact ⟨rfl, rfl, fun start => inResync_start start, fun fin => inResync_fin fin,
      fun notStart notFin => inResync_dropped notStart notFin⟩
  case begins =>
    intro run endedWith
    refine ⟨fun o ended => ⟨run_begun_outcome ended, beginRecord_of_ended look (Prod.ext rfl ended)⟩, fun goesOn => ?_⟩
    have hrun : Context.run env Context.begun = (run.1, none) := Prod.ext rfl goesOn
    refine ⟨fun start => beginRecord_start hrun start, fun data => beginRecord_data hrun data, fun sep => ⟨?_, ?_⟩⟩
    · intro fieldEnds
      simp only [beginRecord_sep hrun sep, settleRecord, fieldEnds]
    · intro o ended
      exact beginRecord_sep_of_ended hrun sep ended

end Sys2Proof.Machine
end

section
/-! PROOFS. Taking an entry in a grant (R57, R58): when the grant ends, and the statement about SCAN_ENTRY. -/

namespace Sys2Proof.Machine

/-- The conditions that end a grant after an entry that ended no record (R57). -/
theorem State.grantEnds_iff (s : State) (n : Fin 4) : s.grantEnds n = true ↔
    (s.lane n).fifo = [] ∨ 64 ≤ s.taken ∨ s.engine ≠ .running ∨ s.flushWaiting = some n := by
  simp only [State.grantEnds, Bool.or_eq_true, List.isEmpty_iff, decide_eq_true_eq, or_assoc]

/-- Units to release go before the end of the grant, and that before the next entry (R57, R58). -/
theorem State.afterEntry_eq (s : State) (n : Fin 4) (units : List FinishedUnit) : s.afterEntry n units =
    if units ≠ [] then { s with scan := .releasing n units }
    else if (s.lane n).fifo = [] ∨ 64 ≤ s.taken ∨ s.engine ≠ .running ∨ s.flushWaiting = some n then
      ({ s with scan := .free } : State).testHaltDone
    else s := by
  simp only [State.afterEntry, State.grantEnds_iff, Bool.not_eq_true', List.isEmpty_eq_false_iff]

/-- The state with an entry of a grant taken from lane `n`, before the grant goes on or ends (R57). -/
def State.withEntryTaken (s : State) (n : Fin 4) (rest : List FifoEntry) (ctx : Context) : State :=
  { s.putLane n { s.lane n with fifo := rest, ctx } with taken := s.taken + 1 }

theorem State.lane_withEntryTaken (s : State) (n : Fin 4) (rest : List FifoEntry) (ctx : Context) :
    (s.withEntryTaken n rest ctx).lane n = { s.lane n with fifo := rest, ctx } :=
  (s.lane_putLane n n _).trans (if_pos rfl)

/-- SCAN_ENTRY on a granted lane with an entry and a plan takes the oldest entry and processes it (R57). -/
theorem exec_scanEntry_of_entry {s : State} {n : Fin 4} {entry : FifoEntry} {rest : List FifoEntry} {p : Plan}
    (scanning : s.scan = .scanning n) (oldest : (s.lane n).fifo = entry :: rest)
    (plan : s.plans[(s.lane n).settings.plan] = some p) :
    exec .scanEntry s = .next
      ((s.withEntryTaken n rest (processEntry (s.scanEnv n p) (s.lane n).ctx entry).1).afterEntry n
        (processEntry (s.scanEnv n p) (s.lane n).ctx entry).2) := by
  simp only [exec, execScanEntry, scanning, oldest, plan, State.takeEntry, State.withEntryTaken]

/-- Settles O36: the oldest entry is processed in its lane's context, and the units it gives and the conditions of R57
decide what becomes of the grant. -/
theorem scanEntryTakesOldestEntry : Obligations.ScanEntryTakesOldestEntry := by
  unfold Obligations.ScanEntryTakesOldestEntry
  intro s n entry rest p scanning oldest plan result taken
  have units_first : exec .scanEntry s = .next (taken.afterEntry n result.2) :=
    exec_scanEntry_of_entry scanning oldest plan
  have lane_left : (taken.lane n).fifo = rest := congrArg Lane.fifo (s.lane_withEntryTaken n rest result.1)
  rw [units_first, State.afterEntry_eq, lane_left]
  rfl

end Sys2Proof.Machine
end

section
/-! PROOFS. What the searches over the windows find (R82, R86), the lookup from a level on, and the statement about the
lookup (R82, R83). -/

namespace Sys2Proof.Machine

/-! ### The search for a window -/

/-- A place that holds no window that meets the condition is passed over. -/
theorem findWindow_cons_skip {p : Nat → Window → Bool} {start : Nat} {x : Option Window} (ws : List (Option Window))
    (h : ∀ w, x = some w → p start w = false) : findWindow p start (x :: ws) = findWindow p (start + 1) ws := by
  cases x with
  | none => rfl
  | some w => rw [findWindow, h w rfl, if_neg Bool.false_ne_true]

theorem findWindow_cons_hit {p : Nat → Window → Bool} {start : Nat} {w : Window} (ws : List (Option Window))
    (h : p start w = true) : findWindow p start (some w :: ws) = some (start, w) := by
  rw [findWindow, if_pos h]

/-- What a search finds is a window at the index named, and it meets the condition. -/
theorem findWindow_sound {p : Nat → Window → Bool} {start j : Nat} {w : Window} {ws : List (Option Window)}
    (h : findWindow p start ws = some (j, w)) : ∃ k, j = start + k ∧ ws[k]? = some (some w) ∧ p j w = true := by
  induction ws generalizing start with
  | nil => cases h
  | cons x ws ih =>
    by_cases skip : ∀ v, x = some v → p start v = false
    · rw [findWindow_cons_skip ws skip] at h
      obtain ⟨k, place, found⟩ := ih h
      exact ⟨k + 1, by omega, found⟩
    · obtain ⟨v, rfl, hit⟩ := by simpa using skip
      rw [findWindow_cons_hit ws hit] at h
      cases h
      exact ⟨0, rfl, rfl, hit⟩

/-- A window that meets the condition is found when no window before it does. -/
theorem findWindow_of_first {p : Nat → Window → Bool} {start k : Nat} {w : Window} {ws : List (Option Window)}
    (place : ws[k]? = some (some w)) (hit : p (start + k) w = true)
    (first : ∀ m < k, ∀ v, ws[m]? = some (some v) → p (start + m) v = false) :
    findWindow p start ws = some (start + k, w) := by
  induction ws generalizing start k with
  | nil => cases place
  | cons x ws ih =>
    cases k with
    | zero =>
      cases place
      exact findWindow_cons_hit ws hit
    | succ k =>
      have skip : ∀ v, x = some v → p start v = false := fun v hv => first 0 k.succ_pos v (congrArg some hv)
      have later : ∀ m, start + (m + 1) = start + 1 + m := fun m => by omega
      rw [findWindow_cons_skip ws skip, later k]
      rw [later] at hit
      exact ih place hit fun m before v hv => later m ▸ first (m + 1) (Nat.succ_lt_succ before) v hv

/-- Nothing is found when no window meets the condition. -/
theorem findWindow_of_none {p : Nat → Window → Bool} {start : Nat} {ws : List (Option Window)}
    (h : ∀ (k : Nat) (w : Window), ws[k]? = some (some w) → p (start + k) w = false) :
    findWindow p start ws = none := by
  cases found : findWindow p start ws with
  | none => rfl
  | some r =>
    obtain ⟨k, hk, place, hit⟩ := findWindow_sound found
    rw [hk, h k r.2 place] at hit
    cases hit

section
variable {windows : Vector (Option Window) 128} {p : Nat → Window → Bool}

/-- A place of the list of windows is a window of the map. -/
theorem getElem?_toList_eq_some {k : Nat} {w : Window} :
    windows.toList[k]? = some (some w) ↔ ∃ i : Fin 128, i.val = k ∧ windows[i] = some w := by
  rw [List.getElem?_eq_some_iff]
  refine ⟨fun ⟨hk, h⟩ => ⟨⟨k, by simpa using hk⟩, rfl, by simpa using h⟩, ?_⟩
  rintro ⟨i, rfl, h⟩
  exact ⟨by simp, by simpa using h⟩

/-- The search of the whole map finds only a window that is there and meets the condition. -/
theorem findWindow_map_sound {j : Nat} {w : Window} (h : findWindow p 0 windows.toList = some (j, w)) :
    ∃ i : Fin 128, i.val = j ∧ windows[i] = some w ∧ p j w = true := by
  obtain ⟨k, rfl, place, hit⟩ := findWindow_sound h
  obtain ⟨i, rfl, hi⟩ := getElem?_toList_eq_some.mp place
  exact ⟨i, (Nat.zero_add _).symm, hi, hit⟩

/-- The search of the whole map finds the lowest-numbered window that meets the condition. -/
theorem findWindow_map_of_first {i : Fin 128} {w : Window} (place : windows[i] = some w) (hit : p i w = true)
    (first : ∀ m < i, ∀ v, windows[m] = some v → p m v = false) :
    findWindow p 0 windows.toList = some (i.val, w) := by
  have found := findWindow_of_first (p := p) (start := 0) (getElem?_toList_eq_some.mpr ⟨i, rfl, place⟩)
  simp only [Nat.zero_add] at found
  refine found hit fun m before v hv => ?_
  obtain ⟨m, rfl, hm⟩ := getElem?_toList_eq_some.mp hv
  exact first m before v hm

/-- The search of the whole map finds nothing when none of its windows meets the condition. -/
theorem findWindow_map_of_none (h : ∀ (i : Fin 128) (w : Window), windows[i] = some w → p i w = false) :
    findWindow p 0 windows.toList = none := by
  refine findWindow_of_none fun k w place => ?_
  obtain ⟨i, rfl, hi⟩ := getElem?_toList_eq_some.mp place
  rw [Nat.zero_add]
  exact h i w hi

end

/-! ### The window of a level that holds a key (R81, R82) -/

/-- What a lookup looks for at a level: the window of that level whose range holds the key. -/
def windowFor (windows : Vector (Option Window) 128) (level : Fin 4) (key : Nat) : Option (Nat × Window) :=
  findWindow (fun _ w => decide (w.level = level) && w.holds key) 0 windows.toList

section
variable {windows : Vector (Option Window) 128} {level : Fin 4} {key visits : Nat}

theorem Window.holds_iff {w : Window} : w.holds key = true ↔ w.base.toNat ≤ key ∧ key ≤ w.limit.toNat :=
  decide_eq_true_iff

theorem windowFor_eq_none
    (h : ∀ (i : Fin 128) (w : Window), windows[i] = some w → w.level = level →
      ¬(w.base.toNat ≤ key ∧ key ≤ w.limit.toNat)) : windowFor windows level key = none :=
  findWindow_map_of_none fun i w place => by simpa [Window.holds] using h i w place

/-- In a map that keeps R81 a window that holds the key at its level is the one found: no other window there holds it. -/
theorem windowFor_eq_some (sound : WindowsSound windows) {i : Fin 128} {w : Window} (place : windows[i] = some w)
    (hlevel : w.level = level) (hholds : w.holds key = true) : windowFor windows level key = some (i.val, w) := by
  refine findWindow_map_of_first place (by simp [hlevel, hholds]) fun m before v hv => ?_
  have apart := sound.2 m i v w (Fin.ne_of_lt before) hv place
  rw [hlevel] at apart
  simp only [← Bool.not_eq_true, Bool.and_eq_true, decide_eq_true_eq]
  exact fun ⟨same, both⟩ => apart same key ⟨both, hholds⟩

theorem windowFor_sound {j : Nat} {w : Window} (h : windowFor windows level key = some (j, w)) :
    ∃ i : Fin 128, i.val = j ∧ windows[i] = some w ∧ w.level = level ∧ w.holds key = true := by
  simpa using findWindow_map_sound h

/-! ### The lookup, window by window (R82) -/

theorem lookupFrom_of_none (h : windowFor windows level key = none) :
    lookupFrom windows.toList visits level key = (.miss level, []) := by
  cases visits with
  | zero => rfl
  | succ visits =>
    rw [windowFor] at h
    simp only [lookupFrom, h]

variable {i : Nat} {w : Window} (h : windowFor windows level key = some (i, w))
include h

theorem lookupFrom_of_single {g : Group} (hk : w.kind = .single g) :
    lookupFrom windows.toList (visits + 1) level key = (.routed g.toNat, [i]) := by
  rw [windowFor] at h
  simp only [lookupFrom, h, hk]

theorem lookupFrom_of_spread {g : Group} (hk : w.kind = .spread g) :
    lookupFrom windows.toList (visits + 1) level key = (.routed (g.toNat + (key - w.base.toNat)), [i]) := by
  rw [windowFor] at h
  simp only [lookupFrom, h, hk]

/-- A DESCEND window sends the lookup on, to its target level. -/
theorem lookupFrom_of_descend {target : Fin 4} {rebase : Bool} (hk : w.kind = .descend target rebase) :
    lookupFrom windows.toList (visits + 1) level key =
      ((lookupFrom windows.toList visits target (if rebase then key - w.base.toNat else key)).1,
        i :: (lookupFrom windows.toList visits target (if rebase then key - w.base.toNat else key)).2) := by
  rw [windowFor] at h
  simp only [lookupFrom, h, hk]

end

/-! ### A lookup only goes deeper (R81, R83) -/

section
variable {windows : Vector (Option Window) 128} (sound : WindowsSound windows)
include sound

/-- The window found keeps R81 for its kind. -/
theorem windowFor_window_sound {level : Fin 4} {key i : Nat} {w : Window}
    (h : windowFor windows level key = some (i, w)) :
    w.Sound ∧ w.level = level ∧ w.base.toNat ≤ key ∧ key ≤ w.limit.toNat := by
  obtain ⟨i, -, place, hlevel, hholds⟩ := windowFor_sound h
  exact ⟨sound.1 i w place, hlevel, Window.holds_iff.mp hholds⟩

theorem windowFor_descend_deeper {level target : Fin 4} {key i : Nat} {w : Window} {rebase : Bool}
    (h : windowFor windows level key = some (i, w)) (hk : w.kind = .descend target rebase) : level < target := by
  obtain ⟨⟨-, kind⟩, rfl, -⟩ := windowFor_window_sound sound h
  rw [hk] at kind
  exact kind

/-- As many visits as there are levels left are enough: more change nothing. -/
theorem lookupFrom_visits_congr {v v' : Nat} {level : Fin 4} (hv : 4 ≤ level.val + v) (hv' : 4 ≤ level.val + v')
    (key : Nat) : lookupFrom windows.toList v level key = lookupFrom windows.toList v' level key := by
  induction v generalizing v' level key with
  | zero => omega
  | succ v ih =>
    obtain ⟨v', rfl⟩ : ∃ u, v' = u + 1 := Nat.exists_eq_add_one_of_ne_zero (by omega)
    cases found : windowFor windows level key with
    | none => rw [lookupFrom_of_none found, lookupFrom_of_none found]
    | some r =>
      obtain ⟨i, w⟩ := r
      cases hk : w.kind with
      | single g => rw [lookupFrom_of_single found hk, lookupFrom_of_single found hk]
      | spread g => rw [lookupFrom_of_spread found hk, lookupFrom_of_spread found hk]
      | descend target rebase =>
        have deeper := windowFor_descend_deeper sound found hk
        have same := ih (v' := v') (level := target) (by omega) (by omega)
        rw [lookupFrom_of_descend found hk, lookupFrom_of_descend found hk, same]

end

/-- The result of a lookup from a level with a number of visits (R83): at most that many windows visited, a group of the
tally store after at least one, and a MISS no less deep than the windows visited lead. -/
def LookupBounded (level visits : Nat) (r : LookupResult × List Nat) : Prop :=
  r.2.length ≤ visits ∧ (∀ g, r.1 = .routed g → g ≤ 65487 ∧ 1 ≤ r.2.length) ∧
    ∀ m, r.1 = .miss m → m ≤ 3 ∧ level + r.2.length ≤ m

theorem lookupBounded_miss (level : Fin 4) (visits : Nat) : LookupBounded level visits (.miss level.val, []) := by
  refine ⟨Nat.zero_le _, fun g routed => (by cases routed), fun m miss => ?_⟩
  cases miss
  exact ⟨Nat.le_of_lt_succ level.isLt, Nat.le_refl _⟩

theorem lookupBounded_routed (level visits i : Nat) {g : Nat} (hg : g ≤ 65487) :
    LookupBounded level (visits + 1) (.routed g, [i]) := by
  refine ⟨Nat.le_add_left _ _, fun g routed => ?_, fun m miss => (by cases miss)⟩
  cases routed
  exact ⟨hg, Nat.le_refl _⟩

/-- A window that leads deeper is one more window visited. -/
theorem LookupBounded.visit {level target visits : Nat} {r : LookupResult × List Nat} (h : LookupBounded target visits r)
    (deeper : level < target) (i : Nat) : LookupBounded level (visits + 1) (r.1, i :: r.2) := by
  obtain ⟨length, routed, miss⟩ := h
  refine ⟨Nat.succ_le_succ length, fun g hg => ⟨(routed g hg).1, Nat.le_add_left _ _⟩, fun m hm => ?_⟩
  obtain ⟨last, deep⟩ := miss m hm
  rw [List.length_cons]
  omega

theorem lookupFrom_bounded {windows : Vector (Option Window) 128} (sound : WindowsSound windows) (visits : Nat)
    (level : Fin 4) (key : Nat) : LookupBounded level visits (lookupFrom windows.toList visits level key) := by
  induction visits generalizing level key with
  | zero => exact lookupBounded_miss level 0
  | succ visits ih =>
    cases found : windowFor windows level key with
    | none =>
      rw [lookupFrom_of_none found]
      exact lookupBounded_miss level _
    | some r =>
      obtain ⟨i, w⟩ := r
      obtain ⟨⟨-, kind⟩, -, low, high⟩ := windowFor_window_sound sound found
      cases hk : w.kind with
      | single g =>
        rw [hk] at kind
        rw [lookupFrom_of_single found hk]
        exact lookupBounded_routed level visits i kind
      | spread g =>
        rw [hk] at kind
        dsimp only at kind
        rw [lookupFrom_of_spread found hk]
        exact lookupBounded_routed level visits i (by omega)
      | descend target rebase =>
        rw [lookupFrom_of_descend found hk]
        exact (ih target _).visit (windowFor_descend_deeper sound found hk) i

/-- Settles O33: in a map that keeps R81 the search at a level finds the one window that holds the key, and a DESCEND
window leads deeper, so that the visits left after it are enough for the levels left. -/
theorem lookupFollowsTheMap : Obligations.LookupFollowsTheMap := by
  unfold Obligations.LookupFollowsTheMap
  intro windows sound search
  refine ⟨fun key => rfl, fun level key unheld => lookupFrom_of_none (windowFor_eq_none unheld),
    fun level key i w place hlevel low high => ?found, fun key => ?bounds⟩
  case found =>
    have found := windowFor_eq_some sound place hlevel (Window.holds_iff.mpr ⟨low, high⟩)
    have visits : 4 - level.val = 3 - level.val + 1 := by omega
    simp only [search, visits]
    cases hk : w.kind with
    | single g => exact lookupFrom_of_single found hk
    | spread g => exact lookupFrom_of_spread found hk
    | descend target rebase =>
      have deeper := windowFor_descend_deeper sound found hk
      have enough := lookupFrom_visits_congr sound (v := 3 - level.val) (v' := 4 - target.val) (level := target) (by omega)
        (by omega)
      rw [lookupFrom_of_descend found hk, enough]
  case bounds =>
    obtain ⟨length, routed, miss⟩ := lookupFrom_bounded sound 4 0 key
    simp only [Fin.val_zero, Nat.zero_add] at miss
    exact ⟨length, routed, miss⟩

end Sys2Proof.Machine
end

section
/-! PROOFS. SET-WINDOW (R85 to R87): the window it carries and the window it would overlap, the owner's act case by case,
and the statement about it. -/

namespace Sys2Proof.Machine

/-! ### The window carried (R85) -/

/-- Bytes 12 and 13 are one number, most significant byte first (R164). -/
theorem RawWindow.toNat_group (r : RawWindow) : r.group.toNat = 256 * r.p12.toNat + r.p13.toNat := by
  rw [RawWindow.group, BitVec.toNat_append, ← Nat.shiftLeft_add_eq_or_of_lt r.p13.isLt, Nat.shiftLeft_eq, Nat.mul_comm]

theorem RawWindow.bytes16_group (r : RawWindow) : bytes16 r.group = [r.p12, r.p13] := by
  have low := r.p13.isLt
  simp only [bytes16, List.cons.injEq, and_true, ← BitVec.toNat_inj, BitVec.extractLsb'_toNat,
    Nat.shiftRight_eq_div_pow, RawWindow.toNat_group]
  omega

section
variable {r : RawWindow} {level : Fin 4} (hlevel : finOfByte 4 r.level = some level)
include hlevel

/-- A SINGLE window is taken when its range is not empty and its group is one of the tally store's. -/
theorem Window.ofRaw_single (hk : r.kind = 0) : Window.ofRaw r =
    if r.base.toNat ≤ r.limit.toNat ∧ r.group.toNat ≤ 65487 then
      some { level, base := r.base, limit := r.limit, kind := .single r.group }
    else none := by
  simp only [Window.ofRaw, hlevel, Option.bind_eq_bind, Option.bind_some, if_pos hk, Option.pure_def]

theorem Window.ofRaw_spread (hk : r.kind = 1) : Window.ofRaw r =
    if r.base.toNat ≤ r.limit.toNat ∧ r.group.toNat + (r.limit.toNat - r.base.toNat) ≤ 65487 then
      some { level, base := r.base, limit := r.limit, kind := .spread r.group }
    else none := by
  have not_single : r.kind ≠ 0 := by simp [hk]
  simp only [Window.ofRaw, hlevel, Option.bind_eq_bind, Option.bind_some, if_neg not_single, if_pos hk, Option.pure_def]

/-- A DESCEND window is taken when its two bytes are codes and its target lies deeper. -/
theorem Window.ofRaw_descend (hk : r.kind = 2) : Window.ofRaw r =
    (boolOfByte r.p13).bind fun rebase => (finOfByte 4 r.p12).bind fun target =>
      if r.base.toNat ≤ r.limit.toNat ∧ level < target then
        some { level, base := r.base, limit := r.limit, kind := .descend target rebase }
      else none := by
  have not_single : r.kind ≠ 0 := by simp [hk]
  have not_spread : r.kind ≠ 1 := by simp [hk]
  simp only [Window.ofRaw, hlevel, Option.bind_eq_bind, Option.bind_some, if_neg not_single, if_neg not_spread,
    if_pos hk, Option.pure_def]

theorem Window.ofRaw_undefined (h0 : r.kind ≠ 0) (h1 : r.kind ≠ 1) (h2 : r.kind ≠ 2) : Window.ofRaw r = none := by
  simp only [Window.ofRaw, hlevel, Option.bind_eq_bind, Option.bind_some, if_neg h0, if_neg h1, if_neg h2]

end

/-- Checks 2 to 5 of R85, on the bytes carried. -/
def WindowArgumentsGood (r : RawWindow) : Prop :=
  r.level.toNat ≤ 3 ∧ r.base.toNat ≤ r.limit.toNat ∧
    ((r.kind = 0 ∧ 256 * r.p12.toNat + r.p13.toNat ≤ 65487) ∨
      (r.kind = 1 ∧ 256 * r.p12.toNat + r.p13.toNat + (r.limit.toNat - r.base.toNat) ≤ 65487) ∨
      (r.kind = 2 ∧ r.p13.toNat ≤ 1 ∧ r.level.toNat < r.p12.toNat ∧ r.p12.toNat ≤ 3))

/-- The window spells the bytes carried (section 10.6.3). -/
def Window.Spells (w : Window) (r : RawWindow) : Prop :=
  w.level.val = r.level.toNat ∧ w.base = r.base ∧ w.limit = r.limit ∧ w.kind.bytes = (r.kind, [r.p12, r.p13])

/-- The bytes of a DESCEND window are refused exactly when one is no code, the range is empty or the target is not
deeper. -/
theorem Window.ofRaw_descend_eq_none {r : RawWindow} {level : Fin 4} (hlevel : finOfByte 4 r.level = some level)
    (hk : r.kind = 2) : Window.ofRaw r = none ↔
      ¬(r.base.toNat ≤ r.limit.toNat ∧ r.p13.toNat ≤ 1 ∧ r.level.toNat < r.p12.toNat ∧ r.p12.toNat ≤ 3) := by
  have level_byte := finOfByte_eq_some.mp hlevel
  rw [Window.ofRaw_descend hlevel hk]
  cases hrebase : boolOfByte r.p13 with
  | none =>
    have beyond := boolOfByte_eq_none.mp hrebase
    simp only [Option.bind_none, true_iff]
    omega
  | some rebase =>
    have code : ¬1 < r.p13.toNat := fun beyond => by
      rw [boolOfByte_eq_none.mpr beyond] at hrebase
      cases hrebase
    cases htarget : finOfByte 4 r.p12 with
    | none =>
      have beyond := finOfByte_eq_none.mp htarget
      simp only [Option.bind_some, Option.bind_none, true_iff]
      omega
    | some target =>
      have target_byte := finOfByte_eq_some.mp htarget
      simp only [Option.bind_some, ite_eq_right_iff, reduceCtorEq, imp_false, Fin.lt_def]
      omega

/-- The bytes of a window are refused exactly when one of checks 2 to 5 fails (R85). -/
theorem Window.ofRaw_eq_none {r : RawWindow} : Window.ofRaw r = none ↔ ¬WindowArgumentsGood r := by
  unfold WindowArgumentsGood
  cases hlevel : finOfByte 4 r.level with
  | none =>
    have beyond := finOfByte_eq_none.mp hlevel
    simp only [Window.ofRaw, hlevel, Option.bind_eq_bind, Option.bind_none, true_iff]
    omega
  | some level =>
    have level_byte := finOfByte_eq_some.mp hlevel
    have level_le : r.level.toNat ≤ 3 := by omega
    by_cases h0 : r.kind = 0
    · simp [Window.ofRaw_single hlevel h0, h0, level_le, RawWindow.toNat_group]
    by_cases h1 : r.kind = 1
    · simp [Window.ofRaw_spread hlevel h1, h1, level_le, RawWindow.toNat_group]
    by_cases h2 : r.kind = 2
    · rw [Window.ofRaw_descend_eq_none hlevel h2]
      simp [h2, level_le]
    · simp only [Window.ofRaw_undefined hlevel h0 h1 h2, h0, h1, h2, false_and, or_self, and_false, not_false_eq_true]

theorem Window.spells_of_ofRaw {r : RawWindow} {w : Window} (h : Window.ofRaw r = some w) : w.Spells r := by
  cases hlevel : finOfByte 4 r.level with
  | none => simp only [Window.ofRaw, hlevel, Option.bind_eq_bind, Option.bind_none, reduceCtorEq] at h
  | some level =>
    have level_byte := finOfByte_eq_some.mp hlevel
    by_cases h0 : r.kind = 0
    · rw [Window.ofRaw_single hlevel h0, Option.ite_none_right_eq_some, Option.some_inj] at h
      obtain ⟨-, rfl⟩ := h
      exact ⟨level_byte, rfl, rfl, by rw [WindowKind.bytes, h0, RawWindow.bytes16_group r]⟩
    by_cases h1 : r.kind = 1
    · rw [Window.ofRaw_spread hlevel h1, Option.ite_none_right_eq_some, Option.some_inj] at h
      obtain ⟨-, rfl⟩ := h
      exact ⟨level_byte, rfl, rfl, by rw [WindowKind.bytes, h1, RawWindow.bytes16_group r]⟩
    by_cases h2 : r.kind = 2
    · simp only [Window.ofRaw_descend hlevel h2, Option.bind_eq_some_iff, Option.ite_none_right_eq_some,
        Option.some_inj] at h
      obtain ⟨rebase, hrebase, target, htarget, -, rfl⟩ := h
      have target_byte : r.p12 = natByte target := (natByte_fin target (by decide)).mpr (finOfByte_eq_some.mp htarget)
      exact ⟨level_byte, rfl, rfl, by rw [WindowKind.bytes, h2, target_byte, boolOfByte_eq_some.mp hrebase]⟩
    · rw [Window.ofRaw_undefined hlevel h0 h1 h2] at h
      cases h

/-! ### The window overlapped (R86) -/

/-- The window at `j` bars the writing of the window carried: another index, the same level, ranges that intersect. -/
def WindowBars (windows : Vector (Option Window) 128) (r : RawWindow) (j : Fin 128) : Prop :=
  j.val ≠ r.index.toNat ∧ ∃ v : Window, windows[j] = some v ∧
    v.level.val = r.level.toNat ∧ r.base.toNat ≤ v.limit.toNat ∧ v.base.toNat ≤ r.limit.toNat

section
variable {windows : Vector (Option Window) 128} {r : RawWindow} {w : Window} (spells : w.Spells r)
include spells

theorem overlap_condition_iff {j : Nat} {v : Window} :
    (decide (j ≠ r.index.toNat) && decide (v.level = w.level) && w.intersects v) = true ↔
      j ≠ r.index.toNat ∧ v.level.val = r.level.toNat ∧ r.base.toNat ≤ v.limit.toNat ∧ v.base.toNat ≤ r.limit.toNat := by
  obtain ⟨hlevel, hbase, hlimit, -⟩ := spells
  simp only [Window.intersects, Bool.and_eq_true, decide_eq_true_eq, and_assoc, Fin.ext_iff, hlevel, hbase, hlimit]

/-- A window that does not bar the writing is passed over by the overlap check. -/
theorem overlap_condition_of_not_bars {j : Fin 128} {v : Window} (place : windows[j] = some v)
    (h : ¬WindowBars windows r j) :
    (decide (j.val ≠ r.index.toNat) && decide (v.level = w.level) && w.intersects v) = false := by
  rw [← Bool.not_eq_true, overlap_condition_iff spells]
  exact fun ⟨other, meets⟩ => h ⟨other, v, place, meets⟩

theorem overlapping_eq_none (h : ∀ j, ¬WindowBars windows r j) : overlapping windows r.index.toNat w = none := by
  rw [overlapping, findWindow_map_of_none fun j v place => overlap_condition_of_not_bars spells place (h j),
    Option.map_none]

/-- The lowest-numbered window that bars the writing is the one named. -/
theorem overlapping_eq_some {j : Fin 128} (bars : WindowBars windows r j) (first : ∀ i < j, ¬WindowBars windows r i) :
    overlapping windows r.index.toNat w = some j.val := by
  obtain ⟨other, v, place, meets⟩ := bars
  have hit := (overlap_condition_iff spells).mpr ⟨other, meets⟩
  rw [overlapping, findWindow_map_of_first place hit fun i before u hu =>
    overlap_condition_of_not_bars spells hu (first i before), Option.map_some]

end

/-! ### The owner's act -/

/-- A SET-WINDOW whose checks 1 to 5 do not all pass is refused (R85). -/
theorem ownSetWindow_badArgument (s : State) (tag : Byte) {raw : RawWindow}
    (h : finOfByte 128 raw.index = none ∨ Window.ofRaw raw = none) :
    ownSetWindow tag raw s = s.answer tag .badArgument [] := by
  unfold ownSetWindow
  split
  · next i w hindex hw =>
    obtain hnone | hnone := h
    · rw [hindex] at hnone
      cases hnone
    · rw [hw] at hnone
      cases hnone
  · rfl

section
variable (s : State) (tag : Byte) {raw : RawWindow} {i : Fin 128} {w : Window}
  (hindex : finOfByte 128 raw.index = some i) (hw : Window.ofRaw raw = some w)
include hindex hw

theorem ownSetWindow_overlap {j : Nat} (h : overlapping s.windows raw.index.toNat w = some j) :
    ownSetWindow tag raw s = s.answer tag .overlap [natByte j] := by
  rw [← finOfByte_eq_some.mp hindex] at h
  simp only [ownSetWindow, hindex, hw, h]

/-- A SET-WINDOW that passes every check writes the window carried, and reports whether the index held one (R87). -/
theorem ownSetWindow_ok (h : overlapping s.windows raw.index.toNat w = none) :
    ownSetWindow tag raw s = ({ s with windows := s.windows.set i (some w) } : State).answer tag .ok
      [raw.index, boolByte s.windows[i].isSome] := by
  rw [← finOfByte_eq_some.mp hindex] at h
  simp only [ownSetWindow, hindex, hw, h]

end

theorem exec_setWindow_held {s : State} {tag : Byte} {raw : RawWindow}
    (h : s.link.state = .held { code := .setWindow, tag, payload := raw.bytes } .owner) :
    exec (.setWindow tag raw) s = .next (ownSetWindow tag raw s) :=
  requestStep_held _ _ h

/-- Settles O31: the bytes carried are refused exactly when one of checks 1 to 5 fails; else they spell a window, and the
search for an overlap decides. -/
theorem setWindowChecksAndWrites : Obligations.SetWindowChecksAndWrites := by
  unfold Obligations.SetWindowChecksAndWrites
  refine ⟨?_, fun n => beq_iff_eq⟩
  intro s tag raw held group argumentsGood meets
  rw [exec_setWindow_held held]
  have defined (good : argumentsGood) : ∃ i w, finOfByte 128 raw.index = some i ∧ Window.ofRaw raw = some w := by
    obtain ⟨hindex, checks⟩ := good
    obtain ⟨w, hw⟩ := Option.ne_none_iff_exists'.mp fun hnone => Window.ofRaw_eq_none.mp hnone checks
    exact ⟨⟨raw.index.toNat, by omega⟩, w, finOfByte_eq_some.mpr rfl, hw⟩
  refine ⟨fun bad => ?badArgument, fun good j bars first => ?overlap, fun good free => ?ok⟩
  case badArgument =>
    refine congrArg _ (ownSetWindow_badArgument s tag ?_)
    rw [finOfByte_eq_none, Window.ofRaw_eq_none]
    by_cases hindex : 128 ≤ raw.index.toNat
    · exact .inl hindex
    · exact .inr fun checks => bad ⟨by omega, checks⟩
  case overlap =>
    obtain ⟨i, w, hindex, hw⟩ := defined good
    rw [ownSetWindow_overlap s tag hindex hw (overlapping_eq_some (Window.spells_of_ofRaw hw) bars first)]
  case ok =>
    obtain ⟨i, w, hindex, hw⟩ := defined good
    obtain ⟨hlevel, hbase, hlimit, hkind⟩ := Window.spells_of_ofRaw hw
    refine ⟨i, w, finOfByte_eq_some.mp hindex, hlevel, hbase, hlimit, hkind, ?_⟩
    rw [ownSetWindow_ok s tag hindex hw (overlapping_eq_none (Window.spells_of_ofRaw hw) free)]
    rfl

end Sys2Proof.Machine
end

section
/-! PROOFS. CLEAR-WINDOW (R88), READ-WINDOW (R89) and LOOKUP (R90): the owner's act case by case, and the statement about
them. -/

namespace Sys2Proof.Machine

/-! ### CLEAR-WINDOW -/

theorem ownClearWindow_badArgument (s : State) (tag : Byte) {index : Byte} (h : finOfByte 128 index = none) :
    ownClearWindow tag index s = s.answer tag .badArgument [] := by
  simp only [ownClearWindow, h]

/-- The window named becomes invalid, and the reply says whether it was valid (R88). -/
theorem ownClearWindow_of_window (s : State) (tag : Byte) {index : Byte} {i : Fin 128}
    (h : finOfByte 128 index = some i) :
    ownClearWindow tag index s = ({ s with windows := s.windows.set i none } : State).answer tag .ok
      [index, boolByte s.windows[i].isSome] := by
  simp only [ownClearWindow, h]

theorem exec_clearWindow_held {s : State} {tag index : Byte}
    (h : s.link.state = .held { code := .clearWindow, tag, payload := [index] } .owner) :
    exec (.clearWindow tag index) s = .next (ownClearWindow tag index s) :=
  requestStep_held _ _ h

/-! ### READ-WINDOW -/

theorem ownReadWindow_badArgument (s : State) (tag : Byte) {index : Byte} (h : finOfByte 128 index = none) :
    ownReadWindow tag index s = s.answer tag .badArgument [] := by
  simp only [ownReadWindow, h]

theorem ownReadWindow_of_window (s : State) (tag : Byte) {index : Byte} {i : Fin 128}
    (h : finOfByte 128 index = some i) :
    ownReadWindow tag index s = s.answer tag .ok (windowBytes index s.windows[i]) := by
  simp only [ownReadWindow, h]

/-- An invalid window is reported as its index and thirteen zeros (section 10.6.3). -/
theorem windowBytes_none (index : Byte) : windowBytes index none = [index, 0, 0, 0, 0, 0, 0, 0, 0, 0, 0, 0, 0, 0] := rfl

theorem exec_readWindow_held {s : State} {tag index : Byte}
    (h : s.link.state = .held { code := .readWindow, tag, payload := [index] } .owner) :
    exec (.readWindow tag index) s = .next (ownReadWindow tag index s) :=
  requestStep_held _ _ h

/-! ### LOOKUP -/

theorem lookupBytes_routed (g : Nat) (visited : List Nat) : lookupBytes (.routed g, visited) =
    [0] ++ natBytes16 g ++ [0xFF, natByte visited.length] ++ visited.map natByte := by
  simp only [lookupBytes, List.append_assoc, List.cons_append, List.nil_append]

theorem lookupBytes_miss (level : Nat) (visited : List Nat) : lookupBytes (.miss level, visited) =
    [1, 0xFF, 0xFF, natByte level, natByte visited.length] ++ visited.map natByte := by
  simp only [lookupBytes, List.cons_append, List.nil_append]

theorem exec_lookup_held {s : State} {tag : Byte} {key : Key}
    (h : s.link.state = .held { code := .lookup, tag, payload := bytes32 key } .owner) :
    exec (.lookup tag key) s = .next (s.answer tag .ok (lookupBytes (lookupKey s.windows key.toNat))) :=
  requestStep_held _ _ h

/-! ### The three requests -/

/-- Settles O32: CLEAR-WINDOW and READ-WINDOW act on the window their byte names, and LOOKUP reports the lookup of the key
carried. -/
theorem windowsClearedReadAndLookedUp : Obligations.WindowsClearedReadAndLookedUp := by
  unfold Obligations.WindowsClearedReadAndLookedUp
  refine ⟨⟨fun s tag index held => ⟨fun beyond => ?noClear, fun i named => ?clear⟩, fun n => beq_iff_eq⟩,
    ⟨fun s tag index held => ⟨fun beyond => ?noRead, fun i named => ⟨fun free => ?invalid, fun w valid => ?valid⟩⟩,
      fun n => beq_iff_eq⟩,
    fun s tag key held => ⟨fun g visited result => ?routed, fun level visited result => ?miss⟩, fun n => beq_iff_eq⟩
  case noClear => rw [exec_clearWindow_held held, ownClearWindow_badArgument s tag (finOfByte_eq_none.mpr beyond)]
  case clear =>
    rw [exec_clearWindow_held held, ownClearWindow_of_window s tag (finOfByte_eq_some.mpr named)]
    rfl
  case noRead => rw [exec_readWindow_held held, ownReadWindow_badArgument s tag (finOfByte_eq_none.mpr beyond)]
  case invalid =>
    rw [exec_readWindow_held held, ownReadWindow_of_window s tag (finOfByte_eq_some.mpr named), free, windowBytes_none]
  case valid =>
    rw [exec_readWindow_held held, ownReadWindow_of_window s tag (finOfByte_eq_some.mpr named), valid, windowBytes]
  case routed => rw [exec_lookup_held held, result, lookupBytes_routed]
  case miss => rw [exec_lookup_held held, result, lookupBytes_miss]

end Sys2Proof.Machine
end

section
/-! PROOFS. A post applied to a record (R95 to R98): what it leaves in each field, the order of minimum and maximum
(R94) kept by each record operation, and the statement about them. -/

namespace Sys2Proof.Machine

/-! ### The sum (R96) -/

theorem newSum_eq (mode : SumMode) (exact : Int) :
    newSum mode exact =
      if 36028797018963967 < exact then
        (match mode with | .saturate => 36028797018963967 | .wrap => exact - 72057594037927936)
      else if exact < -36028797018963968 then
        (match mode with | .saturate => -36028797018963968 | .wrap => exact + 72057594037927936)
      else exact := by
  cases mode <;> rfl

theorem sumOverflows_iff (exact : Int) :
    sumOverflows exact = true ↔ 36028797018963967 < exact ∨ exact < -36028797018963968 :=
  decide_eq_true_iff

/-- The sum of a record and a value passes an end of the range by less than 2^56, so the new sum is in range in both
modes. -/
theorem newSum_bounds (mode : SumMode) (sum : BitVec 56) (v : Value) :
    -36028797018963968 ≤ newSum mode (sum.toInt + v.toInt) ∧
      newSum mode (sum.toInt + v.toInt) ≤ 36028797018963967 := by
  have sum_below := sum.toInt_lt
  have sum_above := sum.le_toInt
  have v_below := v.toInt_lt
  have v_above := v.le_toInt
  rw [newSum_eq]
  cases mode <;> dsimp only <;> omega

end Sys2Proof.Machine

namespace Sys2Proof.RecordContents

open Machine

/-! ### A post, field by field (R95 to R98) -/

section Post

variable (mode : SumMode) (v : Value) (c : RecordContents)

theorem post_count : (c.post mode v).count.toNat =
    if c.count.toNat = 36028797018963967 then 36028797018963967 else c.count.toNat + 1 := by
  by_cases full : c.count.toNat = 36028797018963967
  · simp [post, full]
  · have below : c.count.toNat + 1 < 2 ^ 55 := by omega
    simpa [post, full] using below

theorem post_count_ne_zero : (c.post mode v).count ≠ 0 := by
  intro zero
  have count := post_count mode v c
  rw [zero] at count
  split at count <;> simp at count

theorem post_sum : (c.post mode v).sum.toInt = newSum mode (c.sum.toInt + v.toInt) := by
  obtain ⟨above, below⟩ := newSum_bounds mode c.sum v
  exact BitVec.toInt_ofInt_eq_self (by decide) above (Int.lt_add_one_of_le below)

theorem post_minimum : (c.post mode v).minimum.toInt =
    if c.count = 0 then v.toInt else min c.minimum.toInt v.toInt := by
  by_cases first : c.count = 0
  · simp only [post, if_pos first]
  · simp only [post, if_neg first]
    split <;> omega

theorem post_maximum : (c.post mode v).maximum.toInt =
    if c.count = 0 then v.toInt else max c.maximum.toInt v.toInt := by
  by_cases first : c.count = 0
  · simp only [post, if_pos first]
  · simp only [post, if_neg first]
    split <;> omega

theorem post_minimum? : (c.post mode v).minimum? =
    some (if c.count = 0 then v.toInt else min c.minimum.toInt v.toInt) := by
  rw [minimum?, if_neg (post_count_ne_zero mode v c), post_minimum]

theorem post_maximum? : (c.post mode v).maximum? =
    some (if c.count = 0 then v.toInt else max c.maximum.toInt v.toInt) := by
  rw [maximum?, if_neg (post_count_ne_zero mode v c), post_maximum]

theorem post_sumOverflowed : (c.post mode v).sumOverflowed = true ↔
    c.sumOverflowed = true ∨ c.count.toNat = 36028797018963967 ∨
      36028797018963967 < c.sum.toInt + v.toInt ∨ c.sum.toInt + v.toInt < -36028797018963968 := by
  change (c.sumOverflowed || decide (c.count.toNat = 36028797018963967)
    || sumOverflows (c.sum.toInt + v.toInt)) = true ↔ _
  rw [Bool.or_eq_true, Bool.or_eq_true, decide_eq_true_iff, sumOverflows_iff, or_assoc]

/-- A post keeps the order of minimum and maximum, and the first post makes them equal (R94, R97). -/
theorem post_minimum_le_maximum (h : c.count ≠ 0 → c.minimum.toInt ≤ c.maximum.toInt) :
    (c.post mode v).minimum.toInt ≤ (c.post mode v).maximum.toInt := by
  rw [post_minimum, post_maximum]
  by_cases first : c.count = 0
  · exact Int.le_of_eq ((if_pos first).trans (if_pos first).symm)
  · rw [if_neg first, if_neg first]
    exact Int.le_trans (Int.min_le_left _ _) (Int.le_trans (h first) (Int.le_max_left _ _))

end Post

/-! ### Poisoning (R123) -/

theorem poison_poisoned (c : RecordContents) : c.poison.poisoned = true := by
  unfold poison
  split <;> rfl

end Sys2Proof.RecordContents

namespace Sys2Proof.Machine

/-! ### Records in order (R94) -/

theorem StoredRecord.ordered_fresh {c : RecordContents}
    (h : c.count ≠ 0 → c.minimum.toInt ≤ c.maximum.toInt) : (StoredRecord.fresh c).Ordered :=
  fun _ => h

theorem StoredRecord.ordered_empty : StoredRecord.empty.Ordered :=
  StoredRecord.ordered_fresh fun counted => absurd rfl counted

theorem StoredRecord.ordered_fresh_of_poisoned {c : RecordContents} (h : c.poisoned = true) :
    (StoredRecord.fresh c).Ordered := by
  intro healthy
  simp [StoredRecord.condition, StoredRecord.fresh, h] at healthy

/-! ### What each record operation writes (R124 to R127) -/

section Operations

variable {r w : StoredRecord}

/-- The record written back after a check mismatch is poisoned, and R94 asks nothing of it (R123). -/
theorem poisonResult_ordered {readout : Option Readout} (written : (poisonResult r readout).write = some w) :
    w.Ordered := by
  cases written
  exact StoredRecord.ordered_fresh_of_poisoned (RecordContents.poison_poisoned _)

theorem postOperation_ordered {mode : SumMode} {v : Value} (h : r.Ordered)
    (written : (postOperation mode v r).write = some w) : w.Ordered := by
  unfold postOperation at written
  split at written
  case h_1 healthy =>
    cases written
    exact StoredRecord.ordered_fresh fun _ => RecordContents.post_minimum_le_maximum mode v _ (h healthy)
  case h_2 => exact poisonResult_ordered written
  case h_3 => cases written

theorem readOperation_ordered {group : Group} {width : ReadWidth} {k : Nat} {clearAfter : Bool} (h : r.Ordered)
    (written : (readOperation group width k clearAfter r).write = some w) : w.Ordered := by
  unfold readOperation at written
  split at written
  case h_1 healthy =>
    dsimp only at written
    split at written
    · cases written
      exact StoredRecord.ordered_empty
    · split at written
      · cases written
        exact StoredRecord.ordered_fresh (h healthy)
      · cases written
  case h_2 => exact poisonResult_ordered written
  case h_3 => cases written

theorem clearFlagsOperation_ordered (h : r.Ordered) (written : (clearFlagsOperation r).write = some w) :
    w.Ordered := by
  unfold clearFlagsOperation at written
  split at written
  case h_1 healthy =>
    cases written
    exact StoredRecord.ordered_fresh (h healthy)
  case h_2 => exact poisonResult_ordered written
  case h_3 => cases written

theorem recordOperation_ordered {e : QueueEntry} {mode : SumMode} (h : r.Ordered)
    (written : (recordOperation e mode r).write = some w) : w.Ordered := by
  unfold recordOperation at written
  split at written
  case h_1 => exact postOperation_ordered h written
  case h_2 => exact readOperation_ordered h written
  case h_3 =>
    cases written
    exact StoredRecord.ordered_empty
  case h_4 => exact clearFlagsOperation_ordered h written

end Operations

/-- Settles O51: a post field by field, and the order of R94 by the kind of entry and the condition of the record. -/
theorem postArithmetic : Obligations.PostArithmetic := by
  unfold Obligations.PostArithmetic
  refine ⟨fun mode v c => ?post, fun e mode r w => recordOperation_ordered, StoredRecord.ordered_empty⟩
  case post =>
    have count_zero : c.count = 0 ↔ c.count.toNat = 0 := BitVec.toNat_inj.symm
    simp only [← count_zero]
    exact ⟨RecordContents.post_count mode v c, (RecordContents.post_sum mode v c).trans (newSum_eq mode _),
      RecordContents.post_minimum? mode v c, RecordContents.post_maximum? mode v c,
      RecordContents.post_sumOverflowed mode v c, rfl, rfl⟩

end Sys2Proof.Machine
end

section
/-! PROOFS. CONFIGURE-STORE (R131, R132) and CLEAR-STORE (R133): the owner's act case by case, and the statement about
them. -/

namespace Sys2Proof.Machine

/-! ### CONFIGURE-STORE -/

/-- Within its range the sum mode byte is 0 or 1 (R112), so being 0 tells the two modes apart. -/
theorem SumMode.ofByte_of_le_one {b : Byte} (h : b.toNat ≤ 1) :
    SumMode.ofByte b = some (if b = 0 then .saturate else .wrap) := by
  by_cases hzero : b = 0
  · simp only [SumMode.ofByte, if_pos hzero]
  · have hone : b = 1 := by bv_omega
    simp only [SumMode.ofByte, if_neg hzero, if_pos hone]

/-- Within its range the row policy byte is 0 or 1 (R112), so being 0 tells the two policies apart. -/
theorem RowPolicy.ofByte_of_le_one {b : Byte} (h : b.toNat ≤ 1) :
    RowPolicy.ofByte b = some (if b = 0 then .keepOpen else .closeAfter) := by
  by_cases hzero : b = 0
  · simp only [RowPolicy.ofByte, if_pos hzero]
  · have hone : b = 1 := by bv_omega
    simp only [RowPolicy.ofByte, if_neg hzero, if_pos hone]

/-- A byte that names no setting is refused, whatever the engine and store states (R131). -/
theorem ownConfigureStore_badArgument (s : State) (tag : Byte) {sumMode rowPolicy : Byte}
    (h : SumMode.ofByte sumMode = none ∨ RowPolicy.ofByte rowPolicy = none) :
    ownConfigureStore tag sumMode rowPolicy s = s.answer tag .badArgument [] := by
  unfold ownConfigureStore
  split
  · next m p hmode hpolicy =>
    obtain hnone | hnone := h
    · rw [hmode] at hnone
      cases hnone
    · rw [hpolicy] at hnone
      cases hnone
  · rfl

/-- A CONFIGURE-STORE whose bytes name settings turns on the engine and store states alone (R131, R132). -/
theorem ownConfigureStore_of_defined (s : State) (tag : Byte) {sumMode rowPolicy : Byte} {m : SumMode} {p : RowPolicy}
    (hmode : SumMode.ofByte sumMode = some m) (hpolicy : RowPolicy.ofByte rowPolicy = some p) :
    ownConfigureStore tag sumMode rowPolicy s =
      if s.engine ≠ .stopped ∨ s.store.state = .clearing then s.answer tag .wrongState []
      else ({ s with store := { s.store with sumMode := m, rowPolicy := p } } : State).answer tag .ok [] := by
  simp only [ownConfigureStore, hmode, hpolicy]

theorem exec_configureStore_held {s : State} {tag sumMode rowPolicy : Byte}
    (h : s.link.state = .held { code := .configureStore, tag, payload := [sumMode, rowPolicy] } .owner) :
    exec (.configureStore tag sumMode rowPolicy) s = .next (ownConfigureStore tag sumMode rowPolicy s) :=
  requestStep_held _ _ h

/-! ### CLEAR-STORE -/

/-- A clear just begun has written no row yet: every record stands as it was. -/
theorem Store.beginClear_settle_record (st : Store) (g : Nat) : st.beginClear.settle.record g = st.record g :=
  calc st.beginClear.settle.record g = st.beginClear.record g := st.beginClear.settle_record g
    _ = st.record g := Store.record_congr rfl rfl rfl g

theorem ownClearStore_wrongState {s : State} (tag : Byte) (h : s.engine ≠ .stopped ∨ s.store.state = .clearing) :
    ownClearStore tag s = s.answer tag .wrongState [] :=
  if_pos h

theorem ownClearStore_accepted {s : State} (tag : Byte) (hstopped : s.engine = .stopped)
    (hclear : s.store.state ≠ .clearing) :
    ownClearStore tag s = (s.withStore s.store.beginClear).answer tag .accepted [] :=
  if_neg (not_or.mpr ⟨not_not_intro hstopped, hclear⟩)

theorem exec_clearStore_held {s : State} {tag : Byte}
    (h : s.link.state = .held { code := .clearStore, tag, payload := [] } .owner) :
    exec (.clearStore tag) s = .next (ownClearStore tag s) :=
  requestStep_held _ _ h

/-! ### The two requests -/

/-- Settles O47: the two bytes are refused exactly when one is out of range, else the engine and store states decide; a
CLEAR-STORE that is taken begins the clear, and settling the store keeps what the clear began with. -/
theorem storeRequests : Obligations.StoreRequests := by
  unfold Obligations.StoreRequests
  refine ⟨⟨fun s tag sumMode rowPolicy held => ?configure, fun s tag held =>
    ⟨fun refused => ?refusedClear, fun stopped free => ⟨?taken, ?begun⟩⟩⟩, fun n => ⟨beq_iff_eq, beq_iff_eq⟩⟩
  case configure =>
    rw [exec_configureStore_held held]
    by_cases bad : 1 < sumMode.toNat ∨ 1 < rowPolicy.toNat
    · rw [if_pos bad, ownConfigureStore_badArgument s tag
        (bad.imp SumMode.ofByte_eq_none.mpr RowPolicy.ofByte_eq_none.mpr)]
    · obtain ⟨hmode, hpolicy⟩ := not_or.mp bad
      rw [if_neg bad, ownConfigureStore_of_defined s tag (SumMode.ofByte_of_le_one (Nat.not_lt.mp hmode))
        (RowPolicy.ofByte_of_le_one (Nat.not_lt.mp hpolicy))]
  case refusedClear => rw [exec_clearStore_held held, ownClearStore_wrongState tag refused]
  case taken =>
    rw [exec_clearStore_held held, ownClearStore_accepted tag stopped free]
    rfl
  case begun =>
    exact ⟨s.store.beginClear.settle_state, s.store.beginClear.settle_rowsDone, s.store.beginClear.settle_catchingUp,
      s.store.beginClear.settle_queue, s.store.beginClear.settle_sumMode, s.store.beginClear.settle_rowPolicy,
      s.store.beginClear_settle_record⟩

end Sys2Proof.Machine
end

section
/-! PROOFS. IDENTIFY (R144) and STATUS (R143): the bytes each reports, and the statements that nothing else changes. -/

namespace Sys2Proof.Machine

/-! ### IDENTIFY -/

/-- The IDENTIFY reply, byte by byte (section 10.6.8). -/
theorem identifyBytes_eq :
    identifyBytes = [0x4E, 0x4C, 0x04, 0x16, 2, 4, 0x02, 0x00, 8, 8, 18, 4] ++ bytes32 (BitVec.ofNat 32 65536)
      ++ bytes16 (BitVec.ofNat 16 65488) ++ [32, 28, 32, 16, 128] := by
  decide

theorem exec_identify_held {s : State} {tag : Byte}
    (h : s.link.state = .held { code := .identify, tag, payload := [] } .owner) :
    exec (.identify tag) s = .next (s.answer tag .ok identifyBytes) :=
  requestStep_held _ _ h

/-- Settles O16: IDENTIFY answers the fixed payload from any state, and its only effect is the answer. -/
theorem identifyReportsFixedItems : Obligations.IdentifyReportsFixedItems := by
  unfold Obligations.IdentifyReportsFixedItems
  refine ⟨fun s tag held => ?_, fun n => beq_iff_eq⟩
  rw [exec_identify_held held, identifyBytes_eq]

/-! ### STATUS -/

theorem boolByte_decide (p : Prop) [Decidable p] : boolByte (decide p) = if p then 1 else 0 := by
  simp only [boolByte, decide_eq_true_eq]

/-- Counting the ENGINE entries of a queue (R114). -/
theorem engineEntries_eq_countP (q : List QueueEntry) :
    engineEntries q = q.countP (fun e => decide (e.origin = .engine)) :=
  List.countP_eq_length_filter.symm

/-- The two scan bytes of STATUS, each by the scan engine state (section 10.6.6). -/
theorem scanBytes_eq (x : ScanState) :
    scanBytes x = [match x with | .free => 0 | .scanning _ => 1 | .releasing _ _ => 2,
      match x with | .free => 0xFF | .scanning n => natByte n | .releasing n _ => natByte n] := by
  cases x with
  | free => rfl
  | scanning n => rfl
  | releasing n units => rfl

/-- A lane is reported granted exactly while it is scanned or its units are released (R55). -/
theorem State.boolByte_granted (s : State) (n : Fin 4) :
    boolByte (s.granted n) = match s.scan with
      | .free => 0
      | .scanning m => if m = n then 1 else 0
      | .releasing m _ => if m = n then 1 else 0 := by
  rw [State.granted]
  cases s.scan with
  | free => rfl
  | scanning m => exact boolByte_decide (m = n)
  | releasing m units => exact boolByte_decide (m = n)

/-- The STATUS payload gives the lanes in order, six bytes each (section 10.6.6). -/
theorem State.statusBytes_eq (s : State) :
    s.statusBytes =
      [s.engine.byte] ++ scanBytes s.scan
        ++ [s.store.state.byte, natByte s.store.debt, s.store.sumMode.byte, s.store.rowPolicy.byte,
            natByte s.store.queue.length, natByte (engineEntries s.store.queue), natByte s.notices.length,
            boolByte s.overflow]
        ++ bytes32 s.timeStamp ++ ([0, 1, 2, 3] : List (Fin 4)).flatMap s.laneStatusBytes := by
  simp only [State.statusBytes, List.flatMap_cons, List.flatMap_nil, List.append_nil, List.append_assoc]

/-- The six bytes of a lane in STATUS, its granted mark by the scan engine state (section 10.6.6). -/
theorem State.laneStatusBytes_eq (s : State) (n : Fin 4) :
    s.laneStatusBytes n =
      [boolByte (s.lane n).settings.enabled, (s.lane n).ctx.state.byte] ++ natBytes16 (s.lane n).fifo.length
        ++ [boolByte (s.lane n).gapPending,
          match s.scan with
          | .free => 0
          | .scanning m => if m = n then 1 else 0
          | .releasing m _ => if m = n then 1 else 0] := by
  rw [State.laneStatusBytes, State.boolByte_granted]

theorem exec_status_held {s : State} {tag : Byte}
    (h : s.link.state = .held { code := .status, tag, payload := [] } .owner) :
    exec (.status tag) s = .next (s.answer tag .ok s.statusBytes) :=
  requestStep_held _ _ h

/-- Settles O17: the scan bytes, the ENGINE count and the granted marks are the ones the statement spells; every other
item is its code by definition. -/
theorem statusReportsTheBlocks : Obligations.StatusReportsTheBlocks := by
  unfold Obligations.StatusReportsTheBlocks
  refine ⟨fun s tag held => ?_, fun n => beq_iff_eq⟩
  rw [exec_status_held held, State.statusBytes_eq, scanBytes_eq, engineEntries_eq_countP,
    funext s.laneStatusBytes_eq]
  rfl

end Sys2Proof.Machine
end

section
/-! PROOFS. START (R138, R139) and HALT with the halt-done test (R140, R141): the owner's act case by case, and the
statements about them. -/

namespace Sys2Proof.Machine

/-! ### The checks of START (R138) -/

/-- Check 3 of START fails exactly when every lane is off. -/
theorem State.noneEnabled_iff (s : State) :
    (!s.someEnabled (fun _ => true)) = true ↔ ∀ n : Fin 4, (s.lane n).settings.enabled = false := by
  rw [Bool.not_eq_true', ← Bool.not_eq_true, State.someEnabled_iff]
  simp only [and_true, not_exists, Bool.not_eq_true]

/-- Check 4 of START looks for the lowest-numbered enabled lane whose plan is absent. -/
theorem State.laneWithoutPlan_eq (s : State) :
    s.laneWithoutPlan = ([0, 1, 2, 3] : List (Fin 4)).find? (fun n =>
      decide ((s.lane n).settings.enabled = true ∧ s.plans[(s.lane n).settings.plan] = none)) := by
  have samePredicate (n : Fin 4) :
      ((s.lane n).settings.enabled && s.plans[(s.lane n).settings.plan].isNone) =
        decide ((s.lane n).settings.enabled = true ∧ s.plans[(s.lane n).settings.plan] = none) := by
    rw [Bool.eq_iff_iff, Bool.and_eq_true, Option.isNone_iff_eq_none, decide_eq_true_iff]
  simp only [State.laneWithoutPlan, samePredicate]

section StartCases

variable {s : State} (tag : Byte)

theorem ownStart_wrongState (running : s.engine ≠ .stopped) : ownStart tag s = s.answer tag .wrongState [] :=
  if_pos running

theorem ownStart_storeNotReady (stopped : s.engine = .stopped) (notReady : s.store.state ≠ .ready) :
    ownStart tag s = s.answer tag .storeNotReady [] := by
  rw [ownStart, if_neg (not_not_intro stopped), if_pos notReady]

theorem ownStart_noLane (stopped : s.engine = .stopped) (ready : s.store.state = .ready)
    (allOff : ∀ n : Fin 4, (s.lane n).settings.enabled = false) :
    ownStart tag s = s.answer tag .configIncomplete [0xFF] := by
  rw [ownStart, if_neg (not_not_intro stopped), if_neg (not_not_intro ready), if_pos (s.noneEnabled_iff.mpr allOff)]

theorem ownStart_noPlan {n : Fin 4} (stopped : s.engine = .stopped) (ready : s.store.state = .ready)
    (someOn : ¬∀ n : Fin 4, (s.lane n).settings.enabled = false) (without : s.laneWithoutPlan = some n) :
    ownStart tag s = s.answer tag .configIncomplete [natByte n] := by
  rw [ownStart, if_neg (not_not_intro stopped), if_neg (not_not_intro ready),
    if_neg (mt s.noneEnabled_iff.mp someOn), without]

/-- With every check passed the engine goes to RUNNING (R139). -/
theorem ownStart_running (stopped : s.engine = .stopped) (ready : s.store.state = .ready)
    (someOn : ¬∀ n : Fin 4, (s.lane n).settings.enabled = false) (plans : s.laneWithoutPlan = none) :
    ownStart tag s = ({ s with engine := .running } : State).answer tag .ok [] := by
  rw [ownStart, if_neg (not_not_intro stopped), if_neg (not_not_intro ready),
    if_neg (mt s.noneEnabled_iff.mp someOn), plans]

end StartCases

theorem exec_start_held {s : State} {tag : Byte}
    (h : s.link.state = .held { code := .start, tag, payload := [] } .owner) :
    exec (.start tag) s = .next (ownStart tag s) :=
  requestStep_held _ _ h

/-- Settles O18: one case for each check of R138, in its order, and the last for an engine that runs. -/
theorem startChecksAndRuns : Obligations.StartChecksAndRuns := by
  unfold Obligations.StartChecksAndRuns
  refine ⟨fun s tag held => ?_, fun n => beq_iff_eq⟩
  rw [exec_start_held held]
  by_cases stopped : s.engine = .stopped
  case neg => rw [if_pos stopped, ownStart_wrongState tag stopped]
  by_cases ready : s.store.state = .ready
  case neg => rw [if_neg (not_not_intro stopped), if_pos ready, ownStart_storeNotReady tag stopped ready]
  rw [if_neg (not_not_intro stopped), if_neg (not_not_intro ready)]
  by_cases allOff : ∀ n : Fin 4, (s.lane n).settings.enabled = false
  · rw [if_pos allOff, ownStart_noLane tag stopped ready allOff]
  · rw [if_neg allOff, ← State.laneWithoutPlan_eq]
    cases plans : s.laneWithoutPlan with
    | some n => rw [ownStart_noPlan tag stopped ready allOff plans]
    | none => rw [ownStart_running tag stopped ready allOff plans]

/-! ### The halt-done test and HALT -/

theorem engineEntries_eq_zero (q : List QueueEntry) : engineEntries q = 0 ↔ ∀ e ∈ q, e.origin ≠ .engine := by
  simp only [engineEntries_eq_countP, List.countP_eq_zero, decide_eq_true_eq, ne_eq]

/-- The halt-done condition: the scan engine is FREE, and the tally queue holds no ENGINE entry (R141). -/
theorem State.drained_iff (s : State) :
    s.drained = true ↔ s.scan = .free ∧ ∀ e ∈ s.store.queue, e.origin ≠ .engine := by
  rw [State.drained, Bool.and_eq_true, decide_eq_true_iff, beq_iff_eq, engineEntries_eq_zero]

/-- The test of R141, with its condition spelled out. -/
theorem State.testHaltDone_eq_ite (s : State) :
    s.testHaltDone =
      if s.engine = .halting ∧ s.scan = .free ∧ (∀ e ∈ s.store.queue, e.origin ≠ .engine) then
        ({ s with engine := .stopped } : State).notify .haltDone
      else s :=
  ite_congr (propext (and_congr_right fun _ => s.drained_iff)) (fun _ => rfl) (fun _ => rfl)

section HaltCases

variable {s : State} (tag : Byte)

theorem ownHalt_of_stopped (h : s.engine = .stopped) : ownHalt tag s = s.answer tag .wrongState [] := by
  rw [ownHalt, h]

theorem ownHalt_of_halting (h : s.engine = .halting) : ownHalt tag s = s.answer tag .accepted [] := by
  rw [ownHalt, h]

/-- HALT of a running engine makes the test of R141 before its reply is formed (R140, R162). -/
theorem ownHalt_of_running (h : s.engine = .running) :
    ownHalt tag s = ({ s with engine := .halting } : State).testHaltDone.answer tag .accepted [] := by
  rw [ownHalt, h]

end HaltCases

theorem exec_halt_held {s : State} {tag : Byte}
    (h : s.link.state = .held { code := .halt, tag, payload := [] } .owner) :
    exec (.halt tag) s = .next (ownHalt tag s) :=
  requestStep_held _ _ h

/-- Settles O19: the test's condition is the one of R141, and HALT answers by the engine state it finds. -/
theorem haltAndHaltDone : Obligations.HaltAndHaltDone := by
  unfold Obligations.HaltAndHaltDone
  refine ⟨⟨State.testHaltDone_eq_ite, fun s tag held => ?_⟩, fun n => beq_iff_eq⟩
  rw [exec_halt_held held]
  cases engine : s.engine with
  | stopped => rw [ownHalt_of_stopped tag engine]
  | running => rw [ownHalt_of_running tag engine]
  | halting => rw [ownHalt_of_halting tag engine]

end Sys2Proof.Machine
end

section
/-! PROOFS. Notices (R148), their sixteen bytes (section 10.6.5) and FETCH-NOTICES (R149). -/

namespace Sys2Proof.Machine

/-! ### The sixteen bytes of each kind of notice (section 10.6.5) -/

section NoticeBytes

variable (stamp : Stamp)

theorem Notice.bytes_laneGap (lane : Fin 4) :
    Notice.bytes { kind := .laneGap lane, stamp } =
      [1, 0x01] ++ bytes32 stamp ++ [natByte lane, 0, 0, 0, 0, 0, 0, 0, 0, 0] := rfl

theorem Notice.bytes_recordFault (lane : Fin 4) (outcome : RecordOutcome) (length : Nat) :
    Notice.bytes { kind := .recordFault lane outcome length, stamp } =
      [2, 0x07] ++ bytes32 stamp ++ [natByte lane, natByte outcome.code] ++ bytes16 (BitVec.ofNat 16 length)
        ++ [0, 0, 0, 0, 0, 0] := rfl

theorem Notice.bytes_storePoison (group : Group) :
    Notice.bytes { kind := .storePoison group, stamp } =
      [3, 0x08] ++ bytes32 stamp ++ [0, 0, 0, 0] ++ bytes16 group ++ [0, 0, 0, 0] := rfl

theorem Notice.bytes_clearDone :
    Notice.bytes { kind := .clearDone, stamp } = [4, 0x00] ++ bytes32 stamp ++ [0, 0, 0, 0, 0, 0, 0, 0, 0, 0] := rfl

theorem Notice.bytes_haltDone :
    Notice.bytes { kind := .haltDone, stamp } = [5, 0x00] ++ bytes32 stamp ++ [0, 0, 0, 0, 0, 0, 0, 0, 0, 0] := rfl

end NoticeBytes

/-! ### FETCH-NOTICES -/

/-- The FETCH-NOTICES reply: the flag, how many notices were fetched of those held, and their bytes (R149). -/
theorem fetchBytes_take (overflow : Bool) (maximum : Nat) (held : List Notice) :
    fetchBytes overflow (held.take maximum) =
      (if overflow then 1 else 0) :: natByte (min maximum held.length)
        :: ((held.take maximum).map Notice.bytes).flatten := by
  rw [fetchBytes, List.length_take]
  rfl

/-- FETCH-NOTICES removes the notices it returns and clears the flag, or refuses its maximum (R149). -/
theorem ownFetchNotices_eq (tag maximum : Byte) (s : State) :
    ownFetchNotices tag maximum s =
      if 1 ≤ maximum.toNat ∧ maximum.toNat ≤ 8 then
        ({ s with notices := s.notices.drop maximum.toNat, overflow := false } : State).answer tag .ok
          ((if s.overflow then 1 else 0) :: natByte (min maximum.toNat s.notices.length)
            :: ((s.notices.take maximum.toNat).map Notice.bytes).flatten)
      else s.answer tag .badArgument [] := by
  rw [ownFetchNotices, fetchBytes_take]

theorem exec_fetchNotices_held {s : State} {tag maximum : Byte}
    (h : s.link.state = .held { code := .fetchNotices, tag, payload := [maximum] } .owner) :
    exec (.fetchNotices tag maximum) s = .next (ownFetchNotices tag maximum s) :=
  requestStep_held _ _ h

/-- Settles O20: R148 is what `State.notify` says, each kind of notice spells its sixteen bytes, and a FETCH-NOTICES
returns what it removes. -/
theorem noticesEnterAndAreFetched : Obligations.NoticesEnterAndAreFetched := by
  unfold Obligations.NoticesEnterAndAreFetched
  refine ⟨⟨fun s k => ?enters, fun stamp lane outcome length group => ?layouts, ?codes,
    fun s tag maximum held => ?fetched⟩, fun n => beq_iff_eq⟩
  case enters => rfl
  case layouts =>
    exact ⟨Notice.bytes_laneGap stamp lane, Notice.bytes_recordFault stamp lane outcome length,
      Notice.bytes_storePoison stamp group, Notice.bytes_clearDone stamp, Notice.bytes_haltDone stamp⟩
  case codes => rfl
  case fetched => rw [exec_fetchNotices_held held, ownFetchNotices_eq]

end Sys2Proof.Machine
end

section
/-! PROOFS. Which blocks of the state each command can change: a command leaves every other block as it was. -/

namespace Sys2Proof.Machine

/-! ### Blocks and changes -/

/-- The blocks of the state that commands change apart from one another. `store` is the whole tally store; its queue, its
settings and its records are blocks of their own as well, and so is the rate of the link. -/
inductive Block where
  | pending
  | timeStamp
  | porHeld
  | settings
  | fifos
  | contexts
  | tables
  | plans
  | windows
  | scan
  | engine
  | notices
  | store
  | queue
  | storeSettings
  | records
  | link
  | linkRate
  deriving DecidableEq

/-- The block is the same in both states. -/
def Block.Same (s t : State) : Block → Prop
  | .pending => t.pending = s.pending
  | .timeStamp => t.timeStamp = s.timeStamp
  | .porHeld => t.porHeld = s.porHeld
  | .settings => ∀ n : Fin 4, (t.lane n).settings = (s.lane n).settings
  | .fifos => ∀ n : Fin 4, (t.lane n).fifo = (s.lane n).fifo
  | .contexts => ∀ n : Fin 4, (t.lane n).ctx = (s.lane n).ctx
  | .tables => t.tables = s.tables
  | .plans => t.plans = s.plans
  | .windows => t.windows = s.windows
  | .scan => t.scan = s.scan
  | .engine => t.engine = s.engine
  | .notices => t.notices = s.notices
  | .store => t.store = s.store
  | .queue => t.store.queue = s.store.queue
  | .storeSettings => t.store.sumMode = s.store.sumMode ∧ t.store.rowPolicy = s.store.rowPolicy
  | .records => t.store.cells = s.store.cells ∧ t.store.clean = s.store.clean ∧ t.store.epoch = s.store.epoch
  | .link => t.link = s.link
  | .linkRate => t.link.rate = s.link.rate

/-- Between two states nothing but the listed blocks differs. -/
structure State.ChangesOnly (s : State) (bs : List Block) (t : State) : Prop where
  keeps : ∀ b : Block, b ∉ bs → b.Same s t

theorem Block.Same.refl (b : Block) (s : State) : b.Same s s := by
  cases b <;> simp only [Block.Same, implies_true, and_self]

theorem Block.Same.trans {b : Block} {s t u : State} (h : b.Same s t) (h' : b.Same t u) : b.Same s u := by
  cases b <;> simp_all only [Block.Same, implies_true, and_self]

theorem State.ChangesOnly.refl (s : State) (bs : List Block) : s.ChangesOnly bs s := ⟨fun b _ => .refl b s⟩

/-- A further change of blocks that are listed already. -/
theorem State.ChangesOnly.next {s t u : State} {bs cs : List Block} (h : s.ChangesOnly bs t) (h' : t.ChangesOnly cs u)
    (sub : cs ⊆ bs) : s.ChangesOnly bs u :=
  ⟨fun b hb => (h.keeps b hb).trans (h'.keeps b fun hc => hb (sub hc))⟩

theorem State.ChangesOnly.mono {s t : State} {bs cs : List Block} (h : s.ChangesOnly cs t) (sub : cs ⊆ bs) :
    s.ChangesOnly bs t := ⟨fun b hb => h.keeps b fun hc => hb (sub hc)⟩

/-! ### What the named updates change -/

section Updates

variable (s : State)

/-- A change of the link that keeps its rate. -/
theorem State.link_changes (l : Link) (hr : l.rate = s.link.rate) : s.ChangesOnly [.link] { s with link := l } := by
  refine ⟨fun b hb => ?_⟩
  cases b <;> simp_all [Block.Same, State.lane]

theorem State.formReply_changes (st : Status) (tag : Byte) (p : List Byte) (r : Bool) :
    s.ChangesOnly [.link] (s.formReply st tag p r) := s.link_changes _ rfl

theorem State.answer_changes (tag : Byte) (st : Status) (p : List Byte) : s.ChangesOnly [.link] (s.answer tag st p) :=
  s.formReply_changes ..

theorem State.linkTo_changes (l : LinkState) : s.ChangesOnly [.link] (s.linkTo l) := s.link_changes _ rfl

theorem State.discarderTo_changes (d : Discarder) : s.ChangesOnly [.link] (s.discarderTo d) := s.link_changes _ rfl

theorem State.holdFor_changes (w : HeldFor) : s.ChangesOnly [.link] (s.holdFor w) := by
  unfold State.holdFor
  split
  · exact s.link_changes _ rfl
  · exact .refl _ _

theorem State.notify_changes (k : NoticeKind) : s.ChangesOnly [.notices] (s.notify k) := by
  refine ⟨fun b hb => ?_⟩
  cases b <;> simp_all [Block.Same, State.lane]

theorem State.testHaltDone_changes : s.ChangesOnly [.engine, .notices] s.testHaltDone := by
  refine ⟨fun b hb => ?_⟩
  cases b <;> simp_all [Block.Same, State.lane]

/-- A lane replaced, by what the new lane has in common with the old one. -/
theorem State.putLane_changes {bs : List Block} {n : Fin 4} {l : Lane}
    (settings : .settings ∈ bs ∨ l.settings = (s.lane n).settings) (fifo : .fifos ∈ bs ∨ l.fifo = (s.lane n).fifo)
    (ctx : .contexts ∈ bs ∨ l.ctx = (s.lane n).ctx) : s.ChangesOnly bs (s.putLane n l) := by
  refine ⟨fun b hb => ?_⟩
  have lanes (m : Fin 4) : (s.putLane n l).lane m = if n = m then l else s.lane m := s.lane_putLane n m l
  cases b <;> simp only [Block.Same, lanes, State.putLane_pending, State.putLane_timeStamp, State.putLane_porHeld,
    State.putLane_tables, State.putLane_plans, State.putLane_windows, State.putLane_scan, State.putLane_engine,
    State.putLane_notices, State.putLane_store, State.putLane_link, and_self]
  case settings =>
    intro m
    split
    · next hm => exact hm ▸ settings.resolve_left hb
    · rfl
  case fifos =>
    intro m
    split
    · next hm => exact hm ▸ fifo.resolve_left hb
    · rfl
  case contexts =>
    intro m
    split
    · next hm => exact hm ▸ ctx.resolve_left hb
    · rfl

/-- The store settled after a change, by what the changed store has in common with the old one. -/
theorem State.withStore_changes {bs : List Block} {st : Store} (store : .store ∈ bs)
    (queue : .queue ∈ bs ∨ st.queue = s.store.queue)
    (settings : .storeSettings ∈ bs ∨ st.sumMode = s.store.sumMode ∧ st.rowPolicy = s.store.rowPolicy)
    (records : .records ∈ bs ∨
      st.cells = s.store.cells ∧ st.clean = s.store.clean ∧ st.epoch = s.store.epoch) :
    s.ChangesOnly bs (s.withStore st) := by
  refine ⟨fun b hb => ?_⟩
  cases b <;> simp_all [Block.Same, State.withStore, State.lane]

theorem State.loseEntry_changes (n : Fin 4) : s.ChangesOnly [.notices] (s.loseEntry n) := by
  have lost : s.ChangesOnly [.notices] (s.putLane n { s.lane n with gapPending := true }) :=
    s.putLane_changes (.inr rfl) (.inr rfl) (.inr rfl)
  unfold State.loseEntry
  split
  · exact lost
  · exact lost.next (State.notify_changes ..) (List.Subset.refl _)

theorem State.discardContexts_changes (p : Fin 4 → Bool) : s.ChangesOnly [.contexts] (s.discardContexts p) := by
  refine ⟨fun b hb => ?_⟩
  have lanes (n : Fin 4) : (s.discardContexts p).lane n =
      if p n then { s.lane n with ctx := Context.cleared } else s.lane n := s.lane_discardContexts p n
  rw [State.discardContexts_eq] at lanes ⊢
  cases b <;> simp only [Block.Same, lanes, and_self]
  case settings => intro n; split <;> rfl
  case fifos => intro n; split <;> rfl
  case contexts => exact absurd (by decide) hb

/-! ### Bytes on LRX -/

theorem State.takeRequest_changes (body : List Byte) : s.ChangesOnly [.link] (s.takeRequest body) := by
  unfold State.takeRequest
  repeat' split
  · exact s.formReply_changes ..
  · exact s.linkTo_changes _
  · exact s.formReply_changes ..
  · exact .refl _ _

theorem State.frameComplete_changes (len : Byte) (rest : List Byte) :
    s.ChangesOnly [.link] (s.frameComplete len rest) := by
  unfold State.frameComplete
  dsimp only
  split
  · exact s.takeRequest_changes _
  · exact s.formReply_changes ..

theorem State.receiveByte_changes (len : Option Byte) (rest : List Byte) (v : Byte) (f : Bool) :
    s.ChangesOnly [.link] (s.receiveByte len rest v f) := by
  unfold State.receiveByte
  repeat' split
  · exact s.formReply_changes ..
  · exact s.linkTo_changes _
  · exact s.formReply_changes ..
  · exact s.frameComplete_changes ..
  · exact s.linkTo_changes _

theorem State.discardByte_changes (e : Option Nat) (v : Byte) (f : Bool) :
    s.ChangesOnly [.link] (s.discardByte e v f) := by
  unfold State.discardByte
  repeat' split
  all_goals exact s.discarderTo_changes _

theorem State.takeByte_changes (v : Byte) (f : Bool) : s.ChangesOnly [.link] (s.takeByte v f) := by
  unfold State.takeByte
  repeat' split
  · exact s.discardByte_changes ..
  · exact s.linkTo_changes _
  · exact .refl _ _
  · exact s.receiveByte_changes ..
  · exact s.link_changes _ rfl
  · exact .refl _ _
  · exact s.link_changes _ rfl
  · exact .refl _ _

theorem State.noteBreak_changes (f sp : Bool) : s.ChangesOnly [.link] (s.noteBreak f sp) := by
  unfold State.noteBreak
  split
  · exact s.link_changes _ rfl
  · exact .refl _ _

theorem State.linkByte_changes (v : Byte) (f sp : Bool) : s.ChangesOnly [.link] (s.linkByte v f sp) := by
  unfold State.linkByte
  split
  · exact .refl _ _
  split
  · exact s.noteBreak_changes f sp
  · have stamped := (s.noteBreak_changes f sp).next
      (State.link_changes _ { (s.noteBreak f sp).link with lastByteAt := (s.noteBreak f sp).timeStamp } rfl)
      (List.Subset.refl _)
    exact stamped.next (State.takeByte_changes ..) (List.Subset.refl _)

theorem State.linkBytes_changes (bs : List Byte) :
    s.ChangesOnly [.link] (bs.foldl (fun s b => s.linkByte b false false) s) := by
  induction bs generalizing s with
  | nil => exact .refl _ _
  | cons b bs ih => exact (s.linkByte_changes b false false).next (ih _) (List.Subset.refl _)

theorem State.deliver_changes (r : Request) : s.ChangesOnly [.link] (s.deliver r) := by
  unfold State.deliver
  split
  · exact .refl _ _
  · exact s.linkBytes_changes _

end Updates

/-! ### The owners' acts -/

section Owners

variable {s t : State} {bs : List Block}

/-- A change followed by a reply. -/
theorem State.ChangesOnly.answer (h : s.ChangesOnly bs t) (tag : Byte) (st : Status) (p : List Byte)
    (link : .link ∈ bs := by decide) : s.ChangesOnly bs (t.answer tag st p) :=
  h.next (t.answer_changes tag st p) (by simpa using link)

/-- A change followed by a notice. -/
theorem State.ChangesOnly.notify (h : s.ChangesOnly bs t) (k : NoticeKind) (notices : .notices ∈ bs := by decide) :
    s.ChangesOnly bs (t.notify k) :=
  h.next (t.notify_changes k) (by simpa using notices)

/-- A change followed by the loss of an entry. -/
theorem State.ChangesOnly.loseEntry (h : s.ChangesOnly bs t) (n : Fin 4) (notices : .notices ∈ bs := by decide) :
    s.ChangesOnly bs (t.loseEntry n) :=
  h.next (t.loseEntry_changes n) (by simpa using notices)

/-- A change followed by the halt-done test. -/
theorem State.ChangesOnly.testHaltDone (h : s.ChangesOnly bs t) (engine : .engine ∈ bs := by decide)
    (notices : .notices ∈ bs := by decide) : s.ChangesOnly bs t.testHaltDone :=
  h.next t.testHaltDone_changes (by simpa using ⟨engine, notices⟩)

/-- A change followed by the scan engine's becoming FREE. -/
theorem State.ChangesOnly.scanTo (h : s.ChangesOnly bs t) (x : ScanState) (scan : .scan ∈ bs := by decide) :
    s.ChangesOnly bs { t with scan := x } := by
  refine h.next (cs := [.scan]) ⟨fun b hb => ?_⟩ (by simpa using scan)
  cases b <;> simp_all [Block.Same, State.lane]

variable (s) (tag : Byte)

theorem ownStart_changes : s.ChangesOnly [.engine, .link] (ownStart tag s) := by
  have running : s.ChangesOnly [.engine, .link] { s with engine := .running } := by
    refine ⟨fun b hb => ?_⟩
    cases b <;> simp_all [Block.Same, State.lane]
  unfold ownStart
  repeat' split
  all_goals first | exact running.answer .. | exact (State.ChangesOnly.refl ..).answer ..

theorem ownHalt_changes : s.ChangesOnly [.engine, .notices, .link] (ownHalt tag s) := by
  have halting : s.ChangesOnly [.engine, .notices, .link] { s with engine := .halting } := by
    refine ⟨fun b hb => ?_⟩
    cases b <;> simp_all [Block.Same, State.lane]
  unfold ownHalt
  split
  · exact (State.ChangesOnly.refl ..).answer ..
  · exact (State.ChangesOnly.refl ..).answer ..
  · exact halting.testHaltDone.answer ..

theorem ownFetchNotices_changes (maximum : Byte) :
    s.ChangesOnly [.notices, .link] (ownFetchNotices tag maximum s) := by
  have fetched : s.ChangesOnly [.notices, .link]
      { s with notices := s.notices.drop maximum.toNat, overflow := false } := by
    refine ⟨fun b hb => ?_⟩
    cases b <;> simp_all [Block.Same, State.lane]
  unfold ownFetchNotices
  split
  · exact fetched.answer ..
  · exact (State.ChangesOnly.refl ..).answer ..

theorem ownSetLane_changes (lane : Byte) (raw : RawSettings) :
    s.ChangesOnly [.settings, .fifos, .contexts, .link] (ownSetLane tag lane raw s) := by
  unfold ownSetLane
  repeat' split
  · exact (State.ChangesOnly.refl ..).answer ..
  · exact (State.ChangesOnly.refl ..).answer ..
  · exact (s.putLane_changes (.inl (by decide)) (.inl (by decide)) (.inl (by decide))).answer ..
  · exact (State.ChangesOnly.refl ..).answer ..

theorem ownReadLane_changes (lane : Byte) : s.ChangesOnly [.link] (ownReadLane tag lane s) := by
  unfold ownReadLane
  split <;> exact s.answer_changes ..

theorem Lane.feed_keeps (l : Lane) (data : List Byte) (now : Stamp) :
    (l.feed data now).settings = l.settings ∧ (l.feed data now).ctx = l.ctx := by
  rw [Lane.feed, Lane.rearm_eq]
  exact ⟨rfl, rfl⟩

theorem ownFeed_changes (lane : Byte) (data : List Byte) :
    s.ChangesOnly [.fifos, .link] (ownFeed tag lane data s) := by
  unfold ownFeed
  split
  · exact (State.ChangesOnly.refl ..).answer ..
  · next n _ =>
    have fed : s.ChangesOnly [.fifos, .link] (s.putLane n ((s.lane n).feed data s.timeStamp)) :=
      s.putLane_changes (.inr (Lane.feed_keeps ..).1) (.inl (by decide)) (.inr (Lane.feed_keeps ..).2)
    dsimp only
    repeat' split
    all_goals first | exact fed.answer .. | exact (State.ChangesOnly.refl ..).answer ..

theorem State.flush_changes (n : Fin 4) :
    s.ChangesOnly [.fifos, .contexts, .scan, .engine, .notices, .link] (s.flush n) := by
  have emptied : s.ChangesOnly [.fifos, .contexts, .scan, .engine, .notices, .link]
      (s.putLane n (s.lane n).flushed) := s.putLane_changes (.inr rfl) (.inl (by decide)) (.inl (by decide))
  unfold State.flush
  dsimp only
  split
  · exact (emptied.scanTo .free).testHaltDone
  · exact emptied

theorem ownFlushLane_changes (lane : Byte) :
    s.ChangesOnly [.fifos, .contexts, .scan, .engine, .notices, .link] (ownFlushLane tag lane s) := by
  unfold ownFlushLane
  repeat' split
  · exact (State.ChangesOnly.refl ..).answer ..
  · exact (s.holdFor_changes _).mono (by decide)
  · exact (s.flush_changes _).answer ..

/-- A load: the tables or plans written, the contexts of some lanes discarded, the reply. -/
theorem State.ChangesOnly.load (h : s.ChangesOnly bs t) (p : Fin 4 → Bool) (payload : List Byte)
    (contexts : .contexts ∈ bs := by decide) (link : .link ∈ bs := by decide) :
    s.ChangesOnly bs ((t.discardContexts p).answer tag .ok payload) :=
  (h.next (t.discardContexts_changes p) (by simpa using contexts)).answer tag .ok payload link

theorem ownLoadTable_changes (table first : Byte) (entries : List RawTableEntry) :
    s.ChangesOnly [.tables, .contexts, .link] (ownLoadTable tag table first entries s) := by
  have written (tables) : s.ChangesOnly [.tables, .contexts, .link] { s with tables := tables } := by
    refine ⟨fun b hb => ?_⟩
    cases b <;> simp_all [Block.Same, State.lane]
  unfold ownLoadTable
  dsimp only
  repeat' split
  all_goals first | exact (written _).load .. | exact (State.ChangesOnly.refl ..).answer ..

theorem ownReadTable_changes (table first count : Byte) :
    s.ChangesOnly [.link] (ownReadTable tag table first count s) := by
  unfold ownReadTable
  repeat' split
  all_goals exact s.answer_changes ..

theorem ownLoadPlan_changes (plan startRequired tailPolicy : Byte) (steps : List RawStep) :
    s.ChangesOnly [.plans, .contexts, .link] (ownLoadPlan tag plan startRequired tailPolicy steps s) := by
  have stored (plans) : s.ChangesOnly [.plans, .contexts, .link] { s with plans := plans } := by
    refine ⟨fun b hb => ?_⟩
    cases b <;> simp_all [Block.Same, State.lane]
  unfold ownLoadPlan
  dsimp only
  repeat' split
  all_goals first | exact (stored _).load .. | exact (State.ChangesOnly.refl ..).answer ..

theorem ownReadPlan_changes (plan : Byte) : s.ChangesOnly [.link] (ownReadPlan tag plan s) := by
  unfold ownReadPlan
  split <;> exact s.answer_changes ..

/-- The route map written. -/
theorem State.windows_changes (windows : Vector (Option Window) 128) :
    s.ChangesOnly [.windows, .link] { s with windows := windows } := by
  refine ⟨fun b hb => ?_⟩
  cases b <;> simp_all [Block.Same, State.lane]

theorem ownSetWindow_changes (raw : RawWindow) : s.ChangesOnly [.windows, .link] (ownSetWindow tag raw s) := by
  unfold ownSetWindow
  repeat' split
  · exact (State.ChangesOnly.refl ..).answer ..
  · exact (s.windows_changes _).answer ..
  · exact (State.ChangesOnly.refl ..).answer ..

theorem ownClearWindow_changes (index : Byte) : s.ChangesOnly [.windows, .link] (ownClearWindow tag index s) := by
  unfold ownClearWindow
  split
  · exact (State.ChangesOnly.refl ..).answer ..
  · exact (s.windows_changes _).answer ..

theorem ownReadWindow_changes (index : Byte) : s.ChangesOnly [.link] (ownReadWindow tag index s) := by
  unfold ownReadWindow
  split <;> exact s.answer_changes ..

theorem ownConfigureStore_changes (sumMode rowPolicy : Byte) :
    s.ChangesOnly [.store, .storeSettings, .link] (ownConfigureStore tag sumMode rowPolicy s) := by
  have configured (m p) : s.ChangesOnly [.store, .storeSettings, .link]
      { s with store := { s.store with sumMode := m, rowPolicy := p } } := by
    refine ⟨fun b hb => ?_⟩
    cases b <;> simp_all [Block.Same, State.lane]
  unfold ownConfigureStore
  repeat' split
  · exact (State.ChangesOnly.refl ..).answer ..
  · exact (configured _ _).answer ..
  · exact (State.ChangesOnly.refl ..).answer ..

theorem ownClearStore_changes : s.ChangesOnly [.store, .link] (ownClearStore tag s) := by
  have begun : s.ChangesOnly [.store, .link] (s.withStore s.store.beginClear) :=
    s.withStore_changes (by decide) (.inr rfl) (.inr ⟨rfl, rfl⟩) (.inr ⟨rfl, rfl, rfl⟩)
  unfold ownClearStore
  split
  · exact (State.ChangesOnly.refl ..).answer ..
  · exact begun.answer ..

theorem State.admitTally_changes (entries : List QueueEntry) :
    s.ChangesOnly [.store, .queue, .link] (s.admitTally tag entries) := by
  have joined : s.ChangesOnly [.store, .queue, .link]
      (s.withStore { s.store with queue := s.store.queue ++ entries }) :=
    s.withStore_changes (by decide) (.inl (by decide)) (.inr ⟨rfl, rfl⟩) (.inr ⟨rfl, rfl, rfl⟩)
  unfold State.admitTally
  repeat' split
  · exact (State.ChangesOnly.refl ..).answer ..
  · exact (State.ChangesOnly.refl ..).answer ..
  · exact (State.ChangesOnly.refl ..).answer ..
  · exact joined.next (State.holdFor_changes ..) (by decide)

theorem ownReadTally_changes (first : Group) (count width shift clearAfter : Byte) :
    s.ChangesOnly [.store, .queue, .link] (ownReadTally tag first count width shift clearAfter s) := by
  unfold ownReadTally
  repeat' split
  all_goals first | exact s.admitTally_changes .. | exact (State.ChangesOnly.refl ..).answer ..

theorem ownClearTally_changes (first : Group) (count : Byte) :
    s.ChangesOnly [.store, .queue, .link] (ownClearTally tag first count s) := by
  unfold ownClearTally
  repeat' split
  all_goals first | exact s.admitTally_changes .. | exact (State.ChangesOnly.refl ..).answer ..

end Owners


/-! ### Events -/

section Events

variable {s t : State}

theorem execFlushTaken_changes (h : execFlushTaken s = .next t) :
    s.ChangesOnly [.fifos, .contexts, .scan, .engine, .notices, .link] t := by
  unfold execFlushTaken at h
  repeat' split at h
  all_goals cases h
  · exact (s.flush_changes _).answer ..
  all_goals exact .refl _ _

theorem execFrameTimeout_changes (h : execFrameTimeout s = .next t) : s.ChangesOnly [.link] t := by
  unfold execFrameTimeout at h
  repeat' split at h
  all_goals cases h
  · exact s.formReply_changes ..
  all_goals exact .refl _ _

theorem execDiscardTimeout_changes (h : execDiscardTimeout s = .next t) : s.ChangesOnly [.link] t := by
  unfold execDiscardTimeout at h
  repeat' split at h
  all_goals cases h
  · exact s.discarderTo_changes _
  all_goals exact .refl _ _

/-- A soft reset of the store keeps its settings and its records (R136). -/
theorem Store.softReset_keeps (st : Store) : st.softReset.sumMode = st.sumMode ∧ st.softReset.rowPolicy = st.rowPolicy ∧
    st.softReset.cells = st.cells ∧ st.softReset.clean = st.clean ∧ st.softReset.epoch = st.epoch := by
  unfold Store.softReset Store.enterCatchUp
  simp only [Store.settle_sumMode, Store.settle_rowPolicy, Store.settle_cells, Store.settle_clean, Store.settle_epoch]
  repeat' split
  all_goals exact ⟨rfl, rfl, rfl, rfl, rfl⟩

theorem State.lane_softReset (s : State) (n : Fin 4) : s.softReset.lane n = (s.lane n).softReset := by
  simp only [State.lane, State.softReset, Fin.getElem_fin, Vector.getElem_map]

theorem State.softReset_changes (s : State) :
    s.ChangesOnly [.fifos, .contexts, .scan, .engine, .notices, .store, .queue, .link] s.softReset := by
  obtain ⟨mode, policy, cells, clean, epoch⟩ := s.store.softReset_keeps
  refine ⟨fun b hb => ?_⟩
  cases b <;> simp_all [Block.Same, State.lane_softReset, Lane.softReset]
  all_goals simp only [State.softReset, Link.softReset, mode, policy, cells, clean, epoch, and_self]

theorem execReplySent_changes (h : execReplySent s = .next t) :
    s.ChangesOnly [.fifos, .contexts, .scan, .engine, .notices, .store, .queue, .link] t := by
  unfold execReplySent at h
  repeat' split at h
  all_goals cases h
  · exact s.softReset_changes
  · exact (s.linkTo_changes _).mono (by decide)
  all_goals exact .refl _ _

theorem execPowerOnReset_changes (h : execPowerOnReset s = .next t) :
    t.pending = s.pending ∧ t.link.rate = s.link.rate := by
  cases h
  exact ⟨rfl, rfl⟩

theorem execPowerOnResetEnd_changes {spd : Bool} (h : execPowerOnResetEnd spd s = .next t) :
    s.ChangesOnly [.porHeld, .link, .linkRate] t := by
  unfold execPowerOnResetEnd at h
  split at h <;> cases h
  · refine ⟨fun b hb => ?_⟩
    cases b <;> simp_all [Block.Same, State.lane]
  · exact .refl _ _

theorem execLinkStartupWaitEnd_changes (h : execLinkStartupWaitEnd s = .next t) : s.ChangesOnly [.link] t := by
  unfold execLinkStartupWaitEnd at h
  split at h <;> cases h
  · exact s.link_changes _ rfl
  · exact .refl _ _

theorem execTimeStampTick_changes (h : execTimeStampTick s = .next t) : s.ChangesOnly [.timeStamp] t := by
  unfold execTimeStampTick at h
  split at h <;> cases h
  · exact .refl _ _
  · refine ⟨fun b hb => ?_⟩
    cases b <;> simp_all [Block.Same, State.lane]

theorem Lane.rearm_keeps (l : Lane) (now : Stamp) :
    (l.rearm now).settings = l.settings ∧ (l.rearm now).fifo = l.fifo ∧ (l.rearm now).ctx = l.ctx := by
  rw [Lane.rearm_eq]
  exact ⟨rfl, rfl, rfl⟩

theorem State.takeCharacter_changes (s : State) (n : Fin 4) (value : Byte) (lineError : Bool) (rx : RxState) :
    s.ChangesOnly [.fifos, .notices] (s.takeCharacter n value lineError rx) := by
  obtain ⟨settings, -, ctx⟩ := Lane.rearm_keeps { s.lane n with rx } s.timeStamp
  unfold State.takeCharacter
  dsimp only
  split
  · exact (s.putLane_changes (.inr settings) (.inl (by decide)) (.inr ctx)).loseEntry n
  · exact s.putLane_changes (.inr settings) (.inl (by decide)) (.inr ctx)

theorem execPinCharacterReceived_changes {n : Fin 4} {value : Byte} {parityBit stopMark staysSpace : Bool}
    (h : execPinCharacterReceived n value parityBit stopMark staysSpace s = .next t) :
    s.ChangesOnly [.fifos, .notices] t := by
  unfold execPinCharacterReceived at h
  dsimp only at h
  split at h <;> cases h
  · exact s.takeCharacter_changes ..
  · exact .refl _ _

theorem execReceiverRestEnd_changes {n : Fin 4} (h : execReceiverRestEnd n s = .next t) : s.ChangesOnly [] t := by
  unfold execReceiverRestEnd at h
  dsimp only at h
  split at h <;> cases h
  · exact s.putLane_changes (.inr rfl) (.inr rfl) (.inr rfl)
  · exact .refl _ _

theorem execStartBit_changes {n : Fin 4} (h : execStartBit n s = .next t) : s.ChangesOnly [] t := by
  unfold execStartBit at h
  dsimp only at h
  split at h <;> cases h
  · exact s.putLane_changes (.inr rfl) (.inr rfl) (.inr rfl)
  · exact .refl _ _

theorem execIdleTimerExpiry_changes {n : Fin 4} (h : execIdleTimerExpiry n s = .next t) :
    s.ChangesOnly [.fifos, .notices] t := by
  have put (l : Lane) (hs : l.settings = (s.lane n).settings) (hc : l.ctx = (s.lane n).ctx) :
      s.ChangesOnly [.fifos, .notices] (s.putLane n l) :=
    s.putLane_changes (.inr hs) (.inl (by decide)) (.inr hc)
  unfold execIdleTimerExpiry at h
  dsimp only at h
  repeat' split at h
  all_goals cases h
  · exact put _ rfl rfl
  · exact (put { s.lane n with timer := none } rfl rfl).loseEntry n
  · exact put _ rfl rfl
  · exact .refl _ _

theorem execArbiterGrant_changes (h : execArbiterGrant s = .next t) : s.ChangesOnly [.scan] t := by
  unfold execArbiterGrant at h
  split at h <;> cases h
  · refine ⟨fun b hb => ?_⟩
    cases b <;> simp_all [Block.Same, State.lane]
  · exact .refl _ _

theorem State.afterEntry_changes (s : State) (n : Fin 4) (units : List FinishedUnit) :
    s.ChangesOnly [.scan, .engine, .notices] (s.afterEntry n units) := by
  unfold State.afterEntry
  repeat' split
  · exact (State.ChangesOnly.refl ..).scanTo _
  · exact ((State.ChangesOnly.refl ..).scanTo _).testHaltDone
  · exact .refl _ _

theorem State.takeEntry_changes (s : State) (n : Fin 4) (plan : Plan) (entry : FifoEntry) (rest : List FifoEntry) :
    s.ChangesOnly [.fifos, .contexts, .scan, .engine, .notices] (s.takeEntry n plan entry rest) := by
  have put (ctx : Context) : s.ChangesOnly [.fifos, .contexts, .scan, .engine, .notices]
      (s.putLane n { s.lane n with fifo := rest, ctx }) :=
    s.putLane_changes (.inr rfl) (.inl (by decide)) (.inl (by decide))
  have counted (u : State) (k : Nat) : u.ChangesOnly [] { u with taken := k } :=
    ⟨fun b _ => by cases b <;> simp [Block.Same, State.lane]⟩
  exact ((put _).next (counted _ _) (by decide)).next (State.afterEntry_changes ..) (by decide)

theorem execScanEntry_changes (h : execScanEntry s = .next t) :
    s.ChangesOnly [.fifos, .contexts, .scan, .engine, .notices] t := by
  unfold execScanEntry at h
  repeat' split at h
  all_goals cases h
  · exact .refl _ _
  · exact s.takeEntry_changes ..
  all_goals exact .refl _ _

theorem execUnitAdmitted_changes (h : execUnitAdmitted s = .next t) :
    s.ChangesOnly [.scan, .engine, .notices, .store, .queue] t := by
  unfold execUnitAdmitted at h
  repeat' split at h
  all_goals cases h
  · next n u units _ _ =>
    have joined : s.ChangesOnly [.scan, .engine, .notices, .store, .queue]
        (s.withStore { s.store with queue := s.store.queue ++ unitEntries n u }) :=
      s.withStore_changes (by decide) (.inl (by decide)) (.inr ⟨rfl, rfl⟩) (.inr ⟨rfl, rfl, rfl⟩)
    have noticed : s.ChangesOnly [.scan, .engine, .notices, .store, .queue]
        (State.notifyFault (s.withStore { s.store with queue := s.store.queue ++ unitEntries n u }) n u) := by
      unfold State.notifyFault
      split
      · exact joined.notify _
      · exact joined
    unfold State.afterAdmission
    split
    · exact (noticed.scanTo _).testHaltDone
    · exact noticed.scanTo _
  all_goals exact .refl _ _

theorem execActivationComplete_changes {b : Fin 8} (h : execActivationComplete b s = .next t) :
    s.ChangesOnly [.store] t := by
  unfold execActivationComplete at h
  repeat' split at h
  all_goals cases h
  · exact s.withStore_changes (by decide) (.inr rfl) (.inr ⟨rfl, rfl⟩) (.inr ⟨rfl, rfl, rfl⟩)
  · exact s.withStore_changes (by decide) (.inr rfl) (.inr ⟨rfl, rfl⟩) (.inr ⟨rfl, rfl, rfl⟩)
  all_goals exact .refl _ _

theorem execPrechargeComplete_changes {b : Fin 8} (h : execPrechargeComplete b s = .next t) :
    s.ChangesOnly [.store] t := by
  unfold execPrechargeComplete at h
  repeat' split at h
  all_goals cases h
  · exact s.withStore_changes (by decide) (.inr rfl) (.inr ⟨rfl, rfl⟩) (.inr ⟨rfl, rfl, rfl⟩)
  all_goals exact .refl _ _

theorem State.linkEntryDone_changes (s : State) (readout : Option Readout) :
    s.ChangesOnly [.link] (s.linkEntryDone readout) := by
  unfold State.linkEntryDone
  split
  · dsimp only
    split
    · exact s.answer_changes ..
    · exact s.holdFor_changes _
  · exact .refl _ _

theorem execRecordOperationComplete_changes {b : Fin 8} (h : execRecordOperationComplete b s = .next t) :
    s.ChangesOnly [.engine, .notices, .store, .queue, .records, .link] t := by
  unfold execRecordOperationComplete at h
  split at h
  · next row e mode asRead runOn _ =>
    cases h
    have written : s.ChangesOnly [.engine, .notices, .store, .queue, .records, .link] (s.withStore
        (({ s.store.writeResult e.group.toNat (recordOperation e mode asRead).write with
            queue := dropHead b (s.store.writeResult e.group.toNat (recordOperation e mode asRead).write).queue } :
          Store).putBank b
          (({ s.store.writeResult e.group.toNat (recordOperation e mode asRead).write with
            queue := dropHead b (s.store.writeResult e.group.toNat (recordOperation e mode asRead).write).queue } :
          Store).afterOperation row runOn))) := by
      rw [Store.writeResult_eq]
      exact s.withStore_changes (by decide) (.inl (by decide)) (.inr ⟨rfl, rfl⟩) (.inl (by decide))
    refine State.ChangesOnly.testHaltDone ?_
    split
    · split
      · exact written.notify _
      · exact written
    · split
      · exact (written.notify _).next (State.linkEntryDone_changes ..) (by decide)
      · exact written.next (State.linkEntryDone_changes ..) (by decide)
  all_goals
    cases h
    exact .refl _ _

theorem execRowWriteComplete_changes {b : Fin 8} (h : execRowWriteComplete b s = .next t) :
    s.ChangesOnly [.notices, .store, .records] t := by
  unfold execRowWriteComplete at h
  dsimp only at h
  repeat' split at h
  all_goals cases h
  · rw [Store.writeRowEmpty_eq]
    exact s.withStore_changes (by decide) (.inr rfl) (.inr ⟨rfl, rfl⟩) (.inl (by decide))
  · rw [Store.writeRowEmpty_eq]
    refine State.ChangesOnly.notify ?_ _
    exact s.withStore_changes (by decide) (.inr rfl) (.inr ⟨rfl, rfl⟩) (.inl (by decide))
  · rw [Store.writeRowEmpty_eq]
    exact s.withStore_changes (by decide) (.inr rfl) (.inr ⟨rfl, rfl⟩) (.inl (by decide))
  all_goals exact .refl _ _

/-- Entering CATCH-UP changes the store's state alone (R130). -/
theorem Store.enterCatchUp_eq (st : Store) :
    st.enterCatchUp = { st with state := st.enterCatchUp.state, catchingUp := st.enterCatchUp.catchingUp } := by
  unfold Store.enterCatchUp
  repeat' split
  all_goals rfl

theorem execRefreshDue_changes (h : execRefreshDue s = .next t) : s.ChangesOnly [.store] t := by
  unfold execRefreshDue at h
  split at h <;> cases h
  · exact .refl _ _
  · rw [Store.enterCatchUp_eq]
    exact s.withStore_changes (by decide) (.inr rfl) (.inr ⟨rfl, rfl⟩) (.inr ⟨rfl, rfl, rfl⟩)

/-- The end of a refresh ends the refresh and may change the store's state (R129, R130). -/
theorem Store.refreshDone_eq (st : Store) : st.refreshDone =
    { st with refresh := .none, state := st.refreshDone.state, catchingUp := st.refreshDone.catchingUp } := by
  unfold Store.refreshDone
  dsimp only
  split
  · rfl
  · rw [Store.enterCatchUp_eq]

theorem execRefreshComplete_changes (h : execRefreshComplete s = .next t) : s.ChangesOnly [.store] t := by
  unfold execRefreshComplete at h
  split at h <;> cases h
  · rw [Store.refreshDone_eq]
    exact s.withStore_changes (by decide) (.inr rfl) (.inr ⟨rfl, rfl⟩) (.inr ⟨rfl, rfl, rfl⟩)
  · exact .refl _ _

theorem execRecordDamage_changes {g : Group} {contents : RecordContents} {difference : BitVec 16}
    (h : execRecordDamage g contents difference s = .next t) : s.ChangesOnly [.store, .records] t := by
  unfold execRecordDamage at h
  split at h <;> cases h
  · exact .refl _ _
  · refine ⟨fun b hb => ?_⟩
    cases b <;> simp_all [Block.Same, State.lane, Store.write]

end Events

/-! ### Every command -/

/-- The blocks that a command may change. Every request may change the link; a power-on reset leaves only the waiting
commands and the link's rate. -/
def changedBy : Instr → List Block
  | .identify _ => [.link]
  | .status _ => [.link]
  | .start _ => [.engine, .link]
  | .halt _ => [.engine, .notices, .link]
  | .reset _ => [.link]
  | .fetchNotices _ _ => [.notices, .link]
  | .setLane _ _ _ => [.settings, .fifos, .contexts, .link]
  | .readLane _ _ => [.link]
  | .feed _ _ _ => [.fifos, .link]
  | .flushLane _ _ => [.fifos, .contexts, .scan, .engine, .notices, .link]
  | .flushTaken => [.fifos, .contexts, .scan, .engine, .notices, .link]
  | .loadTable _ _ _ _ => [.tables, .contexts, .link]
  | .readTable _ _ _ _ => [.link]
  | .loadPlan _ _ _ _ _ => [.plans, .contexts, .link]
  | .readPlan _ _ => [.link]
  | .setWindow _ _ => [.windows, .link]
  | .clearWindow _ _ => [.windows, .link]
  | .readWindow _ _ => [.link]
  | .lookup _ _ => [.link]
  | .configureStore _ _ _ => [.store, .storeSettings, .link]
  | .clearStore _ => [.store, .link]
  | .readTally _ _ _ _ _ _ => [.store, .queue, .link]
  | .clearTally _ _ _ => [.store, .queue, .link]
  | .clearFlags _ _ => [.store, .queue, .link]
  | .linkByteReceived _ _ _ => [.link]
  | .frameTimeout => [.link]
  | .discardTimeout => [.link]
  | .replySent => [.fifos, .contexts, .scan, .engine, .notices, .store, .queue, .link]
  | .powerOnReset => [.timeStamp, .porHeld, .settings, .fifos, .contexts, .tables, .plans, .windows, .scan, .engine,
      .notices, .store, .queue, .storeSettings, .records, .link]
  | .powerOnResetEnd _ => [.porHeld, .link, .linkRate]
  | .linkStartupWaitEnd => [.link]
  | .timeStampTick => [.timeStamp]
  | .pinCharacterReceived _ _ _ _ _ => [.fifos, .notices]
  | .receiverRestEnd _ => []
  | .idleTimerExpiry _ => [.fifos, .notices]
  | .arbiterGrant => [.scan]
  | .scanEntry => [.fifos, .contexts, .scan, .engine, .notices]
  | .unitAdmitted => [.scan, .engine, .notices, .store, .queue]
  | .activationComplete _ => [.store]
  | .prechargeComplete _ => [.store]
  | .recordOperationComplete _ => [.engine, .notices, .store, .queue, .records, .link]
  | .recordDamage _ _ _ => [.store, .records]
  | .refreshDue => [.store]
  | .refreshComplete => [.store]
  | .rowWriteComplete _ => [.notices, .store, .records]
  | .startBit _ => []
  | .linkBreakEnd => [.link]

/-- A request command changes the link, and what its owner's act changes. -/
theorem requestStep_changes {bs : List Block} {r : Request} {owner : State → State} {s t : State}
    (h : requestStep r owner s = .next t) (acts : ∀ u : State, u.ChangesOnly bs (owner u))
    (link : .link ∈ bs := by simp [changedBy]) : s.ChangesOnly bs t := by
  have delivered : s.ChangesOnly bs (s.deliver r) := (s.deliver_changes r).mono (by simpa using link)
  obtain ht | ⟨-, ht⟩ := requestStep_cases r owner s <;> rw [ht] at h <;> cases h
  · exact delivered
  · exact delivered.next (acts _) (List.Subset.refl _)

/-- A command changes no block beside those listed for it. -/
theorem exec_changes {c : Instr} {s t : State} (h : exec c s = .next t) : s.ChangesOnly (changedBy c) t := by
  cases c with
  | identify tag => exact requestStep_changes h fun u => u.answer_changes ..
  | status tag => exact requestStep_changes h fun u => u.answer_changes ..
  | start tag => exact requestStep_changes h fun u => ownStart_changes u tag
  | halt tag => exact requestStep_changes h fun u => ownHalt_changes u tag
  | reset tag => exact requestStep_changes h fun u => u.formReply_changes ..
  | fetchNotices tag maximum => exact requestStep_changes h fun u => ownFetchNotices_changes u tag _
  | setLane tag lane settings => exact requestStep_changes h fun u => ownSetLane_changes u tag ..
  | readLane tag lane => exact requestStep_changes h fun u => ownReadLane_changes u tag _
  | feed tag lane data => exact requestStep_changes h fun u => ownFeed_changes u tag ..
  | flushLane tag lane => exact requestStep_changes h fun u => ownFlushLane_changes u tag _
  | flushTaken => exact execFlushTaken_changes h
  | loadTable tag table first entries => exact requestStep_changes h fun u => ownLoadTable_changes u tag ..
  | readTable tag table first count => exact requestStep_changes h fun u => ownReadTable_changes u tag ..
  | loadPlan tag plan startRequired tailPolicy steps =>
    exact requestStep_changes h fun u => ownLoadPlan_changes u tag ..
  | readPlan tag plan => exact requestStep_changes h fun u => ownReadPlan_changes u tag _
  | setWindow tag window => exact requestStep_changes h fun u => ownSetWindow_changes u tag _
  | clearWindow tag index => exact requestStep_changes h fun u => ownClearWindow_changes u tag _
  | readWindow tag index => exact requestStep_changes h fun u => ownReadWindow_changes u tag _
  | lookup tag key => exact requestStep_changes h fun u => u.answer_changes ..
  | configureStore tag sumMode rowPolicy =>
    exact requestStep_changes h fun u => ownConfigureStore_changes u tag ..
  | clearStore tag => exact requestStep_changes h fun u => ownClearStore_changes u tag
  | readTally tag first count width shift clearAfter =>
    exact requestStep_changes h fun u => ownReadTally_changes u tag ..
  | clearTally tag first count => exact requestStep_changes h fun u => ownClearTally_changes u tag ..
  | clearFlags tag group => exact requestStep_changes h fun u => u.admitTally_changes ..
  | linkByteReceived value framingError staysSpace =>
    cases h
    exact s.linkByte_changes ..
  | frameTimeout => exact execFrameTimeout_changes h
  | discardTimeout => exact execDiscardTimeout_changes h
  | replySent => exact execReplySent_changes h
  | powerOnReset =>
    refine ⟨fun b hb => ?_⟩
    obtain ⟨pending, rate⟩ := execPowerOnReset_changes h
    cases b <;> simp_all [changedBy, Block.Same]
  | powerOnResetEnd spdHigh => exact execPowerOnResetEnd_changes h
  | linkStartupWaitEnd => exact execLinkStartupWaitEnd_changes h
  | timeStampTick => exact execTimeStampTick_changes h
  | pinCharacterReceived lane value parityBit stopMark staysSpace => exact execPinCharacterReceived_changes h
  | receiverRestEnd lane => exact execReceiverRestEnd_changes h
  | idleTimerExpiry lane => exact execIdleTimerExpiry_changes h
  | arbiterGrant => exact execArbiterGrant_changes h
  | scanEntry => exact execScanEntry_changes h
  | unitAdmitted => exact execUnitAdmitted_changes h
  | activationComplete bank => exact execActivationComplete_changes h
  | prechargeComplete bank => exact execPrechargeComplete_changes h
  | recordOperationComplete bank => exact execRecordOperationComplete_changes h
  | recordDamage group contents difference => exact execRecordDamage_changes h
  | refreshDue => exact execRefreshDue_changes h
  | refreshComplete => exact execRefreshComplete_changes h
  | rowWriteComplete bank => exact execRowWriteComplete_changes h
  | startBit lane => exact execStartBit_changes h
  | linkBreakEnd =>
    cases h
    exact s.link_changes _ rfl

/-- A block that no command but some listed ones changes is kept by every other command. -/
theorem exec_keeps {c : Instr} {s t : State} (h : exec c s = .next t) (b : Block) (hb : b ∉ changedBy c) : b.Same s t :=
  (exec_changes h).keeps b hb

/-! ### Steps -/

/-- A step leaves the state as it is, or carries out a command on the state with the rest of the queue. -/
theorem step_cases {s t : State} (h : step s = .next t) :
    t = s ∨ ∃ (c : Instr) (rest : List Instr), exec c { s with pending := rest } = .next t := by
  unfold step at h
  split at h
  · cases h
    exact .inl rfl
  · next c rest _ => exact .inr ⟨c, rest, h⟩

/-- What does not look at the waiting commands and is kept by every command is kept by every step. -/
theorem step_keeps {P : State → Prop} (pending : ∀ (s : State) (rest : List Instr), P s → P { s with pending := rest })
    (commands : ∀ (c : Instr) (s t : State), exec c s = .next t → P s → P t) {s t : State} (h : step s = .next t)
    (hs : P s) : P t := by
  obtain rfl | ⟨c, rest, hc⟩ := step_cases h
  · exact hs
  · exact commands c _ t hc (pending s rest hs)

end Sys2Proof.Machine
end

section
/-! PROOFS. The step and the frame of the commands: the queue of commands, faults and refusals, the static state, the
records; and the two invariants of memories that few commands write: the route map (R81) and the canonical form. -/

namespace Sys2Proof.Machine

/-! ### The step -/

/-- Settles O1. -/
theorem stepRunsFrontCommand : Obligations.StepRunsFrontCommand := by
  unfold Obligations.StepRunsFrontCommand
  refine ⟨fun s c rest waiting => ?_, fun s empty => ?_⟩
  · simp only [step, waiting]
  · simp only [step, empty]

/-! ### Every command answers, but SCAN_ENTRY without a plan -/

/-- The command answers a next state. -/
def Completes (c : Instr) (s : State) : Prop := ∃ t, exec c s = .next t

theorem requestStep_completes (r : Request) (owner : State → State) (s : State) :
    ∃ t, requestStep r owner s = .next t := by
  obtain h | ⟨-, h⟩ := requestStep_cases r owner s
  · exact ⟨_, h⟩
  · exact ⟨_, h⟩

/-- What SCAN_ENTRY cannot do without: a plan for the lane whose entry it takes. -/
def State.ScansWithoutPlan (s : State) : Prop :=
  ∃ n : Fin 4, s.scan = .scanning n ∧ (s.lane n).fifo ≠ [] ∧ s.plans[(s.lane n).settings.plan] = none

theorem scanEntry_faults_or_completes (s : State) :
    (s.ScansWithoutPlan ∧ exec .scanEntry s = .fault .scanWithoutPlan) ∨
      (¬s.ScansWithoutPlan ∧ Completes .scanEntry s) := by
  change (_ ∧ execScanEntry s = _) ∨ (_ ∧ ∃ t, execScanEntry s = _)
  unfold execScanEntry
  split
  · next n scanning =>
    have only (m : Fin 4) (hm : s.scan = .scanning m) : m = n := by
      rw [scanning] at hm
      exact (ScanState.scanning.inj hm).symm
    split
    · next empty =>
      refine .inr ⟨fun ⟨m, hm, entry, _⟩ => entry ?_, _, rfl⟩
      rw [only m hm, empty]
    · next entry rest fifo =>
      split
      · next plan present =>
        refine .inr ⟨fun ⟨m, hm, _, absent⟩ => ?_, _, rfl⟩
        rw [only m hm, present] at absent
        cases absent
      · next absent => exact .inl ⟨⟨n, scanning, by rw [fifo]; exact List.cons_ne_nil _ _, absent⟩, rfl⟩
  all_goals
    next scan =>
    refine .inr ⟨fun ⟨m, hm, _⟩ => ?_, _, rfl⟩
    rw [scan] at hm
    cases hm

/-- Every branch of every other event answers a next state. -/
theorem event_completes {c : Instr} (s : State) (event : requestOf c = none) (hc : c ≠ .scanEntry) : Completes c s := by
  unfold Completes
  cases c <;> simp only [requestOf, reduceCtorEq] at event
  case scanEntry => exact absurd rfl hc
  all_goals
    simp only [exec, execFlushTaken, execLinkByteReceived, execFrameTimeout, execDiscardTimeout, execReplySent,
      execPowerOnReset, execPowerOnResetEnd, execLinkStartupWaitEnd, execTimeStampTick, execPinCharacterReceived,
      execReceiverRestEnd, execIdleTimerExpiry, execArbiterGrant, execUnitAdmitted, execActivationComplete,
      execPrechargeComplete, execRecordOperationComplete, execRecordDamage, execRefreshDue, execRefreshComplete,
      execRowWriteComplete, execStartBit, execLinkBreakEnd]
    repeat' split
    all_goals exact ⟨_, rfl⟩

theorem request_completes {c : Instr} (s : State) {r : Request} (request : requestOf c = some r) : Completes c s := by
  cases c <;> simp only [requestOf, reduceCtorEq] at request
  all_goals exact requestStep_completes _ _ s

theorem completes {c : Instr} (s : State) (hc : c ≠ .scanEntry) : Completes c s := by
  cases h : requestOf c with
  | none => exact event_completes s h hc
  | some r => exact request_completes s h

/-- Settles O2: SCAN_ENTRY apart, every command answers a next state, and the queue of commands is a block that none
changes. -/
theorem commandsKeepQueueAndComplete : Obligations.CommandsKeepQueueAndComplete := by
  unfold Obligations.CommandsKeepQueueAndComplete
  intro c s
  have queue (t : State) (h : exec c s = .next t) : t.pending = s.pending :=
    exec_keeps h .pending (by cases c <;> simp [changedBy])
  by_cases hc : c = .scanEntry
  · subst hc
    obtain ⟨without, faults⟩ | ⟨within, t, next⟩ := scanEntry_faults_or_completes s
    · exact ⟨queue, by simp [faults], fun _ => ⟨rfl, without⟩, fun _ => ⟨_, faults⟩⟩
    · exact ⟨queue, by simp [next], by simp [next]; exact fun n h1 h2 h3 => within ⟨n, h1, h2, h3⟩⟩
  · obtain ⟨t, next⟩ := completes s hc
    exact ⟨queue, by simp [next], by simp [next, hc]⟩

/-! ### What only certain commands change -/

section ChangedBy

variable {c : Instr}

theorem timeStamp_changedBy (h : .timeStamp ∈ changedBy c) : c = .timeStampTick ∨ c = .powerOnReset := by
  cases c <;> simp [changedBy] at h ⊢

theorem porHeld_changedBy (h : .porHeld ∈ changedBy c) : (∃ spd, c = .powerOnResetEnd spd) ∨ c = .powerOnReset := by
  cases c <;> simp [changedBy] at h ⊢

theorem linkRate_changedBy (h : .linkRate ∈ changedBy c) : ∃ spd, c = .powerOnResetEnd spd := by
  cases c <;> simp [changedBy] at h ⊢

theorem settings_changedBy (h : .settings ∈ changedBy c) :
    (∃ tag lane settings, c = .setLane tag lane settings) ∨ c = .powerOnReset := by
  cases c <;> simp [changedBy] at h ⊢

theorem tables_changedBy (h : .tables ∈ changedBy c) :
    (∃ tag table first entries, c = .loadTable tag table first entries) ∨ c = .powerOnReset := by
  cases c <;> simp [changedBy] at h ⊢

theorem plans_changedBy (h : .plans ∈ changedBy c) :
    (∃ tag plan start tail steps, c = .loadPlan tag plan start tail steps) ∨ c = .powerOnReset := by
  cases c <;> simp [changedBy] at h ⊢

theorem windows_changedBy (h : .windows ∈ changedBy c) :
    (∃ tag window, c = .setWindow tag window) ∨ (∃ tag index, c = .clearWindow tag index) ∨ c = .powerOnReset := by
  cases c <;> simp [changedBy] at h ⊢

theorem storeSettings_changedBy (h : .storeSettings ∈ changedBy c) :
    (∃ tag mode policy, c = .configureStore tag mode policy) ∨ c = .powerOnReset := by
  cases c <;> simp [changedBy] at h ⊢

theorem records_changedBy (h : .records ∈ changedBy c) :
    c = .powerOnReset ∨ (∃ b, c = .recordOperationComplete b) ∨ (∃ b, c = .rowWriteComplete b) ∨
      ∃ g contents difference, c = .recordDamage g contents difference := by
  cases c <;> simp [changedBy] at h ⊢

end ChangedBy

/-- Settles O3: each clause names the commands whose list of blocks holds the block in question. -/
theorem staticStateChangesOnlyByItsRequests : Obligations.StaticStateChangesOnlyByItsRequests := by
  unfold Obligations.StaticStateChangesOnlyByItsRequests
  intro c s t h notPowerOn
  have keeps := (exec_changes h).keeps
  refine ⟨fun hc => keeps .timeStamp fun hb => ?time, fun hc => keeps .settings fun hb => ?settings,
    fun hc => keeps .tables fun hb => ?tables, fun hc => keeps .plans fun hb => ?plans,
    fun hset hclear => keeps .windows fun hb => ?windows, fun hc => keeps .storeSettings fun hb => ?store,
    fun hc => ⟨keeps .porHeld fun hb => ?power, keeps .linkRate fun hb => ?rate⟩⟩
  case time => exact (timeStamp_changedBy hb).elim hc notPowerOn
  case settings =>
    obtain ⟨_, _, _, hcmd⟩ | hcmd := settings_changedBy hb
    · exact hc _ _ _ hcmd
    · exact notPowerOn hcmd
  case tables =>
    obtain ⟨_, _, _, _, hcmd⟩ | hcmd := tables_changedBy hb
    · exact hc _ _ _ _ hcmd
    · exact notPowerOn hcmd
  case plans =>
    obtain ⟨_, _, _, _, _, hcmd⟩ | hcmd := plans_changedBy hb
    · exact hc _ _ _ _ _ hcmd
    · exact notPowerOn hcmd
  case windows =>
    obtain ⟨_, _, hcmd⟩ | ⟨_, _, hcmd⟩ | hcmd := windows_changedBy hb
    · exact hset _ _ hcmd
    · exact hclear _ _ hcmd
    · exact notPowerOn hcmd
  case store =>
    obtain ⟨_, _, _, hcmd⟩ | hcmd := storeSettings_changedBy hb
    · exact hc _ _ _ hcmd
    · exact notPowerOn hcmd
  case power =>
    obtain ⟨_, hcmd⟩ | hcmd := porHeld_changedBy hb
    · exact hc _ hcmd
    · exact notPowerOn hcmd
  case rate =>
    obtain ⟨_, hcmd⟩ := linkRate_changedBy hb
    exact hc _ hcmd

/-! ### Records -/

/-- The record of a group follows from the memory of the records alone. -/
theorem Block.Same.record {s t : State} (h : Block.records.Same s t) (g : Nat) :
    t.store.record g = s.store.record g := by
  obtain ⟨cells, clean, epoch⟩ := h
  exact Store.record_congr cells clean epoch g

/-- The store that a completing record operation leaves, before it settles (R121). -/
def Store.operationDone (st : Store) (b : Fin 8) (row : Fin 1024) (e : QueueEntry) (write : Option StoredRecord)
    (runOn : Bool) : Store :=
  ({ st.writeResult e.group.toNat write with queue := dropHead b st.queue } : Store).putBank b
    (st.afterOperation row runOn)

section OperationDone

variable (st : Store) (b : Fin 8) (row : Fin 1024) (e : QueueEntry) (write : Option StoredRecord) (runOn : Bool)

theorem Store.operationDone_eq : st.operationDone b row e write runOn =
    { st with cells := (st.writeResult e.group.toNat write).cells, queue := dropHead b st.queue
              banks := st.banks.set b (st.afterOperation row runOn) } := by
  rw [Store.operationDone, Store.writeResult_eq]
  rfl

theorem Store.record_operationDone (g : Nat) : (st.operationDone b row e write runOn).record g =
    if e.group.toNat = g then write.getD (st.record g) else st.record g := by
  rw [← Store.record_writeResult]
  rw [Store.operationDone, Store.writeResult_eq]
  exact Store.record_congr rfl rfl rfl g

theorem Store.bank_operationDone (c : Fin 8) : (st.operationDone b row e write runOn).bank c =
    if b = c then st.afterOperation row runOn else st.bank c := by
  rw [Store.operationDone, Store.bank_putBank, Store.writeResult_eq]
  rfl

theorem Store.cellsWf_operationDone (h : st.cellsWf = true) : (st.operationDone b row e write runOn).cellsWf = true := by
  rw [← Store.cellsWf_writeResult st write e.group.isLt h, Store.operationDone, Store.writeResult_eq]
  exact Store.cellsWf_congr rfl rfl

end OperationDone

theorem State.linkEntryDone_store (s : State) (readout : Option Readout) :
    (s.linkEntryDone readout).store = s.store :=
  (s.linkEntryDone_changes readout).keeps .store (by decide)

/-- What a completing record operation does, by named steps (R121). -/
def State.operationDone (s : State) (b : Fin 8) (row : Fin 1024) (e : QueueEntry) (result : OpResult) (runOn : Bool) :
    State :=
  let settled := s.withStore (s.store.operationDone b row e result.write runOn)
  let noticed := if result.poisons && !runOn then settled.notify (.storePoison e.group) else settled
  match e.origin with
  | .engine => noticed
  | .link => noticed.linkEntryDone result.readout

theorem State.operationDone_store (s : State) (b : Fin 8) (row : Fin 1024) (e : QueueEntry) (result : OpResult)
    (runOn : Bool) : (s.operationDone b row e result runOn).store =
      (s.store.operationDone b row e result.write runOn).settle := by
  unfold State.operationDone
  dsimp only
  have noticed : (if result.poisons && !runOn then
        (s.withStore (s.store.operationDone b row e result.write runOn)).notify (.storePoison e.group)
      else s.withStore (s.store.operationDone b row e result.write runOn)).store =
      (s.store.operationDone b row e result.write runOn).settle := by
    split
    · exact State.notify_store ..
    · rfl
  split
  · exact noticed
  · exact (State.linkEntryDone_store _ _).trans noticed

/-- RECORD_OPERATION_COMPLETE, by its bank (R121). -/
theorem execRecordOperationComplete_cases (b : Fin 8) (s : State) :
    (∃ row e mode asRead runOn, s.store.bank b = .working row (.record e mode asRead runOn) ∧
      execRecordOperationComplete b s =
        .next (s.operationDone b row e (recordOperation e mode asRead) runOn).testHaltDone) ∨
    ((∀ row e mode asRead runOn, s.store.bank b ≠ .working row (.record e mode asRead runOn)) ∧
      execRecordOperationComplete b s = .next s) := by
  unfold execRecordOperationComplete
  split
  · next row e mode asRead runOn bank =>
    refine .inl ⟨row, e, mode, asRead, runOn, bank, ?_⟩
    rw [State.operationDone, Store.operationDone]
    dsimp only
    rw [Store.writeResult_eq]
    rfl
  all_goals
    next bank => exact .inr ⟨fun _ _ _ _ _ h => (by rw [bank] at h; cases h), rfl⟩

/-- The store after a row write of a clear, before it settles (R134). -/
def Store.rowWriteDone (st : Store) (b : Fin 8) (row : Fin 1024) (runOn : Bool) : Store :=
  let closed := (st.writeRowEmpty row b).putBank b (.closing none)
  if runOn then closed else if st.rowsDone + 1 = 8192 then closed.rowWritten.clearOver else closed.rowWritten

theorem Store.rowWriteDone_eq (st : Store) (b : Fin 8) (row : Fin 1024) (runOn : Bool) :
    st.rowWriteDone b row runOn =
    { st.writeRowEmpty row b with
      banks := st.banks.set b (.closing none)
      rowsDone := if runOn then st.rowsDone else st.rowsDone + 1
      state := if runOn = false ∧ st.rowsDone + 1 = 8192 then (if st.catchingUp then .catchUp else .ready) else st.state
      catchingUp := if runOn = false ∧ st.rowsDone + 1 = 8192 then false else st.catchingUp } := by
  unfold Store.rowWriteDone
  rw [Store.writeRowEmpty_eq]
  cases runOn
  · by_cases last : st.rowsDone + 1 = 8192 <;> simp [last, Store.putBank, Store.rowWritten, Store.clearOver]
  · simp [Store.putBank]

theorem Store.record_rowWriteDone (st : Store) (b : Fin 8) (row : Fin 1024) (runOn : Bool) (g : Nat) :
    (st.rowWriteDone b row runOn).record g =
      if rowWriteOf g = 8 * row.val + b.val then StoredRecord.empty else st.record g := by
  rw [← Store.record_writeRowEmpty, Store.rowWriteDone_eq]
  exact Store.record_congr rfl rfl rfl g

theorem Store.cellsWf_rowWriteDone (st : Store) (b : Fin 8) (row : Fin 1024) (runOn : Bool) (h : st.cellsWf = true) :
    (st.rowWriteDone b row runOn).cellsWf = true := by
  rw [← Store.cellsWf_writeRowEmpty st row b h, Store.rowWriteDone_eq]
  exact Store.cellsWf_congr rfl rfl

/-- What a completing row write does (R134): the last one of a clear sends CLEAR-DONE. -/
def State.rowWriteDone (s : State) (b : Fin 8) (row : Fin 1024) (runOn : Bool) : State :=
  let settled := s.withStore (s.store.rowWriteDone b row runOn)
  if runOn = false ∧ s.store.rowsDone + 1 = 8192 then settled.notify .clearDone else settled

theorem State.rowWriteDone_store (s : State) (b : Fin 8) (row : Fin 1024) (runOn : Bool) :
    (s.rowWriteDone b row runOn).store = (s.store.rowWriteDone b row runOn).settle := by
  unfold State.rowWriteDone
  dsimp only
  split
  · exact State.notify_store ..
  · rfl

/-- ROW_WRITE_COMPLETE, by its bank (R134). -/
theorem execRowWriteComplete_cases (b : Fin 8) (s : State) :
    (∃ row runOn, s.store.bank b = .working row (.rowWrite runOn) ∧
      execRowWriteComplete b s = .next (s.rowWriteDone b row runOn)) ∨
    ((∀ row runOn, s.store.bank b ≠ .working row (.rowWrite runOn)) ∧ execRowWriteComplete b s = .next s) := by
  unfold execRowWriteComplete
  split
  · next row runOn bank =>
    refine .inl ⟨row, runOn, bank, ?_⟩
    have rows : (s.store.writeRowEmpty row b).rowsDone = s.store.rowsDone := by
      rw [Store.writeRowEmpty_eq]
    cases runOn
    · by_cases last : s.store.rowsDone + 1 = 8192 <;>
        simp [State.rowWriteDone, Store.rowWriteDone, rows, last]
    · simp [State.rowWriteDone, Store.rowWriteDone]
  all_goals
    next bank => exact .inr ⟨fun _ _ h => (by rw [bank] at h; cases h), rfl⟩

/-- A group lies in a row of a bank exactly when the row write of the two covers it (R111, R134). -/
theorem rowWriteOf_eq_iff (g : Nat) (row : Fin 1024) (b : Fin 8) :
    rowWriteOf g = 8 * row.val + b.val ↔ g % 8 = b.val ∧ g / 64 = row.val := by
  simp only [rowWriteOf, groupRow, groupBank]
  omega

/-- Settles O4: of the four commands that may change records, each writes only where the statement allows it. -/
theorem recordsChangeOnlyByStoreEvents : Obligations.RecordsChangeOnlyByStoreEvents := by
  unfold Obligations.RecordsChangeOnlyByStoreEvents
  intro c s t g h notPowerOn operation rowWrite damage
  by_cases hc : .records ∈ changedBy c
  · obtain rfl | ⟨b, rfl⟩ | ⟨b, rfl⟩ | ⟨group, contents, difference, rfl⟩ := records_changedBy hc
    · exact absurd rfl notPowerOn
    · change execRecordOperationComplete b s = _ at h
      obtain ⟨row, e, mode, asRead, runOn, bank, ht⟩ | ⟨-, ht⟩ := execRecordOperationComplete_cases b s <;>
        rw [ht] at h <;> cases h
      · rw [State.testHaltDone_store, State.operationDone_store, Store.settle_record, Store.record_operationDone,
          if_neg (operation b row e mode asRead runOn rfl bank)]
      · rfl
    · change execRowWriteComplete b s = _ at h
      obtain ⟨row, runOn, bank, ht⟩ | ⟨-, ht⟩ := execRowWriteComplete_cases b s <;> rw [ht] at h <;> cases h
      · rw [State.rowWriteDone_store, Store.settle_record, Store.record_rowWriteDone,
          if_neg (mt (rowWriteOf_eq_iff g row b).mp (rowWrite b row runOn rfl bank))]
      · rfl
    · change execRecordDamage group contents difference s = _ at h
      unfold execRecordDamage at h
      split at h <;> cases h
      · rfl
      · exact (Store.record_write ..).trans (if_neg (damage group contents difference rfl))
  · exact Block.Same.record (exec_keeps h .records hc) g

end Sys2Proof.Machine
end

section
/-! PROOFS. Invariants of memories that few commands write: the route map (R81), and the canonical form of code tables and
records. -/

namespace Sys2Proof.Machine

/-- A predicate that looks at the link not at all is kept by a request command if its owner's act keeps it. -/
theorem requestStep_keeps {P : State → Prop} (link : ∀ (s : State) (l : Link), P s → P { s with link := l }) {r : Request}
    {owner : State → State} (acts : ∀ u : State, P u → P (owner u)) {s t : State} (h : requestStep r owner s = .next t)
    (hs : P s) : P t := by
  have delivered : P (s.deliver r) := by
    rw [State.deliver_link_only]
    exact link s _ hs
  obtain ht | ⟨-, ht⟩ := requestStep_cases r owner s <;> rw [ht] at h <;> cases h
  · exact delivered
  · exact acts _ delivered

/-! ### The route map (R81) -/

/-- A window that passes the checks of R85 is sound. -/
theorem Window.sound_of_ofRaw {r : RawWindow} {w : Window} (h : Window.ofRaw r = some w) : w.Sound := by
  cases hlevel : finOfByte 4 r.level with
  | none => simp [Window.ofRaw, hlevel] at h
  | some level =>
    by_cases h0 : r.kind = 0
    · rw [Window.ofRaw_single hlevel h0] at h
      split at h <;> cases h
      assumption
    by_cases h1 : r.kind = 1
    · rw [Window.ofRaw_spread hlevel h1] at h
      split at h <;> cases h
      assumption
    by_cases h2 : r.kind = 2
    · rw [Window.ofRaw_descend hlevel h2] at h
      simp only [Option.bind_eq_some_iff] at h
      obtain ⟨rebase, -, target, -, h⟩ := h
      split at h <;> cases h
      assumption
    · rw [Window.ofRaw_undefined hlevel h0 h1 h2] at h
      cases h

/-- Where the search finds nothing, no window meets the condition. -/
theorem findWindow_eq_none {p : Nat → Window → Bool} {start : Nat} {ws : List (Option Window)}
    (h : findWindow p start ws = none) (k : Nat) (w : Window) (place : ws[k]? = some (some w)) :
    p (start + k) w = false := by
  induction ws generalizing start k with
  | nil => simp at place
  | cons x ws ih =>
    have skipped (v : Window) (hx : x = some v) : p start v = false := by
      refine Bool.eq_false_iff.mpr fun hit => ?_
      subst hx
      rw [findWindow_cons_hit ws hit] at h
      cases h
    rw [findWindow_cons_skip ws skipped] at h
    cases k with
    | zero => exact skipped w (by simpa using place)
    | succ k =>
      rw [show start + (k + 1) = start + 1 + k by omega]
      exact ih h k (by simpa using place)

/-- An element of a vector after one is replaced. -/
theorem getElem_set_fin {α : Type} {k : Nat} (v : Vector α k) (i j : Fin k) (x : α) :
    (v.set i x)[j] = if i = j then x else v[j] := by
  simp only [Fin.getElem_fin, Vector.getElem_set, Fin.ext_iff]

section Map

variable {windows : Vector (Option Window) 128} (sound : WindowsSound windows)
include sound

/-- A sound window that overlaps no other of its level joins the map (R81, R86). -/
theorem WindowsSound.set {i : Fin 128} {w : Window} (hw : w.Sound) (free : overlapping windows i w = none) :
    WindowsSound (windows.set i (some w)) := by
  have apart (j : Fin 128) (v : Window) (place : windows[j] = some v) (ne : i ≠ j) (level : w.level = v.level)
      (key : Nat) : ¬(w.holds key = true ∧ v.holds key = true) := by
    have missed := findWindow_eq_none (Option.map_eq_none_iff.mp free) j v (getElem?_toList_eq_some.mpr ⟨j, rfl, place⟩)
    simp only [Window.intersects, Nat.zero_add, Bool.and_eq_false_iff, decide_eq_false_iff_not] at missed
    rw [Window.holds_iff, Window.holds_iff]
    have other : j.val ≠ i.val := fun hij => ne (Fin.ext hij.symm)
    have same : v.level = w.level := level.symm
    simp only [other, same, ne_eq, not_false_eq_true, not_true_eq_false, false_or] at missed
    omega
  refine ⟨fun j v place => ?_, fun j k v u ne hj hk level key => ?_⟩
  · rw [getElem_set_fin] at place
    split at place
    · cases place
      exact hw
    · exact sound.1 j v place
  · rw [getElem_set_fin] at hj hk
    split at hj <;> split at hk
    · next hij hik => exact absurd (hij.symm.trans hik) ne
    · next hik =>
      cases hj
      exact apart k u hk hik level key
    · next hij _ =>
      cases hk
      rw [and_comm]
      exact apart j v hj hij level.symm key
    · exact sound.2 j k v u ne hj hk level key

theorem WindowsSound.clear (i : Fin 128) : WindowsSound (windows.set i none) := by
  have kept (j : Fin 128) (v : Window) (place : (windows.set i none)[j] = some v) : windows[j] = some v := by
    rw [getElem_set_fin] at place
    split at place
    · cases place
    · exact place
  exact ⟨fun j v hj => sound.1 j v (kept j v hj), fun j k v u ne hj hk => sound.2 j k v u ne (kept j v hj) (kept k u hk)⟩

end Map

theorem windowsSound_empty : WindowsSound (Vector.replicate 128 none) := by
  refine ⟨fun i w h => ?_, fun i j w v _ h => ?_⟩ <;> simp at h

theorem ownSetWindow_routeSound (tag : Byte) (raw : RawWindow) (s : State) (h : s.RouteSound) :
    (ownSetWindow tag raw s).RouteSound := by
  unfold ownSetWindow
  split
  · next i w _ spelled =>
    split
    · exact h
    · next free => exact WindowsSound.set h (Window.sound_of_ofRaw spelled) free
  · exact h

theorem ownClearWindow_routeSound (tag index : Byte) (s : State) (h : s.RouteSound) :
    (ownClearWindow tag index s).RouteSound := by
  unfold ownClearWindow
  split
  · exact h
  · exact WindowsSound.clear h _

theorem exec_routeSound {c : Instr} {s t : State} (h : exec c s = .next t) (hs : s.RouteSound) : t.RouteSound := by
  by_cases hc : .windows ∈ changedBy c
  · obtain ⟨tag, window, rfl⟩ | ⟨tag, index, rfl⟩ | rfl := windows_changedBy hc
    · exact requestStep_keeps (P := State.RouteSound) (fun _ _ hu => hu) (ownSetWindow_routeSound tag window) h hs
    · exact requestStep_keeps (P := State.RouteSound) (fun _ _ hu => hu) (ownClearWindow_routeSound tag index) h hs
    · cases h
      exact windowsSound_empty
  · have windows : t.windows = s.windows := exec_keeps h .windows hc
    rw [State.RouteSound, windows]
    exact hs

/-- Settles O34: only SET-WINDOW, CLEAR-WINDOW and a power-on reset write the map, and SET-WINDOW refuses a window that
overlaps another of its level. -/
theorem routeMapStaysSound : Obligations.RouteMapStaysSound := by
  unfold Obligations.RouteMapStaysSound
  refine ⟨windowsSound_empty, fun s t hs h => ?_⟩
  exact step_keeps (P := State.RouteSound) (fun _ _ hu => hu) (fun _ _ _ => exec_routeSound) h hs

/-! ### The canonical form of the memories -/

/-- The code tables are held in canonical form. -/
def State.TablesCanonical (s : State) : Prop :=
  ∀ t : Fin 8, cellsWf 256 (fun i => some (blankEntry i)) s.tables[t] = true

theorem ownLoadTable_tablesCanonical (tag table first : Byte) (entries : List RawTableEntry) (s : State)
    (h : s.TablesCanonical) : (ownLoadTable tag table first entries s).TablesCanonical := by
  by_cases bad : finOfByte 8 table = none ∨ 255 < first.toNat + entries.length - 1 ∨ tableEntriesOfRaw entries = none
  · rw [ownLoadTable_badArgument s tag bad]
    exact h
  obtain ⟨htable, hlast, hentries⟩ : finOfByte 8 table ≠ none ∧ ¬255 < first.toNat + entries.length - 1 ∧
      tableEntriesOfRaw entries ≠ none := by simpa only [not_or] using bad
  obtain ⟨k, hk⟩ := Option.ne_none_iff_exists'.mp htable
  obtain ⟨es, hes⟩ := Option.ne_none_iff_exists'.mp hentries
  rw [ownLoadTable_of_defined s tag hk hlast hes]
  split
  · exact h
  · intro t
    rw [State.answer_tables, State.discardContexts_eq]
    change cellsWf 256 _ (s.writeTable k first.toNat es).tables[t] = true
    by_cases htk : t = k
    · subst htk
      rw [State.tables_writeTable_same]
      have length : es.length = entries.length := (tableEntriesOfRaw_eq_some entries es hes).1
      exact cellsWf_writeEntries es (by have := first.isLt; omega) (h t)
    · rw [State.tables_writeTable_other _ _ _ htk]
      exact h t

theorem exec_tablesCanonical {c : Instr} {s t : State} (h : exec c s = .next t) (hs : s.TablesCanonical) :
    t.TablesCanonical := by
  by_cases hc : .tables ∈ changedBy c
  · obtain ⟨tag, table, first, entries, rfl⟩ | rfl := tables_changedBy hc
    · exact requestStep_keeps (P := State.TablesCanonical) (fun _ _ hu => hu)
        (ownLoadTable_tablesCanonical tag table first entries) h hs
    · cases h
      intro k
      simp [State.powerOn, cellsWf, rising]
  · have tables : t.tables = s.tables := exec_keeps h .tables hc
    rw [State.TablesCanonical, tables]
    exact hs

theorem exec_cellsWf {c : Instr} {s t : State} (h : exec c s = .next t) (hs : s.store.cellsWf = true) :
    t.store.cellsWf = true := by
  by_cases hc : .records ∈ changedBy c
  · obtain rfl | ⟨b, rfl⟩ | ⟨b, rfl⟩ | ⟨group, contents, difference, rfl⟩ := records_changedBy hc
    · cases h
      rfl
    · change execRecordOperationComplete b s = _ at h
      obtain ⟨row, e, mode, asRead, runOn, bank, ht⟩ | ⟨-, ht⟩ := execRecordOperationComplete_cases b s <;>
        rw [ht] at h <;> cases h
      · rw [State.testHaltDone_store, State.operationDone_store, Store.settle_cellsWf]
        exact Store.cellsWf_operationDone _ _ _ _ _ _ hs
      · exact hs
    · change execRowWriteComplete b s = _ at h
      obtain ⟨row, runOn, bank, ht⟩ | ⟨-, ht⟩ := execRowWriteComplete_cases b s <;> rw [ht] at h <;> cases h
      · rw [State.rowWriteDone_store, Store.settle_cellsWf]
        exact Store.cellsWf_rowWriteDone _ _ _ _ hs
      · exact hs
    · change execRecordDamage group contents difference s = _ at h
      unfold execRecordDamage at h
      split at h <;> cases h
      · exact hs
      · exact Store.cellsWf_write _ _ group.isLt hs
  · obtain ⟨cells, clean, -⟩ : Block.records.Same s t := exec_keeps h .records hc
    rw [Store.cellsWf_congr cells clean]
    exact hs

/-- Settles O59: LOAD-TABLE writes within the table, and every store event writes records by the operations that keep the
canonical form. -/
theorem memoriesStayCanonical : Obligations.MemoriesStayCanonical := by
  unfold Obligations.MemoriesStayCanonical
  intro s t hs h
  exact step_keeps (P := State.MemoriesCanonical) (fun _ _ hu => hu)
    (fun _ _ _ hc hu => ⟨exec_tablesCanonical hc hu.1, exec_cellsWf hc hu.2⟩) h hs

end Sys2Proof.Machine
end

section
/-! PROOFS. What a command can do to the tally store, move by move, and the invariants of the store that follow: the
refresh (R129), the banks at work on their heads (R118, R119), and the size of the tally queue (R115). -/

namespace Sys2Proof.Machine

/-! ### Moves of the store -/

/-- Entries that may join the tally queue: LINK entries up to 32 in all, or any entries up to 28 in all (R115, R116). -/
def Store.Admits (st : Store) (more : List QueueEntry) : Prop :=
  ((∀ e ∈ more, e.origin = .link) ∧ st.queue.length + more.length ≤ 32) ∨ st.queue.length + more.length ≤ 28

/-- All that a command can do to the store. -/
inductive StoreMove (st : Store) : Store → Prop where
  | kept : StoreMove st st
  | configured (m : SumMode) (p : RowPolicy) : StoreMove st { st with sumMode := m, rowPolicy := p }
  | damaged (g : Nat) (r : StoredRecord) : StoreMove st (st.write g r)
  | joined (more : List QueueEntry) (admitted : st.Admits more) :
    StoreMove st ({ st with queue := st.queue ++ more } : Store).settle
  | clearBegun : StoreMove st st.beginClear.settle
  | workBegun (b : Fin 8) (row : Fin 1024) (work : Work) (bank : st.bank b = .opening row (some work)) :
    StoreMove st (st.putBank b (st.beginWork b row work)).settle
  | rowShut (b : Fin 8) (row : Fin 1024) (bank : st.bank b = .opening row none) :
    StoreMove st (st.putBank b (.closing none)).settle
  | precharged (b : Fin 8) (work : Option Work) (bank : st.bank b = .closing work) :
    StoreMove st (st.putBank b (st.afterPrecharge b work)).settle
  | operated (b : Fin 8) (row : Fin 1024) (e : QueueEntry) (op : BankOp) (write : Option StoredRecord) (runOn : Bool)
    (bank : st.bank b = .working row op) : StoreMove st (st.operationDone b row e write runOn).settle
  | rowWritten (b : Fin 8) (row : Fin 1024) (op : BankOp) (runOn : Bool) (bank : st.bank b = .working row op) :
    StoreMove st (st.rowWriteDone b row runOn).settle
  | refreshFellDue (debt : st.debt < 8) :
    StoreMove st ({ st with debt := st.debt + 1 } : Store).enterCatchUp.settle
  | refreshed (running : st.refresh = .running) : StoreMove st st.refreshDone.settle
  | softReset : StoreMove st st.softReset
  | poweredOn : StoreMove st (Store.powerOn (st.epoch + 1))

theorem StoreMove.of_eq {st st' : Store} (h : st' = st) : StoreMove st st' := h ▸ .kept

/-! ### Which move a command makes -/

theorem requestStep_storeMove {r : Request} {owner : State → State} {s t : State} (h : requestStep r owner s = .next t)
    (acts : ∀ u : State, StoreMove u.store (owner u).store) : StoreMove s.store t.store := by
  have delivered : (s.deliver r).store = s.store := by rw [State.deliver_link_only]
  obtain ht | ⟨-, ht⟩ := requestStep_cases r owner s <;> rw [ht] at h <;> cases h
  · exact .of_eq delivered
  · exact delivered ▸ acts (s.deliver r)

theorem ownConfigureStore_storeMove (tag sumMode rowPolicy : Byte) (s : State) :
    StoreMove s.store (ownConfigureStore tag sumMode rowPolicy s).store := by
  unfold ownConfigureStore
  repeat' split
  · exact .kept
  · exact .configured _ _
  · exact .kept

theorem ownClearStore_storeMove (tag : Byte) (s : State) : StoreMove s.store (ownClearStore tag s).store := by
  unfold ownClearStore
  split
  · exact .kept
  · exact .clearBegun

theorem State.holdFor_eq (s : State) (w : HeldFor) : s.holdFor w = { s with link := (s.holdFor w).link } := by
  unfold State.holdFor
  split <;> rfl

theorem State.admitTally_storeMove (tag : Byte) {entries : List QueueEntry} (link : ∀ e ∈ entries, e.origin = .link)
    (few : entries.length ≤ 16) (s : State) : StoreMove s.store (s.admitTally tag entries).store := by
  unfold State.admitTally
  repeat' split
  · exact .kept
  · exact .kept
  · exact .kept
  · next room =>
    rw [State.holdFor_eq]
    exact .joined entries (.inl ⟨link, by omega⟩)

theorem linkEntries_origin (kind : EntryKind) (groups : List Nat) : ∀ e ∈ linkEntries kind groups, e.origin = .link := by
  intro e he
  obtain ⟨g, -, rfl⟩ := List.mem_map.mp he
  rfl

theorem length_linkEntries (kind : EntryKind) (first n : Nat) :
    (linkEntries kind (groupsFrom first n)).length = n := by
  rw [linkEntries, List.length_map, groupsFrom_eq, List.length_map, List.length_range]

theorem ownReadTally_storeMove (tag : Byte) (first : Group) (count width shift clearAfter : Byte) (s : State) :
    StoreMove s.store (ownReadTally tag first count width shift clearAfter s).store := by
  unfold ownReadTally
  split
  · exact .kept
  · next few =>
    repeat' split
    all_goals first | exact .kept | skip
    exact s.admitTally_storeMove tag (linkEntries_origin _ _) (by rw [length_linkEntries]; omega)

theorem ownClearTally_storeMove (tag : Byte) (first : Group) (count : Byte) (s : State) :
    StoreMove s.store (ownClearTally tag first count s).store := by
  unfold ownClearTally
  split
  · exact .kept
  · next few =>
    split
    · exact .kept
    · exact s.admitTally_storeMove tag (linkEntries_origin _ _) (by rw [length_linkEntries]; omega)

theorem execUnitAdmitted_storeMove {s t : State} (h : execUnitAdmitted s = .next t) : StoreMove s.store t.store := by
  unfold execUnitAdmitted at h
  repeat' split at h
  all_goals cases h
  · next n u units _ room =>
    have store : (State.afterAdmission (State.notifyFault
        (s.withStore { s.store with queue := s.store.queue ++ unitEntries n u }) n u) n units).store =
        ({ s.store with queue := s.store.queue ++ unitEntries n u } : Store).settle := by
      unfold State.afterAdmission State.notifyFault
      repeat' split
      all_goals simp only [State.testHaltDone_store, State.notify_store, State.withStore_store]
    rw [store]
    exact .joined _ (.inr room)
  all_goals exact .kept

theorem execActivationComplete_storeMove {b : Fin 8} {s t : State} (h : execActivationComplete b s = .next t) :
    StoreMove s.store t.store := by
  unfold execActivationComplete at h
  split at h <;> cases h
  · next row work bank => exact .workBegun b row work bank
  · next row bank => exact .rowShut b row bank
  all_goals exact .kept

theorem execPrechargeComplete_storeMove {b : Fin 8} {s t : State} (h : execPrechargeComplete b s = .next t) :
    StoreMove s.store t.store := by
  unfold execPrechargeComplete at h
  split at h <;> cases h
  · next work bank => exact .precharged b work bank
  all_goals exact .kept

theorem exec_storeMove {c : Instr} {s t : State} (h : exec c s = .next t) : StoreMove s.store t.store := by
  cases c
  case configureStore => exact requestStep_storeMove h (ownConfigureStore_storeMove _ _ _)
  case clearStore => exact requestStep_storeMove h (ownClearStore_storeMove _)
  case readTally => exact requestStep_storeMove h (ownReadTally_storeMove _ _ _ _ _ _)
  case clearTally => exact requestStep_storeMove h (ownClearTally_storeMove _ _ _)
  case clearFlags tag group =>
    exact requestStep_storeMove h (State.admitTally_storeMove tag (linkEntries_origin _ _) (by simp [linkEntries]))
  case replySent =>
    simp only [exec, execReplySent] at h
    repeat' split at h
    all_goals cases h
    · exact .softReset
    all_goals exact .kept
  case powerOnReset =>
    cases h
    exact .poweredOn
  case unitAdmitted => exact execUnitAdmitted_storeMove h
  case activationComplete => exact execActivationComplete_storeMove h
  case prechargeComplete => exact execPrechargeComplete_storeMove h
  case recordOperationComplete b =>
    obtain ⟨row, e, mode, asRead, runOn, bank, ht⟩ | ⟨-, ht⟩ := execRecordOperationComplete_cases b s <;>
      cases ht.symm.trans h
    · rw [State.testHaltDone_store, State.operationDone_store]
      exact .operated b row e _ _ runOn bank
    · exact .kept
  case rowWriteComplete b =>
    obtain ⟨row, runOn, bank, ht⟩ | ⟨-, ht⟩ := execRowWriteComplete_cases b s <;> cases ht.symm.trans h
    · rw [State.rowWriteDone_store]
      exact .rowWritten b row _ runOn bank
    · exact .kept
  case recordDamage =>
    simp only [exec, execRecordDamage] at h
    split at h <;> cases h
    · exact .kept
    · exact .damaged _ _
  case refreshDue =>
    simp only [exec, execRefreshDue] at h
    split at h <;> cases h
    · exact .kept
    · next due => exact .refreshFellDue (by omega)
  case refreshComplete =>
    simp only [exec, execRefreshComplete] at h
    split at h <;> cases h
    · next running => exact .refreshed running
    · exact .kept
  all_goals exact .of_eq (exec_keeps h .store (by simp [changedBy]))

/-! ### The refresh (R129) -/

theorem Store.bank_powerOn (epoch : Nat) (b : Fin 8) : (Store.powerOn epoch).bank b = .closed :=
  match b with
  | 0 | 1 | 2 | 3 | 4 | 5 | 6 | 7 => rfl

/-- The invariant of R129 about the store. -/
def Store.RefreshSafe (st : Store) : Prop := st.debt ≤ 8 ∧ (st.refresh = .running → st.allClosed)

theorem Store.RefreshSafe.settle {st : Store} (h : st.RefreshSafe) : st.settle.RefreshSafe :=
  ⟨Nat.le_trans st.settle_debt_le h.1, st.settle_running h.2⟩

/-- While some bank is not CLOSED no refresh runs, so the banks may change. -/
theorem Store.RefreshSafe.bank_change {st st' : Store} {b : Fin 8} (h : st.RefreshSafe) (busy : st.bank b ≠ .closed)
    (debt : st'.debt = st.debt) (refresh : st'.refresh = st.refresh) : st'.RefreshSafe :=
  ⟨debt ▸ h.1, fun running => absurd (h.2 (refresh ▸ running) b) busy⟩

theorem Store.RefreshSafe.congr {st st' : Store} (h : st.RefreshSafe) (debt : st'.debt = st.debt)
    (refresh : st'.refresh = st.refresh) (banks : st'.banks = st.banks) : st'.RefreshSafe := by
  refine ⟨debt ▸ h.1, fun running b => ?_⟩
  rw [Store.bank, banks]
  exact h.2 (refresh ▸ running) b

theorem Store.RefreshSafe.softReset {st : Store} (h : st.RefreshSafe) : st.softReset.RefreshSafe := by
  have dropped : Store.RefreshSafe
      { st with
        state := st.state.softReset
        queue := keepInFlight st.operatingBanks st.queue
        banks := st.banks.map Bank.softReset
        catchingUp := false } := by
    refine ⟨h.1, fun running b => ?_⟩
    have closed : st.banks[b] = .closed := h.2 running b
    simp only [Store.bank, Fin.getElem_fin, Vector.getElem_map] at closed ⊢
    rw [closed, Bank.softReset]
  unfold Store.softReset
  refine Store.RefreshSafe.settle ?_
  split
  · rw [Store.enterCatchUp_eq]
    exact dropped.congr rfl rfl rfl
  · exact dropped

theorem StoreMove.refreshSafe {st st' : Store} (move : StoreMove st st') (h : st.RefreshSafe) : st'.RefreshSafe := by
  cases move with
  | kept => exact h
  | configured m p => exact h.congr rfl rfl rfl
  | damaged g r => exact h.congr rfl rfl rfl
  | joined more _ => exact Store.RefreshSafe.settle (h.congr rfl rfl rfl)
  | clearBegun => exact Store.RefreshSafe.settle (h.congr rfl rfl rfl)
  | workBegun b row work bank => exact Store.RefreshSafe.settle (h.bank_change (b := b) (by simp [bank]) rfl rfl)
  | rowShut b row bank => exact Store.RefreshSafe.settle (h.bank_change (b := b) (by simp [bank]) rfl rfl)
  | precharged b work bank => exact Store.RefreshSafe.settle (h.bank_change (b := b) (by simp [bank]) rfl rfl)
  | operated b row e op write runOn bank =>
    rw [Store.operationDone_eq]
    exact Store.RefreshSafe.settle (h.bank_change (b := b) (by simp [bank]) rfl rfl)
  | rowWritten b row op runOn bank =>
    rw [Store.rowWriteDone_eq, Store.writeRowEmpty_eq]
    exact Store.RefreshSafe.settle (h.bank_change (b := b) (by simp [bank]) rfl rfl)
  | refreshFellDue debt =>
    rw [Store.enterCatchUp_eq]
    exact Store.RefreshSafe.settle ⟨debt, h.2⟩
  | refreshed running =>
    rw [Store.refreshDone_eq]
    exact Store.RefreshSafe.settle ⟨h.1, fun none => by cases none⟩
  | softReset => exact h.softReset
  | poweredOn => exact ⟨Nat.zero_le _, fun none => by cases none⟩

/-! ### The banks at work (R118, R119) -/

theorem Store.HeadsWorking.congr {st st' : Store} (h : st.HeadsWorking) (banks : st'.banks = st.banks)
    (queue : st'.queue = st.queue) : st'.HeadsWorking := by
  intro b row e mode asRead runOn working
  rw [Store.bank, banks] at working
  rw [queue]
  exact h b row e mode asRead runOn working

theorem Store.afterOperation_not_working (st : Store) (row row' : Fin 1024) (runOn : Bool) (op : BankOp) :
    st.afterOperation row runOn ≠ .working row' op := by
  unfold Store.afterOperation
  repeat' split
  all_goals exact Bank.noConfusion

theorem Store.afterPrecharge_not_working (st : Store) (b : Fin 8) (work : Option Work) (row : Fin 1024) (op : BankOp) :
    st.afterPrecharge b work ≠ .working row op := by
  unfold Store.afterPrecharge
  repeat' split
  all_goals exact Bank.noConfusion

theorem StoreMove.headsWorking {st st' : Store} (move : StoreMove st st') (h : st.HeadsWorking) : st'.HeadsWorking := by
  cases move with
  | kept => exact h
  | configured m p => exact h.congr rfl rfl
  | damaged g r => exact h.congr rfl rfl
  | joined more _ => exact (h.join more).settle
  | clearBegun => exact Store.HeadsWorking.settle (h.congr rfl rfl)
  | workBegun b row work bank =>
    exact (h.putBank b fun _ _ _ _ _ working => Store.beginWork_record working).settle
  | rowShut b row bank => exact (h.putBank b fun _ _ _ _ _ working => by cases working).settle
  | precharged b work bank =>
    exact (h.putBank b fun _ _ _ _ _ working => absurd working (Store.afterPrecharge_not_working _ _ _ _ _)).settle
  | operated b row e op write runOn bank =>
    have dropped := h.drop b fun row' _ _ _ _ => st.afterOperation_not_working row row' runOn _
    rw [Store.operationDone_eq]
    exact Store.HeadsWorking.settle (dropped.congr rfl rfl)
  | rowWritten b row op runOn bank =>
    have closed : (st.putBank b (.closing none)).HeadsWorking := h.putBank b fun _ _ _ _ _ working => by cases working
    rw [Store.rowWriteDone_eq, Store.writeRowEmpty_eq]
    exact Store.HeadsWorking.settle (closed.congr rfl rfl)
  | refreshFellDue debt =>
    rw [Store.enterCatchUp_eq]
    exact Store.HeadsWorking.settle (h.congr rfl rfl)
  | refreshed running =>
    rw [Store.refreshDone_eq]
    exact Store.HeadsWorking.settle (h.congr rfl rfl)
  | softReset => exact h.softReset
  | poweredOn =>
    intro b row e mode asRead runOn working
    cases (Store.bank_powerOn _ b).symm.trans working

/-- Settles O58: every move of the store keeps the two invariants. -/
theorem refreshStaysSafe : Obligations.RefreshStaysSafe := by
  unfold Obligations.RefreshStaysSafe
  intro s t h
  refine ⟨step_keeps (P := State.RefreshSafe) (fun _ _ hu => hu) (fun _ _ _ hc hu => ?refresh) h,
    step_keeps (P := State.HeadsWorking) (fun _ _ hu => hu) (fun _ _ _ hc hu => ?heads) h⟩
  case refresh => exact (exec_storeMove hc).refreshSafe hu
  case heads => exact (exec_storeMove hc).headsWorking hu

/-! ### The tally queue (R115) -/

/-- The bound of R115 about a tally queue. -/
def TallyQueueBounded (q : List QueueEntry) : Prop :=
  q.length ≤ 32 ∧ ∀ (i : Nat) (e : QueueEntry), q[i]? = some e → e.origin = .engine → i < 28

/-- No ENGINE entry stands behind the first 28 places. -/
theorem tallyQueueBounded_iff (q : List QueueEntry) :
    TallyQueueBounded q ↔ q.length ≤ 32 ∧ ∀ e ∈ q.drop 28, e.origin ≠ .engine := by
  refine and_congr_right fun _ => ⟨fun h e he engine => ?_, fun h i e place engine => ?_⟩
  · obtain ⟨i, hi⟩ := List.mem_iff_getElem?.mp he
    have := h (28 + i) e (by rwa [List.getElem?_drop] at hi) engine
    omega
  · refine Decidable.byContradiction fun late => h e (List.mem_iff_getElem?.mpr ⟨i - 28, ?_⟩) engine
    rwa [List.getElem?_drop, show 28 + (i - 28) = i by omega]

/-- What is left of a queue after entries have left it stands no further back than before. -/
theorem TallyQueueBounded.sublist {q q' : List QueueEntry} (h : TallyQueueBounded q) (sub : q'.Sublist q) :
    TallyQueueBounded q' := by
  rw [tallyQueueBounded_iff] at h ⊢
  exact ⟨Nat.le_trans sub.length_le h.1, fun e he => h.2 e ((sub.drop 28).subset he)⟩

theorem TallyQueueBounded.join {st : Store} (h : TallyQueueBounded st.queue) {more : List QueueEntry}
    (admitted : st.Admits more) : TallyQueueBounded (st.queue ++ more) := by
  obtain ⟨link, room⟩ | room := admitted
  · rw [tallyQueueBounded_iff] at h ⊢
    refine ⟨by rwa [List.length_append], fun e he => ?_⟩
    rw [List.drop_append, List.mem_append] at he
    obtain he | he := he
    · exact h.2 e he
    · exact fun engine => by cases (link e (List.mem_of_mem_drop he)).symm.trans engine
  · refine ⟨by rw [List.length_append]; omega, fun i e place _ => ?_⟩
    have := (List.getElem?_eq_some_iff.mp place).1
    rw [List.length_append] at this
    omega

/-- A soft reset discards entries of the queue and adds none (R136). -/
theorem Store.softReset_queue (st : Store) : st.softReset.queue = keepInFlight st.operatingBanks st.queue := by
  unfold Store.softReset
  rw [Store.settle_queue]
  split
  · rw [Store.enterCatchUp_eq]
  · rfl

theorem StoreMove.queueBounded {st st' : Store} (move : StoreMove st st') (h : TallyQueueBounded st.queue) :
    TallyQueueBounded st'.queue := by
  cases move with
  | kept => exact h
  | configured m p => exact h
  | damaged g r => exact h
  | joined more admitted => simpa only [Store.settle_queue] using h.join admitted
  | clearBegun => rwa [Store.settle_queue]
  | workBegun b row work bank => rwa [Store.settle_queue]
  | rowShut b row bank => rwa [Store.settle_queue]
  | precharged b work bank => rwa [Store.settle_queue]
  | operated b row e op write runOn bank =>
    rw [Store.settle_queue, Store.operationDone_eq]
    exact h.sublist (dropHead_sublist _ _)
  | rowWritten b row op runOn bank =>
    rw [Store.settle_queue, Store.rowWriteDone_eq, Store.writeRowEmpty_eq]
    exact h
  | refreshFellDue debt =>
    rw [Store.settle_queue, Store.enterCatchUp_eq]
    exact h
  | refreshed running =>
    rw [Store.settle_queue, Store.refreshDone_eq]
    exact h
  | softReset => exact Store.softReset_queue st ▸ h.sublist (keepInFlight_sublist _ _)
  | poweredOn => exact ⟨Nat.zero_le _, fun i e place => by cases place⟩

end Sys2Proof.Machine
end

section
/-! PROOFS. The replies to come fit their frames (R159): the length of every payload, and what the link may hold. -/

namespace Sys2Proof.Machine

/-! ### The two parts of the invariant -/

/-- Every present plan is short enough to be reported, each step in range. -/
def State.PlansFit (s : State) : Prop :=
  ∀ (k : Fin 8) (p : Plan), s.plans[k] = some p → p.steps.length ≤ 18 ∧ ∀ x ∈ p.steps, x.InRange

/-- What the link holds, and the reply formed, fit (R159). -/
def LinkState.Fits : LinkState → Prop
  | .idle => True
  | .receiving _ _ => True
  | .held r .owner => r.payload.length ≤ 240 ∧ r.code.lengthMatches r.payload.length = true
  | .held r (.tally left readouts) =>
    1 ≤ left ∧ left + readouts.length ≤ 16 ∧
      ((r.code = .readTally ∧ left + readouts.length ≤ 6) ∨
        ((r.code = .clearTally ∨ r.code = .clearFlags) ∧ r.payload.length ≤ 3))
  | .held _ (.flush _) => True
  | .replying r => r.payload.length ≤ 239

theorem State.repliesFit_iff (s : State) : s.RepliesFit ↔ s.PlansFit ∧ s.link.state.Fits := by
  unfold State.RepliesFit
  refine and_congr_right fun _ => ?_
  generalize s.link.state = l
  cases l with
  | held r w => cases w <;> rfl
  | idle => rfl
  | receiving len rest => rfl
  | replying r => rfl

theorem State.formReply_fits (s : State) (st : Status) (tag : Byte) {p : List Byte} (r : Bool) (h : p.length ≤ 239) :
    (s.formReply st tag p r).link.state.Fits := h

theorem State.answer_fits (s : State) (tag : Byte) (st : Status) {p : List Byte} (h : p.length ≤ 239) :
    (s.answer tag st p).link.state.Fits := h

/-- A refusal carries no payload. -/
theorem State.refuse_fits (s : State) (tag : Byte) (st : Status) : (s.answer tag st []).link.state.Fits :=
  s.answer_fits tag st (Nat.zero_le _)

/-! ### Bytes on LRX -/

theorem RequestCode.lengthMatches_le {c : RequestCode} {n : Nat} (h : c.lengthMatches n = true) : n ≤ 240 := by
  cases c <;> simp [RequestCode.lengthMatches] at h <;> omega

theorem State.takeRequest_fits (s : State) (body : List Byte) (h : s.link.state.Fits) :
    (s.takeRequest body).link.state.Fits := by
  unfold State.takeRequest
  repeat' split
  · exact s.formReply_fits _ _ _ (Nat.zero_le _)
  · next matching => exact ⟨RequestCode.lengthMatches_le matching, matching⟩
  · exact s.formReply_fits _ _ _ (Nat.zero_le _)
  · exact h

theorem State.frameError_fits (s : State) (reason : FrameErrorReason) : (s.frameError reason).link.state.Fits :=
  s.formReply_fits _ _ _ (by simp)

theorem State.receiveByte_fits (s : State) (len : Option Byte) (rest : List Byte) (v : Byte) (f : Bool)
    (h : s.link.state.Fits) : (s.receiveByte len rest v f).link.state.Fits := by
  unfold State.receiveByte
  split
  · exact s.frameError_fits _
  split
  · split
    · exact True.intro
    · exact s.frameError_fits _
  · split
    · unfold State.frameComplete
      dsimp only
      split
      · exact s.takeRequest_fits _ h
      · exact s.frameError_fits _
    · exact True.intro

theorem State.discardByte_link_state (s : State) (e : Option Nat) (v : Byte) (f : Bool) :
    (s.discardByte e v f).link.state = s.link.state := by
  unfold State.discardByte
  repeat' split
  all_goals rfl

theorem State.takeByte_fits (s : State) (v : Byte) (f : Bool) (h : s.link.state.Fits) :
    (s.takeByte v f).link.state.Fits := by
  unfold State.takeByte
  split
  · rwa [State.discardByte_link_state]
  split
  · split
    · exact True.intro
    · exact h
  · exact s.receiveByte_fits _ _ v f h
  all_goals
    split
    · exact h
    · exact h

theorem State.noteBreak_link_state (s : State) (f sp : Bool) : (s.noteBreak f sp).link.state = s.link.state := by
  unfold State.noteBreak
  split <;> rfl

theorem State.linkByte_fits (s : State) (v : Byte) (f sp : Bool) (h : s.link.state.Fits) :
    (s.linkByte v f sp).link.state.Fits := by
  have noted : (s.noteBreak f sp).link.state.Fits := by rwa [State.noteBreak_link_state]
  unfold State.linkByte
  split
  · exact h
  split
  · exact noted
  · exact State.takeByte_fits _ _ _ noted

theorem State.deliver_fits (s : State) (r : Request) (h : s.link.state.Fits) : (s.deliver r).link.state.Fits := by
  unfold State.deliver
  split
  · exact h
  · exact List.foldlRecOn (motive := fun u : State => u.link.state.Fits) r.frame _ h
      fun u hu b _ => u.linkByte_fits b _ _ hu

/-! ### The payloads of the replies -/

@[simp] theorem length_bytes16 (x : BitVec 16) : (bytes16 x).length = 2 := rfl
@[simp] theorem length_bytes32 (x : BitVec 32) : (bytes32 x).length = 4 := rfl
@[simp] theorem length_bytes64 (x : BitVec 64) : (bytes64 x).length = 8 := rfl

/-- Records of one length, one after the other. -/
theorem length_flatten_map {α : Type} (f : α → List Byte) (k : Nat) (l : List α) (h : ∀ x ∈ l, (f x).length = k) :
    ((l.map f).flatten).length = k * l.length := by
  rw [List.length_flatten, List.map_map, List.map_congr_left (g := fun _ => k) (by simpa using h), List.map_const',
    List.sum_replicate_nat, Nat.mul_comm]

theorem Notice.length_bytes (n : Notice) : n.bytes.length = 16 := by
  unfold Notice.bytes
  split <;> exact length_padTo _ _ (by simp [natBytes16])

theorem length_fetchBytes (overflow : Bool) (fetched : List Notice) :
    (fetchBytes overflow fetched).length = 2 + 16 * fetched.length := by
  simp [fetchBytes, length_flatten_map Notice.bytes 16 fetched fun n _ => n.length_bytes]
  omega

theorem State.length_statusBytes (s : State) : s.statusBytes.length = 39 := by
  have scan : (scanBytes s.scan).length = 2 := by unfold scanBytes; split <;> rfl
  simp [State.statusBytes, State.laneStatusBytes, natBytes16, scan]

theorem length_readLaneBytes (lane : Byte) (l : Lane) : (readLaneBytes lane l).length = 15 := rfl

theorem length_readEntries (t : List (Nat × TableEntry)) (first count : Nat) :
    (readEntries t first count).length = count := by
  rw [readEntries_eq, List.length_map, List.length_range]

theorem PlanStep.length_bytes {x : PlanStep} (h : x.InRange) : x.bytes.length = 12 := by
  cases x with
  | matchLiteral literal onMiss =>
    obtain ⟨-, most⟩ := h
    exact length_padTo _ _ (by simp; omega)
  | key c => rfl
  | value c slot f => rfl
  | skipField => rfl
  | repeatGroup n => rfl
  | again => rfl
  | post slot offset addIndex reject => rfl
  | finish => rfl

theorem length_readPlanBytes {s : State} (h : s.PlansFit) (plan : Byte) (k : Fin 8) :
    (readPlanBytes plan s.plans[k]).length ≤ 220 := by
  cases present : s.plans[k] with
  | none => simp [readPlanBytes]
  | some p =>
    obtain ⟨few, ranges⟩ := h k p present
    simp [readPlanBytes, length_flatten_map PlanStep.bytes 12 p.steps fun x hx => PlanStep.length_bytes (ranges x hx)]
    omega

theorem length_windowBytes (index : Byte) (w : Option Window) : (windowBytes index w).length = 14 := by
  cases w with
  | none => rfl
  | some w =>
    have parameters : w.kind.bytes.2.length = 2 := by cases w.kind <;> rfl
    simp [windowBytes, parameters]

theorem length_lookupFrom (windows : List (Option Window)) (visits : Nat) (level : Fin 4) (key : Nat) :
    (lookupFrom windows visits level key).2.length ≤ visits := by
  induction visits generalizing level key with
  | zero => exact Nat.le_refl _
  | succ visits ih =>
    unfold lookupFrom
    split
    · simp
    · split
      · simp
      · simp
      · exact Nat.succ_le_succ (ih _ _)

theorem length_lookupBytes (r : LookupResult × List Nat) : (lookupBytes r).length = 5 + r.2.length := by
  obtain ⟨_ | _, visited⟩ := r
  · rw [lookupBytes_routed]
    simp [natBytes16]
    omega
  · rw [lookupBytes_miss]
    simp
    omega

theorem Readout.length_bytes (r : Readout) : r.bytes.length = 36 := by
  simp [Readout.bytes, intBytes64]

theorem length_insertReadout (r : Readout) (readouts : List Readout) :
    (insertReadout r readouts).length = readouts.length + 1 := by
  induction readouts with
  | nil => rfl
  | cons q qs ih =>
    unfold insertReadout
    split
    · rfl
    · rw [List.length_cons, ih, List.length_cons]

/-! ### The owners' acts -/

section Owners

variable {s : State} (tag : Byte)

theorem ownStart_fits (s : State) : (ownStart tag s).link.state.Fits := by
  unfold ownStart
  repeat' split
  all_goals exact State.answer_fits _ _ _ (by simp)

theorem ownHalt_fits (s : State) : (ownHalt tag s).link.state.Fits := by
  unfold ownHalt
  split <;> exact State.refuse_fits ..

theorem ownFetchNotices_fits (maximum : Byte) (s : State) : (ownFetchNotices tag maximum s).link.state.Fits := by
  unfold ownFetchNotices
  split
  · refine State.answer_fits _ _ _ ?_
    rw [length_fetchBytes, List.length_take]
    omega
  · exact State.refuse_fits ..

theorem ownSetLane_fits (lane : Byte) (raw : RawSettings) (s : State) :
    (ownSetLane tag lane raw s).link.state.Fits := by
  unfold ownSetLane
  repeat' split
  all_goals exact State.refuse_fits ..

theorem ownReadLane_fits (lane : Byte) (s : State) : (ownReadLane tag lane s).link.state.Fits := by
  unfold ownReadLane
  split
  · exact State.answer_fits _ _ _ (by simp [length_readLaneBytes])
  · exact State.refuse_fits ..

theorem ownFeed_fits (lane : Byte) (data : List Byte) (s : State) : (ownFeed tag lane data s).link.state.Fits := by
  unfold ownFeed
  dsimp only
  repeat' split
  all_goals exact State.answer_fits _ _ _ (by simp [natBytes16])

theorem State.flushAndAnswer_fits (s : State) (n : Fin 4) : (s.flushAndAnswer n tag).link.state.Fits :=
  State.answer_fits _ _ _ (by simp [natBytes16])

theorem State.holdFor_fits {w : HeldFor} {r : Request} (held : s.link.state = .held r .owner)
    (fits : (LinkState.held r w).Fits) : (s.holdFor w).link.state.Fits := by
  simpa only [State.holdFor, held] using fits

theorem ownFlushLane_fits {lane : Byte} {r : Request} (held : s.link.state = .held r .owner) :
    (ownFlushLane tag lane s).link.state.Fits := by
  unfold ownFlushLane
  repeat' split
  · exact State.refuse_fits ..
  · exact State.holdFor_fits held True.intro
  · exact State.flushAndAnswer_fits ..

theorem ownLoadTable_fits (table first : Byte) (entries : List RawTableEntry) (s : State) :
    (ownLoadTable tag table first entries s).link.state.Fits := by
  unfold ownLoadTable
  dsimp only
  repeat' split
  all_goals exact State.answer_fits _ _ _ (by simp)

theorem ownReadTable_fits (table first count : Byte) (s : State) :
    (ownReadTable tag table first count s).link.state.Fits := by
  unfold ownReadTable
  split
  · exact State.refuse_fits ..
  split
  · exact State.refuse_fits ..
  split
  · exact State.refuse_fits ..
  · refine State.answer_fits _ _ _ ?_
    rw [List.length_append, length_flatten_map TableEntry.bytes 2 _ fun _ _ => rfl, length_readEntries]
    simp only [List.length_cons, List.length_nil]
    omega

theorem ownLoadPlan_fits (plan startRequired tailPolicy : Byte) (steps : List RawStep) (s : State) :
    (ownLoadPlan tag plan startRequired tailPolicy steps s).link.state.Fits := by
  unfold ownLoadPlan
  dsimp only
  repeat' split
  all_goals exact State.answer_fits _ _ _ (by simp [planInvalidBytes])

theorem ownReadPlan_fits (plans : s.PlansFit) (plan : Byte) : (ownReadPlan tag plan s).link.state.Fits := by
  unfold ownReadPlan
  split
  · exact State.refuse_fits ..
  · exact State.answer_fits _ _ _ (Nat.le_trans (length_readPlanBytes plans plan _) (by decide))

theorem ownSetWindow_fits (raw : RawWindow) (s : State) : (ownSetWindow tag raw s).link.state.Fits := by
  unfold ownSetWindow
  repeat' split
  all_goals exact State.answer_fits _ _ _ (by simp)

theorem ownClearWindow_fits (index : Byte) (s : State) : (ownClearWindow tag index s).link.state.Fits := by
  unfold ownClearWindow
  split
  all_goals exact State.answer_fits _ _ _ (by simp)

theorem ownReadWindow_fits (index : Byte) (s : State) : (ownReadWindow tag index s).link.state.Fits := by
  unfold ownReadWindow
  split
  · exact State.refuse_fits ..
  · exact State.answer_fits _ _ _ (by simp [length_windowBytes])

theorem ownLookup_fits (key : Key) (s : State) : (ownLookup tag key s).link.state.Fits := by
  refine State.answer_fits _ _ _ ?_
  have visits : (lookupKey s.windows key.toNat).2.length ≤ 4 := length_lookupFrom ..
  rw [length_lookupBytes]
  omega

theorem ownConfigureStore_fits (sumMode rowPolicy : Byte) (s : State) :
    (ownConfigureStore tag sumMode rowPolicy s).link.state.Fits := by
  unfold ownConfigureStore
  repeat' split
  all_goals exact State.refuse_fits ..

theorem ownClearStore_fits (s : State) : (ownClearStore tag s).link.state.Fits := by
  unfold ownClearStore
  split <;> exact State.refuse_fits ..

theorem State.admitTally_fits {entries : List QueueEntry} {r : Request} (held : s.link.state = .held r .owner)
    (fits : (LinkState.held r (.tally entries.length [])).Fits) : (s.admitTally tag entries).link.state.Fits := by
  unfold State.admitTally
  repeat' split
  · exact State.refuse_fits ..
  · exact State.refuse_fits ..
  · exact State.refuse_fits ..
  · exact State.holdFor_fits held fits

theorem ownReadTally_fits {first : Group} {count width shift clearAfter : Byte} {r : Request}
    (held : s.link.state = .held r .owner) (code : r.code = .readTally) :
    (ownReadTally tag first count width shift clearAfter s).link.state.Fits := by
  unfold ownReadTally
  split
  · exact State.refuse_fits ..
  · next few =>
    split
    · exact State.refuse_fits ..
    split
    · exact State.refuse_fits ..
    split
    · exact State.refuse_fits ..
    split
    · exact State.refuse_fits ..
    · refine State.admitTally_fits tag held ?_
      rw [length_linkEntries]
      exact ⟨by omega, by simp; omega, .inl ⟨code, by simp; omega⟩⟩

theorem ownClearTally_fits {first : Group} {count : Byte} {r : Request} (held : s.link.state = .held r .owner)
    (code : r.code = .clearTally) (payload : r.payload.length ≤ 3) :
    (ownClearTally tag first count s).link.state.Fits := by
  unfold ownClearTally
  split
  · exact State.refuse_fits ..
  · next few =>
    split
    · exact State.refuse_fits ..
    · refine State.admitTally_fits tag held ?_
      rw [length_linkEntries]
      exact ⟨by omega, by simp; omega, .inr ⟨.inl code, payload⟩⟩

theorem ownClearFlags_fits {group : Group} {r : Request} (held : s.link.state = .held r .owner)
    (code : r.code = .clearFlags) (payload : r.payload.length ≤ 3) : (ownClearFlags tag group s).link.state.Fits :=
  State.admitTally_fits tag held ⟨Nat.le_refl 1, (by decide : 1 ≤ 16), .inr ⟨.inr code, payload⟩⟩

end Owners

/-! ### Events -/

section Events

variable {s t : State}

theorem execFlushTaken_fits (h : execFlushTaken s = .next t) (hs : s.link.state.Fits) : t.link.state.Fits := by
  unfold execFlushTaken at h
  repeat' split at h
  all_goals cases h
  · exact State.flushAndAnswer_fits ..
  all_goals exact hs

theorem execFrameTimeout_fits (h : execFrameTimeout s = .next t) (hs : s.link.state.Fits) : t.link.state.Fits := by
  unfold execFrameTimeout at h
  repeat' split at h
  all_goals cases h
  · exact s.frameError_fits _
  all_goals exact hs

theorem execDiscardTimeout_fits (h : execDiscardTimeout s = .next t) (hs : s.link.state.Fits) :
    t.link.state.Fits := by
  unfold execDiscardTimeout at h
  repeat' split at h
  all_goals cases h
  all_goals exact hs

theorem execReplySent_fits (h : execReplySent s = .next t) (hs : s.link.state.Fits) : t.link.state.Fits := by
  unfold execReplySent at h
  repeat' split at h
  all_goals cases h
  · exact True.intro
  · exact True.intro
  all_goals exact hs

/-- The readouts handed over so far, with one more that an entry may deliver, are counted against the entries left. -/
theorem tallyPayload_fits {r : Request} {left : Nat} {readouts readouts' : List Readout}
    (fits : (LinkState.held r (.tally left readouts)).Fits) (more : readouts'.length ≤ readouts.length + 1) :
    (tallyPayload r readouts').length ≤ 239 := by
  obtain ⟨some, -, ⟨code, few⟩ | ⟨code, payload⟩⟩ := fits
  · simp only [tallyPayload, code, List.length_append, List.length_take,
      length_flatten_map Readout.bytes 36 readouts' fun x _ => x.length_bytes]
    omega
  · have own : tallyPayload r readouts' = r.payload := by
      unfold tallyPayload
      obtain code | code := code <;> rw [code]
    rw [own]
    omega

theorem State.linkEntryDone_fits (readout : Option Readout) (hs : s.link.state.Fits) :
    (s.linkEntryDone readout).link.state.Fits := by
  unfold State.linkEntryDone
  split
  · next r left readouts held =>
    rw [held] at hs
    have done (readouts' : List Readout) (more : readouts'.length ≤ readouts.length + 1) :
        (if left ≤ 1 then s.answer r.tag .ok (tallyPayload r readouts')
        else s.holdFor (.tally (left - 1) readouts')).link.state.Fits := by
      split
      · exact State.answer_fits _ _ _ (tallyPayload_fits hs more)
      · next notLast =>
        obtain ⟨-, room, codes⟩ := hs
        simp only [State.holdFor, held]
        exact ⟨by omega, by omega, codes.imp (And.imp_right fun few => by omega) id⟩
    cases readout with
    | none => exact done readouts (Nat.le_succ _)
    | some o => exact done (insertReadout o readouts) (Nat.le_of_eq (length_insertReadout o readouts))
  · exact hs

theorem execRecordOperationComplete_fits {b : Fin 8} (h : execRecordOperationComplete b s = .next t)
    (hs : s.link.state.Fits) : t.link.state.Fits := by
  obtain ⟨row, e, mode, asRead, runOn, bank, ht⟩ | ⟨-, ht⟩ := execRecordOperationComplete_cases b s <;>
    cases ht.symm.trans h
  · have noticed (u : State) (hu : u.link = s.link) : u.link.state.Fits := by rwa [hu]
    rw [State.testHaltDone_link]
    unfold State.operationDone
    dsimp only
    split
    · split <;> exact noticed _ (by simp)
    · split <;> exact State.linkEntryDone_fits _ (noticed _ (by simp))
  · exact hs

end Events

/-! ### Every command -/

/-- A request command keeps the link's part of the invariant if its owner's act does. -/
theorem requestStep_fits {r : Request} {owner : State → State} {s t : State} (h : requestStep r owner s = .next t)
    (hs : s.RepliesFit) (acts : ∀ u : State, u.PlansFit → u.link.state = .held r .owner → (owner u).link.state.Fits) :
    t.link.state.Fits := by
  obtain ⟨plans, link⟩ := s.repliesFit_iff.mp hs
  have delivered : (s.deliver r).PlansFit := by
    rw [State.deliver_link_only]
    exact plans
  obtain ht | ⟨held, ht⟩ := requestStep_cases r owner s <;> cases ht.symm.trans h
  · exact s.deliver_fits r link
  · exact acts _ delivered held

theorem exec_linkFits {c : Instr} {s t : State} (h : exec c s = .next t) (hs : s.RepliesFit) : t.link.state.Fits := by
  obtain ⟨plans, link⟩ := s.repliesFit_iff.mp hs
  cases c
  case identify => exact requestStep_fits h hs fun u _ _ => u.answer_fits _ _ (by decide)
  case status => exact requestStep_fits h hs fun u _ _ => u.answer_fits _ _ (by rw [State.length_statusBytes]; decide)
  case start => exact requestStep_fits h hs fun u _ _ => ownStart_fits _ u
  case halt => exact requestStep_fits h hs fun u _ _ => ownHalt_fits _ u
  case reset => exact requestStep_fits h hs fun u _ _ => u.formReply_fits _ _ _ (Nat.zero_le _)
  case fetchNotices => exact requestStep_fits h hs fun u _ _ => ownFetchNotices_fits _ _ u
  case setLane => exact requestStep_fits h hs fun u _ _ => ownSetLane_fits _ _ _ u
  case readLane => exact requestStep_fits h hs fun u _ _ => ownReadLane_fits _ _ u
  case feed => exact requestStep_fits h hs fun u _ _ => ownFeed_fits _ _ _ u
  case flushLane => exact requestStep_fits h hs fun u _ held => ownFlushLane_fits _ held
  case loadTable => exact requestStep_fits h hs fun u _ _ => ownLoadTable_fits _ _ _ _ u
  case readTable => exact requestStep_fits h hs fun u _ _ => ownReadTable_fits _ _ _ _ u
  case loadPlan => exact requestStep_fits h hs fun u _ _ => ownLoadPlan_fits _ _ _ _ _ u
  case readPlan => exact requestStep_fits h hs fun u plans _ => ownReadPlan_fits _ plans _
  case setWindow => exact requestStep_fits h hs fun u _ _ => ownSetWindow_fits _ _ u
  case clearWindow => exact requestStep_fits h hs fun u _ _ => ownClearWindow_fits _ _ u
  case readWindow => exact requestStep_fits h hs fun u _ _ => ownReadWindow_fits _ _ u
  case lookup => exact requestStep_fits h hs fun u _ _ => ownLookup_fits _ _ u
  case configureStore => exact requestStep_fits h hs fun u _ _ => ownConfigureStore_fits _ _ _ u
  case clearStore => exact requestStep_fits h hs fun u _ _ => ownClearStore_fits _ u
  case readTally => exact requestStep_fits h hs fun u _ held => ownReadTally_fits _ held rfl
  case clearTally => exact requestStep_fits h hs fun u _ held => ownClearTally_fits _ held rfl (by simp)
  case clearFlags => exact requestStep_fits h hs fun u _ held => ownClearFlags_fits _ held rfl (by simp)
  case flushTaken => exact execFlushTaken_fits h link
  case linkByteReceived =>
    cases h
    exact s.linkByte_fits _ _ _ link
  case frameTimeout => exact execFrameTimeout_fits h link
  case discardTimeout => exact execDiscardTimeout_fits h link
  case replySent => exact execReplySent_fits h link
  case powerOnReset =>
    cases h
    exact True.intro
  case powerOnResetEnd =>
    simp only [exec, execPowerOnResetEnd] at h
    split at h <;> cases h <;> exact link
  case linkStartupWaitEnd =>
    simp only [exec, execLinkStartupWaitEnd] at h
    split at h <;> cases h
    · exact True.intro
    · exact link
  case recordOperationComplete => exact execRecordOperationComplete_fits h link
  case linkBreakEnd =>
    cases h
    exact link
  all_goals
    have kept : t.link = s.link := exec_keeps h .link (by simp [changedBy])
    rwa [kept]

/-! ### The plans stored -/

/-- A plan that passes the walk spells the header and the steps carried, none of which meets a fault of R48. -/
theorem walkPlan_eq_ok {startRequired tailPolicy : Byte} {steps : List RawStep} {p : Plan} :
    walkPlan startRequired tailPolicy steps = .ok p ↔
      boolOfByte startRequired = some p.startRequired ∧ TailPolicy.ofByte tailPolicy = some p.tailPolicy ∧
      (∀ j, planFaultAt steps j = none) ∧ steps.map PlanStep.ofRaw = p.steps.map some := by
  have passes := (walkSteps_spec steps steps 0 [] rfl (walkKnows_start steps)).2
  unfold walkPlan
  split
  · next sr tp hsr htp =>
    split
    · next f i failed =>
      refine ⟨fun h => (by cases h), fun ⟨_, _, sound, spelled⟩ => ?_⟩
      have ok := (passes p.steps).mpr ⟨fun j _ => sound j, spelled⟩
      rw [failed] at ok
      cases ok
    · next xs passed =>
      obtain ⟨sound, spelled⟩ := (passes xs).mp passed
      constructor
      · intro h
        cases h
        exact ⟨hsr, htp, fun j => sound j (Nat.zero_le j), spelled⟩
      · rintro ⟨hsr', htp', -, spelled'⟩
        obtain ⟨sr', tp', xs'⟩ := p
        have same : xs = xs' := (List.map_inj_right fun _ _ => Option.some.inj).mp (spelled.symm.trans spelled')
        cases hsr.symm.trans hsr'
        cases htp.symm.trans htp'
        rw [same]
  · next undefined =>
    exact ⟨fun h => (by cases h), fun ⟨hsr, htp, _⟩ => absurd htp (undefined _ _ hsr)⟩

theorem walkPlan_length {startRequired tailPolicy : Byte} {steps : List RawStep} {p : Plan}
    (h : walkPlan startRequired tailPolicy steps = .ok p) : p.steps.length = steps.length := by
  obtain ⟨-, -, -, spelled⟩ := walkPlan_eq_ok.mp h
  simpa using (congrArg List.length spelled).symm

theorem walkPlan_inRange {startRequired tailPolicy : Byte} {steps : List RawStep} {p : Plan}
    (h : walkPlan startRequired tailPolicy steps = .ok p) : ∀ x ∈ p.steps, x.InRange := by
  intro x hx
  obtain ⟨-, -, -, spelled⟩ := walkPlan_eq_ok.mp h
  obtain ⟨i, place⟩ := List.mem_iff_getElem?.mp hx
  obtain ⟨r, -, hr⟩ := (step_of_map spelled i).1 x place
  exact (PlanStep.ofRaw_spec hr).2.1

/-- The request of a LOAD-PLAN with these operands. -/
def loadPlanRequest (tag plan startRequired tailPolicy : Byte) (steps : List RawStep) : Request where
  code := .loadPlan
  tag := tag
  payload := plan :: startRequired :: tailPolicy :: (steps.map RawStep.bytes).flatten

/-- A LOAD-PLAN that the link holds carries 1 to 18 steps (R49, R157). -/
theorem loadPlan_steps {tag plan startRequired tailPolicy : Byte} {steps : List RawStep}
    (h : (LinkState.held (loadPlanRequest tag plan startRequired tailPolicy steps) .owner).Fits) :
    1 ≤ steps.length ∧ steps.length ≤ 18 := by
  have matching := h.2
  simp only [loadPlanRequest, RequestCode.lengthMatches, decide_eq_true_eq, List.length_cons,
    Laws.WfFrame.steps_length] at matching
  omega

/-- What LOAD-PLAN does to the plans: nothing, or it stores a plan that has passed the walk. -/
theorem ownLoadPlan_plans (tag plan startRequired tailPolicy : Byte) (steps : List RawStep) (s : State) :
    (ownLoadPlan tag plan startRequired tailPolicy steps s).plans = s.plans ∨
      ∃ (k : Fin 8) (p : Plan), walkPlan startRequired tailPolicy steps = .ok p ∧
        (ownLoadPlan tag plan startRequired tailPolicy steps s).plans = s.plans.set k (some p) := by
  unfold ownLoadPlan
  dsimp only
  repeat' split
  · exact .inl rfl
  · exact .inl rfl
  · exact .inl rfl
  · next k _ _ p passed _ =>
    refine .inr ⟨k, p, passed, ?_⟩
    rw [State.answer_plans, State.discardContexts_eq]

/-- What a command can do to the plans: nothing, a plan of 1 to 18 steps that has passed the walk stored, or a power-on
reset. -/
theorem exec_plans {c : Instr} {s t : State} (h : exec c s = .next t) (hs : s.RepliesFit) : t.plans = s.plans ∨
    (∃ (k : Fin 8) (p : Plan) (startRequired tailPolicy : Byte) (steps : List RawStep),
      1 ≤ steps.length ∧ steps.length ≤ 18 ∧ walkPlan startRequired tailPolicy steps = .ok p ∧
      t.plans = s.plans.set k (some p)) ∨ ∀ k : Fin 8, t.plans[k] = none := by
  by_cases hc : .plans ∈ changedBy c
  · obtain ⟨tag, plan, startRequired, tailPolicy, steps, rfl⟩ | rfl := plans_changedBy hc
    · have deliveredFits := s.deliver_fits (loadPlanRequest tag plan startRequired tailPolicy steps)
        (s.repliesFit_iff.mp hs).2
      have plans : (s.deliver (loadPlanRequest tag plan startRequired tailPolicy steps)).plans = s.plans := by
        rw [State.deliver_link_only]
      obtain ht | ⟨held, ht⟩ := requestStep_cases (loadPlanRequest tag plan startRequired tailPolicy steps)
        (ownLoadPlan tag plan startRequired tailPolicy steps) s <;> cases ht.symm.trans h
      · exact .inl plans
      · rw [held] at deliveredFits
        obtain ⟨atLeast, atMost⟩ := loadPlan_steps deliveredFits
        rw [← plans]
        exact (ownLoadPlan_plans ..).imp id fun ⟨k, p, passed, stored⟩ =>
          .inl ⟨k, p, startRequired, tailPolicy, steps, atLeast, atMost, passed, stored⟩
    · cases h
      exact .inr (.inr fun k => by simp [State.powerOn])
  · exact .inl (exec_keeps h .plans hc)

theorem exec_plansFit {c : Instr} {s t : State} (h : exec c s = .next t) (hs : s.RepliesFit) : t.PlansFit := by
  have fits : s.PlansFit := (s.repliesFit_iff.mp hs).1
  intro k p present
  obtain same | ⟨j, q, sr, tp, steps, atLeast, atMost, passed, stored⟩ | none := exec_plans h hs
  · exact fits k p (same ▸ present)
  · rw [stored, getElem_set_fin] at present
    split at present
    · cases present
      exact ⟨Nat.le_trans (Nat.le_of_eq (walkPlan_length passed)) atMost, walkPlan_inRange passed⟩
    · exact fits k p present
  · cases (none k).symm.trans present

theorem exec_repliesFit {c : Instr} {s t : State} (h : exec c s = .next t) (hs : s.RepliesFit) : t.RepliesFit :=
  t.repliesFit_iff.mpr ⟨exec_plansFit h hs, exec_linkFits h hs⟩

/-- Settles O14: every reply formed fits, and what the link holds leads to a reply that fits. -/
theorem repliesFitInvariant : Obligations.RepliesFitInvariant := by
  unfold Obligations.RepliesFitInvariant
  intro s t hs h
  exact step_keeps (P := State.RepliesFit) (fun _ _ hu => hu) (fun _ _ _ => exec_repliesFit) h hs

/-! ### Valid plans (R47) -/

/-- The walk passes a load of 1 to 18 steps exactly when it spells a valid plan. -/
theorem walkPlan_eq_ok_iff_valid {startRequired tailPolicy : Byte} {steps : List RawStep} {p : Plan}
    (size : 1 ≤ steps.length ∧ steps.length ≤ 18) : walkPlan startRequired tailPolicy steps = .ok p ↔
      p.Valid ∧ boolOfByte startRequired = some p.startRequired ∧ TailPolicy.ofByte tailPolicy = some p.tailPolicy ∧
      steps.map PlanStep.ofRaw = p.steps.map some := by
  rw [walkPlan_eq_ok]
  constructor
  · rintro ⟨hsr, htp, sound, spelled⟩
    exact ⟨valid_of_noFault spelled size sound, hsr, htp, spelled⟩
  · rintro ⟨valid, hsr, htp, spelled⟩
    exact ⟨hsr, htp, noFault_of_valid spelled valid, spelled⟩

theorem exec_plansValid {c : Instr} {s t : State} (h : exec c s = .next t) (fits : s.RepliesFit) (hs : s.PlansValid) :
    t.PlansValid := by
  intro k p present
  obtain same | ⟨j, q, sr, tp, steps, atLeast, atMost, passed, stored⟩ | none := exec_plans h fits
  · exact hs k p (same ▸ present)
  · rw [stored, getElem_set_fin] at present
    split at present
    · cases present
      exact ((walkPlan_eq_ok_iff_valid ⟨atLeast, atMost⟩).mp passed).1
    · exact hs k p present
  · cases (none k).symm.trans present

/-- Settles O29: the walk names a fault exactly where a condition of R47 fails, and nothing but a plan that has passed it
is ever stored. -/
theorem onlyValidPlansAreStored : Obligations.OnlyValidPlansAreStored := by
  unfold Obligations.OnlyValidPlansAreStored
  refine ⟨fun _ _ _ _ atLeast atMost => walkPlan_eq_ok_iff_valid ⟨atLeast, atMost⟩, fun s t fits hs h => ?_⟩
  obtain rfl | ⟨c, rest, hc⟩ := step_cases h
  · exact hs
  · exact exec_plansValid (s := { s with pending := rest }) hc fits hs

end Sys2Proof.Machine
end

section
/-! PROOFS. What a command can do to a lane, and the scan engine's hold on its lane (R56, R57, R138, R141); the FIFOs
(R3), the notice queue (R148) and the scan contexts (R59) within their sizes. -/

namespace Sys2Proof.Machine

/-! ### Moves of a lane -/

/-- All that a command can do to the settings, the FIFO and the context of lane `n`. Lanes are set only while the engine
is STOPPED (R11); an entry is taken only from the lane scanned, whose plan is then present (R57). -/
inductive LaneMove (s : State) (n : Fin 4) : Lane → Prop where
  | same {l : Lane} (settings : l.settings = (s.lane n).settings) (fifo : l.fifo = (s.lane n).fifo)
    (ctx : l.ctx = (s.lane n).ctx) : LaneMove s n l
  | set (settings : Settings) (limit : 16 ≤ settings.limit.toNat ∧ settings.limit.toNat ≤ 1024)
    (stopped : s.engine = .stopped) : LaneMove s n (Lane.set settings)
  | joined {l : Lane} (entries : List FifoEntry) (settings : l.settings = (s.lane n).settings)
    (fifo : l.fifo = (s.lane n).fifo ++ entries) (room : l.fifo.length ≤ 512) (ctx : l.ctx = (s.lane n).ctx) :
    LaneMove s n l
  | emptied {l : Lane} (settings : l.settings = (s.lane n).settings) (fifo : l.fifo = [])
    (ctx : l.ctx = Context.cleared) : LaneMove s n l
  | discarded {l : Lane} (settings : l.settings = (s.lane n).settings) (fifo : l.fifo = (s.lane n).fifo)
    (ctx : l.ctx = Context.cleared) : LaneMove s n l
  | taken {l : Lane} (plan : Plan) (entry : FifoEntry) (rest : List FifoEntry) (scanning : s.scan = .scanning n)
    (present : s.plans[(s.lane n).settings.plan] = some plan) (oldest : (s.lane n).fifo = entry :: rest)
    (settings : l.settings = (s.lane n).settings) (fifo : l.fifo = rest)
    (ctx : l.ctx = (processEntry (s.scanEnv n plan) (s.lane n).ctx entry).1) : LaneMove s n l
  | poweredOn : LaneMove s n (Lane.powerOn n)

/-- Each lane makes one of the moves. -/
def State.LanesMove (s t : State) : Prop := ∀ n : Fin 4, LaneMove s n (t.lane n)

theorem State.LanesMove.refl (s : State) : s.LanesMove s := fun _ => .same rfl rfl rfl

/-- Two states with the same lanes make the same moves. -/
theorem State.LanesMove.congr {s t u : State} (h : s.LanesMove t) (lanes : u.lanes = t.lanes) : s.LanesMove u := by
  intro n
  rw [State.lane, lanes]
  exact h n

/-- One lane moves. -/
theorem State.lanesMove_putLane {s : State} {n : Fin 4} {l : Lane} (h : LaneMove s n l) :
    s.LanesMove (s.putLane n l) := by
  intro m
  rw [State.lane_putLane]
  split
  · next hm => exact hm ▸ h
  · exact .same rfl rfl rfl

/-! ### Which moves a command makes -/

theorem ownSetLane_lanesMove (tag lane : Byte) (raw : RawSettings) (s : State) :
    s.LanesMove (ownSetLane tag lane raw s) := by
  unfold ownSetLane
  split
  · next n settings _ defined =>
    split
    · exact .refl s
    · next limit =>
      split
      · exact .refl s
      · next stopped =>
        have carried : settings.limit = raw.limit := by
          simp only [Settings.ofRaw, Option.bind_eq_bind, Option.bind_eq_some_iff, Option.pure_def,
            Option.some.injEq] at defined
          obtain ⟨_, -, _, -, _, -, _, -, _, -, _, -, _, -, rfl⟩ := defined
          rfl
        exact State.lanesMove_putLane (.set settings (carried ▸ Classical.not_not.mp limit) (Classical.not_not.mp stopped))
  · exact .refl s

theorem ownFeed_lanesMove (tag lane : Byte) (data : List Byte) (s : State) : s.LanesMove (ownFeed tag lane data s) := by
  unfold ownFeed
  split
  · exact .refl s
  · next n _ =>
    dsimp only
    split
    · exact .refl s
    split
    · exact .refl s
    split
    · exact .refl s
    · next room =>
      have fifo : ((s.lane n).feed data s.timeStamp).fifo =
          (s.lane n).fifo ++ feedEntries (s.lane n).gapPending data := by rw [Lane.feed, Lane.rearm_eq]
      have more : data ≠ [] → ((s.lane n).feed data s.timeStamp).fifo.length ≤ 512 := by
        intro some
        have := List.length_pos_iff.mpr some
        rw [fifo, List.length_append, length_feedEntries]
        rw [Lane.freePlaces] at room
        omega
      refine State.LanesMove.congr (State.lanesMove_putLane ?_) rfl
      by_cases none : data = []
      · exact .same (Lane.feed_keeps ..).1 (by rw [fifo, none]; exact List.append_nil _) (Lane.feed_keeps ..).2
      · exact .joined _ (Lane.feed_keeps ..).1 fifo (more none) (Lane.feed_keeps ..).2

theorem State.flush_lanesMove (s : State) (n : Fin 4) : s.LanesMove (s.flush n) := by
  have emptied : s.LanesMove (s.putLane n (s.lane n).flushed) := State.lanesMove_putLane (.emptied rfl rfl rfl)
  unfold State.flush
  dsimp only
  split
  · exact emptied.congr (by rw [State.testHaltDone_lanes])
  · exact emptied

theorem ownFlushLane_lanesMove (tag lane : Byte) (s : State) : s.LanesMove (ownFlushLane tag lane s) := by
  unfold ownFlushLane
  repeat' split
  · exact .refl s
  · exact (State.LanesMove.refl s).congr (by rw [State.holdFor_lanes])
  · exact s.flush_lanesMove _

theorem State.discardContexts_lanesMove {s t : State} (lanes : t.lanes = s.lanes) (p : Fin 4 → Bool) :
    s.LanesMove (t.discardContexts p) := by
  intro n
  rw [State.lane_discardContexts, show t.lane n = s.lane n by rw [State.lane, lanes, State.lane]]
  split
  · exact .discarded rfl rfl rfl
  · exact .same rfl rfl rfl

theorem State.load_lanesMove {s t : State} (lanes : t.lanes = s.lanes) (tag : Byte) (p : Fin 4 → Bool)
    (payload : List Byte) : s.LanesMove ((t.discardContexts p).answer tag .ok payload) :=
  State.discardContexts_lanesMove lanes p

theorem ownLoadTable_lanesMove (tag table first : Byte) (entries : List RawTableEntry) (s : State) :
    s.LanesMove (ownLoadTable tag table first entries s) := by
  unfold ownLoadTable
  dsimp only
  repeat' split
  · exact .refl s
  · exact .refl s
  · exact .refl s
  · exact .refl s
  · refine State.load_lanesMove ?_ tag _ _
    rfl

theorem ownLoadPlan_lanesMove (tag plan startRequired tailPolicy : Byte) (steps : List RawStep) (s : State) :
    s.LanesMove (ownLoadPlan tag plan startRequired tailPolicy steps s) := by
  unfold ownLoadPlan
  dsimp only
  repeat' split
  · exact .refl s
  · exact .refl s
  · exact .refl s
  · refine State.load_lanesMove ?_ tag _ _
    rfl

theorem State.loseEntry_lanes (s : State) (n : Fin 4) :
    (s.loseEntry n).lanes = (s.putLane n { s.lane n with gapPending := true }).lanes := by
  unfold State.loseEntry
  dsimp only
  split
  · rfl
  · exact State.notify_lanes ..

/-- A lost entry leaves settings, FIFO and context of its lane (R6). -/
theorem State.loseEntry_lanesMove {s : State} {n : Fin 4} {l : Lane} (settings : l.settings = (s.lane n).settings)
    (fifo : l.fifo = (s.lane n).fifo) (ctx : l.ctx = (s.lane n).ctx) :
    s.LanesMove ((s.putLane n l).loseEntry n) := by
  refine State.LanesMove.congr (t := s.putLane n { l with gapPending := true })
    (State.lanesMove_putLane (.same settings fifo ctx)) ?_
  have own : (s.putLane n l).lane n = l := by rw [State.lane_putLane, if_pos rfl]
  rw [State.loseEntry_lanes, own, State.putLane_putLane]

/-- A lane that is not full has room for one entry (R3). -/
theorem Lane.room_of_not_full {l : Lane} (h : ¬l.full = true) : l.fifo.length + 1 ≤ 512 :=
  Nat.lt_of_not_le fun full => h (decide_eq_true full)

theorem State.takeCharacter_lanesMove (s : State) (n : Fin 4) (value : Byte) (lineError : Bool) (rx : RxState) :
    s.LanesMove (s.takeCharacter n value lineError rx) := by
  obtain ⟨settings, fifo, ctx⟩ := Lane.rearm_keeps { s.lane n with rx } s.timeStamp
  unfold State.takeCharacter
  dsimp only
  split
  · exact State.loseEntry_lanesMove settings fifo ctx
  · next room =>
    have := Lane.room_of_not_full room
    refine State.lanesMove_putLane (.joined [_] settings (congrArg (· ++ _) fifo) ?_ ctx)
    simpa only [Lane.join, List.length_append, List.length_singleton] using this

theorem execIdleTimerExpiry_lanesMove {n : Fin 4} {s t : State} (h : execIdleTimerExpiry n s = .next t) :
    s.LanesMove t := by
  unfold execIdleTimerExpiry at h
  dsimp only at h
  repeat' split at h
  all_goals cases h
  · exact State.lanesMove_putLane (.same rfl rfl rfl)
  · exact State.loseEntry_lanesMove (l := { s.lane n with timer := none }) rfl rfl rfl
  · next room =>
    have := Lane.room_of_not_full room
    refine State.lanesMove_putLane (.joined [_] rfl rfl ?_ rfl)
    simpa only [Lane.join, List.length_append, List.length_singleton] using this
  · exact .refl s

theorem State.afterEntry_lanes (s : State) (n : Fin 4) (units : List FinishedUnit) :
    (s.afterEntry n units).lanes = s.lanes := by
  rw [State.afterEntry_eq]
  repeat' split
  · rfl
  · exact State.testHaltDone_lanes _
  · rfl

theorem execScanEntry_lanesMove {s t : State} (h : execScanEntry s = .next t) : s.LanesMove t := by
  unfold execScanEntry at h
  repeat' split at h
  all_goals cases h
  · exact .refl s
  · next n scanning _ entry rest oldest _ plan present =>
    have move : LaneMove s n
        { s.lane n with fifo := rest, ctx := (processEntry (s.scanEnv n plan) (s.lane n).ctx entry).1 } :=
      .taken plan entry rest scanning present oldest rfl rfl rfl
    exact (State.lanesMove_putLane move).congr (State.afterEntry_lanes ..)
  all_goals exact .refl s

/-- The link has no part in the moves of a lane. -/
theorem LaneMove.of_link {s : State} {link : Link} {n : Fin 4} {l : Lane} (h : LaneMove { s with link := link } n l) :
    LaneMove s n l := by
  cases h with
  | same settings fifo ctx => exact .same settings fifo ctx
  | set settings limit stopped => exact .set settings limit stopped
  | joined entries settings fifo room ctx => exact .joined entries settings fifo room ctx
  | emptied settings fifo ctx => exact .emptied settings fifo ctx
  | discarded settings fifo ctx => exact .discarded settings fifo ctx
  | taken plan entry rest scanning present oldest settings fifo ctx =>
    exact .taken plan entry rest scanning present oldest settings fifo ctx
  | poweredOn => exact .poweredOn

theorem requestStep_lanesMove {r : Request} {owner : State → State} {s t : State} (h : requestStep r owner s = .next t)
    (acts : ∀ u : State, u.LanesMove (owner u)) : s.LanesMove t := by
  obtain ⟨link, delivered⟩ : ∃ link, s.deliver r = { s with link := link } := ⟨_, s.deliver_link_only r⟩
  obtain ht | ⟨-, ht⟩ := requestStep_cases r owner s <;> rw [delivered] at ht <;> cases ht.symm.trans h
  · exact .refl s
  · exact fun n => (acts _ n).of_link

theorem State.lane_powerOn (epoch : Nat) (n : Fin 4) : (State.powerOn epoch).lane n = Lane.powerOn n :=
  match n with
  | 0 | 1 | 2 | 3 => rfl

theorem exec_lanesMove {c : Instr} {s t : State} (h : exec c s = .next t) : s.LanesMove t := by
  cases c
  case setLane => exact requestStep_lanesMove h (ownSetLane_lanesMove _ _ _)
  case feed => exact requestStep_lanesMove h (ownFeed_lanesMove _ _ _)
  case flushLane => exact requestStep_lanesMove h (ownFlushLane_lanesMove _ _)
  case loadTable => exact requestStep_lanesMove h (ownLoadTable_lanesMove _ _ _ _)
  case loadPlan => exact requestStep_lanesMove h (ownLoadPlan_lanesMove _ _ _ _ _)
  case flushTaken =>
    simp only [exec, execFlushTaken] at h
    repeat' split at h
    all_goals cases h
    · exact s.flush_lanesMove _
    all_goals exact .refl s
  case replySent =>
    simp only [exec, execReplySent] at h
    repeat' split at h
    all_goals cases h
    · exact fun n => (s.lane_softReset n).symm ▸ .emptied rfl rfl rfl
    all_goals exact .refl s
  case powerOnReset =>
    cases h
    intro n
    exact (State.lane_powerOn (s.store.epoch + 1) n).symm ▸ .poweredOn
  case pinCharacterReceived =>
    simp only [exec, execPinCharacterReceived] at h
    split at h <;> cases h
    · exact s.takeCharacter_lanesMove _ _ _ _
    · exact .refl s
  case idleTimerExpiry => exact execIdleTimerExpiry_lanesMove h
  case scanEntry => exact execScanEntry_lanesMove h
  all_goals
    have keeps := (exec_changes h).keeps
    exact fun n => .same (keeps .settings (by simp [changedBy]) n) (keeps .fifos (by simp [changedBy]) n)
      (keeps .contexts (by simp [changedBy]) n)

/-! ### FIFOs (R3) and notices (R148) -/

theorem LaneMove.fifo_bounded {s : State} {n : Fin 4} {l : Lane} (move : LaneMove s n l)
    (h : (s.lane n).fifo.length ≤ 512) : l.fifo.length ≤ 512 := by
  cases move with
  | same settings fifo ctx => exact fifo ▸ h
  | set settings limit stopped => exact Nat.zero_le _
  | joined entries settings fifo room ctx => exact room
  | emptied settings fifo ctx => exact fifo ▸ Nat.zero_le _
  | discarded settings fifo ctx => exact fifo ▸ h
  | taken plan entry rest scanning present oldest settings fifo ctx =>
    rw [oldest, List.length_cons] at h
    rw [fifo]
    omega
  | poweredOn => exact Nat.zero_le _

theorem exec_fifosBounded {c : Instr} {s t : State} (h : exec c s = .next t) (hs : s.FifosBounded) : t.FifosBounded :=
  fun n => (exec_lanesMove h n).fifo_bounded (hs n)

section Notices

variable {s t : State}

theorem State.NoticesBounded.congr (h : s.NoticesBounded) (notices : t.notices = s.notices) : t.NoticesBounded := by
  rwa [State.NoticesBounded, notices]

theorem State.NoticesBounded.notify (h : s.NoticesBounded) (k : NoticeKind) : (s.notify k).NoticesBounded :=
  s.notify_bounded k h

theorem State.NoticesBounded.testHaltDone (h : s.NoticesBounded) : s.testHaltDone.NoticesBounded := by
  unfold State.testHaltDone
  split
  · exact (h.congr rfl : State.NoticesBounded { s with engine := .stopped }).notify _
  · exact h

theorem State.NoticesBounded.loseEntry (h : s.NoticesBounded) (n : Fin 4) : (s.loseEntry n).NoticesBounded := by
  have lost : (s.putLane n { s.lane n with gapPending := true }).NoticesBounded := h
  unfold State.loseEntry
  split
  · exact lost
  · exact lost.notify _

theorem State.NoticesBounded.flush (h : s.NoticesBounded) (n : Fin 4) : (s.flush n).NoticesBounded := by
  unfold State.flush
  dsimp only
  split
  · exact (h.congr rfl : State.NoticesBounded { s.putLane n (s.lane n).flushed with scan := .free }).testHaltDone
  · exact h

theorem State.NoticesBounded.afterEntry (h : s.NoticesBounded) (n : Fin 4) (units : List FinishedUnit) :
    (s.afterEntry n units).NoticesBounded := by
  unfold State.afterEntry
  repeat' split
  · exact h
  · exact (h.congr rfl : State.NoticesBounded { s with scan := .free }).testHaltDone
  · exact h

theorem State.NoticesBounded.afterAdmission (h : s.NoticesBounded) (n : Fin 4) (units : List FinishedUnit) :
    (s.afterAdmission n units).NoticesBounded := by
  unfold State.afterAdmission
  split
  · exact (h.congr rfl : State.NoticesBounded { s with scan := .free }).testHaltDone
  · exact h

theorem State.NoticesBounded.operationDone (h : s.NoticesBounded) (b : Fin 8) (row : Fin 1024) (e : QueueEntry)
    (result : OpResult) (runOn : Bool) : (s.operationDone b row e result runOn).NoticesBounded := by
  have noticed : (if result.poisons && !runOn then
        (s.withStore (s.store.operationDone b row e result.write runOn)).notify (.storePoison e.group)
      else s.withStore (s.store.operationDone b row e result.write runOn)).NoticesBounded := by
    split
    · refine State.NoticesBounded.notify ?_ _
      exact h
    · exact h
  unfold State.operationDone
  dsimp only
  split
  · exact noticed
  · exact noticed.congr ((State.linkEntryDone_changes _ _).keeps .notices (by decide))

theorem exec_noticesBounded {c : Instr} (h : exec c s = .next t) (hs : s.NoticesBounded) : t.NoticesBounded := by
  have request {r : Request} {owner : State → State} (hr : requestStep r owner s = .next t)
      (acts : ∀ u : State, u.NoticesBounded → (owner u).NoticesBounded) : t.NoticesBounded :=
    requestStep_keeps (P := State.NoticesBounded) (fun _ _ hu => hu) acts hr hs
  cases c
  case halt tag =>
    refine request h fun u hu => ?_
    unfold ownHalt
    split
    · exact hu
    · exact hu
    · exact (hu.congr rfl : State.NoticesBounded { u with engine := .halting }).testHaltDone
  case fetchNotices tag maximum =>
    refine request h fun u hu => ?_
    unfold ownFetchNotices
    split
    · exact Nat.le_trans (Nat.le_of_eq List.length_drop) (Nat.le_trans (Nat.sub_le _ _) hu)
    · exact hu
  case flushLane tag lane =>
    refine request h fun u hu => ?_
    unfold ownFlushLane
    repeat' split
    · exact hu
    · exact hu.congr (State.holdFor_notices _ _)
    · exact hu.flush _
  case flushTaken =>
    simp only [exec, execFlushTaken] at h
    repeat' split at h
    all_goals cases h
    · exact hs.flush _
    all_goals exact hs
  case replySent =>
    simp only [exec, execReplySent] at h
    repeat' split at h
    all_goals cases h
    · exact Nat.zero_le _
    all_goals exact hs
  case powerOnReset =>
    cases h
    exact Nat.zero_le _
  case pinCharacterReceived =>
    simp only [exec, execPinCharacterReceived] at h
    split at h <;> cases h
    · unfold State.takeCharacter
      dsimp only
      split
      · refine State.NoticesBounded.loseEntry ?_ _
        exact hs
      · exact hs
    · exact hs
  case idleTimerExpiry =>
    simp only [exec, execIdleTimerExpiry] at h
    repeat' split at h
    all_goals cases h
    · exact hs
    · refine State.NoticesBounded.loseEntry ?_ _
      exact hs
    · exact hs
    · exact hs
  case scanEntry =>
    simp only [exec, execScanEntry] at h
    repeat' split at h
    all_goals cases h
    · exact hs
    · refine State.NoticesBounded.afterEntry ?_ _ _
      exact hs
    all_goals exact hs
  case unitAdmitted =>
    simp only [exec, execUnitAdmitted] at h
    repeat' split at h
    all_goals cases h
    · refine State.NoticesBounded.afterAdmission ?_ _ _
      unfold State.notifyFault
      split
      · refine State.NoticesBounded.notify ?_ _
        exact hs
      · exact hs
    all_goals exact hs
  case recordOperationComplete b =>
    obtain ⟨row, e, mode, asRead, runOn, bank, ht⟩ | ⟨-, ht⟩ := execRecordOperationComplete_cases b s <;>
      cases ht.symm.trans h
    · exact (hs.operationDone ..).testHaltDone
    · exact hs
  case rowWriteComplete b =>
    obtain ⟨row, runOn, bank, ht⟩ | ⟨-, ht⟩ := execRowWriteComplete_cases b s <;> cases ht.symm.trans h
    · unfold State.rowWriteDone
      dsimp only
      split
      · refine State.NoticesBounded.notify ?_ _
        exact hs
      · exact hs
    · exact hs
  all_goals exact hs.congr (exec_keeps h .notices (by simp [changedBy]))

end Notices

/-! ### The scan engine's hold on its lane (R56, R57, R138, R141) -/

section ScanSound

variable {s t : State}

/-- The plan that settings name is present. -/
def State.HasPlanOf (s : State) (settings : Settings) : Prop := s.plans[settings.plan].isSome = true

/-- What matters to the invariant may stay or grow: the FIFO of the lane scanned goes on holding an entry, plans stay
present. -/
theorem State.ScanSound.mono (h : s.ScanSound) (engine : t.engine = .stopped ↔ s.engine = .stopped)
    (scan : t.scan = s.scan) (plans : ∀ settings, s.HasPlanOf settings → t.HasPlanOf settings)
    (settings : ∀ n : Fin 4, (t.lane n).settings = (s.lane n).settings)
    (fifos : ∀ n : Fin 4, s.scan = .scanning n → (s.lane n).fifo ≠ [] → (t.lane n).fifo ≠ []) : t.ScanSound := by
  obtain ⟨stopped, present, scanned⟩ := h
  refine ⟨fun ht => scan.trans (stopped (engine.mp ht)), fun running n enabled => ?_, fun n ht => ?_⟩
  · change t.HasPlanOf (t.lane n).settings
    rw [settings] at enabled ⊢
    exact plans _ (present (mt engine.mpr running) n enabled)
  · obtain ⟨enabled, entry⟩ := scanned n (scan.symm.trans ht)
    exact ⟨settings n ▸ enabled, fifos n (scan.symm.trans ht) entry⟩

theorem State.HasPlanOf.congr {c : Settings} (h : s.HasPlanOf c) (plans : t.plans = s.plans) : t.HasPlanOf c := by
  rwa [State.HasPlanOf, plans]

/-- The same engine, scan engine, plans, settings and FIFOs. -/
theorem State.ScanSound.congr (h : s.ScanSound) (engine : t.engine = s.engine) (scan : t.scan = s.scan)
    (plans : t.plans = s.plans) (settings : ∀ n : Fin 4, (t.lane n).settings = (s.lane n).settings)
    (fifos : ∀ n : Fin 4, (t.lane n).fifo = (s.lane n).fifo) : t.ScanSound :=
  h.mono (by rw [engine]) scan (fun _ hc => hc.congr plans) settings fun n _ entry => (fifos n).symm ▸ entry

/-- A change of none of the five. -/
theorem State.ScanSound.of_changes {bs : List Block} (h : s.ScanSound) (changes : s.ChangesOnly bs t)
    (engine : .engine ∉ bs) (scan : .scan ∉ bs) (plans : .plans ∉ bs) (settings : .settings ∉ bs) (fifos : .fifos ∉ bs) :
    t.ScanSound := by
  exact h.congr (changes.keeps .engine engine) (changes.keeps .scan scan) (changes.keeps .plans plans) (changes.keeps .settings settings)
    (changes.keeps .fifos fifos)

theorem State.ScanSound.of_stopped (stopped : t.engine = .stopped) (free : t.scan = .free) : t.ScanSound :=
  ⟨fun _ => free, fun running => absurd stopped running, fun n scanning => by cases free.symm.trans scanning⟩

/-- The scan engine is set free, and no plan that the engine needs is lost. -/
theorem State.ScanSound.toFree (h : s.ScanSound) (free : t.scan = .free)
    (engine : t.engine ≠ .stopped → s.engine ≠ .stopped) (plans : t.plans = s.plans)
    (settings : ∀ n : Fin 4, (t.lane n).settings = (s.lane n).settings) : t.ScanSound := by
  refine ⟨fun _ => free, fun running n enabled => ?_, fun n scanning => by cases free.symm.trans scanning⟩
  change t.HasPlanOf (t.lane n).settings
  rw [settings] at enabled ⊢
  exact State.HasPlanOf.congr (h.2.1 (engine running) n enabled) plans

/-- The engine goes on; the lane scanned, if one is, has an entry. -/
theorem State.ScanSound.toHeld (h : s.ScanSound) (running : s.engine ≠ .stopped) (engine : t.engine = s.engine)
    (plans : t.plans = s.plans) (settings : ∀ n : Fin 4, (t.lane n).settings = (s.lane n).settings)
    (scanned : ∀ n : Fin 4, t.scan = .scanning n → (s.lane n).settings.enabled = true ∧ (t.lane n).fifo ≠ []) :
    t.ScanSound := by
  refine ⟨fun stopped => absurd (engine.symm.trans stopped) running, fun _ n enabled => ?_, fun n scanning => ?_⟩
  · change t.HasPlanOf (t.lane n).settings
    rw [settings] at enabled ⊢
    exact State.HasPlanOf.congr (h.2.1 running n enabled) plans
  · exact settings n ▸ scanned n scanning

/-- A lane scanned has its plan. -/
theorem State.ScanSound.planPresent (h : s.ScanSound) {n : Fin 4} (scanning : s.scan = .scanning n) :
    s.plans[(s.lane n).settings.plan] ≠ none := by
  have running : s.engine ≠ .stopped := fun stopped => by cases (h.1 stopped).symm.trans scanning
  exact Option.isSome_iff_ne_none.mp (h.2.1 running n (h.2.2 n scanning).1)

theorem State.testHaltDone_engine (s : State) :
    (s.testHaltDone.engine = .stopped ∧ s.scan = .free) ∨ s.testHaltDone.engine = s.engine := by
  rw [State.testHaltDone_eq_ite]
  split
  · next done => exact .inl ⟨State.notify_engine _ _, done.2.1⟩
  · exact .inr rfl

theorem State.ScanSound.testHaltDone (h : s.ScanSound) : s.testHaltDone.ScanSound := by
  have lanes (n : Fin 4) : s.testHaltDone.lane n = s.lane n := by rw [State.lane, State.testHaltDone_lanes, State.lane]
  obtain ⟨stopped, free⟩ | same := s.testHaltDone_engine
  · exact .of_stopped stopped ((State.testHaltDone_scan s).trans free)
  · exact h.congr same (State.testHaltDone_scan s) (State.testHaltDone_plans s) (fun n => by rw [lanes])
      fun n => by rw [lanes]

theorem State.ScanSound.notify (h : s.ScanSound) (k : NoticeKind) : (s.notify k).ScanSound :=
  h.of_changes (s.notify_changes k) (by decide) (by decide) (by decide) (by decide) (by decide)

/-- A lane changes, but not its settings, and its FIFO does not become empty. -/
theorem State.ScanSound.putLane (h : s.ScanSound) {n : Fin 4} {l : Lane} (settings : l.settings = (s.lane n).settings)
    (fifo : (s.lane n).fifo ≠ [] → l.fifo ≠ []) : (s.putLane n l).ScanSound := by
  refine h.mono Iff.rfl rfl (fun _ hc => hc) (fun m => ?_) fun m _ entry => ?_
  · rw [State.lane_putLane]
    split
    · next same => exact same ▸ settings
    · rfl
  · rw [State.lane_putLane]
    split
    · next same => exact fifo (same ▸ entry)
    · exact entry

theorem State.ScanSound.loseEntry (h : s.ScanSound) (n : Fin 4) : (s.loseEntry n).ScanSound :=
  h.of_changes (s.loseEntry_changes n) (by decide) (by decide) (by decide) (by decide) (by decide)

theorem State.settings_flushed (s : State) (n m : Fin 4) :
    ((s.putLane n (s.lane n).flushed).lane m).settings = (s.lane m).settings := by
  rw [State.lane_putLane]
  split
  · next same => rw [same, Lane.flushed]
  · rfl

theorem State.ScanSound.flush (h : s.ScanSound) (n : Fin 4) : (s.flush n).ScanSound := by
  unfold State.flush
  dsimp only
  split
  · exact (h.toFree (t := { s.putLane n (s.lane n).flushed with scan := .free }) rfl id rfl
      (s.settings_flushed n)).testHaltDone
  · next notHeld =>
    refine h.mono Iff.rfl rfl (fun _ hc => hc) (s.settings_flushed n) fun m scanning entry => ?_
    have other : m ≠ n := by
      rintro rfl
      exact notHeld (by simp only [State.scanHolds, scanning, decide_true])
    rwa [State.lane_putLane, if_neg other.symm]

theorem State.ScanSound.answer (h : s.ScanSound) (tag : Byte) (status : Status) (payload : List Byte) :
    (s.answer tag status payload).ScanSound :=
  h.of_changes (s.answer_changes tag status payload) (by decide) (by decide) (by decide) (by decide) (by decide)

/-- A load that keeps every plan a lane's settings name present. -/
theorem State.ScanSound.load {u : State} (h : s.ScanSound) (engine : u.engine = s.engine) (scan : u.scan = s.scan)
    (lanes : u.lanes = s.lanes) (plans : ∀ settings, s.HasPlanOf settings → u.HasPlanOf settings) (tag : Byte)
    (inSet : Fin 4 → Bool) (payload : List Byte) : ((u.discardContexts inSet).answer tag .ok payload).ScanSound := by
  have lane (n : Fin 4) : u.lane n = s.lane n := by rw [State.lane, lanes, State.lane]
  have loaded : u.ScanSound := h.mono (by rw [engine]) scan plans (fun n => by rw [lane]) fun n _ entry => by rwa [lane]
  refine State.ScanSound.answer ?_ tag .ok payload
  exact loaded.of_changes (u.discardContexts_changes inSet) (by decide) (by decide) (by decide) (by decide) (by decide)

theorem mem_lanes : ∀ n : Fin 4, n ∈ ([0, 1, 2, 3] : List (Fin 4)) := by decide

/-- START brings the engine up only with a plan for every enabled lane (R138). -/
theorem ownStart_scanSound (tag : Byte) (h : s.ScanSound) : (ownStart tag s).ScanSound := by
  unfold ownStart
  split
  · exact h.answer ..
  next stopped =>
  repeat' split
  · exact h.answer ..
  · exact h.answer ..
  · exact h.answer ..
  · next noneWithout =>
    have free : s.scan = .free := h.1 (Classical.not_not.mp stopped)
    refine State.ScanSound.answer ?_ tag .ok []
    refine ⟨fun _ => free, fun _ n enabled => ?_, fun n scanning => by cases free.symm.trans scanning⟩
    rw [State.laneWithoutPlan_eq, List.find?_eq_none] at noneWithout
    have present := noneWithout n (mem_lanes n)
    rw [decide_eq_true_iff, not_and] at present
    exact Option.isSome_iff_ne_none.mpr (present enabled)

theorem ownHalt_scanSound (tag : Byte) (h : s.ScanSound) : (ownHalt tag s).ScanSound := by
  unfold ownHalt
  split
  · exact h.answer ..
  · exact h.answer ..
  · next running =>
    have halting : ({ s with engine := .halting } : State).ScanSound :=
      h.mono (by simp [running]) rfl (fun _ hc => hc) (fun _ => rfl) fun _ _ => id
    exact halting.testHaltDone.answer ..

theorem ownSetLane_scanSound (tag lane : Byte) (raw : RawSettings) (h : s.ScanSound) :
    (ownSetLane tag lane raw s).ScanSound := by
  unfold ownSetLane
  repeat' split
  · exact h.answer ..
  · exact h.answer ..
  · next stopped => exact .of_stopped (Classical.not_not.mp stopped) (h.1 (Classical.not_not.mp stopped))
  · exact h.answer ..

theorem Lane.feed_fifo (l : Lane) (data : List Byte) (now : Stamp) :
    (l.feed data now).fifo = l.fifo ++ feedEntries l.gapPending data := by
  rw [Lane.feed, Lane.rearm_eq]

theorem ownFeed_scanSound (tag lane : Byte) (data : List Byte) (h : s.ScanSound) :
    (ownFeed tag lane data s).ScanSound := by
  unfold ownFeed
  dsimp only
  repeat' split
  · exact h.answer ..
  · exact h.answer ..
  · exact h.answer ..
  · exact h.answer ..
  · refine State.ScanSound.answer (State.ScanSound.putLane h (Lane.feed_keeps ..).1 fun entry => ?_) tag .ok _
    rw [Lane.feed_fifo]
    exact List.append_ne_nil_of_left_ne_nil entry _

theorem ownFlushLane_scanSound (tag lane : Byte) (h : s.ScanSound) : (ownFlushLane tag lane s).ScanSound := by
  unfold ownFlushLane
  repeat' split
  · exact h.answer ..
  · exact h.of_changes (s.holdFor_changes _) (by decide) (by decide) (by decide) (by decide) (by decide)
  · exact (h.flush _).answer ..

theorem ownLoadTable_scanSound (tag table first : Byte) (entries : List RawTableEntry) (h : s.ScanSound) :
    (ownLoadTable tag table first entries s).ScanSound := by
  unfold ownLoadTable
  dsimp only
  repeat' split
  · exact h.answer ..
  · exact h.answer ..
  · exact h.answer ..
  · exact h.answer ..
  · refine h.load ?_ ?_ ?_ ?_ tag _ _
    · rfl
    · rfl
    · rfl
    · exact fun _ => id

theorem State.HasPlanOf.set {c : Settings} (h : s.HasPlanOf c) (k : Fin 8) (p : Plan) :
    ({ s with plans := s.plans.set k (some p) } : State).HasPlanOf c := by
  change ((s.plans.set k (some p))[c.plan]).isSome = true
  rw [getElem_set_fin]
  split
  · rfl
  · exact h

theorem ownLoadPlan_scanSound (tag plan startRequired tailPolicy : Byte) (steps : List RawStep) (h : s.ScanSound) :
    (ownLoadPlan tag plan startRequired tailPolicy steps s).ScanSound := by
  unfold ownLoadPlan
  dsimp only
  repeat' split
  · exact h.answer ..
  · exact h.answer ..
  · exact h.answer ..
  · refine h.load ?_ ?_ ?_ ?_ tag _ _
    · rfl
    · rfl
    · rfl
    · exact fun _ hc => hc.set _ _

theorem State.ScanSound.takeCharacter (h : s.ScanSound) (n : Fin 4) (value : Byte) (lineError : Bool) (rx : RxState) :
    (s.takeCharacter n value lineError rx).ScanSound := by
  obtain ⟨settings, fifo, -⟩ := Lane.rearm_keeps { s.lane n with rx } s.timeStamp
  unfold State.takeCharacter
  dsimp only
  split
  · refine State.ScanSound.loseEntry (h.putLane settings fun entry => ?_) n
    rwa [fifo]
  · refine h.putLane settings fun _ => ?_
    exact List.append_ne_nil_of_right_ne_nil _ (List.cons_ne_nil _ _)

theorem execIdleTimerExpiry_scanSound {n : Fin 4} (h : execIdleTimerExpiry n s = .next t) (hs : s.ScanSound) :
    t.ScanSound := by
  unfold execIdleTimerExpiry at h
  dsimp only at h
  repeat' split at h
  all_goals cases h
  · exact State.ScanSound.putLane hs rfl id
  · exact (State.ScanSound.putLane (l := { s.lane n with timer := none }) hs rfl id).loseEntry n
  · refine State.ScanSound.putLane hs rfl fun _ => ?_
    exact List.append_ne_nil_of_right_ne_nil _ (List.cons_ne_nil _ _)
  · exact hs

/-- A grant goes to an enabled lane with an entry (R56). -/
theorem execArbiterGrant_scanSound (h : execArbiterGrant s = .next t) (hs : s.ScanSound) : t.ScanSound := by
  unfold execArbiterGrant at h
  split at h <;> cases h
  · next n choice =>
    unfold State.arbiterChoice at choice
    split at choice
    · next open_ =>
      have eligible := List.find?_some choice
      rw [Lane.eligible, Bool.and_eq_true, Bool.not_eq_true', List.isEmpty_eq_false_iff] at eligible
      refine hs.toHeld (by simp [open_.1]) rfl rfl (fun _ => rfl) fun m scanning => ?_
      cases scanning
      exact eligible
    · cases choice
  · exact hs

/-- After an entry is taken the grant goes on only while the FIFO holds another (R57). -/
theorem State.takeEntry_scanSound (h : s.ScanSound) {n : Fin 4} (scanning : s.scan = .scanning n) (plan : Plan)
    (entry : FifoEntry) (rest : List FifoEntry) : (s.takeEntry n plan entry rest).ScanSound := by
  have running : s.engine ≠ .stopped := fun stopped => by cases (h.1 stopped).symm.trans scanning
  have enabled := (h.2.2 n scanning).1
  have settings (l : Lane) (same : l.settings = (s.lane n).settings) (m : Fin 4) :
      ((s.putLane n l).lane m).settings = (s.lane m).settings := by
    rw [State.lane_putLane]
    split
    · next at_ => exact at_ ▸ same
    · rfl
  unfold State.takeEntry
  dsimp only
  generalize processEntry (s.scanEnv n plan) (s.lane n).ctx entry = r
  rw [State.afterEntry_eq]
  split
  · exact h.toHeld running rfl rfl (settings _ rfl) fun m held => by cases held
  split
  · refine State.ScanSound.testHaltDone (h.toFree rfl id rfl ?_)
    exact settings { s.lane n with fifo := rest, ctx := r.1 } rfl
  · next goesOn =>
    refine h.toHeld running rfl rfl (settings _ rfl) fun m held => ?_
    cases scanning.symm.trans held
    exact ⟨enabled, fun none => goesOn (.inl none)⟩

theorem execScanEntry_scanSound (h : execScanEntry s = .next t) (hs : s.ScanSound) : t.ScanSound := by
  unfold execScanEntry at h
  repeat' split at h
  all_goals cases h
  · exact hs
  · next scanning _ _ _ _ _ _ _ => exact State.takeEntry_scanSound hs scanning ..
  all_goals exact hs

theorem execUnitAdmitted_scanSound (h : execUnitAdmitted s = .next t) (hs : s.ScanSound) : t.ScanSound := by
  unfold execUnitAdmitted at h
  dsimp only at h
  repeat' split at h
  all_goals cases h
  · next n u units releasing _ =>
    have running : s.engine ≠ .stopped := fun stopped => by cases (hs.1 stopped).symm.trans releasing
    generalize queued : s.withStore { s.store with queue := s.store.queue ++ unitEntries n u } = v
    have noticed : (v.notifyFault n u).ScanSound := by
      have same : v.ScanSound := queued ▸ hs.congr rfl rfl rfl (fun _ => rfl) fun _ => rfl
      unfold State.notifyFault
      split
      · exact same.notify _
      · exact same
    have engine : (v.notifyFault n u).engine ≠ .stopped := by
      have same : v.engine ≠ .stopped := queued ▸ running
      unfold State.notifyFault
      split
      · rwa [State.notify_engine]
      · exact same
    unfold State.afterAdmission
    split
    · exact State.ScanSound.testHaltDone (noticed.toFree rfl id rfl fun _ => rfl)
    · exact noticed.toHeld engine rfl rfl (fun _ => rfl) fun m held => by cases held
  all_goals exact hs

theorem State.operationDone_changes (s : State) (b : Fin 8) (row : Fin 1024) (e : QueueEntry) (result : OpResult)
    (runOn : Bool) : s.ChangesOnly [.store, .queue, .storeSettings, .records, .notices, .link]
      (s.operationDone b row e result runOn) := by
  have stored : s.ChangesOnly [.store, .queue, .storeSettings, .records, .notices, .link]
      (s.withStore (s.store.operationDone b row e result.write runOn)) :=
    s.withStore_changes (by decide) (.inl (by decide)) (.inl (by decide)) (.inl (by decide))
  have noticed : s.ChangesOnly [.store, .queue, .storeSettings, .records, .notices, .link]
      (if result.poisons && !runOn then
        (s.withStore (s.store.operationDone b row e result.write runOn)).notify (.storePoison e.group)
      else s.withStore (s.store.operationDone b row e result.write runOn)) := by
    split
    · exact stored.next (State.notify_changes _ _) (by decide)
    · exact stored
  unfold State.operationDone
  dsimp only
  split
  · exact noticed
  · exact noticed.next (State.linkEntryDone_changes _ _) (by decide)

theorem exec_scanSound {c : Instr} (h : exec c s = .next t) (hs : s.ScanSound) : t.ScanSound := by
  have request {r : Request} {owner : State → State} (hr : requestStep r owner s = .next t)
      (acts : ∀ u : State, u.ScanSound → (owner u).ScanSound) : t.ScanSound :=
    requestStep_keeps (P := State.ScanSound) (fun _ _ hu => hu) acts hr hs
  cases c
  case start => exact request h fun u => ownStart_scanSound _
  case halt => exact request h fun u => ownHalt_scanSound _
  case setLane => exact request h fun u => ownSetLane_scanSound _ _ _
  case feed => exact request h fun u => ownFeed_scanSound _ _ _
  case flushLane => exact request h fun u => ownFlushLane_scanSound _ _
  case loadTable => exact request h fun u => ownLoadTable_scanSound _ _ _ _
  case loadPlan => exact request h fun u => ownLoadPlan_scanSound _ _ _ _ _
  case flushTaken =>
    simp only [exec, execFlushTaken] at h
    repeat' split at h
    all_goals cases h
    · exact (hs.flush _).answer ..
    all_goals exact hs
  case replySent =>
    simp only [exec, execReplySent] at h
    repeat' split at h
    all_goals cases h
    · exact .of_stopped rfl rfl
    all_goals exact hs
  case powerOnReset =>
    cases h
    exact .of_stopped rfl rfl
  case pinCharacterReceived =>
    simp only [exec, execPinCharacterReceived] at h
    split at h <;> cases h
    · exact hs.takeCharacter _ _ _ _
    · exact hs
  case idleTimerExpiry => exact execIdleTimerExpiry_scanSound h hs
  case arbiterGrant => exact execArbiterGrant_scanSound h hs
  case scanEntry => exact execScanEntry_scanSound h hs
  case unitAdmitted => exact execUnitAdmitted_scanSound h hs
  case recordOperationComplete b =>
    obtain ⟨row, e, mode, asRead, runOn, bank, ht⟩ | ⟨-, ht⟩ := execRecordOperationComplete_cases b s <;>
      cases ht.symm.trans h
    · exact (hs.of_changes (s.operationDone_changes ..) (by decide) (by decide) (by decide) (by decide)
        (by decide)).testHaltDone
    · exact hs
  all_goals
    exact hs.of_changes (exec_changes h) (by simp [changedBy]) (by simp [changedBy]) (by simp [changedBy])
      (by simp [changedBy]) (by simp [changedBy])

end ScanSound

/-- Settles O44: a lane is scanned only with an entry and a plan, so SCAN_ENTRY never lacks one. -/
theorem scanStateStaysSound : Obligations.ScanStateStaysSound := by
  unfold Obligations.ScanStateStaysSound
  refine ⟨fun s t hs h => ?_, fun s f hs faults => ?_⟩
  · exact step_keeps (P := State.ScanSound) (fun _ _ hs => hs) (fun _ _ _ hc hs => exec_scanSound hc hs) h hs
  · obtain ⟨c, rest, faulting⟩ : ∃ c rest, exec c { s with pending := rest } = .fault f := by
      unfold step at faults
      split at faults
      · cases faults
      · exact ⟨_, _, faults⟩
    obtain rfl : c = .scanEntry := by
      refine Decidable.byContradiction fun other => ?_
      obtain ⟨t, next⟩ := completes { s with pending := rest } other
      cases faulting.symm.trans next
    obtain ⟨⟨n, scanning, -, without⟩, -⟩ | ⟨-, t, next⟩ := scanEntry_faults_or_completes { s with pending := rest }
    · exact absurd without (hs.planPresent scanning)
    · cases faulting.symm.trans next

end Sys2Proof.Machine
end

section
/-! PROOFS. The scan contexts within the sizes of R59, and the initial state as one that meets every invariant. -/

namespace Sys2Proof.Machine

/-! ### Scan contexts (R59) -/

/-- What ContextsBounded says of one lane, the plans given. -/
def Lane.ContextBounded (plans : Vector (Option Plan) 8) (l : Lane) : Prop :=
  l.ctx.Bounded ∧ l.ctx.InRanges ∧ 1 ≤ l.settings.limit.toNat ∧ l.ctx.length ≤ l.settings.limit.toNat ∧
    l.settings.limit.toNat ≤ 1024 ∧
    (l.ctx.state = .inRecord → l.settings.enabled = true ∧
      ∃ p : Plan, plans[l.settings.plan] = some p ∧ l.ctx.Follows p)

theorem State.contextsBounded_iff (s : State) :
    s.ContextsBounded ↔ ∀ n : Fin 4, (s.lane n).ContextBounded s.plans := Iff.rfl

section Lane

variable {plans : Vector (Option Plan) 8} {k l : Lane}

/-- Only settings and context matter. -/
theorem Lane.ContextBounded.congr (h : k.ContextBounded plans) (settings : l.settings = k.settings)
    (ctx : l.ctx = k.ctx) : l.ContextBounded plans := by
  obtain ⟨settings', _, _, _, _, _, ctx'⟩ := l
  dsimp only at settings ctx
  subst settings ctx
  exact h

/-- A cleared context fits every lane whose record limit is in range. -/
theorem Lane.contextBounded_cleared (cleared : l.ctx = Context.cleared) (atLeast : 1 ≤ l.settings.limit.toNat)
    (atMost : l.settings.limit.toNat ≤ 1024) : l.ContextBounded plans := by
  rw [Lane.ContextBounded, cleared]
  refine ⟨⟨Nat.zero_le _, Nat.zero_le _⟩, ⟨Nat.zero_le _, Nat.zero_le _, fun e he => by cases he⟩, atLeast,
    Nat.zero_le _, atMost, fun inRecord => by cases inRecord⟩

theorem Lane.ContextBounded.cleared (h : k.ContextBounded plans) (settings : l.settings = k.settings)
    (cleared : l.ctx = Context.cleared) : l.ContextBounded plans := by
  obtain ⟨-, -, atLeast, -, atMost, -⟩ := h
  exact Lane.contextBounded_cleared cleared (settings ▸ atLeast) (settings ▸ atMost)

theorem Lane.contextBounded_powerOn (n : Fin 4) : (Lane.powerOn n).ContextBounded plans := by
  have limit : (Lane.powerOn n).settings.limit.toNat = 256 := rfl
  exact Lane.contextBounded_cleared rfl (by omega) (by omega)

end Lane

/-- A move of a lane keeps its context within its sizes, the plans as they were. -/
theorem LaneMove.contextBounded {s : State} {n : Fin 4} {l : Lane} (move : LaneMove s n l) (valid : s.PlansValid)
    (scan : s.ScanSound) (h : (s.lane n).ContextBounded s.plans) : l.ContextBounded s.plans := by
  cases move with
  | same settings fifo ctx => exact h.congr settings ctx
  | set settings limit stopped => exact Lane.contextBounded_cleared rfl (Nat.le_trans (by decide) limit.1) limit.2
  | joined entries settings fifo room ctx => exact h.congr settings ctx
  | emptied settings fifo ctx => exact h.cleared settings ctx
  | discarded settings fifo ctx => exact h.cleared settings ctx
  | taken plan entry rest scanning present oldest settings fifo ctx =>
    obtain ⟨bounded, ranges, atLeast, length, atMost, inRecord⟩ := h
    have kept : (s.lane n).ctx.Kept (s.scanEnv n plan).plan (s.scanEnv n plan).limit := by
      refine ⟨ranges, length, fun st => ?_⟩
      obtain ⟨-, p, hp, follows⟩ := inRecord st
      cases present.symm.trans hp
      exact follows
    obtain ⟨ranges', length', follows'⟩ := processEntry_kept (valid _ plan present) atLeast kept entry
    have bounded' := processEntry_bounded (s.scanEnv n plan) (s.lane n).ctx entry bounded
    have after : ({ s.lane n with ctx := (processEntry (s.scanEnv n plan) (s.lane n).ctx entry).1 } :
        Lane).ContextBounded s.plans :=
      ⟨bounded', ranges', atLeast, length', atMost, fun st => ⟨(scan.2.2 n scanning).1, plan, present, follows' st⟩⟩
    exact after.congr settings ctx
  | poweredOn => exact Lane.contextBounded_powerOn n

/-- The plan of every enabled lane in a record is the one it was. -/
def State.KeepsPlansInRecord (s t : State) : Prop :=
  ∀ n : Fin 4, (t.lane n).settings.enabled = true → (t.lane n).ctx.state = .inRecord →
    t.plans[(t.lane n).settings.plan] = s.plans[(t.lane n).settings.plan]

theorem State.KeepsPlansInRecord.of_same {s t : State} (h : t.plans = s.plans) : s.KeepsPlansInRecord t :=
  fun _ _ _ => by simp only [h]

/-- The lanes that name plan `k`. -/
def Lane.namesPlan (k : Fin 8) (l : Lane) : Bool := decide (l.settings.plan = k)

/-- LOAD-PLAN accepted: plan `k` stored, the contexts of the lanes that name it discarded, the reply formed (R50). -/
def State.planLoaded (s : State) (tag : Byte) (k : Fin 8) (p : Plan) : State :=
  (({ s with plans := s.plans.set k (some p) } : State).discardContexts (s.discardedBy (Lane.namesPlan k))).answer tag
    .ok [laneSetByte (s.discardedBy (Lane.namesPlan k))]

section PlanLoaded

variable (s : State) (tag : Byte) (k : Fin 8) (p : Plan)

theorem State.plans_planLoaded : (s.planLoaded tag k p).plans = s.plans.set k (some p) := by
  rw [State.planLoaded, State.answer_plans, State.discardContexts_eq]

theorem State.lane_planLoaded (n : Fin 4) : (s.planLoaded tag k p).lane n =
    if s.discardedBy (Lane.namesPlan k) n then { s.lane n with ctx := Context.cleared } else s.lane n :=
  State.lane_discardContexts { s with plans := s.plans.set k (some p) } _ n

end PlanLoaded

/-- LOAD-PLAN, the fault of its walk and the use of its plan given (R48 to R50). -/
theorem ownLoadPlan_eq (tag plan startRequired tailPolicy : Byte) (steps : List RawStep) (s : State) :
    ownLoadPlan tag plan startRequired tailPolicy steps s =
      match finOfByte 8 plan with
      | none => s.answer tag .badArgument []
      | some k =>
        match walkPlan startRequired tailPolicy steps with
        | .error (f, i) => s.answer tag .planInvalid (planInvalidBytes f i)
        | .ok p => if s.barredByUse (Lane.namesPlan k) then s.answer tag .inUse [] else s.planLoaded tag k p := rfl

/-- A plan is loaded that no enabled lane in a record names afterwards: the load is barred while the engine runs, and
discards the records of the lanes that name the plan while STOPPED (R50). -/
theorem State.planLoaded_keepsPlansInRecord {s : State} {tag : Byte} {k : Fin 8} {p : Plan}
    (free : ¬s.barredByUse (Lane.namesPlan k) = true) : s.KeepsPlansInRecord (s.planLoaded tag k p) := by
  intro n enabled inRecord
  have lane := s.lane_planLoaded tag k p n
  split at lane
  · rw [lane] at inRecord
    cases inRecord
  · next kept =>
    rw [lane] at enabled inRecord
    simp only [lane, s.plans_planLoaded]
    rw [getElem_set_fin, if_neg]
    intro same
    have namesLane : Lane.namesPlan k (s.lane n) = true := decide_eq_true same.symm
    have stopped : s.engine = .stopped := by
      refine Decidable.byContradiction fun running => free ?_
      exact ((s.barredByUse_iff _).mpr ⟨running, n, enabled, namesLane⟩)
    refine kept ?_
    rw [State.discardedBy, Lane.partWay, stopped, namesLane, inRecord]
    decide

theorem ownLoadPlan_keepsPlansInRecord (tag plan startRequired tailPolicy : Byte) (steps : List RawStep) (s : State) :
    s.KeepsPlansInRecord (ownLoadPlan tag plan startRequired tailPolicy steps s) := by
  rw [ownLoadPlan_eq]
  repeat' split
  · exact .of_same rfl
  · exact .of_same rfl
  · exact .of_same rfl
  · next free => exact State.planLoaded_keepsPlansInRecord free

theorem exec_keepsPlansInRecord {c : Instr} {s t : State} (h : exec c s = .next t) : s.KeepsPlansInRecord t := by
  by_cases hc : .plans ∈ changedBy c
  · obtain ⟨tag, plan, startRequired, tailPolicy, steps, rfl⟩ | rfl := plans_changedBy hc
    · have plans (r : Request) : (s.deliver r).plans = s.plans := by rw [State.deliver_link_only]
      obtain ht | ⟨-, ht⟩ := requestStep_cases (loadPlanRequest tag plan startRequired tailPolicy steps)
        (ownLoadPlan tag plan startRequired tailPolicy steps) s <;> cases ht.symm.trans h
      · exact .of_same (plans _)
      · intro n enabled inRecord
        rw [ownLoadPlan_keepsPlansInRecord _ _ _ _ _ _ n enabled inRecord]
        simp only [plans]
    · cases h
      intro n enabled
      have off : ((State.powerOn (s.store.epoch + 1)).lane n).settings.enabled = false := by rw [State.lane_powerOn]; rfl
      cases off.symm.trans enabled
  · exact .of_same (exec_keeps h .plans hc)

theorem exec_contextsBounded {c : Instr} {s t : State} (h : exec c s = .next t) (valid : s.PlansValid)
    (scan : s.ScanSound) (hs : s.ContextsBounded) : t.ContextsBounded := by
  intro n
  obtain ⟨bounded, ranges, atLeast, length, atMost, inRecord⟩ := (exec_lanesMove h n).contextBounded valid scan (hs n)
  refine ⟨bounded, ranges, atLeast, length, atMost, fun st => ?_⟩
  obtain ⟨enabled, p, present, follows⟩ := inRecord st
  exact ⟨enabled, p, (exec_keepsPlansInRecord h n enabled st).trans present, follows⟩

/-- Settles O45: FIFOs and contexts by the moves of a lane, the tally queue by the moves of the store, the notice queue by
what notes a notice. -/
theorem buffersStayBounded : Obligations.BuffersStayBounded := by
  unfold Obligations.BuffersStayBounded
  intro s t h
  obtain rfl | ⟨c, rest, hc⟩ := step_cases h
  · exact ⟨id, id, id, fun _ _ => id⟩
  · let u : State := { s with pending := rest }
    exact ⟨exec_fifosBounded (s := u) hc, exec_noticesBounded (s := u) hc, (exec_storeMove (s := u) hc).queueBounded,
      exec_contextsBounded (s := u) hc⟩

/-! ### The initial state -/

theorem State.plans_powerOn (epoch : Nat) (k : Fin 8) : (State.powerOn epoch).plans[k] = none := by
  simp [State.powerOn]

theorem State.powerOn_memoriesCanonical (epoch : Nat) : (State.powerOn epoch).MemoriesCanonical := by
  refine ⟨fun k => ?_, rfl⟩
  have empty : (State.powerOn epoch).tables[k] = [] := by simp [State.powerOn]
  rw [empty]
  rfl

theorem State.powerOn_refreshSafe (epoch : Nat) : (State.powerOn epoch).RefreshSafe :=
  ⟨Nat.zero_le _, fun running => by cases running⟩

theorem State.powerOn_headsWorking (epoch : Nat) : (State.powerOn epoch).HeadsWorking := by
  intro b row e mode asRead runOn working
  cases (Store.bank_powerOn epoch b).symm.trans working

theorem State.powerOn_contextsBounded (epoch : Nat) : (State.powerOn epoch).ContextsBounded := by
  intro n
  have own : ((State.powerOn epoch).lane n).ContextBounded (State.powerOn epoch).plans := by
    rw [State.lane_powerOn]
    exact Lane.contextBounded_powerOn n
  exact own

theorem State.powerOn_repliesFit (epoch : Nat) : (State.powerOn epoch).RepliesFit :=
  ⟨fun k p present => (by cases (State.plans_powerOn epoch k).symm.trans present), trivial⟩

/-- Settles O60: after a power-on reset every buffer and every map is empty, every bank CLOSED, the engine STOPPED. -/
theorem resetMeetsEveryInvariant : Obligations.ResetMeetsEveryInvariant := by
  unfold Obligations.ResetMeetsEveryInvariant
  refine ⟨fun n => ?_, Nat.zero_le _, ⟨Nat.zero_le _, fun i e he => ?_⟩, State.powerOn_refreshSafe 0,
    State.powerOn_headsWorking 0, windowsSound_empty, State.powerOn_memoriesCanonical 0, .of_stopped rfl rfl,
    State.powerOn_contextsBounded 0, fun k p present => ?_, State.powerOn_repliesFit 0⟩
  · rw [State.reset, State.lane_powerOn]
    exact Nat.zero_le _
  · cases he
  · cases (State.plans_powerOn 0 k).symm.trans present

end Sys2Proof.Machine
end

section
/-! PROOFS. The power-on reset and the start-up of the link (R145, R146, R152, R163), the bytes on LRX (R152 to R161), the
replies (R159, R161, R162), and how a request command's frame meets the link (R154 to R161). -/

namespace Sys2Proof.Machine

/-! ### The power-on reset -/

/-- A part just powered on, whatever its waiting commands and its link rate. -/
theorem State.freshFromPowerOn (epoch : Nat) (pending : List Instr) (rate : LinkRate) :
    ({ State.powerOn epoch with pending, link := { Link.powerOn with rate } } : State).FreshFromPowerOn where
  inForce := rfl
  timeStamp := rfl
  lanes n := State.lane_powerOn epoch n
  tables k i := by
    have empty : (State.powerOn epoch).tables[k] = [] := by simp [State.powerOn]
    change tableEntry (State.powerOn epoch).tables[k] i.val = _
    rw [empty]
    rfl
  plans := State.plans_powerOn epoch
  windows k := by simp [State.powerOn]
  scan := ⟨rfl, rfl, rfl⟩
  store := ⟨rfl, rfl, rfl, rfl, Store.bank_powerOn epoch, rfl, rfl, rfl⟩
  records g := by
    have known : (Store.powerOn epoch).blank g = none := by simp [Store.blank, Store.powerOn]
    simp only [State.powerOn, Store.record, known]
    rfl
  engine := ⟨rfl, rfl, rfl⟩
  link := ⟨rfl, rfl, rfl, rfl⟩

/-- Settles O5. -/
theorem powerOnResetState : Obligations.PowerOnResetState := by
  unfold Obligations.PowerOnResetState
  exact ⟨fun s => ⟨_, rfl, State.freshFromPowerOn _ _ _, rfl, rfl⟩,
    State.freshFromPowerOn 0 [] Link.powerOn.rate, rfl⟩

/-- The time stamp wraps at 2^32. -/
theorem stamp_add_one (x : Stamp) : x + 1 = BitVec.ofNat 32 ((x.toNat + 1) % 4294967296) := by
  apply BitVec.eq_of_toNat_eq
  rw [BitVec.toNat_add, BitVec.toNat_ofNat]
  simp

/-- Settles O6. -/
theorem powerOnEndsAndTimeRuns : Obligations.PowerOnEndsAndTimeRuns := by
  unfold Obligations.PowerOnEndsAndTimeRuns
  refine fun s => ⟨fun spd => ?_, ?_, ?_⟩
  · simp only [exec, execPowerOnResetEnd]
    split <;> rfl
  · simp only [exec, execLinkStartupWaitEnd, State.startupWaitPassed, decide_eq_true_eq]
    split <;> rfl
  · simp only [exec, execTimeStampTick, stamp_add_one]
    split <;> rfl

/-! ### Bytes on LRX -/

section LinkBytes

variable {s : State} {value : Byte} {framingError staysSpace : Bool}

theorem lengthByteOk_iff (b : Byte) : lengthByteOk b = true ↔ 2 ≤ b.toNat ∧ b.toNat ≤ 242 := decide_eq_true_iff

/-- The state in which a byte is taken: the break noted, the time of the byte kept (R152, R155). -/
def State.withByte (s : State) (inBreak : Bool) : State :=
  { s with link := { s.link with inBreak := inBreak, lastByteAt := s.timeStamp } }

/-- A break is noted on a link that is in none (R152). -/
theorem State.noteBreak_eq (open_ : s.link.inBreak = false) :
    s.noteBreak framingError staysSpace =
      { s with link := { s.link with inBreak := framingError && staysSpace } } := by
  unfold State.noteBreak
  split
  · next isBreak => rw [isBreak]
  · next noBreak => rw [eq_false_of_ne_true noBreak, ← open_]

/-- No character is a byte while a power-on reset is in force or a break lasts (R152, R163). -/
theorem State.linkByte_closed (closed : s.porHeld = true ∨ s.link.inBreak = true) :
    s.linkByte value framingError staysSpace = s := by
  rw [State.linkByte, if_pos (by rwa [Bool.or_eq_true])]

theorem State.linkByte_startupWait (up : s.porHeld = false) (noBreak : s.link.inBreak = false)
    (waits : s.link.startupWait = true) :
    s.linkByte value framingError staysSpace =
      { s with link := { s.link with inBreak := framingError && staysSpace } } := by
  rw [State.linkByte, if_neg (by simp [up, noBreak]), if_pos waits, State.noteBreak_eq noBreak]

/-- Otherwise the character is taken as a byte. -/
theorem State.linkByte_asByte (up : s.porHeld = false) (noBreak : s.link.inBreak = false)
    (noWait : s.link.startupWait = false) : s.linkByte value framingError staysSpace =
      (s.withByte (framingError && staysSpace)).takeByte value framingError := by
  rw [State.linkByte, if_neg (by simp [up, noBreak]), if_neg (by simp [noWait]), State.noteBreak_eq noBreak]
  rfl

end LinkBytes

/-- Settles O8. -/
theorem linkClosedAndTimeouts : Obligations.LinkClosedAndTimeouts := by
  unfold Obligations.LinkClosedAndTimeouts
  refine ⟨fun s value framingError staysSpace => ⟨fun closed => ?_, fun up noBreak waits => ?_, rfl⟩,
    fun s => ⟨fun len rest receiving => ?_, fun other => ?_, fun expected discarding => ?_, fun waiting => ?_⟩⟩
  · exact congrArg Host.Outcome.next (State.linkByte_closed closed)
  · exact congrArg Host.Outcome.next (State.linkByte_startupWait up noBreak waits)
  · simp only [exec, execFrameTimeout, receiving, State.byteTimeoutPassed, decide_eq_true_eq]
    split <;> rfl
  · cases link : s.link.state with
    | receiving len rest => exact absurd link (other len rest)
    | _ => simp only [exec, execFrameTimeout, link]
  · simp only [exec, execDiscardTimeout, discarding, State.byteTimeoutPassed, decide_eq_true_eq]
    split <;> rfl
  · simp only [exec, execDiscardTimeout, waiting]

section Taken

variable {s : State} {value : Byte} {framingError : Bool}

theorem State.takeByte_discarding {expected : Option Nat} (discarding : s.link.discarder = .discarding expected) :
    s.takeByte value framingError = s.discardByte expected value framingError := by
  rw [State.takeByte, discarding]

theorem State.takeByte_idle (waiting : s.link.discarder = .waiting) (idle : s.link.state = .idle) :
    s.takeByte value framingError =
      if value = 0xA5 ∧ framingError = false then s.linkTo (.receiving none []) else s := by
  rw [State.takeByte, waiting, idle]

theorem State.takeByte_receiving {len : Option Byte} {rest : List Byte} (waiting : s.link.discarder = .waiting)
    (receiving : s.link.state = .receiving len rest) :
    s.takeByte value framingError = s.receiveByte len rest value framingError := by
  rw [State.takeByte, waiting, receiving]

/-- A start byte begins a discard on a link that holds a request or a reply (R160). -/
theorem State.takeByte_busy (waiting : s.link.discarder = .waiting)
    (busy : (∃ r w, s.link.state = .held r w) ∨ ∃ r, s.link.state = .replying r) :
    s.takeByte value framingError = if value = 0xA5 ∧ framingError = false then s.beginDiscard else s := by
  obtain ⟨r, w, held⟩ | ⟨r, replying⟩ := busy
  · rw [State.takeByte, waiting, held]
  · rw [State.takeByte, waiting, replying]

/-- What the discarder does next with a byte (R160). -/
theorem State.discardByte_eq (expected : Option Nat) : s.discardByte expected value framingError =
    s.discarderTo (if framingError = true then .waiting
      else match expected with
        | none => if 2 ≤ value.toNat ∧ value.toNat ≤ 242 then .discarding (some (value.toNat + 2)) else .waiting
        | some n => if n ≤ 1 then .waiting else .discarding (some (n - 1))) := by
  cases framingError
  · cases expected with
    | none =>
      simp only [State.discardByte, lengthByteOk_iff, Bool.false_eq_true, if_false]
      split <;> rfl
    | some n =>
      simp only [State.discardByte, Bool.false_eq_true, if_false]
      split <;> rfl
  · rfl

/-- A framing error abandons the frame, whatever the byte (R155). -/
theorem State.receiveByte_framingError (len : Option Byte) (rest : List Byte) :
    s.receiveByte len rest value true = s.formReply .frameError 0 [3] false := rfl

theorem State.receiveByte_length : s.receiveByte none [] value false =
    if 2 ≤ value.toNat ∧ value.toNat ≤ 242 then s.linkTo (.receiving (some value) [])
    else s.formReply .frameError 0 [2] false := by
  simp only [State.receiveByte, Bool.false_eq_true, if_false, lengthByteOk_iff]
  rfl

theorem State.receiveByte_inner {len : Byte} {rest : List Byte} (more : rest.length + 1 < len.toNat + 2) :
    s.receiveByte (some len) rest value false = s.linkTo (.receiving (some len) (rest ++ [value])) := by
  have short : (rest ++ [value]).length ≠ len.toNat + 2 := by
    rw [List.length_append, List.length_singleton]
    omega
  simp only [State.receiveByte, Bool.false_eq_true, if_false, if_neg short]

/-- The checks at the end of a frame: CRC, code, length (R156, R157). -/
theorem State.receiveByte_last {len code tag high : Byte} {payload : List Byte}
    (whole : len.toNat = payload.length + 2) :
    s.receiveByte (some len) (code :: tag :: payload ++ [high]) value false =
      if bytes16 (crc16 (len :: code :: tag :: payload)) ≠ [high, value] then s.formReply .frameError 0 [4] false
      else match RequestCode.ofByte code with
        | none => s.formReply .unknownRequest tag [] false
        | some c =>
          if c.lengthMatches payload.length = false then s.formReply .lengthError tag [] false
          else s.linkTo (.held { code := c, tag, payload } .owner) := by
  have bodyLength : (code :: tag :: payload).length = len.toNat := by simp [whole]
  have crc : code :: tag :: payload ++ [high] ++ [value] = (code :: tag :: payload) ++ [high, value] := by simp
  have last : (code :: tag :: payload ++ [high] ++ [value]).length = len.toNat + 2 := by
    rw [crc, List.length_append, bodyLength]
    rfl
  simp only [State.receiveByte, Bool.false_eq_true, if_false, if_pos last]
  rw [crc, State.frameComplete, List.take_left' bodyLength, List.drop_left' bodyLength]
  simp only [ne_eq, ite_not, State.takeRequest]
  split
  · cases RequestCode.ofByte code with
    | none => rfl
    | some c =>
      dsimp only
      cases c.lengthMatches payload.length <;> rfl
  · rfl

end Taken

/-- Settles O9. -/
theorem linkBytesIdleBusyAndDiscarded : Obligations.LinkBytesIdleBusyAndDiscarded := by
  unfold Obligations.LinkBytesIdleBusyAndDiscarded
  intro s value framingError staysSpace up noBreak noWait
  simp only [exec, execLinkByteReceived, State.linkByte_asByte up noBreak noWait]
  refine ⟨fun waiting idle => ?_, fun waiting busy => ?_, fun expected discarding => ?_⟩
  · rw [State.takeByte_idle (s := s.withByte _) waiting idle]
    split
    · rfl
    · rw [← idle]
      rfl
  · rw [State.takeByte_busy (s := s.withByte _) waiting busy]
    split
    · next start => simp [start, State.beginDiscard, State.withByte]
    · next other =>
      have none : (decide (value = 0xA5) && !framingError) = false := by simpa using other
      rw [none, Bool.or_false, ← waiting]
      rfl
  · rw [State.takeByte_discarding (s := s.withByte _) discarding, State.discardByte_eq]
    rfl

/-- Settles O10. -/
theorem linkBytesReceiving : Obligations.LinkBytesReceiving := by
  unfold Obligations.LinkBytesReceiving
  intro s value staysSpace ⟨up, noBreak, noWait, waiting⟩
  have same : s.withByte false = { s with link := { s.link with lastByteAt := s.timeStamp } } := by
    rw [State.withByte, ← noBreak]
  have taken {len : Option Byte} {rest : List Byte} (receiving : s.link.state = .receiving len rest)
      (framingError : Bool) : exec (.linkByteReceived value framingError staysSpace) s =
        .next ((s.withByte (framingError && staysSpace)).receiveByte len rest value framingError) := by
    refine congrArg Host.Outcome.next ((s.linkByte_asByte up noBreak noWait).trans ?_)
    exact State.takeByte_receiving (s := s.withByte _) waiting receiving
  refine ⟨fun len rest receiving => ?_, fun receiving => ?_, fun len rest receiving more => ?_,
    fun len code tag high payload whole receiving => ?_⟩
  · rw [taken receiving, State.receiveByte_framingError]
    rfl
  · rw [taken receiving, State.receiveByte_length, Bool.false_and, same]
    rfl
  · rw [taken receiving, State.receiveByte_inner more, Bool.false_and, same]
    rfl
  · rw [taken receiving, State.receiveByte_last whole, Bool.false_and, same]
    rfl

/-! ### Replies -/

theorem State.attnLow_iff (s : State) : s.attnLow = true ↔ s.notices ≠ [] := by
  rw [State.attnLow, Bool.not_eq_true', List.isEmpty_eq_false_iff]

theorem State.attnLow_eq (s : State) : s.attnLow = decide (s.notices ≠ []) := by
  rw [Bool.eq_iff_iff, State.attnLow_iff, decide_eq_true_iff]

theorem Reply.toNat_flags (r : Reply) :
    r.flags.toNat = (if r.discarded then 1 else 0) + (if r.noticesWaiting then 2 else 0) := by
  rw [Reply.flags]
  cases r.discarded <;> cases r.noticesWaiting <;> rfl

/-- Settles O11. -/
theorem repliesAreFormedAndSent : Obligations.RepliesAreFormedAndSent := by
  unfold Obligations.RepliesAreFormedAndSent
  refine ⟨fun s status tag payload thenReset => ?_, State.attnLow_iff, fun r _ => ?_,
    fun s => ⟨fun r replying noReset => ?_, fun other => ?_⟩⟩
  · rw [State.formReply, State.attnLow_eq]
  · exact ⟨r.flags, _, _, r.toNat_flags, rfl, rfl⟩
  · simp only [exec, execReplySent, replying, noReset]
    rfl
  · cases link : s.link.state with
    | replying r => exact absurd link (other r)
    | _ => simp only [exec, execReplySent, link]

/-! ### Request commands -/

/-- Every request command is one request and its owner's act. -/
theorem exec_eq_requestStep {c : Instr} {r : Request} (h : requestOf c = some r) :
    ∃ owner : State → State, exec c = requestStep r owner := by
  cases c <;> cases h <;> exact ⟨_, rfl⟩

open Sys2Proof.Laws.WfFrame in
/-- The request a well-formed command sends fits a frame and matches its layout. -/
theorem wellFormed_request_fits (c : Instr) : Sys2Proof.Laws.WfFrame.Statement c := by
  cases c with
  | identify => exact identify _
  | status => exact status _
  | start => exact start _
  | halt => exact halt _
  | reset => exact reset _
  | fetchNotices => exact fetchNotices _ _
  | setLane => exact setLane _ _ _
  | readLane => exact readLane _ _
  | feed => exact feed _ _ _
  | flushLane => exact flushLane _ _
  | loadTable => exact loadTable _ _ _ _
  | readTable => exact readTable _ _ _ _
  | loadPlan => exact loadPlan _ _ _ _ _
  | readPlan => exact readPlan _ _
  | setWindow => exact setWindow _ _
  | clearWindow => exact clearWindow _ _
  | readWindow => exact readWindow _ _
  | lookup => exact lookup _ _
  | configureStore => exact configureStore _ _ _
  | clearStore => exact clearStore _
  | readTally => exact readTally _ _ _ _ _ _
  | clearTally => exact clearTally _ _ _
  | clearFlags => exact clearFlags _ _
  | _ =>
    intro _ r h
    cases h

/-- Settles O12: the frame of a well-formed command is taken whole, and the owner acts on the request held. -/
theorem requestReachesItsOwner : Obligations.RequestReachesItsOwner := by
  unfold Obligations.RequestReachesItsOwner
  intro c r s wellFormed request opened idle
  obtain ⟨fits, layout⟩ := wellFormed_request_fits c wellFormed r request
  obtain ⟨owner, execution⟩ := exec_eq_requestStep request
  rw [execution, requestStep_idle r owner opened idle fits layout]
  exact (requestStep_held r owner rfl).symm

/-- Settles O13. -/
theorem requestsDiscardedOrLengthError : Obligations.RequestsDiscardedOrLengthError := by
  unfold Obligations.RequestsDiscardedOrLengthError
  intro c r s request fits opened
  obtain ⟨owner, execution⟩ := exec_eq_requestStep request
  rw [execution]
  refine ⟨fun busy other => ?_, fun idle layout => ?_⟩
  · exact requestStep_busy r owner opened busy other fits
  · rw [requestStep_lengthError r owner opened idle fits layout, State.linkNow, ← idle]

/-! ### Codes and bytes -/

theorem extractLsb'_eq_ofNat {n : Nat} (x : BitVec n) (start len : Nat) :
    x.extractLsb' start len = BitVec.ofNat len (x.toNat / 2 ^ start) := by
  rw [BitVec.extractLsb', Nat.shiftRight_eq_div_pow]

theorem extractLsb'_upper (x : BitVec 64) {start len : Nat} (h : start + len ≤ 32) :
    (x.extractLsb' 32 32).extractLsb' start len = x.extractLsb' (32 + start) len := by
  apply BitVec.eq_of_getLsbD_eq
  intro i hi
  simp only [BitVec.getLsbD_extractLsb', hi, decide_true, Bool.true_and, ← Nat.add_assoc]
  rw [decide_eq_true (by omega : start + i < 32), Bool.true_and]

/-- Settles O15. -/
theorem codesAndCrcCheckValues : Obligations.CodesAndCrcCheckValues := by
  unfold Obligations.CodesAndCrcCheckValues
  refine ⟨by decide, fun c => ⟨List.mem_of_find?_eq_some (RequestCode.ofByte_byte c), RequestCode.ofByte_byte c⟩,
    by decide, fun x => ?_, fun x => ?_, fun x => ?_, by decide +kernel, by decide +kernel⟩
  · simp only [bytes16, extractLsb'_eq_ofNat, Nat.pow_zero, Nat.div_one]
  · simp only [bytes32, extractLsb'_eq_ofNat, Nat.pow_zero, Nat.div_one]
  · have high : BitVec.ofNat 32 (x.toNat / 2 ^ 32) = x.extractLsb' 32 32 := (extractLsb'_eq_ofNat x 32 32).symm
    have low : BitVec.ofNat 32 x.toNat = x.extractLsb' 0 32 := by
      rw [extractLsb'_eq_ofNat, Nat.pow_zero, Nat.div_one]
    rw [high, low, bytes32, bytes32, bytes64]
    simp [extractLsb'_upper, BitVec.extractLsb'_extractLsb'_of_le]

end Sys2Proof.Machine
end

section
/-! PROOFS. The soft reset (R18, R136, R145): what it leaves in the store, block by block, and the statement about it. -/

namespace Sys2Proof.Machine

/-! ### When a refresh is wanted -/

section Settle

variable (st : Store)

/-- The three cases of settling: a refresh runs, one is prepared or begun, the banks may work. -/
theorem Store.settle_trichotomy : st.refresh = .running ∨ (st.refresh = .preparing ∨ st.refreshWanted = true) ∨
    st.refresh = .none ∧ st.refreshWanted = false := by
  cases refresh : st.refresh with
  | running => exact .inl rfl
  | preparing => exact .inr (.inl (.inl rfl))
  | none =>
    cases wanted : st.refreshWanted with
    | true => exact .inr (.inl (.inr rfl))
    | false => exact .inr (.inr ⟨rfl, rfl⟩)

theorem closeIdle_closed : closeIdle .closed = .closed := rfl

/-- A CLOSED bank with no head stays CLOSED, while no clear is under way. -/
theorem Store.settle_closed_without_head {b : Fin 8} (closed : st.bank b = .closed) (noHead : headOf b st.queue = none)
    (noClear : st.state ≠ .clearing) : st.settle.bank b = .closed := by
  obtain running | prepared | ⟨noRefresh, notWanted⟩ := st.settle_trichotomy
  · rw [st.settle_whileRunning running, closed]
  · rw [(st.settle_prepare_refresh prepared).2.2 b, closed, closeIdle_closed, ite_self]
  · cases state : st.state with
    | clearing => exact absurd state noClear
    | catchUp => rw [st.settle_catchUp noRefresh notWanted (.inl state), closed]
    | ready => rw [st.settle_head b noRefresh notWanted (.inl state), Store.startHead, noHead, closed]
    | uninitialised => rw [st.settle_head b noRefresh notWanted (.inr state), Store.startHead, noHead, closed]

end Settle

/-! ### The store at a soft reset -/

section SoftReset

variable (st : Store)

/-- The store with queue, banks and state cut back (R136, steps 1 to 4), before the test for a debt of 8. -/
def Store.cutBack : Store :=
  { st with
    state := st.state.softReset
    queue := keepInFlight st.operatingBanks st.queue
    banks := st.banks.map Bank.softReset
    catchingUp := false }

/-- The state of the store after the test for a debt of 8 (R136, step 5). -/
def Store.resetState : StoreState :=
  match st.state with
  | .uninitialised => .uninitialised
  | .clearing => .uninitialised
  | .ready => if st.debt = 8 ∧ st.refresh = .none then .catchUp else .ready
  | .catchUp => if st.debt = 8 ∧ st.refresh = .none then .catchUp else .ready

/-- A soft reset is the store cut back, the test for a debt of 8, and what the controller then does at once. -/
theorem Store.softReset_eq_settle : st.softReset = ({ st.cutBack with state := st.resetState } : Store).settle := by
  change (if st.refresh = .none then st.cutBack.enterCatchUp else st.cutBack).settle = _
  congr 1
  by_cases noRefresh : st.refresh = .none
  · rw [if_pos noRefresh, Store.enterCatchUp, show st.cutBack.debt = st.debt from rfl]
    cases state : st.state <;> split <;>
      simp_all [Store.cutBack, Store.resetState, StoreState.softReset]
  · rw [if_neg noRefresh]
    cases state : st.state <;> simp [Store.cutBack, Store.resetState, state, noRefresh, StoreState.softReset]

theorem Store.resetState_not_clearing : st.resetState ≠ .clearing := by
  unfold Store.resetState
  repeat' split
  all_goals exact fun h => by cases h

theorem Store.resetState_catchUp (h : st.resetState = .catchUp) : st.debt = 8 := by
  unfold Store.resetState at h
  repeat' split at h
  · cases h
  · cases h
  · next full => exact full.1
  · cases h
  · next full => exact full.1
  · cases h

theorem Store.bank_cutBack (b : Fin 8) : st.cutBack.bank b = (st.bank b).softReset := by
  simp [Store.cutBack, Store.bank]

/-- A soft reset leaves the banks that were CLOSED closed, and every other bank busy. -/
theorem Bank.softReset_closed_or_busy (k : Bank) :
    (k = .closed ∧ k.softReset = .closed) ∨ (k ≠ .closed ∧ k.softReset.busy = true) := by
  cases k with
  | closed => exact .inl ⟨rfl, rfl⟩
  | opening row work => exact .inr ⟨Bank.noConfusion, rfl⟩
  | opened row => exact .inr ⟨Bank.noConfusion, rfl⟩
  | closing work => exact .inr ⟨Bank.noConfusion, rfl⟩
  | working row op => cases op <;> exact .inr ⟨Bank.noConfusion, rfl⟩

theorem Bank.softReset_eq_closed (k : Bank) : k.softReset = .closed ↔ k = .closed := by
  obtain ⟨closed, reset⟩ | ⟨other, busy⟩ := k.softReset_closed_or_busy
  · exact iff_of_true reset closed
  · refine iff_of_false (fun reset => ?_) other
    rw [reset] at busy
    cases busy

/-- The banks a soft reset leaves: no bank starts work at once, for the entries kept lie in banks at work. -/
theorem Store.bank_softReset (b : Fin 8) : st.softReset.bank b = (st.bank b).softReset := by
  rw [Store.softReset_eq_settle]
  have own : ({ st.cutBack with state := st.resetState } : Store).bank b = (st.bank b).softReset := st.bank_cutBack b
  obtain ⟨closed, reset⟩ | ⟨-, busy⟩ := (st.bank b).softReset_closed_or_busy
  · rw [reset] at own ⊢
    refine Store.settle_closed_without_head _ own ?_ st.resetState_not_clearing
    refine List.find?_eq_none.mpr fun e kept lies => ?_
    have operates := keepInFlight_bank st.operatingBanks st.queue e kept
    obtain ⟨c, number, row, _, _, _, _, working⟩ := (st.mem_operatingBanks _).mp operates
    obtain rfl : b = c := Fin.ext ((of_decide_eq_true lies).symm.trans number)
    cases closed.symm.trans working
  · rw [← own] at busy
    rw [Store.settle_busy _ b busy, own]

theorem Store.softReset_queue_spec : st.softReset.queue.Sublist st.queue ∧ ∀ b : Fin 8,
    ((∃ row e m x y, st.bank b = .working row (.record e m x y)) →
      st.softReset.queue.filter (fun e => e.bank = b.val) = (st.queue.filter (fun e => e.bank = b.val)).take 1) ∧
    ((∀ row e m x y, st.bank b ≠ .working row (.record e m x y)) → ∀ e ∈ st.softReset.queue, e.bank ≠ b.val) := by
  rw [Store.softReset_queue]
  refine ⟨keepInFlight_sublist _ _, fun b => ⟨fun working => ?_, fun idle e kept lies => ?_⟩⟩
  · rw [keepInFlight_filter, if_pos ((st.mem_operatingBanks _).mpr ⟨b, rfl, working⟩)]
  · have operates := keepInFlight_bank st.operatingBanks st.queue e kept
    rw [lies] at operates
    obtain ⟨c, number, row, e', m, x, y, working⟩ := (st.mem_operatingBanks _).mp operates
    obtain rfl : b = c := Fin.ext number
    exact idle row e' m x y working

theorem Store.softReset_refresh :
    let begins := st.refresh = .preparing ∨
      st.refresh = .none ∧ 0 < st.debt ∧ (st.softReset.queue = [] ∨ st.debt = 8)
    let allClosed := ∀ b : Fin 8, st.bank b = .closed
    (st.refresh = .running → st.softReset.refresh = .running ∧ st.softReset.debt = st.debt) ∧
    (begins → allClosed → st.softReset.refresh = .running ∧ st.softReset.debt = st.debt - 1) ∧
    (begins → ¬allClosed → st.softReset.refresh = .preparing ∧ st.softReset.debt = st.debt) ∧
    (st.refresh = .none → ¬begins → st.softReset.refresh = .none ∧ st.softReset.debt = st.debt) := by
  intro begins allClosed
  let cut : Store := { st.cutBack with state := st.resetState }
  have settled : st.softReset = cut.settle := st.softReset_eq_settle
  have queue : st.softReset.queue = cut.queue := by rw [settled, Store.settle_queue]
  have wanted : cut.refreshWanted = true ↔
      st.refresh = .none ∧ 0 < st.debt ∧ (st.softReset.queue = [] ∨ st.debt = 8) := by
    rw [Store.refreshWanted_iff, queue]
    refine and_congr_right fun _ => and_congr_right fun _ => or_congr_right ⟨fun h => ?_, fun full => .inl full⟩
    obtain full | catchUp | ⟨clearing, -⟩ := h
    · exact full
    · exact st.resetState_catchUp catchUp
    · exact absurd clearing st.resetState_not_clearing
  have prepared : begins ↔ cut.refresh = .preparing ∨ cut.refreshWanted = true := or_congr_right wanted.symm
  have closed : allClosed ↔ ∀ b : Fin 8, cut.bank b = .closed :=
    forall_congr' fun b => by
      rw [← Bank.softReset_eq_closed, ← Store.bank_cutBack]
      rfl
  rw [settled]
  refine ⟨fun running => ?_, fun hb hc => ?_, fun hb hc => ?_, fun none notBegun => ?_⟩
  · rw [cut.settle_whileRunning running]
    exact ⟨running, rfl⟩
  · exact (cut.settle_prepare_refresh (prepared.mp hb)).1 (closed.mp hc)
  · exact (cut.settle_prepare_refresh (prepared.mp hb)).2.1 (mt closed.mpr hc)
  · have notWanted : cut.refreshWanted = false := eq_false_of_ne_true fun h => notBegun (prepared.mpr (.inr h))
    rw [cut.settle_work none notWanted, Store.startWork_eq]
    exact ⟨none, rfl⟩

end SoftReset

/-- Settles O7. -/
theorem resetAnsweredThenTakesEffect : Obligations.ResetAnsweredThenTakesEffect := by
  unfold Obligations.ResetAnsweredThenTakesEffect
  refine ⟨fun s tag held => ?_, fun s r replying thenReset => ?_⟩
  · refine (requestStep_held _ _ held).trans ?_
    simp only [ownReset, State.formReply, State.attnLow_eq]
  · obtain ⟨sumMode, rowPolicy, cells, clean, epoch⟩ := s.store.softReset_keeps
    have settled := s.store.softReset_eq_settle
    refine ⟨s.lanes.map Lane.softReset, s.store.softReset, ?_, fun n => ?_, sumMode, rowPolicy,
      Store.record_congr cells clean epoch, ?_, ?_, s.store.softReset_queue_spec, fun b => ?_, s.store.softReset_refresh⟩
    · simp only [exec, execReplySent, replying, thenReset, if_true]
      rfl
    · simp only [Fin.getElem_fin, Vector.getElem_map, Lane.softReset, Settings.restartedRx, Bool.and_eq_true,
        decide_eq_true_eq, State.lane]
      rfl
    · rw [settled, Store.settle_state]
      rfl
    · rw [settled, Store.settle_catchingUp]
      rfl
    · rw [Store.bank_softReset]
      cases s.store.bank b <;> rfl

end Sys2Proof.Machine
end

section
/-! PROOFS. The tally store (chapter 7): the places of groups (R111), the arithmetic of record operations and readouts (R100
to R105, R122 to R127), row writes of a clear (R134), damage (R122), and the banks' activations and precharges (R117). -/

namespace Sys2Proof.Machine

/-! ### Places (R111) -/

/-- Settles O57. -/
theorem groupPlaces : Obligations.GroupPlaces := by
  unfold Obligations.GroupPlaces
  refine ⟨fun e => ⟨rfl, rfl⟩, fun g => ⟨rfl, rfl, rfl⟩, fun g inRange => ?_, fun row place bank hr hp hb => ?_⟩
  · have place : groupPlace g < 8 := Nat.mod_lt _ (by decide)
    have bank : groupBank g < 8 := Nat.mod_lt _ (by decide)
    have row : groupRow g < 1024 := Nat.div_lt_of_lt_mul inRange
    exact ⟨by omega, by omega, by omega, (groupAt_iff _ _ _ g place bank).mpr ⟨rfl, rfl, rfl⟩⟩
  · obtain ⟨sameRow, samePlace, sameBank⟩ := (groupAt_iff row place bank _ (by omega) (by omega)).mp rfl
    exact ⟨sameBank, sameRow, samePlace, rfl⟩

/-! ### Record operations (R122 to R127) -/

section Conditions

variable {r : StoredRecord}

theorem StoredRecord.condition_mismatch (h : r.difference ≠ 0) : r.condition = .checkMismatch := if_pos h

theorem StoredRecord.condition_poisoned (agrees : r.difference = 0) (poisoned : r.contents.poisoned = true) :
    r.condition = .alreadyPoisoned := by
  rw [StoredRecord.condition, if_neg (Classical.not_not.mpr agrees), if_pos poisoned]

theorem StoredRecord.condition_healthy (agrees : r.difference = 0) (sound : r.contents.poisoned = false) :
    r.condition = .healthy := by
  rw [StoredRecord.condition, if_neg (Classical.not_not.mpr agrees), if_neg (ne_true_of_eq_false sound)]

end Conditions

/-- Poisoning puts minimum and maximum in order (R123). -/
theorem RecordContents.poison_eq (c : RecordContents) : c.poison =
    { c with
      minimum := if c.maximum.toInt < c.minimum.toInt then c.maximum else c.minimum
      maximum := if c.maximum.toInt < c.minimum.toInt then c.minimum else c.maximum
      poisoned := true } := by
  unfold RecordContents.poison
  split <;> rfl

/-- Settles O50: each kind of operation, by the condition it finds. -/
theorem recordOperationsByCondition : Obligations.RecordOperationsByCondition := by
  unfold Obligations.RecordOperationsByCondition
  intro e mode r poisoned reported
  have poisonWritten (readout : Option Readout) :
      poisonResult r readout = { write := some poisoned, poisons := true, readout := readout } := by
    rw [poisonResult, RecordContents.poison_eq]
    rfl
  refine ⟨fun v kind => ?_, fun w k clear kind => ?_, fun kind => ?_, fun kind => ?_⟩
  · simp only [recordOperation, kind, postOperation]
    refine ⟨fun mismatch => ?_, fun agrees already => ?_, fun agrees sound => ?_⟩
    · rw [StoredRecord.condition_mismatch mismatch, poisonWritten]
    · rw [StoredRecord.condition_poisoned agrees already]
    · rw [StoredRecord.condition_healthy agrees sound]
      rfl
  · simp only [recordOperation, kind, readOperation]
    refine ⟨fun mismatch => ?_, fun agrees already => ?_, fun agrees sound => ?_⟩
    · rw [StoredRecord.condition_mismatch mismatch, poisonWritten]
      rfl
    · rw [StoredRecord.condition_poisoned agrees already]
      rfl
    · rw [StoredRecord.condition_healthy agrees sound]
      rfl
  · simp only [recordOperation, kind]
    rfl
  · simp only [recordOperation, kind, clearFlagsOperation]
    refine ⟨fun mismatch => ?_, fun agrees already => ?_, fun agrees sound => ?_⟩
    · rw [StoredRecord.condition_mismatch mismatch, poisonWritten]
    · rw [StoredRecord.condition_poisoned agrees already]
    · rw [StoredRecord.condition_healthy agrees sound]
      rfl

/-! ### Figures for delivery (R103, R104) -/

theorem shifted_zero (x : Int) : shifted 0 x = x := rfl

/-- The shift rounds to the nearest whole number, a half upward. -/
theorem shifted_spec {k : Nat} (x : Int) (h : 1 ≤ k) :
    2 ^ k * shifted k x ≤ x + 2 ^ (k - 1) ∧ x + 2 ^ (k - 1) < 2 ^ k * (shifted k x + 1) := by
  have positive : (0 : Int) < 2 ^ k := Int.pow_pos (by decide)
  rw [shifted, if_neg (by omega)]
  refine ⟨Int.mul_ediv_self_le (Int.ne_of_gt positive), ?_⟩
  rw [Int.mul_add, Int.mul_one]
  exact Int.lt_mul_ediv_self_add positive

theorem shifted_mono {k : Nat} {x y : Int} (h : x ≤ y) : shifted k x ≤ shifted k y := by
  unfold shifted
  split
  · exact h
  · exact Int.ediv_le_ediv (Int.pow_pos (by decide)) (by omega)

theorem ReadWidth.bottom_le_top (w : ReadWidth) : w.bottom ≤ w.top := by
  cases w <;> decide

theorem limited_mono {w : ReadWidth} {x y : Int} (h : x ≤ y) : (limited w x).1 ≤ (limited w y).1 := by
  have := w.bottom_le_top
  unfold limited
  repeat' split
  all_goals dsimp only; omega

/-- Settles O52. -/
theorem figuresAreConverted : Obligations.FiguresAreConverted := by
  unfold Obligations.FiguresAreConverted
  refine ⟨fun w k x _ => ⟨shifted k x, fun zero => ?_, shifted_spec x, ?_⟩, fun w k x y h => limited_mono (shifted_mono h),
    fun w k => rfl, fun w k x => rfl⟩
  · rw [zero, shifted_zero]
  · cases w <;> rfl

/-- Settles O53. -/
theorem readoutFigures : Obligations.ReadoutFigures := by
  unfold Obligations.ReadoutFigures
  intro c group w k
  rw [RecordContents.readout, RecordContents.limits]
  simp only [Bool.or_assoc, RecordContents.minimum?, RecordContents.maximum?]
  rfl

/-! ### Row writes of a clear (R134) -/

/-- Settles O54. -/
theorem rowWritesClearTheStore : Obligations.RowWritesClearTheStore := by
  unfold Obligations.RowWritesClearTheStore
  intro s b row runOn working
  have runs : exec (.rowWriteComplete b) s = .next (s.rowWriteDone b row runOn) := by
    obtain ⟨row', runOn', bank, next⟩ | ⟨idle, -⟩ := execRowWriteComplete_cases b s
    · cases working.symm.trans bank
      exact next
    · exact absurd working (idle row runOn)
  have rowsDone : (s.store.rowWriteDone b row runOn).rowsDone =
      if runOn = true then s.store.rowsDone else s.store.rowsDone + 1 := by rw [Store.rowWriteDone_eq]
  refine ⟨s.store.rowWriteDone b row runOn, fun g => ?_, ?_, fun c => ?_, ?_, ?_, rowsDone, fun goesOn => ?_,
    fun own last => ?_⟩
  · rw [Store.record_rowWriteDone]
    simp only [rowWriteOf_eq_iff]
  · rw [Store.rowWriteDone_eq, Store.writeRowEmpty_eq]
  · have banks : (s.store.rowWriteDone b row runOn).bank c = (s.store.putBank b (.closing none)).bank c := by
      rw [Store.rowWriteDone_eq]
      rfl
    rw [banks, Store.bank_putBank, ite_not]
    exact ite_congr (propext eq_comm) (fun _ => rfl) fun _ => rfl
  · rw [Store.rowWriteDone_eq, Store.writeRowEmpty_eq]
  · rw [Store.rowWriteDone_eq, Store.writeRowEmpty_eq]
  · have notLast : ¬(runOn = false ∧ s.store.rowsDone + 1 = 8192) := by
      rintro ⟨rfl, last⟩
      exact goesOn.elim Bool.noConfusion fun other => other last
    refine ⟨?_, ?_, ?_⟩
    · rw [runs, State.rowWriteDone, if_neg notLast]
      rfl
    · rw [Store.rowWriteDone_eq]
      exact if_neg notLast
    · rw [Store.rowWriteDone_eq]
      exact if_neg notLast
  · refine ⟨?_, ?_, ?_⟩
    · rw [runs, State.rowWriteDone, if_pos ⟨own, last⟩]
      rfl
    · rw [Store.rowWriteDone_eq]
      exact if_pos ⟨own, last⟩
    · rw [Store.rowWriteDone_eq]
      exact if_pos ⟨own, last⟩

/-! ### Damage (R122) -/

/-- Settles O56. -/
theorem damageReachesOneRecord : Obligations.DamageReachesOneRecord := by
  unfold Obligations.DamageReachesOneRecord
  intro s group contents difference differs
  have own : (s.store.write group.toNat { contents, difference }).record group.toNat = { contents, difference } := by
    rw [Store.record_write, if_pos rfl]
  refine ⟨s.store.write group.toNat { contents, difference }, ?_, rfl, rfl, rfl, rfl, rfl, rfl, rfl, rfl, rfl, fun g => ?_,
    ?_, ?_⟩
  · simp only [exec, execRecordDamage, if_neg differs]
  · rw [Store.record_write]
    exact ite_congr (propext eq_comm) (fun _ => rfl) fun _ => rfl
  · rw [own]
    exact fun agrees => differs ((StoredRecord.checkCode_agrees _).mp agrees)
  · rw [own]
    exact StoredRecord.condition_mismatch differs

/-! ### Activations and precharges (R117) -/

section Banks

variable {s : State} {b : Fin 8}

theorem execActivationComplete_work {row : Fin 1024} {work : Work} (opening : s.store.bank b = .opening row (some work)) :
    exec (.activationComplete b) s = .next (s.withStore (s.store.putBank b (s.store.beginWork b row work))) := by
  simp only [exec, execActivationComplete, opening]

theorem execPrechargeComplete_closing {work : Option Work} (closing : s.store.bank b = .closing work) :
    exec (.prechargeComplete b) s = .next (s.withStore (s.store.putBank b (s.store.afterPrecharge b work))) := by
  simp only [exec, execPrechargeComplete, closing]

/-- A bank put to a busy state is still there once the controller has gone on. -/
theorem Store.bank_settle_putBank (st : Store) {k : Bank} (busy : k.busy = true) :
    (st.putBank b k).settle.bank b = k := by
  rw [Store.settle_busy, Store.bank_putBank_self]
  rwa [Store.bank_putBank_self]

/-- Queue and records stand while a bank changes and the controller goes on. -/
theorem Store.settle_putBank_keeps (st : Store) (k : Bank) :
    (st.putBank b k).settle.queue = st.queue ∧ ∀ g : Nat, (st.putBank b k).settle.record g = st.record g :=
  ⟨Store.settle_queue _, fun g => Store.settle_record _ g⟩

end Banks

/-- Settles O48. -/
theorem banksOpenAndClose : Obligations.BanksOpenAndClose := by
  unfold Obligations.BanksOpenAndClose
  intro s b goesTo keeps
  have kept (k : Bank) : keeps (goesTo k) := s.store.settle_putBank_keeps k
  refine ⟨fun row e opening head => ?_, fun row opening => ?_, fun e closing head => ?_, fun row closing next => ?_,
    fun closing => ?_, fun row opening => ?_, fun other => ?_, fun other => ?_⟩
  · refine ⟨?_, s.store.bank_settle_putBank rfl, kept _⟩
    rw [execActivationComplete_work opening, Store.beginWork, head]
    rfl
  · refine ⟨?_, s.store.bank_settle_putBank rfl, kept _⟩
    rw [execActivationComplete_work opening]
    rfl
  · refine ⟨?_, s.store.bank_settle_putBank rfl, kept _⟩
    rw [execPrechargeComplete_closing closing, Store.afterPrecharge, head]
    rfl
  · obtain rfl : row = s.store.clearRow := Fin.ext next
    refine ⟨?_, s.store.bank_settle_putBank rfl, kept _⟩
    rw [execPrechargeComplete_closing closing]
    rfl
  · refine ⟨?_, kept _, Store.settle_closed _ b (s.store.bank_putBank_self b .closed)⟩
    rw [execPrechargeComplete_closing closing]
    rfl
  · refine ⟨?_, s.store.bank_settle_putBank rfl, kept _⟩
    simp only [exec, execActivationComplete, opening]
    rfl
  · cases bank : s.store.bank b with
    | opening row work => exact absurd bank (other row work)
    | _ => simp only [exec, execActivationComplete, bank]
  · cases bank : s.store.bank b with
    | closing work => exact absurd bank (other work)
    | _ => simp only [exec, execPrechargeComplete, bank]

end Sys2Proof.Machine
end

section
/-! PROOFS. What the store controller does at once after any event, and the refreshes (R118 to R120, R128 to R130, R134). -/

namespace Sys2Proof.Machine

variable (st : Store)

/-- The bank at which a store that may work begins on its head (R118 to R120). -/
theorem Store.startHead_of_head {b : Fin 8} {e : QueueEntry} (head : headOf b st.queue = some e) :
    st.startHead b = match st.bank b with
      | .closed => .opening e.row (some .head)
      | .opened row =>
        if row = e.row then .working row (.record e st.sumMode (st.record e.group.toNat) false)
        else .closing (some .head)
      | k => k := by
  rw [Store.startHead, head]
  dsimp only
  unfold Store.startOn
  cases st.bank b with
  | opened row =>
    dsimp only
    split
    · next same => rw [Store.beginWork, head, same]
    · rfl
  | _ => rfl

/-- The bank at which a clear begins its next row write (R134). -/
theorem Store.startOn_clearRow (b : Fin 8) (next : Fin 1024) :
    st.startOn b next .clearRow = match st.bank b with
      | .closed => .opening next (some .clearRow)
      | .opened row => if row = next then .working row (.rowWrite false) else .closing (some .clearRow)
      | k => k := by
  unfold Store.startOn
  cases st.bank b with
  | opened row =>
    dsimp only
    split
    · next same => rw [same]; rfl
    · rfl
  | _ => rfl

/-- A clear that has a row write to begin begins it in that row write's bank (R134). -/
theorem Store.bank_startClearRow (more : st.rowsDone < 8192) (noneUnderWay : ¬st.banks.any Bank.atClearRow = true)
    (b : Fin 8) {next : Fin 1024} (row : next.val = st.rowsDone / 8) :
    st.startClearRow.bank b =
      if b.val ≠ st.rowsDone % 8 then st.bank b else st.startOn b next .clearRow := by
  have clearRow : st.clearRow = next := Fin.ext (by
    change st.rowsDone / 8 % 1024 = next.val
    rw [row, Nat.mod_eq_of_lt (by omega)])
  rw [Store.startClearRow, if_pos ⟨more, by rwa [Bool.not_eq_true', ← Bool.not_eq_true]⟩, clearRow, Store.bank_putBank]
  by_cases here : b.val = st.rowsDone % 8
  · have same : st.clearBank = b := Fin.ext here.symm
    rw [if_pos same, if_neg (Classical.not_not.mpr here), same]
  · rw [if_neg (fun same => here (congrArg Fin.val same).symm), if_pos here]

/-- What settling does while a refresh is prepared or begun (R129). -/
theorem Store.settle_prepare_spec (h : st.refresh = .preparing ∨ st.refreshWanted = true) :
    let inFlight := ∃ b : Fin 8, (∃ row work, st.bank b = .opening row work) ∨ (∃ row op, st.bank b = .working row op) ∨
      ∃ work, st.bank b = .closing (some work)
    let allClosed := ∀ b : Fin 8, st.bank b = .closed
    (allClosed → st.settle.refresh = .running ∧ st.settle.debt = st.debt - 1) ∧
    (¬allClosed → st.settle.refresh = .preparing ∧ st.settle.debt = st.debt) ∧
    (inFlight → ∀ b : Fin 8, st.settle.bank b = st.bank b) ∧
    (¬inFlight → ∀ b : Fin 8, st.settle.bank b = match st.bank b with
      | .opened _ => .closing none
      | k => k) := by
  obtain ⟨closed, open_, banks⟩ := st.settle_prepare_refresh h
  refine ⟨closed, open_, fun inFlight b => ?_, fun quiet b => ?_⟩
  · rw [banks b, if_pos (st.any_inFlight.mpr inFlight)]
  · rw [banks b, if_neg (mt st.any_inFlight.mp quiet)]
    cases st.bank b <;> rfl

/-- What settling does during a clear that does not catch up refreshes (R134). -/
theorem Store.settle_clear_spec (noRefresh : st.refresh = .none) (notWanted : st.refreshWanted = false)
    (clearing : st.state = .clearing) (steady : st.catchingUp = false) :
    let atRow := ∃ b : Fin 8, (∃ row, st.bank b = .opening row (some .clearRow)) ∨
      st.bank b = .closing (some .clearRow) ∨ ∃ row, st.bank b = .working row (.rowWrite false)
    (8192 ≤ st.rowsDone ∨ atRow → ∀ b : Fin 8, st.settle.bank b = st.bank b) ∧
    (st.rowsDone < 8192 → ¬atRow → ∀ (b : Fin 8) (next : Fin 1024), next.val = st.rowsDone / 8 →
      st.settle.bank b =
        if b.val ≠ st.rowsDone % 8 then st.bank b
        else match st.bank b with
          | .closed => .opening next (some .clearRow)
          | .opened row => if row = next then .working row (.rowWrite false) else .closing (some .clearRow)
          | k => k) := by
  rw [st.settle_clear noRefresh notWanted clearing steady]
  refine ⟨fun waits b => ?_, fun more noneUnderWay b next row => ?_⟩
  · have notNow : ¬(st.rowsDone < 8192 ∧ (!st.banks.any Bank.atClearRow) = true) := by
      rintro ⟨more, quiet⟩
      rw [Bool.not_eq_true', ← Bool.not_eq_true, st.any_atClearRow] at quiet
      exact waits.elim (by omega) quiet
    rw [Store.startClearRow, if_neg notNow]
  · rw [st.bank_startClearRow more (mt st.any_atClearRow.mp noneUnderWay) b row, st.startOn_clearRow b next]

/-- What settling does with no refresh running, prepared or begun (R118 to R120, R130, R134). -/
theorem Store.settle_work_spec (noRefresh : st.refresh = .none) (notWanted : st.refreshWanted = false) :
    st.settle.refresh = .none ∧ st.settle.debt = st.debt ∧
    (st.state = .ready ∨ st.state = .uninitialised → ∀ b : Fin 8,
      (headOf b st.queue = none → st.settle.bank b = st.bank b) ∧
      ∀ e : QueueEntry, headOf b st.queue = some e → st.settle.bank b = match st.bank b with
        | .closed => .opening e.row (some .head)
        | .opened row =>
          if row = e.row then .working row (.record e st.sumMode (st.record e.group.toNat) false)
          else .closing (some .head)
        | k => k) ∧
    (st.state = .catchUp ∨ (st.state = .clearing ∧ st.catchingUp = true) →
      ∀ b : Fin 8, st.settle.bank b = st.bank b) := by
  refine ⟨?_, ?_, fun works b => ⟨fun noHead => ?_, fun e head => ?_⟩, fun catchesUp b => ?_⟩
  · rw [st.settle_work noRefresh notWanted, Store.startWork_eq, noRefresh]
  · rw [st.settle_work noRefresh notWanted, Store.startWork_eq]
  · rw [st.settle_head b noRefresh notWanted works, Store.startHead, noHead]
  · rw [st.settle_head b noRefresh notWanted works, st.startHead_of_head head]
  · rw [st.settle_catchUp noRefresh notWanted catchesUp]

/-! ### The refresh events -/

/-- The test for a debt of 8 after REFRESH_DUE (R130). -/
theorem Store.enterCatchUp_due : ({ st with debt := st.debt + 1 } : Store).enterCatchUp =
    { st with
      debt := st.debt + 1
      state := if st.debt = 7 ∧ st.state = .ready then .catchUp else st.state
      catchingUp := st.catchingUp || decide (st.debt = 7 ∧ st.state = .clearing) } := by
  unfold Store.enterCatchUp
  by_cases full : st.debt = 7
  · cases st.state <;> simp [full]
  · simp [full]

/-- The end of a refresh: a debt repaid to 0, and the test for a debt of 8 that a soft reset left to it (R130, R136). -/
theorem Store.refreshDone_spec : st.refreshDone =
    { st with
      refresh := .none
      state :=
        if st.debt = 0 ∧ st.state = .catchUp then .ready
        else if st.debt = 8 ∧ st.state = .ready then .catchUp
        else st.state
      catchingUp :=
        if st.debt = 0 then false
        else if st.debt = 8 ∧ st.state = .clearing then true
        else st.catchingUp } := by
  unfold Store.refreshDone Store.enterCatchUp
  by_cases repaid : st.debt = 0
  · cases st.state <;> simp [repaid]
  · by_cases full : st.debt = 8
    · cases st.state <;> simp [full]
    · simp [repaid, full]

/-- Where refreshes are to run back to back, they still are once the last has completed with debt left. -/
theorem Store.refreshDone_wanted (indebted : 0 < st.debt)
    (wanted : st.queue = [] ∨ st.debt = 8 ∨ st.state = .catchUp ∨ (st.state = .clearing ∧ st.catchingUp = true)) :
    st.refreshDone.refreshWanted = true := by
  have owing : st.debt ≠ 0 := by omega
  rw [Store.refreshWanted_iff, Store.refreshDone_spec]
  refine ⟨rfl, indebted, ?_⟩
  obtain empty | full | catchUp | ⟨clearing, catchingUp⟩ := wanted
  · exact .inl empty
  · exact .inr (.inl full)
  · exact .inr (.inr (.inl (by simp [owing, catchUp])))
  · exact .inr (.inr (.inr (by simp [owing, clearing, catchingUp])))

/-- Settles O55: the three cases of settling, then the two events. -/
theorem refreshesFallDueAndComplete : Obligations.RefreshesFallDueAndComplete := by
  unfold Obligations.RefreshesFallDueAndComplete
  refine ⟨fun st => ?_, fun s => ⟨fun held => ?_, fun up short => ?_, fun other => ?_, fun running => ?_,
    fun running closed indebted wanted => ?_⟩⟩
  · intro wanted inFlight allClosed
    refine ⟨by simp, st.settle_whileRunning, fun prepared => ?_, fun noRefresh notWanted => ?_⟩
    · exact st.settle_prepare_spec (prepared.imp_right st.refreshWanted_iff.mpr)
    · have idle : st.refreshWanted = false := eq_false_of_ne_true (mt st.refreshWanted_iff.mp notWanted)
      obtain ⟨refresh, debt, works, catchesUp⟩ := st.settle_work_spec noRefresh idle
      exact ⟨refresh, debt, works, catchesUp, st.settle_clear_spec noRefresh idle⟩
  · simp only [exec, execRefreshDue, if_pos held]
  · have due : ¬(s.porHeld = true ∨ 8 ≤ s.store.debt) := by
      rw [up]
      exact fun h => h.elim Bool.noConfusion (by omega)
    simp only [exec, execRefreshDue, if_neg due, Store.enterCatchUp_due]
    rfl
  · simp only [exec, execRefreshComplete, if_neg other]
  · simp only [exec, execRefreshComplete, if_pos running, Store.refreshDone_spec]
    rfl
  · have again := s.store.refreshDone_wanted indebted wanted
    have stillClosed (b : Fin 8) : s.store.refreshDone.bank b = .closed := by
      rw [Store.refreshDone_eq]
      exact closed b
    have debt : s.store.refreshDone.debt = s.store.debt := by rw [Store.refreshDone_eq]
    obtain ⟨runs, -, banks⟩ := s.store.refreshDone.settle_prepare_refresh (.inr again)
    obtain ⟨refresh, repaid⟩ := runs stillClosed
    refine ⟨s.store.refreshDone.settle, ?_, refresh, by rw [repaid, debt], fun b => ?_⟩
    · simp only [exec, execRefreshComplete, if_pos running]
      rfl
    · rw [banks b, stillClosed b, closeIdle_closed, ite_self]

end Sys2Proof.Machine
end

section
/-! PROOFS. The tally requests admitted whole (R101, R107, R109, R116), and the completion of a record operation (R106,
R121, R123). -/

namespace Sys2Proof.Machine

/-! ### Tally requests -/

section Admit

variable {s : State} {tag : Byte} {entries : List QueueEntry}

theorem State.admitTally_uninitialised (state : s.store.state = .uninitialised) :
    s.admitTally tag entries = s.answer tag .storeNotReady [] := if_pos state

theorem State.admitTally_clearing (state : s.store.state = .clearing) :
    s.admitTally tag entries = s.answer tag .storeBusy [] := by
  rw [State.admitTally, if_neg (by rw [state]; exact StoreState.noConfusion), if_pos state]

theorem State.admitTally_ready (state : s.store.state = .ready ∨ s.store.state = .catchUp)
    (few : entries.length ≤ 16) : s.admitTally tag entries =
      if 32 < s.store.queue.length + entries.length then s.answer tag .queueFull []
      else (s.withStore { s.store with queue := s.store.queue ++ entries }).holdFor (.tally entries.length []) := by
  have up : ¬s.store.state = .uninitialised ∧ ¬s.store.state = .clearing := by
    obtain state | state := state <;> rw [state] <;> exact ⟨StoreState.noConfusion, StoreState.noConfusion⟩
  rw [State.admitTally, if_neg up.1, if_neg up.2]
  exact ite_congr (propext (by omega)) (fun _ => rfl) fun _ => rfl

end Admit

/-- The entries of a tally request, one for each group (R101, R107). -/
theorem linkEntries_groupsFrom (kind : EntryKind) (first n : Nat) : linkEntries kind (groupsFrom first n) =
    (List.range n).map (fun k => { group := BitVec.ofNat 16 (first + k), kind, origin := .link }) := by
  rw [linkEntries, groupsFrom_eq, List.map_map]
  rfl

theorem State.holdFor_held {s : State} {r : Request} (held : s.link.state = .held r .owner) (w : HeldFor) :
    s.holdFor w = { s with link := { s.link with state := .held r w } } := by
  rw [State.holdFor, held]

section Arguments

variable {tag count width shift clearAfter : Byte} {first : Group} {s : State}

theorem ReadWidth.ofByte_eq_some (good : width = 32 ∨ width = 48) :
    ReadWidth.ofByte width = some (if width = 32 then .w32 else .w48) := by
  obtain rfl | rfl := good <;> rfl

theorem boolOfByte_of_le_one (good : clearAfter.toNat ≤ 1) :
    boolOfByte clearAfter = some (decide (clearAfter = 1)) := by
  rw [boolOfByte_eq_some]
  revert clearAfter
  decide

theorem ownReadTally_admits (counted : 1 ≤ count.toNat ∧ count.toNat ≤ 6)
    (inStore : first.toNat + count.toNat ≤ 65536) (knownWidth : width = 32 ∨ width = 48) (shifts : shift.toNat ≤ 16)
    (flag : clearAfter.toNat ≤ 1) : ownReadTally tag first count width shift clearAfter s =
      s.admitTally tag (linkEntries (.read (if width = 32 then .w32 else .w48) shift.toNat (decide (clearAfter = 1)))
        (groupsFrom first.toNat count.toNat)) := by
  rw [ownReadTally, if_neg (Classical.not_not.mpr counted), if_neg (by omega), ReadWidth.ofByte_eq_some knownWidth]
  dsimp only
  rw [if_neg (by omega), boolOfByte_of_le_one flag]

theorem ownReadTally_refuses (bad : ¬(1 ≤ count.toNat ∧ count.toNat ≤ 6 ∧ first.toNat + count.toNat ≤ 65536 ∧
      (width = 32 ∨ width = 48) ∧ shift.toNat ≤ 16 ∧ clearAfter.toNat ≤ 1)) :
    ownReadTally tag first count width shift clearAfter s = s.answer tag .badArgument [] := by
  unfold ownReadTally
  split
  · rfl
  next counted =>
  split
  · rfl
  next inStore =>
  split
  · rfl
  next w known =>
  split
  · rfl
  next shifts =>
  split
  · rfl
  next clear flag =>
  have knownWidth : width = 32 ∨ width = 48 := by
    refine Decidable.byContradiction fun unknown => ?_
    rw [ReadWidth.ofByte_eq_none.mpr (not_or.mp unknown)] at known
    cases known
  have isFlag : clearAfter.toNat ≤ 1 := by
    refine Decidable.byContradiction fun other => ?_
    rw [boolOfByte_eq_none.mpr (by omega)] at flag
    cases flag
  exact absurd ⟨by omega, by omega, by omega, knownWidth, by omega, isFlag⟩ bad

end Arguments

/-- Settles O46. -/
theorem tallyRequestsAdmittedWhole : Obligations.TallyRequestsAdmittedWhole := by
  unfold Obligations.TallyRequestsAdmittedWhole
  refine ⟨fun s tag r entries _ held few => ⟨State.admitTally_uninitialised, State.admitTally_clearing, fun state =>
    ⟨fun full => ?_, fun room => ?_⟩⟩, fun s tag first count width shift clearAfter held => ?_,
    fun s tag first count held => ?_, fun s tag group held => ?_⟩
  · rw [State.admitTally_ready state few, if_pos full]
  · refine ⟨?_, by simp, by simp, fun g => by simp; rfl⟩
    rw [State.admitTally_ready state few, if_neg (by omega)]
    exact State.holdFor_held (s := s.withStore _) held _
  · rw [show exec (.readTally tag first count width shift clearAfter) s = _ from requestStep_held _ _ held]
    refine ⟨fun bad => congrArg Host.Outcome.next (ownReadTally_refuses bad), fun good => ?_⟩
    obtain ⟨atLeast, atMost, inStore, knownWidth, shifts, flag⟩ := good
    rw [ownReadTally_admits ⟨atLeast, atMost⟩ inStore knownWidth shifts flag, linkEntries_groupsFrom]
  · rw [show exec (.clearTally tag first count) s = _ from requestStep_held _ _ held]
    refine ⟨fun bad => ?_, fun ⟨atLeast, atMost, inStore⟩ => ?_⟩
    · unfold ownClearTally
      split
      · rfl
      split
      · rfl
      · exact absurd ⟨by omega, by omega, by omega⟩ bad
    · rw [ownClearTally, if_neg (Classical.not_not.mpr ⟨atLeast, atMost⟩), if_neg (by omega), linkEntries_groupsFrom]
  · rw [show exec (.clearFlags tag group) s = _ from requestStep_held _ _ held]
    simp only [ownClearFlags, linkEntries, List.map_cons, List.map_nil, BitVec.ofNat_toNat, BitVec.setWidth_eq]

/-! ### The completion of a record operation (R121) -/

section Readouts

variable (x : Readout)

theorem insertReadout_perm (readouts : List Readout) : (insertReadout x readouts).Perm (x :: readouts) := by
  induction readouts with
  | nil => exact .refl _
  | cons q qs ih =>
    rw [insertReadout]
    split
    · exact .refl _
    · exact (ih.cons q).trans (.swap x q qs)

/-- A readout inserted into readouts in ascending group order leaves them in that order (R106). -/
theorem insertReadout_ascending {readouts : List Readout}
    (ascending : readouts.Pairwise (fun y z => y.group.toNat ≤ z.group.toNat)) :
    (insertReadout x readouts).Pairwise (fun y z => y.group.toNat ≤ z.group.toNat) := by
  induction readouts with
  | nil => exact List.pairwise_singleton _ _
  | cons q qs ih =>
    obtain ⟨least, rest⟩ := List.pairwise_cons.mp ascending
    rw [insertReadout]
    split
    · next before =>
      refine List.pairwise_cons.mpr ⟨fun z hz => ?_, ascending⟩
      obtain rfl | hz := List.mem_cons.mp hz
      · exact before
      · exact Nat.le_trans before (least z hz)
    · next after =>
      refine List.pairwise_cons.mpr ⟨fun z hz => ?_, ih rest⟩
      obtain rfl | hz := List.mem_cons.mp ((insertReadout_perm x qs).mem_iff.mp hz)
      · exact Nat.le_of_lt (Nat.lt_of_not_le after)
      · exact least z hz

/-- The flags byte of a readout, bit 0 first (section 10.6.4). -/
theorem toNat_flagsByte_eight : ∀ b₀ b₁ b₂ b₃ b₄ b₅ b₆ b₇ : Bool,
    (flagsByte [b₀, b₁, b₂, b₃, b₄, b₅, b₆, b₇]).toNat = (if b₀ then 1 else 0) + (if b₁ then 2 else 0)
      + (if b₂ then 4 else 0) + (if b₃ then 8 else 0) + (if b₄ then 16 else 0) + (if b₅ then 32 else 0)
      + (if b₆ then 64 else 0) + (if b₇ then 128 else 0) := by
  decide

/-- An absent figure stands as 0. -/
theorem intBytes64_getD (figure : Option Int) :
    intBytes64 (figure.getD 0) = bytes64 (match figure with | some y => BitVec.ofInt 64 y | none => 0) := by
  cases figure <;> rfl

end Readouts

/-- The head of a bank is its oldest entry, and leaves the others in their order (R118, R121). -/
theorem headOf_dropHead_of_oldest {n : Nat} {ahead behind : List QueueEntry} {e : QueueEntry}
    (others : ∀ x ∈ ahead, x.bank ≠ n) (own : e.bank = n) :
    headOf n (ahead ++ e :: behind) = some e ∧ dropHead n (ahead ++ e :: behind) = ahead ++ behind := by
  induction ahead with
  | nil => exact ⟨List.find?_cons_of_pos (decide_eq_true own), if_pos own⟩
  | cons x ahead ih =>
    obtain ⟨head, rest⟩ := ih fun y hy => others y (List.mem_cons_of_mem _ hy)
    have other : x.bank ≠ n := others x List.mem_cons_self
    refine ⟨?_, ?_⟩
    · rw [List.cons_append, headOf, List.find?_cons_of_neg (by simpa using other)]
      exact head
    · rw [List.cons_append, dropHead, if_neg other, rest, List.cons_append]

theorem tallyPayload_eq (r : Request) (readouts : List Readout) : tallyPayload r readouts =
    if r.code = .readTally then r.payload.take 5 ++ readouts.flatMap Readout.bytes else r.payload := by
  unfold tallyPayload
  split
  · next code => rw [if_pos code, List.flatMap_def]
  · next other => rw [if_neg other]

section Link

variable {s : State} {r : Request} {left : Nat} {readouts : List Readout}

/-- The readouts of a request with one more entry completed (R106). -/
def readoutsWith (readouts : List Readout) : Option Readout → List Readout
  | some x => insertReadout x readouts
  | none => readouts

theorem State.linkEntryDone_more (held : s.link.state = .held r (.tally left readouts)) (more : 2 ≤ left)
    (readout : Option Readout) : s.linkEntryDone readout =
      { s with link := { s.link with state := .held r (.tally (left - 1) (readoutsWith readouts readout)) } } := by
  rw [State.linkEntryDone, held]
  dsimp only
  rw [if_neg (by omega), State.holdFor, held]
  rfl

theorem State.linkEntryDone_last (held : s.link.state = .held r (.tally left readouts)) (last : left = 1)
    (readout : Option Readout) : s.linkEntryDone readout =
      s.answer r.tag .ok (tallyPayload r (readoutsWith readouts readout)) := by
  rw [State.linkEntryDone, held]
  dsimp only
  rw [if_pos (by omega)]
  rfl

end Link

/-- The state once a record operation is done, a poisoning notified, before its result is handed on (R121, R123). -/
def State.operationNoticed (s : State) (b : Fin 8) (row : Fin 1024) (e : QueueEntry) (result : OpResult)
    (runOn : Bool) : State :=
  let settled : State := { s with store := (s.store.operationDone b row e result.write runOn).settle }
  if result.poisons = true ∧ runOn = false then settled.notify (.storePoison e.group) else settled

theorem State.link_operationNoticed (s : State) (b : Fin 8) (row : Fin 1024) (e : QueueEntry) (result : OpResult)
    (runOn : Bool) : (s.operationNoticed b row e result runOn).link = s.link := by
  unfold State.operationNoticed
  dsimp only
  split
  · exact State.notify_link _ _
  · rfl

theorem State.operationDone_eq (s : State) (b : Fin 8) (row : Fin 1024) (e : QueueEntry) (result : OpResult)
    (runOn : Bool) : s.operationDone b row e result runOn = match e.origin with
      | .engine => s.operationNoticed b row e result runOn
      | .link => (s.operationNoticed b row e result runOn).linkEntryDone result.readout := by
  simp only [State.operationDone, State.operationNoticed, Bool.and_eq_true, Bool.not_eq_true']
  rfl

/-- Settles O49. -/
theorem recordOperationCompletes : Obligations.RecordOperationCompletes := by
  unfold Obligations.RecordOperationCompletes
  refine ⟨fun s b row e mode asRead runOn working => ?_, ?_, fun x readouts => ?_, fun x => ?_⟩
  · intro result
    have runs : exec (.recordOperationComplete b) s = .next (s.operationDone b row e result runOn).testHaltDone := by
      obtain ⟨row', e', mode', asRead', runOn', bank, next⟩ | ⟨idle, -⟩ := execRecordOperationComplete_cases b s
      · cases working.symm.trans bank
        exact next
      · exact absurd working (idle row e mode asRead runOn)
    have store := s.store.operationDone_eq b row e result.write runOn
    have noticedHolds {l : LinkState} (held : s.link.state = l) :
        (s.operationNoticed b row e result runOn).link.state = l := by rw [State.link_operationNoticed, held]
    refine ⟨s.store.operationDone b row e result.write runOn, fun g => ?_, by rw [store], fun c => ?_, by rw [store],
      by rw [store], by rw [store], by rw [store], by rw [store], by rw [store], by rw [store], fun engine => ?_,
      fun link r left readouts held => ⟨fun more => ?_, fun last => ?_⟩⟩
    · rw [Store.record_operationDone]
      exact ite_congr (propext eq_comm) (fun _ => rfl) fun _ => rfl
    · rw [Store.bank_operationDone, ite_not]
      refine ite_congr (propext eq_comm) (fun _ => ?_) fun _ => rfl
      unfold Store.afterOperation
      cases runOn <;> cases s.store.rowPolicy <;> rfl
    · rw [runs, State.operationDone_eq, engine]
      rfl
    · refine runs.trans (congrArg (fun u : State => Host.Outcome.next u.testHaltDone) ?_)
      rw [State.operationDone_eq, link]
      dsimp only
      rw [State.linkEntryDone_more (noticedHolds held) more, State.link_operationNoticed]
      rfl
    · refine runs.trans (congrArg (fun u : State => Host.Outcome.next u.testHaltDone) ?_)
      rw [State.operationDone_eq, link]
      dsimp only
      rw [State.linkEntryDone_last (noticedHolds held) last, tallyPayload_eq]
      rfl
  · rintro b q ahead behind e rfl others own
    exact headOf_dropHead_of_oldest others own
  · exact ⟨insertReadout_perm x readouts, insertReadout_ascending x⟩
  · refine ⟨_, toNat_flagsByte_eight _ _ _ _ _ _ _ _, ?_⟩
    rw [Readout.bytes, intBytes64_getD, intBytes64_getD]
    rfl

end Sys2Proof.Machine
end

section
/-! PROOFS. The lanes and the scan engine's arbiter and release: FLUSH-LANE (R16, R17), the pin receiver (R4 to R8), the
idle timer (R9), the grant (R56) and the admission of units (R76 to R78). -/

namespace Sys2Proof.Machine

/-! ### Flushes (R16, R17) -/

section Flush

variable {s : State} {n : Fin 4}

theorem State.scanHolds_iff (s : State) (n : Fin 4) :
    s.scanHolds n = true ↔ s.scan = .scanning n ∨ ∃ units, s.scan = .releasing n units := by
  unfold State.scanHolds
  cases s.scan <;> simp

/-- A flush while the scan engine does not hold the lane (R17). -/
theorem State.flush_of_not_held (notHeld : s.scanHolds n = false) : s.flush n = s.putLane n (s.lane n).flushed := by
  rw [State.flush, if_neg (ne_true_of_eq_false notHeld)]

/-- A flush while it does: the grant ends, and a halt may be done (R17, R141). -/
theorem State.flush_of_held (held : s.scanHolds n = true) :
    s.flush n = ({ s.putLane n (s.lane n).flushed with scan := .free } : State).testHaltDone := by
  rw [State.flush, if_pos held]

/-- When a waiting flush can be taken (R16, log entry 17). -/
theorem State.flushReady_iff (s : State) (n : Fin 4) : s.flushReady n = true ↔
    s.scanHolds n = false ∨ (s.scan = .scanning n ∧ 1 ≤ s.taken) ∨ s.scan = .releasing n [] := by
  unfold State.flushReady State.scanHolds
  cases s.scan with
  | free => simp
  | scanning m => by_cases same : m = n <;> simp [same]
  | releasing m units => by_cases same : m = n <;> simp [same]

/-- FLUSH_TAKEN with a flush waiting. -/
theorem execFlushTaken_waiting {r : Request} (waiting : s.link.state = .held r (.flush n)) :
    exec .flushTaken s = .next (if s.flushReady n then s.flushAndAnswer n r.tag else s) := by
  simp only [exec, execFlushTaken, waiting]
  split <;> rfl

end Flush

/-- Settles O24. -/
theorem flushIsTakenOrWaits : Obligations.FlushIsTakenOrWaits := by
  unfold Obligations.FlushIsTakenOrWaits
  refine ⟨fun s tag lane held => ?_, State.scanHolds_iff, fun s r n waiting => ?_, fun s none => ?_⟩
  · rw [show exec (.flushLane tag lane) s = _ from requestStep_held _ _ held]
    refine ⟨fun outside => ?_, fun n number => ?_⟩
    · rw [ownFlushLane, laneOfByte_eq_none.mpr outside]
    · rw [ownFlushLane, laneOfByte_eq_some.mpr number]
      dsimp only
      cases holds : s.scanHolds n with
      | true => rw [if_pos rfl, if_pos rfl, State.holdFor_held held]
      | false =>
        rw [if_neg Bool.false_ne_true, if_neg Bool.false_ne_true, State.flushAndAnswer, State.flush_of_not_held holds]
        rfl
  · intro emptied
    rw [execFlushTaken_waiting waiting]
    refine ⟨fun notHeld => ?_, fun ready => ?_, fun early => ?_⟩
    · rw [if_pos ((s.flushReady_iff n).mpr (.inl notHeld)), State.flushAndAnswer, State.flush_of_not_held notHeld]
      rfl
    · have held : s.scanHolds n = true :=
        (s.scanHolds_iff n).mpr (ready.imp And.left fun releasing => ⟨[], releasing⟩)
      rw [if_pos ((s.flushReady_iff n).mpr (.inr ready)), State.flushAndAnswer, State.flush_of_held held]
      rfl
    · have notReady : ¬s.flushReady n = true := by
        unfold State.flushReady
        obtain ⟨scanning, first⟩ | ⟨u, us, releasing⟩ := early
        · simp [scanning, first]
        · simp [releasing]
      rw [if_neg notReady]
  · simp only [exec, execFlushTaken]
    split
    · next r n waiting => exact absurd waiting (none r n)
    all_goals rfl

/-! ### Entries entered and lost (R3, R6, R7) -/

section Entries

variable {s : State} {n : Fin 4} {l : Lane}

/-- An entry lost on lane `n`, which stands as `l` (R6, R7). -/
theorem State.putLane_loseEntry (s : State) (n : Fin 4) (l : Lane) : (s.putLane n l).loseEntry n =
    if l.gapPending = true then s.putLane n l
    else (s.putLane n { l with gapPending := true }).notify (.laneGap n) := by
  have own : (s.putLane n l).lane n = l := by rw [State.lane_putLane, if_pos rfl]
  unfold State.loseEntry
  rw [own, State.putLane_putLane]
  dsimp only
  split
  · next gap => rw [← gap]
  · rfl

theorem Lane.full_iff (l : Lane) : l.full = true ↔ ¬l.fifo.length < 512 := by
  rw [Lane.full, decide_eq_true_iff, Nat.not_lt]

end Entries

/-! ### The pin receiver (R4 to R8) -/

theorem Lane.receives_iff (l : Lane) : l.receives = true ↔ l.settings.enabled = true ∧ l.settings.source = .pin := by
  rw [Lane.receives, Bool.and_eq_true, decide_eq_true_iff]

/-- A character is wrong when its stop bit is at space or its parity bit is not the set one (R4). -/
theorem Parity.not_given (parity : Parity) (value : Byte) (parityBit : Bool) :
    (!parity.given value parityBit) = match parity with
      | .none => false
      | .even => decide ((onesOf value + (if parityBit then 1 else 0)) % 2 ≠ 0)
      | .odd => decide ((onesOf value + (if parityBit then 1 else 0)) % 2 ≠ 1) := by
  have differs (a b : Nat) : (!(a == b)) = decide (a ≠ b) := by
    rw [Bool.eq_iff_iff, Bool.not_eq_true', beq_eq_false_iff_ne, decide_eq_true_iff]
  cases parity with
  | none => rfl
  | even => exact differs _ _
  | odd => exact differs _ _

theorem rxAfter_eq (stopMark staysSpace : Bool) :
    rxAfter stopMark staysSpace = if stopMark = false ∧ staysSpace = true then .waitingForRest else .ready := by
  cases stopMark <;> cases staysSpace <;> rfl

/-- A character entered or lost (R4, R6 to R8). -/
theorem State.takeCharacter_eq (s : State) (n : Fin 4) (value : Byte) (lineError : Bool) (rx : RxState) :
    s.takeCharacter n value lineError rx =
      let timer := if (s.lane n).settings.idle = 0 then (s.lane n).timer else some s.timeStamp
      if (s.lane n).fifo.length < 512 then
        s.putLane n { s.lane n with
          rx := rx, timer := timer, fifo := (s.lane n).fifo ++ [.byte value lineError (s.lane n).gapPending]
          gapPending := false, markerLast := false }
      else if (s.lane n).gapPending = true then s.putLane n { s.lane n with rx := rx, timer := timer }
      else (s.putLane n { s.lane n with rx := rx, timer := timer, gapPending := true }).notify (.laneGap n) := by
  unfold State.takeCharacter
  simp only [Lane.rearm_eq, Lane.full_iff, ite_not, State.putLane_loseEntry]
  rfl

/-- Settles O25. -/
theorem pinReceiver : Obligations.PinReceiver := by
  unfold Obligations.PinReceiver
  refine fun s n => ⟨fun enabled pin assembling value parityBit stopMark staysSpace => ?_, fun enabled pin ready => ?_,
    fun enabled pin waiting => ?_, fun noReceiver => ?_⟩
  · have receives : (s.lane n).receives = true := (Lane.receives_iff _).mpr ⟨enabled, pin⟩
    refine (if_pos ⟨receives, assembling⟩).trans (congrArg Host.Outcome.next ?_)
    have lineError := congrArg (!stopMark || ·) (Parity.not_given (s.lane n).settings.parity value parityBit)
    exact (congr (congrArg (s.takeCharacter n value) lineError) (rxAfter_eq stopMark staysSpace)).trans
      (s.takeCharacter_eq n value _ _)
  · have receives : (s.lane n).receives = true := (Lane.receives_iff _).mpr ⟨enabled, pin⟩
    simp only [exec, execStartBit]
    rw [if_pos ⟨receives, ready⟩]
  · have receives : (s.lane n).receives = true := (Lane.receives_iff _).mpr ⟨enabled, pin⟩
    simp only [exec, execReceiverRestEnd]
    rw [if_pos ⟨receives, waiting⟩]
  · have off : ¬(s.lane n).receives = true := by
      rw [Lane.receives_iff]
      rintro ⟨enabled, pin⟩
      obtain disabled | link := noReceiver
      · cases disabled.symm.trans enabled
      · cases link.symm.trans pin
    exact ⟨if_neg fun h => off h.1, if_neg fun h => off h.1, fun _ _ _ _ => if_neg fun h => off h.1⟩

/-! ### The idle timer (R8, R9) -/

/-- Settles O26. -/
theorem idleTimerExpires : Obligations.IdleTimerExpires := by
  unfold Obligations.IdleTimerExpires
  refine fun s n => ⟨fun armed timer passed => ?_, fun armed timer early => ?_, fun disarmed => ?_⟩
  · have due : s.idlePassed n = true := by rw [State.idlePassed, timer]; exact decide_eq_true passed
    simp only [exec, execIdleTimerExpiry]
    rw [if_pos due]
    split
    · rfl
    · simp only [Lane.full_iff, ite_not, State.putLane_loseEntry, apply_ite Host.Outcome.next]
      rfl
  · have notDue : ¬s.idlePassed n = true := by
      rw [State.idlePassed, timer, decide_eq_true_iff]
      omega
    exact if_neg notDue
  · have notDue : ¬s.idlePassed n = true := by
      rw [State.idlePassed, disarmed]
      exact Bool.false_ne_true
    exact if_neg notDue

/-! ### The arbiter (R56) -/

theorem State.flushWaiting_eq_some {s : State} {n : Fin 4} :
    s.flushWaiting = some n ↔ ∃ r, s.link.state = .held r (.flush n) := by
  unfold State.flushWaiting
  split
  · next r m waiting => simp [waiting]
  · next none => exact iff_of_false (fun h => by cases h) fun ⟨r, waiting⟩ => none r n waiting

theorem State.flushWaiting_eq_none {s : State} :
    s.flushWaiting = none ↔ ∀ r n, s.link.state ≠ .held r (.flush n) := by
  simp only [Option.eq_none_iff_forall_ne_some, ne_eq, State.flushWaiting_eq_some, not_exists]
  exact forall_comm

theorem Lane.eligible_eq (l : Lane) : l.eligible = decide (l.settings.enabled = true ∧ l.fifo ≠ []) := by
  rw [Bool.eq_iff_iff, Lane.eligible, Bool.and_eq_true, Bool.not_eq_true', List.isEmpty_eq_false_iff, decide_eq_true_iff]

/-- Settles O35. -/
theorem arbiterGrantsRoundRobin : Obligations.ArbiterGrantsRoundRobin := by
  unfold Obligations.ArbiterGrantsRoundRobin
  refine fun s => ⟨fun running free noFlush => ?_, fun barred => ?_⟩
  · have choice : s.arbiterChoice = [s.lastGranted + 1, s.lastGranted + 2, s.lastGranted + 3, s.lastGranted].find?
        (fun n => decide ((s.lane n).settings.enabled = true ∧ (s.lane n).fifo ≠ [])) := by
      rw [State.arbiterChoice, if_pos ⟨running, free, State.flushWaiting_eq_none.mpr noFlush⟩]
      simp only [arbiterOrder, Lane.eligible_eq]
    rw [← choice]
    simp only [exec, execArbiterGrant]
    cases s.arbiterChoice <;> rfl
  · have noGrant : ¬(s.engine = .running ∧ s.scan = .free ∧ s.flushWaiting = none) := by
      rintro ⟨running, free, noFlush⟩
      obtain other | other | ⟨r, n, waiting⟩ := barred
      · exact other running
      · exact other free
      · exact State.flushWaiting_eq_none.mp noFlush r n waiting
    simp only [exec, execArbiterGrant, State.arbiterChoice]
    rw [if_neg noGrant]

/-! ### Admission of units (R76 to R78) -/

/-- The queue entries of a unit (R76). -/
theorem unitEntries_eq (n : Fin 4) (u : FinishedUnit) : unitEntries n u =
    u.posts.map (fun p => match p with
      | .post g v => ({ group := g, kind := .post v, origin := .engine } : QueueEntry)
      | .unrouted v => { group := BitVec.ofNat 16 (65488 + 12 * n.val + 11), kind := .post v, origin := .engine })
    ++ [{ group := BitVec.ofNat 16 (65488 + 12 * n.val + u.outcome.code), kind := .post (BitVec.ofNat 48 u.length)
          origin := .engine }] := by
  have each : pendingEntry n = fun p => match p with
      | .post g v => ({ group := g, kind := .post v, origin := .engine } : QueueEntry)
      | .unrouted v => { group := BitVec.ofNat 16 (65488 + 12 * n.val + 11), kind := .post v, origin := .engine } := by
    funext p
    cases p <;> rfl
  rw [unitEntries, each]
  rfl

theorem State.notifyFault_flushWaiting (s : State) (n : Fin 4) (u : FinishedUnit) :
    (s.notifyFault n u).flushWaiting = s.flushWaiting := by
  unfold State.notifyFault
  split
  · rw [State.flushWaiting, State.notify_link]
    rfl
  · rfl

/-- Settles O43. -/
theorem unitsAreAdmittedWhole : Obligations.UnitsAreAdmittedWhole := by
  unfold Obligations.UnitsAreAdmittedWhole
  intro s n u us releasing base entries
  have formed : unitEntries n u = entries := unitEntries_eq n u
  refine ⟨fun full => ?_, fun room => ?_⟩
  · simp only [exec, execUnitAdmitted, releasing, formed]
    rw [if_neg (by omega)]
  · refine ⟨by simp, by simp, fun g => (Store.settle_record _ g).trans rfl, ?_⟩
    intro joined noticed
    have runs : exec .unitAdmitted s = .next ((joined.notifyFault n u).afterAdmission n us) := by
      simp only [exec, execUnitAdmitted, releasing, formed]
      rw [if_pos room]
      rfl
    have waiting : (joined.notifyFault n u).flushWaiting = s.flushWaiting := State.notifyFault_flushWaiting ..
    rw [runs, State.afterAdmission, waiting]
    simp only [List.isEmpty_iff]
    rfl

end Sys2Proof.Machine
end

section
/-! PROOFS. Entries in a record (R62 to R66, R71, R73), the run of the cursor (R67 to R70), and the records one entry can
end (R72, R75). -/

namespace Sys2Proof.Machine

variable {env : ScanEnv} {c : Context}

/-! ### Faults (R72, R73) -/

/-- A record ended by a fault: its unit without posts, and the entry handled further in RESYNC (R73). -/
def Context.faulted (env : ScanEnv) (c : Context) (o : RecordOutcome) (entry : FifoEntry) : Context × List FinishedUnit :=
  let r := processEntry env { c with state := .resync, posts := [] } entry
  (r.1, { outcome := o, length := c.length, posts := [] } :: r.2)

theorem Context.unit_of_not_accepted {o : RecordOutcome} (h : o ≠ .accepted) :
    c.unit o = { outcome := o, length := c.length, posts := [] } := by
  rw [Context.unit, if_neg h]

theorem faultRecord_of_resync {o : RecordOutcome} (resync : o.stateAfter = .resync) (entry : FifoEntry) :
    faultRecord env c o entry = c.faulted env o entry := by
  have notAccepted : o ≠ .accepted := by
    rintro rfl
    cases resync
  have further := processEntry_of_resync (env := env) (c := { c with state := .resync, posts := [] }) rfl entry
  rw [Context.faulted, further]
  simp only [faultRecord, Context.finish, Context.leave, resync, Context.unit_of_not_accepted notAccepted]
  rfl

theorem faultRecord_short (entry : FifoEntry) : faultRecord env c .short entry =
    ({ c with state := .await, posts := [] }, [{ outcome := .short, length := c.length, posts := [] }]) := rfl

/-! ### Entries in a record (R62 to R64) -/

theorem processEntry_of_inRecord (h : c.state = .inRecord) (entry : FifoEntry) :
    processEntry env c entry = inRecord env c entry := by
  simp only [processEntry, h]

/-- The context with one more byte counted (R63). -/
def Context.counted (c : Context) : Context := { c with length := c.length + 1 }

section Byte

variable {value : Byte} (record : c.state = .inRecord) (room : c.length + 1 ≤ env.limit)
include record room

theorem processEntry_counted (lineError : Bool) : processEntry env c (.byte value lineError false) =
    if lineError then faultRecord env c.counted .byteFault (.byte value lineError false)
    else byClass env c.counted (env.look value) (.byte value lineError false) := by
  rw [processEntry_of_inRecord record, inRecord, countByte, if_neg (by omega)]
  rfl

/-- A byte without a line error goes by its class (R64). -/
theorem processEntry_byClass : processEntry env c (.byte value false false) =
    byClass env c.counted (env.look value) (.byte value false false) := by
  rw [processEntry_counted record room, if_neg Bool.false_ne_true]

end Byte

section ByClass

variable {e : TableEntry} {entry : FifoEntry}

theorem byClass_fault (h : e.cls = .fault) : byClass env c e entry = c.faulted env .byteFault entry := by
  rw [byClass, h]
  exact faultRecord_of_resync rfl entry

theorem byClass_skip (h : e.cls = .skip) : byClass env c e entry = (c, []) := by
  rw [byClass, h]

theorem byClass_data (h : e.cls = .data) : byClass env c e entry =
    if 32 ≤ c.field.length then c.faulted env .overlong entry
    else ({ c with field := c.field ++ [e.translation] }, []) := by
  rw [byClass, h, ← faultRecord_of_resync rfl entry]

/-- A START byte in a record breaks it, itself not counted, and begins the next (R64, R75). -/
theorem byClass_start (h : e.cls = .start) : byClass env c.counted e entry =
    ((beginRecord env e).1, { outcome := .broken, length := c.length, posts := [] } :: (beginRecord env e).2) := by
  rw [byClass, h]
  rfl

/-- A field ended by SEP or END can end the record (R66). -/
theorem byClass_fieldEnds {o : RecordOutcome} (h : e.cls = .sep ∨ e.cls = .fin) (ended : (c.endField env).2 = some o) :
    byClass env c e entry = faultRecord env (c.endField env).1 o entry := by
  have by_ : endFieldBy env c entry = ((c.endField env).1, some (faultRecord env (c.endField env).1 o entry)) := by
    rw [endFieldBy, show c.endField env = ((c.endField env).1, some o) from Prod.ext rfl ended]
  obtain sep | fin := h
  · simp only [byClass, sep, by_]
  · simp only [byClass, fin, by_]

theorem endFieldBy_of_none (goesOn : (c.endField env).2 = none) : endFieldBy env c entry = ((c.endField env).1, none) := by
  rw [endFieldBy, show c.endField env = ((c.endField env).1, none) from Prod.ext rfl goesOn]

theorem byClass_sep (h : e.cls = .sep) (goesOn : (c.endField env).2 = none) :
    byClass env c e entry = ((c.endField env).1, []) := by
  simp only [byClass, h, endFieldBy_of_none goesOn]

theorem byClass_fin (h : e.cls = .fin) (goesOn : (c.endField env).2 = none) :
    byClass env c e entry = endAtEnd env (c.endField env).1 := by
  simp only [byClass, h, endFieldBy_of_none goesOn]

end ByClass

/-- Settles O38: the checks before the byte is counted, then the line error, then the class. -/
theorem entriesInsideARecord : Obligations.EntriesInsideARecord := by
  unfold Obligations.EntriesInsideARecord
  intro env c value lineError record faulted counted look byte
  have inside := processEntry_of_inRecord (env := env) record
  refine ⟨?_, ?_, ?_, fun passes => ?_, fun room => ?_⟩
  · rw [inside]
    exact faultRecord_of_resync (o := .gap) rfl _
  · rw [inside]
    exact faultRecord_of_resync (o := .gap) rfl _
  · rw [inside]
    rfl
  · rw [inside, inRecord, countByte, if_pos passes]
    exact faultRecord_of_resync rfl _
  · have goesByClass := processEntry_byClass (value := value) record room
    refine ⟨?_, fun fault => ?_, fun skip => ?_, fun data short => ?_, fun data long => ?_, fun start => ?_,
      fun ends o ended => ?_, fun sep goesOn => ?_⟩
    · rw [processEntry_counted record room, if_pos rfl]
      exact faultRecord_of_resync rfl _
    · exact goesByClass.trans (byClass_fault fault)
    · exact goesByClass.trans (byClass_skip skip)
    · exact goesByClass.trans ((byClass_data data).trans (if_neg (Nat.not_le_of_lt short)))
    · exact goesByClass.trans ((byClass_data data).trans (if_pos long))
    · exact goesByClass.trans (byClass_start start)
    · have faults := goesByClass.trans (byClass_fieldEnds ends ended)
      by_cases short : o = .short
      · subst short
        exact .inl ⟨rfl, faults.trans (faultRecord_short byte)⟩
      · have resync := (Context.endField_outcome ended).resolve_left short
        exact .inr ⟨short, faults.trans (faultRecord_of_resync resync byte)⟩
    · exact goesByClass.trans (byClass_sep sep goesOn)

/-- How a record ends at END (R71). -/
theorem endAtEnd_spec (env : ScanEnv) (c : Context) : ∃ c' : Context, c'.state = .await ∧ c'.posts = [] ∧
    endAtEnd env c = (c', [if c.complete = true ∨ c.boundary = true then
      { outcome := .accepted, length := c.length, posts := c.posts }
      else { outcome := .short, length := c.length, posts := [] }]) := by
  unfold endAtEnd
  split
  · next complete =>
    rw [if_pos (.inl complete)]
    exact ⟨_, rfl, rfl, rfl⟩
  split
  · next boundary =>
    rw [if_pos (.inr boundary)]
    split <;> exact ⟨_, rfl, rfl, rfl⟩
  · next incomplete inside =>
    rw [if_neg (not_or.mpr ⟨incomplete, inside⟩)]
    exact ⟨_, rfl, rfl, rfl⟩

/-- Settles O39. -/
theorem recordEndsAtEnd : Obligations.RecordEndsAtEnd := by
  unfold Obligations.RecordEndsAtEnd
  intro env c value record room fin ended goesOn
  have goesByClass := (processEntry_byClass (value := value) record room).trans (byClass_fin fin goesOn)
  obtain ⟨c', await, empty, ends⟩ := endAtEnd_spec env ended
  exact ⟨c', await, empty, goesByClass.trans ends⟩

/-! ### The run of the cursor (R67 to R70) -/

section Cursor

variable {fuel : Nat}

theorem runCursor_field {step : PlanStep} (at_ : env.plan.steps[c.cursor]? = some step) (field : step.isField = true) :
    runCursor env (fuel + 1) c = (c, none) := by
  rw [runCursor, at_]
  cases step <;> first | rfl | cases field

section Post

variable {slot : Fin 4} {offset : Fin 8} {addIndex reject : Bool}
  (at_ : env.plan.steps[c.cursor]? = some (.post slot offset addIndex reject))
include at_

theorem runCursor_post_error {o : RecordOutcome} (ended : c.post env slot offset addIndex reject = .error o) :
    runCursor env (fuel + 1) c = (c, some o) := by
  simp only [runCursor, at_, ended]

/-- A POST with an entry to pend: the list is full, or the entry joins it and the cursor moves on (R70). -/
theorem runCursor_post_pend {p : Pending} (pends : c.post env slot offset addIndex reject = c.pend p) :
    runCursor env (fuel + 1) c = if 16 ≤ c.posts.length then (c, some .postLimit)
      else runCursor env fuel { c with posts := c.posts ++ [p], cursor := c.cursor + 1 } := by
  by_cases full : 16 ≤ c.posts.length
  · rw [if_pos full]
    exact runCursor_post_error at_ (pends.trans (if_pos full))
  · have joined : c.post env slot offset addIndex reject = .ok { c with posts := c.posts ++ [p] } :=
      pends.trans (if_neg full)
    rw [if_neg full]
    simp only [runCursor, at_, joined]

end Post

/-- The movements of AGAIN inside a group (R68). -/
theorem Context.again_cons {e : RepEntry} {outer : List RepEntry} (stack : c.stack = e :: outer) : c.again =
    if e.remaining = 0 then
      { c with cursor := e.first, boundary := true
               stack := { e with completed := if 255 ≤ e.completed then e.completed else e.completed + 1 } :: outer }
    else if e.remaining = 1 then { c with cursor := c.cursor + 1, stack := outer }
    else { c with cursor := e.first
                  stack := { first := e.first, remaining := e.remaining - 1
                             completed := if 255 ≤ e.completed then e.completed else e.completed + 1 } :: outer } := by
  rw [Context.again, stack]

/-- The group a POST hits (R69, points 2 and 3). -/
theorem postGroup_eq_some {windows : Vector (Option Window) 128} {key : Key} {added offset g : Nat}
    (inRange : key.toNat + added ≤ 4294967295) (routed : (lookupKey windows (key.toNat + added)).1 = .routed g)
    (below : g + offset < 65488) : postGroup windows key added offset = some (BitVec.ofNat 16 (g + offset)) := by
  rw [postGroup, if_neg (by omega), routed]
  exact if_neg (by omega)

theorem postGroup_eq_none {windows : Vector (Option Window) 128} {key : Key} {added offset : Nat}
    (miss : ∀ g, ¬(key.toNat + added ≤ 4294967295 ∧ (lookupKey windows (key.toNat + added)).1 = .routed g ∧
      g + offset < 65488)) : postGroup windows key added offset = none := by
  unfold postGroup
  split
  · rfl
  next inRange =>
  split
  · rfl
  next g routed =>
  exact if_pos (Decidable.byContradiction fun below => miss g ⟨by omega, routed, by omega⟩)

/-- A POST without a key or a value ends the record as SHORT (R69, point 1). -/
theorem Context.post_short {slot : Fin 4} {offset : Fin 8} {addIndex reject : Bool}
    (lacks : c.key = none ∨ c.slots[slot] = none) : c.post env slot offset addIndex reject = .error .short := by
  unfold Context.post
  split
  · next k v key value =>
    obtain noKey | noValue := lacks
    · cases noKey.symm.trans key
    · cases noValue.symm.trans value
  · rfl

section Found

variable {slot : Fin 4} {offset : Fin 8} {addIndex reject : Bool} {k : Key} {v : Value} (key : c.key = some k)
  (value : c.slots[slot] = some v)
include key value

theorem Context.post_hit {g : Group}
    (found : postGroup env.windows k (if addIndex then c.addedIndex else 0) offset = some g) :
    c.post env slot offset addIndex reject = c.pend (.post g v) := by
  simp only [Context.post, key, value, found]

theorem Context.post_miss (missed : postGroup env.windows k (if addIndex then c.addedIndex else 0) offset = none) :
    c.post env slot offset addIndex reject = if reject then .error .unrouted else c.pend (.unrouted v) := by
  simp only [Context.post, key, value, missed]

end Found

end Cursor

/-- Settles O41: the step at the cursor decides. -/
theorem cursorRunsThroughSteps : Obligations.CursorRunsThroughSteps := by
  unfold Obligations.CursorRunsThroughSteps
  refine ⟨fun env c => by rw [Context.run, runFuel], fun env c fuel => ⟨fun step at_ field => runCursor_field at_ field,
    fun finish => ?_, fun count repeats => ?_, fun again e outer stack => ?_,
    fun slot offset addIndex reject at_ => ⟨fun lacks => ?_, fun k v key value => ?_⟩⟩⟩
  · rw [runCursor, finish]
  · rw [runCursor, repeats]
    rfl
  · rw [runCursor, again]
    dsimp only
    rw [Context.again_cons stack]
  · exact runCursor_post_error at_ (Context.post_short lacks)
  · intro effective hit goOn
    refine ⟨fun g ⟨inRange, routed, below⟩ => ?_, fun miss => ?_⟩
    · exact runCursor_post_pend at_ (Context.post_hit key value (postGroup_eq_some inRange routed below))
    · have missed := Context.post_miss (reject := reject) key value (postGroup_eq_none miss)
      cases reject
      · exact runCursor_post_pend at_ missed
      · exact runCursor_post_error at_ missed

/-! ### The records one entry ends (R72, R75) -/

/-- Only an ACCEPTED record's unit carries posts (R72). -/
def FinishedUnit.Proper (u : FinishedUnit) : Prop := u.outcome ≠ .accepted → u.posts = []

/-- At most one record ended. -/
structure EndsOne (units : List FinishedUnit) : Prop where
  count : units.length ≤ 1
  proper : ∀ u ∈ units, u.Proper

/-- At most two records ended, the second as SHORT. -/
structure EndsTwo (units : List FinishedUnit) : Prop where
  count : units.length ≤ 2
  second : ∀ u v, units = [u, v] → v.outcome = .short
  proper : ∀ u ∈ units, u.Proper

theorem Context.unit_proper (c : Context) (o : RecordOutcome) : (c.unit o).Proper := fun h => if_neg h

theorem EndsOne.nil : EndsOne [] := ⟨Nat.zero_le _, fun u hu => by cases hu⟩

theorem EndsOne.unit (c : Context) (o : RecordOutcome) : EndsOne [c.unit o] :=
  ⟨Nat.le_refl _, fun _ hu => List.mem_singleton.mp hu ▸ c.unit_proper o⟩

theorem EndsOne.toTwo {units : List FinishedUnit} (h : EndsOne units) : EndsTwo units where
  count := Nat.le_trans h.count (by decide)
  second u v two := by
    have := h.count
    rw [two] at this
    exact absurd this (by simp)
  proper := h.proper

/-- One record ended, and then at most one more, as SHORT. -/
theorem EndsOne.cons {u : FinishedUnit} {units : List FinishedUnit} (h : EndsOne units) (proper : u.Proper)
    (short : ∀ v ∈ units, v.outcome = .short) : EndsTwo (u :: units) where
  count := Nat.succ_le_succ h.count
  second x y two := by
    cases two
    exact short y List.mem_cons_self
  proper x hx := by
    obtain rfl | later := List.mem_cons.mp hx
    · exact proper
    · exact h.proper x later

theorem settleRecord_endsOne (r : Context × Option RecordOutcome) : EndsOne (settleRecord r).2 := by
  unfold settleRecord
  split
  · exact .nil
  · exact .unit _ _

theorem beginRecord_endsOne (env : ScanEnv) (e : TableEntry) : EndsOne (beginRecord env e).2 := by
  unfold beginRecord
  split
  · exact .unit _ _
  · split
    · exact .nil
    · exact settleRecord_endsOne _
    all_goals exact .nil

theorem inResync_endsOne (env : ScanEnv) (c : Context) (entry : FifoEntry) : EndsOne (inResync env c entry).2 := by
  unfold inResync
  repeat' split
  · exact .nil
  · exact .nil
  · exact .nil
  · exact beginRecord_endsOne _ _
  all_goals exact .nil

theorem inAwait_endsOne (env : ScanEnv) (c : Context) (entry : FifoEntry) : EndsOne (inAwait env c entry).2 := by
  unfold inAwait
  repeat' split
  all_goals first | exact .nil | exact beginRecord_endsOne _ _

theorem faultRecord_endsTwo (env : ScanEnv) (c : Context) (o : RecordOutcome) (entry : FifoEntry) :
    EndsTwo (faultRecord env c o entry).2 := by
  unfold faultRecord
  dsimp only
  split
  · exact (inResync_endsOne env _ entry).cons (c.unit_proper o) (inResync_units env _ entry).2
  · exact (EndsOne.unit c o).toTwo
  · exact (EndsOne.unit c o).toTwo

theorem endAtEnd_endsOne (env : ScanEnv) (c : Context) : EndsOne (endAtEnd env c).2 := by
  unfold endAtEnd
  repeat' split
  all_goals exact .unit _ _

/-- A field's end deals with the record by a fault or not at all. -/
theorem endFieldBy_some {entry : FifoEntry} {r : Context × List FinishedUnit}
    (h : (endFieldBy env c entry).2 = some r) : EndsTwo r.2 := by
  unfold endFieldBy at h
  split at h <;> cases h
  exact faultRecord_endsTwo _ _ _ _

theorem byClass_endsTwo (env : ScanEnv) (c : Context) (e : TableEntry) (entry : FifoEntry) :
    EndsTwo (byClass env c e entry).2 := by
  unfold byClass
  split
  · split
    · exact faultRecord_endsTwo _ _ _ _
    · exact EndsOne.nil.toTwo
  · exact EndsOne.nil.toTwo
  · split
    · next ended => exact endFieldBy_some (congrArg Prod.snd ended)
    · exact EndsOne.nil.toTwo
  · split
    · next ended => exact endFieldBy_some (congrArg Prod.snd ended)
    · exact (endAtEnd_endsOne _ _).toTwo
  · next start =>
    exact (beginRecord_endsOne env e).cons (Context.unit_proper _ _) ((beginRecord_units env e).2 start)
  · exact faultRecord_endsTwo _ _ _ _

theorem processEntry_endsTwo (env : ScanEnv) (c : Context) (entry : FifoEntry) :
    EndsTwo (processEntry env c entry).2 := by
  unfold processEntry
  split
  · exact (inAwait_endsOne env c entry).toTwo
  · unfold inRecord countByte
    repeat' split
    · exact faultRecord_endsTwo _ _ _ _
    · exact faultRecord_endsTwo _ _ _ _
    · exact (EndsOne.unit _ _).toTwo
    · exact faultRecord_endsTwo _ _ _ _
    · exact faultRecord_endsTwo _ _ _ _
    · exact byClass_endsTwo _ _ _ _
  · exact (inResync_endsOne env c entry).toTwo

/-- Settles O42. -/
theorem atMostTwoRecordsPerEntry : Obligations.AtMostTwoRecordsPerEntry := by
  unfold Obligations.AtMostTwoRecordsPerEntry
  intro env c entry
  obtain ⟨count, second, proper⟩ := processEntry_endsTwo env c entry
  exact ⟨count, second, proper⟩

end Sys2Proof.Machine
end

section
/-! PROOFS. LOAD-PLAN (R48 to R52), and the layouts of section 10.6 read back. -/

namespace Sys2Proof.Machine

/-! ### LOAD-PLAN -/

/-- The fault the walk names: the header's, or the first in step order (R48). -/
theorem walkPlan_eq_error {startRequired tailPolicy : Byte} {steps : List RawStep} {f : PlanFault}
    {index : Option Nat} : walkPlan startRequired tailPolicy steps = .error (f, index) ↔
      ((1 < startRequired.toNat ∨ 1 < tailPolicy.toNat) ∧ f = .badHeader ∧ index = none) ∨
      (startRequired.toNat ≤ 1 ∧ tailPolicy.toNat ≤ 1 ∧ ∃ i : Nat, index = some i ∧ planFaultAt steps i = some f ∧
        ∀ j : Nat, j < i → planFaultAt steps j = none) := by
  have faults := (walkSteps_spec steps steps 0 [] rfl (walkKnows_start steps)).1
  unfold walkPlan
  cases start : boolOfByte startRequired with
  | none =>
    have bad := boolOfByte_eq_none.mp start
    simp only [Except.error.injEq, Prod.mk.injEq]
    refine ⟨fun ⟨rfl, rfl⟩ => .inl ⟨.inl bad, rfl, rfl⟩, fun h => ?_⟩
    obtain ⟨-, rfl, rfl⟩ | ⟨good, -⟩ := h
    · exact ⟨rfl, rfl⟩
    · omega
  | some sr =>
    have startGood : ¬1 < startRequired.toNat := mt boolOfByte_eq_none.mpr (by simp [start])
    cases tail : TailPolicy.ofByte tailPolicy with
    | none =>
      have bad := TailPolicy.ofByte_eq_none.mp tail
      simp only [Except.error.injEq, Prod.mk.injEq]
      refine ⟨fun ⟨rfl, rfl⟩ => .inl ⟨.inr bad, rfl, rfl⟩, fun h => ?_⟩
      obtain ⟨-, rfl, rfl⟩ | ⟨-, good, -⟩ := h
      · exact ⟨rfl, rfl⟩
      · omega
    | some tp =>
      have tailGood : ¬1 < tailPolicy.toNat := mt TailPolicy.ofByte_eq_none.mpr (by simp [tail])
      cases walked : walkSteps 0 [] steps with
      | error e =>
        obtain ⟨g, i⟩ := e
        simp only [Except.error.injEq, Prod.mk.injEq]
        obtain ⟨-, fault, first⟩ := (faults g i).mp walked
        constructor
        · rintro ⟨rfl, rfl⟩
          exact .inr ⟨by omega, by omega, i, rfl, fault, fun j hj => first j (Nat.zero_le _) hj⟩
        · rintro (⟨bad, -⟩ | ⟨-, -, k, rfl, fault', first'⟩)
          · omega
          · have again := (faults f k).mpr ⟨Nat.zero_le _, fault', fun j _ hj => first' j hj⟩
            cases walked.symm.trans again
            exact ⟨rfl, rfl⟩
      | ok xs =>
        simp only [reduceCtorEq, false_iff]
        rintro (⟨bad, -⟩ | ⟨-, -, k, rfl, fault, first⟩)
        · omega
        · have failed := (faults f k).mpr ⟨Nat.zero_le _, fault, fun j _ hj => first j hj⟩
          cases walked.symm.trans failed

theorem Lane.namesPlan_iff {k : Fin 8} {l : Lane} : Lane.namesPlan k l = true ↔ l.settings.plan = k := decide_eq_true_iff

/-- Settles O28. -/
theorem loadPlanStoresOrRefuses : Obligations.LoadPlanStoresOrRefuses := by
  unfold Obligations.LoadPlanStoresOrRefuses
  refine ⟨fun _ _ _ _ _ => walkPlan_eq_error, by decide, fun s tag plan startRequired tailPolicy steps held => ?_⟩
  rw [show exec (.loadPlan tag plan startRequired tailPolicy steps) s = _ from requestStep_held _ _ held, ownLoadPlan_eq]
  refine ⟨fun outside => ?_, fun k number => ?_⟩
  · rw [finOfByte_eq_none.mpr (by omega)]
  rw [finOfByte_eq_some.mpr number]
  refine ⟨fun f i failed => ?_, fun p passed => ?_⟩
  · rw [failed]
    rfl
  · intro inUse
    rw [passed]
    dsimp only
    have barred : s.barredByUse (Lane.namesPlan k) = true ↔ inUse := by
      rw [State.barredByUse_iff]
      simp only [Lane.namesPlan_iff]
      rfl
    refine ⟨fun used => by rw [if_pos (barred.mpr used)], fun free => ?_⟩
    rw [if_neg (mt barred.mp free), State.planLoaded, State.discardContexts_eq]
    refine ⟨_, _, rfl, (laneSetByte_spec _).1, fun n => ⟨?_, State.lane_discardContexts_reported _ _ n⟩⟩
    simp only [State.getLsbD_discardedBy, Lane.namesPlan_iff]

/-! ### Layouts read back (section 10.6) -/

theorem Settings.ofRaw_of_bytes {x : Settings} {r : RawSettings} (h : r.bytes = x.bytes) : Settings.ofRaw r = some x := by
  simp only [RawSettings.bytes, Settings.bytes, bytes16, List.cons_append, List.nil_append, List.cons.injEq, and_true] at h
  obtain ⟨enabled, source, rate, parity, table, plan, idle, high, low, notices⟩ := h
  have limit : r.limit = x.limit := bytes16_inj.mp (by rw [bytes16, bytes16, high, low])
  exact Settings.ofRaw_of_codes enabled source rate parity ((natByte_fin x.table (by decide)).mp table)
    ((natByte_fin x.plan (by decide)).mp plan) idle limit notices

theorem TableEntry.ofRaw_of_bytes {x : TableEntry} {r : RawTableEntry} (h : r.bytes = x.bytes) :
    TableEntry.ofRaw r = some x := by
  simp only [RawTableEntry.bytes, TableEntry.bytes, List.cons.injEq, and_true] at h
  obtain ⟨translation, cls⟩ := h
  rw [TableEntry.ofRaw, ByteClass.ofByte_eq_some.mpr cls, translation]
  rfl

/-- Bytes that spell a sound window are read as that window (R85). -/
theorem Window.ofRaw_of_spells {w : Window} {r : RawWindow} (sound : w.Sound) (spells : w.Spells r) :
    Window.ofRaw r = some w := by
  obtain ⟨level, base, limit, kind⟩ := w
  obtain ⟨levelByte, rfl, rfl, kindBytes⟩ := spells
  have hlevel : finOfByte 4 r.level = some level := finOfByte_eq_some.mpr levelByte
  cases kind with
  | single g =>
    obtain ⟨code, group⟩ := Prod.mk.inj kindBytes
    obtain rfl : g = r.group := bytes16_inj.mp (group.trans (RawWindow.bytes16_group r).symm)
    rw [Window.ofRaw_single hlevel code.symm]
    exact if_pos sound
  | spread g =>
    obtain ⟨code, group⟩ := Prod.mk.inj kindBytes
    obtain rfl : g = r.group := bytes16_inj.mp (group.trans (RawWindow.bytes16_group r).symm)
    rw [Window.ofRaw_spread hlevel code.symm]
    exact if_pos sound
  | descend target rebase =>
    obtain ⟨code, parameters⟩ := Prod.mk.inj kindBytes
    simp only [List.cons.injEq, and_true] at parameters
    obtain ⟨targetByte, rebaseByte⟩ := parameters
    rw [Window.ofRaw_descend hlevel code.symm, boolOfByte_eq_some.mpr rebaseByte.symm,
      finOfByte_eq_some.mpr ((natByte_fin target (by decide)).mp targetByte.symm)]
    exact if_pos sound

theorem Window.spells_of_bytes {w : Window} {r : RawWindow} {index : Byte} (h : r.bytes = windowBytes index (some w)) :
    w.Spells r := by
  obtain ⟨p, q, parameters⟩ : ∃ p q, w.kind.bytes.2 = [p, q] := by
    cases w.kind <;> exact ⟨_, _, rfl⟩
  simp only [RawWindow.bytes, windowBytes, parameters, bytes32, List.cons_append, List.nil_append, List.cons.injEq,
    and_true] at h
  obtain ⟨-, -, level, code, b₀, b₁, b₂, b₃, l₀, l₁, l₂, l₃, rfl, rfl⟩ := h
  refine ⟨(natByte_fin w.level (by decide)).mp level, ?_, ?_, Prod.ext code.symm parameters⟩
  · exact (bytes32_inj.mp (by rw [bytes32, bytes32, b₀, b₁, b₂, b₃])).symm
  · exact (bytes32_inj.mp (by rw [bytes32, bytes32, l₀, l₁, l₂, l₃])).symm

/-! ### Steps -/

section Steps

variable {r : RawStep}

theorem Conversion.ofByte_byte (c : Conversion) : Conversion.ofByte c.byte = some c := by
  cases c <;> decide

theorem OnMiss.ofByte_byte (m : OnMiss) : OnMiss.ofByte m.byte = some m := by
  cases m <;> rfl

/-- The bytes of a literal, read back by its length (R36). -/
theorem matchLiteral_ofRaw {literal : List Byte} {onMiss : OnMiss}
    (size : 1 ≤ literal.length ∧ literal.length ≤ 8) (h : r.bytes = (PlanStep.matchLiteral literal onMiss).bytes) :
    PlanStep.ofRaw r = some (.matchLiteral literal onMiss) := by
  simp only [RawStep.bytes, PlanStep.bytes, padTo, List.cons_append, List.nil_append, List.cons.injEq] at h
  obtain ⟨kind, miss, count, carried⟩ := h
  have length : r.b2.toNat = literal.length := by
    rw [count, natByte, BitVec.toNat_ofNat]
    omega
  have read : [r.b3, r.b4, r.b5, r.b6, r.b7, r.b8, r.b9, r.b10].take literal.length = literal := by
    have whole := congrArg (List.take literal.length) carried
    rw [List.take_left' rfl] at whole
    have few : literal.length ≤ [r.b3, r.b4, r.b5, r.b6, r.b7, r.b8, r.b9, r.b10].length := size.2
    rw [← List.take_append_of_le_length (l₂ := [r.b11]) few]
    exact whole
  simp only [PlanStep.ofRaw, kind, miss, length, OnMiss.ofByte_byte, read, size]
  simp

/-- A step in range is read back from its bytes (R36, R53). -/
theorem PlanStep.ofRaw_of_bytes {x : PlanStep} (inRange : x.InRange) (h : r.bytes = x.bytes) :
    PlanStep.ofRaw r = some x := by
  cases x with
  | matchLiteral literal onMiss => exact matchLiteral_ofRaw inRange h
  | key c =>
    simp only [RawStep.bytes, PlanStep.bytes, padTo, List.cons_append, List.nil_append, List.cons.injEq] at h
    obtain ⟨kind, conversion, -⟩ := h
    simp [PlanStep.ofRaw, kind, conversion, Conversion.ofByte_byte]
  | value c slot f =>
    simp only [RawStep.bytes, PlanStep.bytes, padTo, List.cons_append, List.nil_append, List.cons.injEq] at h
    obtain ⟨kind, conversion, slotByte, fraction, -⟩ := h
    obtain ⟨small, onlyDecimal⟩ : f ≤ 6 ∧ (c ≠ .decimal → f = 0) := inRange
    have places : r.b3.toNat = f := by
      rw [fraction, natByte, BitVec.toNat_ofNat]
      omega
    have allowed : (c = .decimal ∧ r.b3.toNat ≤ 6) ∨ r.b3 = 0 := by
      by_cases decimal : c = .decimal
      · exact .inl ⟨decimal, by omega⟩
      · exact .inr (by rw [fraction, onlyDecimal decimal]; rfl)
    have slotRead := finOfByte_eq_some.mpr ((natByte_fin slot (by decide)).mp slotByte)
    have read : PlanStep.ofRaw r = if (c = .decimal ∧ r.b3.toNat ≤ 6) ∨ r.b3 = 0 then
        some (.value c slot r.b3.toNat) else none := by
      simp [PlanStep.ofRaw, kind, conversion, Conversion.ofByte_byte, slotRead]
    rw [read, if_pos allowed, places]
  | skipField =>
    simp only [RawStep.bytes, PlanStep.bytes, padTo, List.cons_append, List.nil_append, List.cons.injEq] at h
    simp [PlanStep.ofRaw, h.1]
  | repeatGroup n =>
    simp only [RawStep.bytes, PlanStep.bytes, padTo, List.cons_append, List.nil_append, List.cons.injEq] at h
    obtain ⟨kind, count, -⟩ := h
    simp [PlanStep.ofRaw, kind, count]
  | again =>
    simp only [RawStep.bytes, PlanStep.bytes, padTo, List.cons_append, List.nil_append, List.cons.injEq] at h
    simp [PlanStep.ofRaw, h.1]
  | post slot offset addIndex reject =>
    simp only [RawStep.bytes, PlanStep.bytes, padTo, List.cons_append, List.nil_append, List.cons.injEq] at h
    obtain ⟨kind, slotByte, offsetByte, add, rejects, -⟩ := h
    have slotRead := finOfByte_eq_some.mpr ((natByte_fin slot (by decide)).mp slotByte)
    have offsetRead := finOfByte_eq_some.mpr ((natByte_fin offset (by decide)).mp offsetByte)
    simp [PlanStep.ofRaw, kind, slotRead, offsetRead, boolOfByte_eq_some.mpr add, boolOfByte_eq_some.mpr rejects]
  | finish =>
    simp only [RawStep.bytes, PlanStep.bytes, padTo, List.cons_append, List.nil_append, List.cons.injEq] at h
    simp [PlanStep.ofRaw, h.1]

end Steps

/-- Settles O30. -/
theorem layoutsReadBack : Obligations.LayoutsReadBack := by
  unfold Obligations.LayoutsReadBack
  exact ⟨fun _ _ => Settings.ofRaw_of_bytes, fun _ _ => TableEntry.ofRaw_of_bytes,
    fun _ _ inRange => PlanStep.ofRaw_of_bytes inRange,
    fun _ _ _ sound bytes => Window.ofRaw_of_spells sound (Window.spells_of_bytes bytes)⟩

end Sys2Proof.Machine
end
